-- ==== Sys2Proof/Word.lean ====
section
/-! DEFINITION. The words of the part: wire bytes, stamps, chords, slot and segment numbers, ports and tiers. -/

namespace Sys2Proof

/-- One byte on a port, and one character of text (00, conventions). -/
abbrev Byte := BitVec 8

/-- A 32-bit value: stamps, offsets, unit numbers, hashes. -/
abbrev Word32 := BitVec 32

/-- A stamp or clock value in milliseconds; its arithmetic is modulo 2^32 (R52, R154). -/
abbrev Stamp := BitVec 32

/-- A chord value: bit i is the key of index i (R1). -/
abbrev Chord := BitVec 23

/-- A slot number, 0 to 262,143; its arithmetic is modulo 262,144 (R22, R27). -/
abbrev SlotNo := BitVec 18

/-- A segment number; its arithmetic is modulo 2^32 (R82). -/
abbrev SegNo := BitVec 32

/-- The ports P0 to P3 (R158). -/
abbrev PortId := Fin 4

/-- The tiers 0 to 3, tier 0 of the highest priority (R20). -/
abbrev TierId := Fin 4

end Sys2Proof
end

