-- ==== Sys2Proof/Config.lean ====
section
/-! DEFINITION. The constants the spec fixes. The spec leaves no result undefined, so there is no free value here. -/

namespace Sys2Proof.Config

/-- The chord mask: bits 0 to 22 of the three bytes, bit 23 cleared (R1). -/
abbrev chordMask : Nat := 0x7FFFFF

/-- The asterisk alone, the strike (R2). -/
abbrev strikeChord : Chord := 1024#23

/-- Records of the journal ring (R9). -/
abbrev journalRing : Nat := 65536

/-- The last sequence number (R12). -/
abbrev lastSequence : Nat := 4294967294

/-- The value at which a gap count holds (R15). -/
abbrev gapLimit : Nat := 4294967295

/-- Slots of the dictionary table (R22). -/
abbrev tableSlots : Nat := 262144

/-- The probe limit of a walk (R27). -/
abbrev probeLimit : Nat := 32

/-- Strokes of the longest record and of a full run (R23, R42). -/
abbrev longestKey : Nat := 6

/-- Units of the unit list (R57). -/
abbrev unitListLimit : Nat := 64

/-- Segments of the caption log ring (R81). -/
abbrev logRing : Nat := 4096

/-- The headroom bound of a take or a re-resolution (R60). -/
abbrev takeHeadroom : Nat := 4089

/-- The headroom bound of a retranslation (R113). -/
abbrev replayHeadroom : Nat := 3711

/-- The most items or records one PULL or FETCH delivers (R16, R92). -/
abbrev itemLimit : Nat := 16

/-- The bytes of the longest request body (R159). -/
abbrev bodyLimit : Nat := 256

/-- Characters a roster name holds (R73). -/
abbrev nameLimit : Nat := 24

/-- Characters a dictionary text holds (R23). -/
abbrev textLimit : Nat := 40

/-- Hold time bounds and reset value in ms (R146, R155). -/
abbrev holdLow : Nat := 200
abbrev holdHigh : Nat := 4000
abbrev holdReset : Nat := 1000

/-- The pass-over count at which a requester is granted ahead of the order (R184). -/
abbrev passLimit : Nat := 8

/-- CLKIN periods of one millisecond (R192). -/
abbrev clkinPerMs : Nat := 50000

/-- The shortest RESET line assertion taken as a reset, in ns (R189). -/
abbrev resetLineNs : Nat := 1000

/-- The first detail of a frame refusal (R161). -/
abbrev frameFault : Nat := 65280

end Sys2Proof.Config
end

