-- ==== Sys2Proof/Syntax.lean ====
section
/-! DEFINITION. The commands: one constructor per row of spec/opcode_table.json, with its operands. -/

namespace Sys2Proof

/-- One block of entry memory (R182): the header, a slot, a journal record by ring position, a segment by ring position. -/
inductive Block where
  | header
  | slot (n : SlotNo)
  | record (position : BitVec 16)
  | segment (position : BitVec 12)
deriving DecidableEq, Repr

/-- Which of the two blocks that have work ready and none begun begin it, and ask for entry memory, by the next grant
(R183; DESIGN CHOICE, log entry 10); and whether the engine, with an expiry by clock and the settle of a CLOSE both ready, begins
the expiry (R62, R152; DESIGN CHOICE, log entry 41). -/
structure Asks where
  engine      : Bool
  maint       : Bool
  expiryFirst : Bool
deriving DecidableEq, Repr

/-- The commands of the part. A request carries its port, its tag and its body bytes; its kind is its constructor. -/
inductive Instr where
  /-- STROKE (R3). -/
  | stroke (p : PortId) (tag : Byte) (body : List Byte)
  /-- JOURNAL_APPEND (R5). -/
  | journalAppend
  /-- PULL (R16). -/
  | pull (p : PortId) (tag : Byte) (body : List Byte)
  /-- SUBSCRIBE (R89). -/
  | subscribe (p : PortId) (tag : Byte) (body : List Byte)
  /-- UNSUBSCRIBE (R90). -/
  | unsubscribe (p : PortId) (tag : Byte) (body : List Byte)
  /-- FETCH (R92). -/
  | fetch (p : PortId) (tag : Byte) (body : List Byte)
  /-- COLLECT (R169). -/
  | collect (p : PortId) (tag : Byte) (body : List Byte)
  /-- STATUS (R178, R179); `reads` says how many blocks are read at once, then at each later select period of the port, and
when it ends all that are left, which without a list is all at once (DESIGN CHOICE, log entry 32). -/
  | status (p : PortId) (tag : Byte) (body : List Byte) (reads : List Nat := [])
  /-- SPEAKER (R74). -/
  | speaker (p : PortId) (tag : Byte) (body : List Byte)
  /-- SET_TIERS (R35). -/
  | setTiers (p : PortId) (tag : Byte) (body : List Byte)
  /-- SET_HOLD (R155). -/
  | setHold (p : PortId) (tag : Byte) (body : List Byte)
  /-- SET_OFFSET (R156). -/
  | setOffset (p : PortId) (tag : Byte) (body : List Byte)
  /-- SET_ARBITER (R186). -/
  | setArbiter (p : PortId) (tag : Byte) (body : List Byte)
  /-- SET_ACCESS (R173). -/
  | setAccess (p : PortId) (tag : Byte) (body : List Byte)
  /-- TRUST (R174). -/
  | trust (p : PortId) (tag : Byte) (body : List Byte)
  /-- LOCK_PORT (R175). -/
  | lockPort (p : PortId) (tag : Byte) (body : List Byte)
  /-- LOCK_TIER (R142). -/
  | lockTier (p : PortId) (tag : Byte) (body : List Byte)
  /-- RESTART (R180); `together` says that its frame arrived together with that of the RESTART taken right before it
(DESIGN CHOICE, log entry 19). -/
  | restart (p : PortId) (tag : Byte) (body : List Byte) (together : Bool)
  /-- PUT (R126, R131). -/
  | put (p : PortId) (tag : Byte) (body : List Byte)
  /-- DROP (R126, R135). -/
  | drop (p : PortId) (tag : Byte) (body : List Byte)
  /-- CLEAR_TIER (R126, R139). -/
  | clearTier (p : PortId) (tag : Byte) (body : List Byte)
  /-- GET (R126, R143). -/
  | get (p : PortId) (tag : Byte) (body : List Byte)
  /-- RETRANSLATE (R110). -/
  | retranslate (p : PortId) (tag : Byte) (body : List Byte)
  /-- OPEN (R147). -/
  | openSession (p : PortId) (tag : Byte) (body : List Byte)
  /-- CLOSE (R151). -/
  | closeSession (p : PortId) (tag : Byte) (body : List Byte)
  /-- FRAME_REFUSED (R161): a select period whose whole bytes are given, as shifted in. -/
  | frameRefused (p : PortId) (bytes : List Byte)
  /-- RESPONSE_PHASE (R160): a select period whose whole bytes are given, as shifted in. -/
  | responsePhase (p : PortId) (bytes : List Byte)
  /-- MAINT_HEAD_CHECK (R128). -/
  | maintHeadCheck
  /-- TABLE_LOCK_TAKE (R129). -/
  | tableLockTake
  /-- PUT_WRITE_END (R134). -/
  | putWriteEnd
  /-- DROP_WRITE_END (R138). -/
  | dropWriteEnd
  /-- CLEAR_TIER_START (R139). -/
  | clearTierStart
  /-- CLEAR_TIER_SWEEP_END (R141). -/
  | clearTierSweepEnd
  /-- GET_ANSWER (R144). -/
  | getAnswer
  /-- RE_RESOLUTION (R61). -/
  | reResolution
  /-- TAKE_STROKE (R53). -/
  | takeStroke
  /-- TAKE_STRIKE (R104). -/
  | takeStrike
  /-- EXPIRY (R55); `first` says that it is taken ahead of the settle that a CLOSE demands, where both are ready (R62, R152;
DESIGN CHOICE, log entry 41). -/
  | expiry (first : Bool := false)
  /-- CLOSE_SETTLE (R62). -/
  | closeSettle
  /-- CLOSE_END_APPENDED (R153). -/
  | closeEndAppended
  /-- OPEN_START_APPENDED (R150). -/
  | openStartAppended
  /-- RETRANSLATION_START (R113). -/
  | retranslationStart
  /-- RETRANSLATION_REBUILD (R119). -/
  | retranslationRebuild
  /-- SESSION_CLOCK_TICK (R192): `periods` periods of CLKIN have passed. -/
  | sessionClockTick (periods : Nat)
  /-- MEMORY_GRANT (R184), with the blocks that ask by then. -/
  | memoryGrant (asks : Asks)
  /-- SDRAM_REFRESH (R182). -/
  | sdramRefresh
  /-- POWER_ON (R188). -/
  | powerOn
  /-- RESET_LINE (R189): an assertion of `ns` nanoseconds; `sets` says whether a start-up header read that it meets, and that is
completed (R187), still sets the table outcome (DESIGN CHOICE, log entry 34). -/
  | resetLine (ns : Nat) (sets : Bool)
  /-- RESET_RELEASE (R189). -/
  | resetRelease
  /-- STARTUP_HEADER_READ (R190). -/
  | startupHeaderRead
  /-- STARTUP_COMPLETE (R191). -/
  | startupComplete
  /-- MEMORY_TRANSACTION_COMPLETE (R182). -/
  | memoryTransactionComplete
deriving DecidableEq, Repr

end Sys2Proof
end

