-- ==== Sys2Proof/Decode.lean ====
section
/-! DEFINITION. The words of commands: the table gives no row any bits, so no word spells a command. -/

namespace Sys2Proof

/-- The command a word spells by the table's bits: no row of spec/opcode_table.json has any. -/
def decodeTableWord (nbits w : Nat) : Option Instr :=
  match nbits, w with
  | _, _ => none

end Sys2Proof
end

