-- ==== Sys2Proof/Machine/State.lean ====
section
/-! DEFINITION. The state of the part as plain data, and the part right after power-on. -/

namespace Sys2Proof.Machine

/-- One value for each of four ports or four tiers. -/
structure Quad (α : Type) where
  q0 : α
  q1 : α
  q2 : α
  q3 : α
deriving DecidableEq, Repr

/-! ### Ports (R158 to R181) -/

/-- The request kinds of the table at the end of chapter 09. -/
inductive Kind where
  | stroke | pull | subscribe | unsubscribe | fetch | collect | status | speaker | setTiers | setHold | setOffset
  | setArbiter | setAccess | trust | lockPort | lockTier | restart | put | drop | clearTier | get | retranslate
  | openSession | closeSession
deriving DecidableEq, Repr

/-- The four outcomes of R163. -/
inductive ReplyOutcome where
  | done | accepted | refused | none
deriving DecidableEq, Repr

/-- The refusal causes of R164. -/
inductive Cause where
  | malformed | denied | starting | emptyChord | busy | wrongState | noSession | notSubscribed | locked | notFound
  | crowded | unpulled | journalFull
deriving DecidableEq, Repr

/-- What a response or a completion says (R163, R168): outcome, cause, detail and body. -/
structure Reply where
  outcome : ReplyOutcome
  cause   : Option Cause
  detail  : BitVec 16
  body    : List Byte
deriving DecidableEq, Repr

/-- The exchange state of a port (R158). -/
inductive Exchange where
  | idle
  | receiving (bytes : List Byte)
  | working
  | answering (frame : List Byte)
deriving DecidableEq, Repr

/-- The timed slot of a port (R167, R168). -/
inductive TimedSlot where
  | clear
  | inProgress (kind : Kind) (tag : Byte)
  | held (kind : Kind) (tag : Byte) (completion : Reply)
deriving DecidableEq, Repr

/-- One port. `dataOut` is the model's own: the bytes driven on data-out in the latest select period (DESIGN CHOICE, log
entry 13). -/
structure Port where
  exchange : Exchange
  slot     : TimedSlot
  dataOut  : List Byte
deriving DecidableEq, Repr

/-- The access classes in the order of their codes 1 to 7 (R162). -/
inductive Class where
  | intake | session | dictWrite | dictRead | pull | caption | settings
deriving DecidableEq, Repr

/-- A row of the access table (R171). Class n of the class set is bit n − 1 (R162). -/
structure AccessRow where
  classes : BitVec 7
  trusted : Bool
  locked  : Bool
deriving DecidableEq, Repr

/-! ### Device and start-up (R177, R188 to R191) -/

/-- The device state of R178, and `held` while the RESET line holds every block in its reset values (R189; DEDUCED,
log entry 6). -/
inductive DeviceState where
  | held | starting | ready
deriving DecidableEq, Repr

inductive ResetCause where
  | powerOn | resetLine | restart
deriving DecidableEq, Repr

inductive TableOutcome where
  | kept | emptied
deriving DecidableEq, Repr

/-- The start-up work still to do: read the header (R190), sweep every slot (R188, R190), or nothing. -/
inductive Startup where
  | readHeader | sweep | done
deriving DecidableEq, Repr

structure Device where
  state   : DeviceState
  startup : Startup
  cause   : ResetCause
  outcome : TableOutcome
deriving DecidableEq, Repr

/-! ### Journal (R6, R9 to R12) -/

/-- The kind of a record with the field that kind alone has: the state of a STROKE, the target of a STRIKE (R6). -/
inductive RecordKind where
  | stroke (struck : Bool)
  | strike (target : Option (List Nat))
deriving DecidableEq, Repr

structure JournalRecord where
  seq    : Nat
  kind   : RecordKind
  chord  : Chord
  stamp  : Stamp
  source : PortId
deriving DecidableEq, Repr

structure PullCursor where
  cursor : Nat
  gap    : Nat
deriving DecidableEq, Repr

/-- The ring, oldest record first, and its pointers (R9). A port that does not hold PULL has no pull cursor (R11). -/
structure Journal where
  head    : Nat
  oldest  : Nat
  cursor  : Nat
  records : List JournalRecord
  pull    : Quad (Option PullCursor)
deriving DecidableEq, Repr

/-- One journal write of a strike's take: a STRUCK mark or the target (R108). -/
inductive JournalWrite where
  | mark (n : Nat)
  | target (n : Nat) (struck : List Nat)
deriving DecidableEq, Repr

/-! ### Dictionary (R20 to R25, R37) -/

structure TextFlags where
  attachLeft  : Bool
  attachRight : Bool
  capNext     : Bool
  lowerNext   : Bool
  glue        : Bool
  keepCase    : Bool
deriving DecidableEq, Repr

/-- The four commands; SPEAKER has its argument (R23, R24). -/
inductive Command where
  | paragraph
  | speaker (arg : Fin 16)
  | capsOn
  | capsOff
deriving DecidableEq, Repr

/-- The kind of a record with its content (R23, R24): a STEM carries nothing. -/
inductive Content where
  | text (text : List Byte) (flags : TextFlags)
  | command (c : Command)
  | stem
deriving DecidableEq, Repr

structure Record where
  tier       : TierId
  strokes    : List Chord
  content    : Content
  extensions : Nat
deriving DecidableEq, Repr

/-- The three states of a slot (R22). -/
inductive Slot where
  | empty
  | vacated
  | occupied (r : Record)
deriving DecidableEq, Repr

inductive Header where
  | consistent | writing
deriving DecidableEq, Repr

structure Tier where
  enabled  : Bool
  locked   : Bool
  clearing : Bool
deriving DecidableEq, Repr

/-- The table: header, slots by number (the canonical form of `Slots.wf`), tier items (R20, R22, R37). -/
structure Dictionary where
  header : Header
  slots  : List (Nat × Slot)
  tiers  : Quad Tier
deriving DecidableEq, Repr

/-! ### Maintenance unit (R125) -/

/-- A timed maintenance request and its fields (R131, R135, R139, R143); the tier of a GET is absent for ANY. -/
inductive MaintRequest where
  | put (tier : TierId) (retranslate : Bool) (strokes : List Chord) (content : Content)
  | drop (tier : TierId) (retranslate : Bool) (strokes : List Chord)
  | clearTier (tier : TierId)
  | get (tier : Option TierId) (strokes : List Chord)
deriving DecidableEq, Repr

inductive PutCase where
  | placed | replaced | promoted
deriving DecidableEq, Repr

/-- What a PUT worked out in CHECKING (R132, R133): its case, the slot of the key's record, the counts of its report
and its slot writes in order of length. -/
structure PutPlan where
  case   : PutCase
  slot   : SlotNo
  placed : Nat
  raised : Nat
  writes : List (SlotNo × Record)
deriving DecidableEq, Repr

/-- What a DROP found in CHECKING (R135): the record's slot and its proper prefixes' slots, longest first. -/
structure DropPlan where
  slot    : SlotNo
  shorter : List SlotNo
deriving DecidableEq, Repr

inductive Plan where
  | put (p : PutPlan)
  | drop (p : DropPlan)
deriving DecidableEq, Repr

/-- The phases of R125. `passed` says that the checks of CHECKING have been made and passed. -/
inductive Phase where
  | queued
  | checking (passed : Bool)
  | lockWait (plan : Plan)
  | writing (plan : Plan)
  | sweeping
deriving DecidableEq, Repr

structure MaintEntry where
  port    : PortId
  request : MaintRequest
  phase   : Phase
deriving DecidableEq, Repr

/-- `lockHeld` is the table lock. `lockTurn` is the model's own: the head stood in LOCK WAIT when a resolution, a settle that
the journal guard demanded among them, or a retranslation ended, so it takes the lock before the engine's next work (R62, R129;
DESIGN CHOICE, log entry 18). -/
structure Maintenance where
  queue    : List MaintEntry
  lockHeld : Bool
  lockTurn : Bool
deriving DecidableEq, Repr

/-! ### Translation engine (R39, R57, R65, R111) -/

inductive CaseField where
  | none | nextCap | nextLower
deriving DecidableEq, Repr

structure FormatState where
  lineStart     : Bool
  attachPending : Bool
  case          : CaseField
  caps          : Bool
  glueTail      : Bool
deriving DecidableEq, Repr

/-- The session-open values of R65. -/
def FormatState.sessionOpen : FormatState :=
  { lineStart := true, attachPending := false, case := .nextCap, caps := false, glueTail := false }

structure RunEntry where
  seq   : Nat
  chord : Chord
  stamp : Stamp
deriving DecidableEq, Repr

/-- Kind, tier and slot of a unit (R57). -/
inductive Reading where
  | dictionary (tier : TierId) (slot : SlotNo)
  | untranslated
deriving DecidableEq, Repr

structure ListedUnit where
  number  : Word32
  strokes : List Nat
  reading : Reading
  before  : FormatState
  after   : FormatState
  segment : SegNo
  settled : Bool
deriving DecidableEq, Repr

/-- A port owed a completion by a retranslation, the kind of its request, and the report of a PUT or DROP (R111, R120). -/
structure Requester where
  port   : PortId
  kind   : Kind
  report : List Byte
deriving DecidableEq, Repr

/-- What the start of a retranslation fixes: the place of the start unit in the list, the start used (R114), and the
tiers its replay reads (R33). -/
structure ReplayStart where
  first     : Nat
  startUsed : Nat
  tiers     : List TierId
deriving DecidableEq, Repr

inductive RetransPhase where
  | pending
  | inProgress (r : ReplayStart)
deriving DecidableEq, Repr

structure RetransRequest where
  start      : Word32
  requesters : List Requester
  phase      : RetransPhase
deriving DecidableEq, Repr

inductive Activity where
  | idle | resolving | waiting | retranslating
deriving DecidableEq, Repr

/-- What the engine keeps. While a work is under way its run, unit list, settled format state and next unit number are those
the work has come to; what a STATUS and the journal guard read then is the work's `Shown` (R51; log entry 1). -/
structure Engine where
  run           : List RunEntry
  units         : List ListedUnit
  format        : FormatState
  lastTaken     : Option Stamp
  nextUnit      : Word32
  changePending : Bool
  request       : Option RetransRequest
  activity      : Activity
deriving DecidableEq, Repr

/-- A unit of a new sequence with its render (R46, R50). -/
structure NewUnit where
  strokes : List Nat
  reading : Reading
  command : Bool
  text    : List Byte
  before  : FormatState
  after   : FormatState
  stamp   : Stamp
  settled : Bool
deriving DecidableEq, Repr

/-- The private copy of a replay (R115): its run, its settled format state, the settled units collected, its provisional
units, and the stamp of the record fed last. -/
structure Replay where
  run         : List RunEntry
  format      : FormatState
  collected   : List NewUnit
  provisional : List NewUnit
  lastFed     : Option Stamp
deriving DecidableEq, Repr

/-! ### Caption log and feeds (R81, R83, R88) -/

inductive TextState where
  | provisional | settled | withdrawn
deriving DecidableEq, Repr

inductive SegmentBody where
  | start (job : BitVec 16) (stamp : Stamp)
  | text (unit : Word32) (text : List Byte) (untranslated : Bool) (command : Bool) (stamp : Stamp) (state : TextState)
  | withdraw (keepThrough : SegNo) (counts : Quad (BitVec 16))
  | fin (job : BitVec 16) (stamp : Stamp)
deriving DecidableEq, Repr

structure Segment where
  number : SegNo
  body   : SegmentBody
deriving DecidableEq, Repr

/-- The ring, oldest segment first, and the items of R81; held is the length of the list. -/
structure CaptionLog where
  newest   : SegNo
  oldest   : SegNo
  wrapped  : Bool
  segments : List Segment
deriving DecidableEq, Repr

inductive FeedMode where
  | live | settled
deriving DecidableEq, Repr

/-- A segment number held by a feed; `lapsed` once the ring has overwritten the segment it names (R82, R97). -/
structure SegmentRef where
  number : SegNo
  lapsed : Bool
deriving DecidableEq, Repr

structure Feed where
  mode   : FeedMode
  cursor : SegmentRef
  floor  : SegmentRef
  mark   : Option SegmentRef
deriving DecidableEq, Repr

/-! ### Session control (R146, R192) -/

/-- The session request of R146, with what its completion needs: the port, the discard count of an OPEN (R150), and
whether the settle of a CLOSE is done (R152). -/
inductive SessionRequest where
  | none
  | openInProgress (port : PortId) (discard : Nat)
  | closeInProgress (port : PortId) (settled : Bool)
deriving DecidableEq, Repr

structure Session where
  opened  : Bool
  request : SessionRequest
  job     : BitVec 16
  clock   : Stamp
  clkin   : Nat
  hold    : Nat
  offsets : Quad Word32
deriving DecidableEq, Repr

/-! ### Entry memory controller (R182 to R187) -/

/-- The five requesters of R183. -/
inductive MemRequester where
  | intake | xlate | log | maint | pull
deriving DecidableEq, Repr

inductive ArbiterMode where
  | fixed | rotating
deriving DecidableEq, Repr

/-- The pass-over counts of R184. -/
structure PassCounts where
  xlate : Nat
  log   : Nat
  maint : Nat
  pull  : Nat
deriving DecidableEq, Repr

/-- A stroke accepted by intake whose append waits for its transaction (R5). `guarded` says that its own guard had the run
settled, so that it waits for the state changes of that settle as well (R62). -/
structure IntakeWork where
  port    : PortId
  tag     : Byte
  chord   : Chord
  guarded : Bool
deriving DecidableEq, Repr

/-- A PULL whose reads are not all made: the records still to read, as they stood at the PULL, and the items of its response
so far (R16, R108, R160). -/
structure PullWork where
  port  : PortId
  tag   : Byte
  left  : List JournalRecord
  items : List Byte
deriving DecidableEq, Repr

/-- A FETCH whose reads are not all made: the blocks still to read and the body of its response (R160). -/
structure ReadWork where
  port  : PortId
  tag   : Byte
  reads : List Block
  items : List Byte
deriving DecidableEq, Repr

/-- The work the caption log has for its requester, in the order it takes it (R183): a FETCH's reads, the appends of START
and END, and the change of one segment's state by a settle that the journal guard demanded (R62). -/
inductive LogWork where
  | fetch (w : ReadWork)
  | startAppend
  | endAppend
  | change (b : Block)
deriving DecidableEq, Repr

/-- One transaction of a work of the engine, and with it what it brings about (R51, R81, R108, R183): the read of a journal
record or of a slot, a journal write, the promotion of a segment and its unit, the append of a WITHDRAW with its keep-through
number, the change of one of its targets, and the append of a new unit's TEXT segment. -/
inductive Use where
  | record (n : Nat)
  | slot (n : SlotNo)
  | write (w : JournalWrite)
  | promote (seg : SegNo)
  | withdraw (keepThrough : SegNo)
  | turn (seg : SegNo)
  | text (q : NewUnit)
deriving DecidableEq, Repr

/-- The works of the engine, each of which has a row of the table (R40, R119). -/
inductive WorkKind where
  | reResolution | retranslationStart | takeStroke | takeStrike | expiry | closeSettle | rebuild
deriving DecidableEq, Repr

/-- How far a work of the engine has come. It reads its record; settles the run, where its checks ask for that; makes a
strike's journal writes; reads slots to form its units (`seen`: what its reads so far have found, in order); and changes the log.
A replay reads its records one by one and the slots of each one fed, and then rebuilds; `ending` holds the units a rebuild
withdraws and appends (R53, R104, R115, R119, R120). -/
inductive Stage where
  | taking
  | settling
  | striking
  | forming (seen : List Slot)
  | reading (replay : Replay) (span : List JournalRecord)
  | feeding (replay : Replay) (seen : List Slot) (rest : List JournalRecord)
  | ending (withdrawn appended : Nat)
deriving DecidableEq, Repr

/-- The run and the unit list as of the last completed resolution, while a work is under way (R51). -/
structure Shown where
  run   : List RunEntry
  units : List ListedUnit
deriving DecidableEq, Repr

/-- A work the engine has begun and not ended: the tiers it reads (R33), what it has left to be shown, how far it has come,
and the transactions it asks for next (R183). -/
structure EngineWork where
  kind  : WorkKind
  tiers : List TierId
  shown : Shown
  stage : Stage
  left  : List Use
deriving DecidableEq, Repr

/-- One transaction of the MAINT requester: a write of the header, a read or a write of a slot, the read of slot n by a sweep
of a tier, which goes on from there, and the write of slot n EMPTY by start-up's sweep, which goes on from there (R37, R140,
R188, R190). -/
inductive MaintUse where
  | header (h : Header)
  | read (n : SlotNo)
  | write (n : SlotNo) (v : Slot)
  | sweep (tier : TierId) (n : Nat)
  | empty (n : Nat)
deriving DecidableEq, Repr

/-- A step the maintenance unit has begun and not ended: the tiers a GET reads (R33), the report of a DROP's writes (R136), the
records a sweep has removed (R141), and the transactions still to make. -/
structure MaintWork where
  tiers   : List TierId
  report  : List Byte
  removed : Nat
  left    : List MaintUse
deriving DecidableEq, Repr

/-- What a granted transaction is for: `engine` and `maint` are the next one of the work begun, `change` the next state
change of the log, and `dropped` is one whose work was discarded by an OPEN after its grant (R149, R183). -/
inductive TxWork where
  | journalAppend | headerRead | pullRead | fetchRead | startAppend | endAppend | change | engine | maint | dropped
deriving DecidableEq, Repr

structure Transaction where
  requester : MemRequester
  block     : Block
  work      : TxWork
deriving DecidableEq, Repr

structure Memory where
  mode       : ArbiterMode
  order      : List MemRequester
  counts     : PassCounts
  inProgress : Option Transaction
  intakeWork : List IntakeWork
  logWork    : List LogWork
  pullWork   : List PullWork
  engineWork : Option EngineWork
  maintWork  : Option MaintWork
deriving DecidableEq, Repr

/-! ### STATUS in reading (R178, R179) -/

/-- The blocks that STATUS reads in turn, in the order of the table of R178. -/
inductive StatusBlock where
  | device | session | journal | engine | log | tiers | row
deriving DecidableEq, Repr

/-- A STATUS whose report is not formed yet: its tag, what was read, the blocks still to read, and how many of them each
further select period reads (R179; DESIGN CHOICE, log entry 32). -/
structure StatusReading where
  tag  : Byte
  got  : List Byte
  left : List StatusBlock
  plan : List Nat
deriving DecidableEq, Repr

/-! ### The whole part -/

/-- Everything the spec gives the part, and the queue of commands waiting. -/
structure State where
  device  : Device
  ports   : Quad Port
  access  : Quad AccessRow
  journal : Journal
  dict    : Dictionary
  maint   : Maintenance
  engine  : Engine
  roster  : List (List Byte)
  log     : CaptionLog
  feeds   : Quad (Option Feed)
  session : Session
  memory  : Memory
  reports : Quad (Option StatusReading)
  pending : List Instr
deriving DecidableEq, Repr

/-- No command ends in a fault: nothing in the spec stops the part (R163: what cannot be carried out is answered
REFUSED, which is a next state). The type has no constructor, so no meaning can raise one. -/
inductive Fault where
deriving DecidableEq, Repr

/-- The one refusal of the model. -/
inductive Refusal where
  /-- Raised by an arm of exec whose command has no meaning yet; safe (the model stops where the part goes on). -/
  | notModelled (mnemonic : String)
deriving DecidableEq, Repr

/-! ### Reset values -/

/-- R158, R167: every port IDLE with a CLEAR slot. -/
def Port.reset : Port := { exchange := .idle, slot := .clear, dataOut := [] }

/-- The default access table of R171. -/
def defaultAccess : Quad AccessRow :=
  { q0 := { classes := 0x7F#7, trusted := true, locked := false }
    q1 := { classes := 0x3E#7, trusted := false, locked := false }
    q2 := { classes := 0x20#7, trusted := false, locked := false }
    q3 := { classes := 0x20#7, trusted := false, locked := false } }

/-- The journal after power-on (R19). -/
def Journal.reset : Journal :=
  { head := 0, oldest := 1, cursor := 1, records := [],
    pull := ⟨some ⟨1, 0⟩, some ⟨1, 0⟩, none, none⟩ }

/-- Every tier enabled, unlocked, VISIBLE (R20). -/
def Tier.reset : Tier := { enabled := true, locked := false, clearing := false }

/-- The table after power-on, before the start-up sweep ends (R37, R38, R188). -/
def Dictionary.reset : Dictionary :=
  { header := .writing, slots := [], tiers := ⟨Tier.reset, Tier.reset, Tier.reset, Tier.reset⟩ }

/-- R125. -/
def Maintenance.reset : Maintenance := { queue := [], lockHeld := false, lockTurn := false }

/-- R39: the values after every reset and at OPEN. -/
def Engine.reset : Engine :=
  { run := [], units := [], format := .sessionOpen, lastTaken := none, nextUnit := 1#32, changePending := false,
    request := none, activity := .idle }

/-- R73: sixteen empty names. -/
def rosterReset : List (List Byte) := List.replicate 16 []

/-- R81: the values after every reset and at OPEN. -/
def CaptionLog.reset : CaptionLog := { newest := 0#32, oldest := 1#32, wrapped := false, segments := [] }

/-- R146, R192. -/
def Session.reset : Session :=
  { opened := false, request := .none, job := 0#16, clock := 0#32, clkin := 0, hold := Config.holdReset,
    offsets := ⟨0#32, 0#32, 0#32, 0#32⟩ }

/-- The fixed order of R185. -/
def fixedOrder : List MemRequester := [.xlate, .log, .maint, .pull]

/-- The arbiter and its requesters after each reset (R187). That these are the values as the reset takes effect, which start-up's
own grants to MAINT then move, is the model's (DESIGN CHOICE, log entry 44). -/
def Memory.reset : Memory :=
  { mode := .rotating, order := fixedOrder, counts := ⟨0, 0, 0, 0⟩, inProgress := none, intakeWork := [],
    logWork := [], pullWork := [], engineWork := none, maintWork := none }

/-- The part right after power-on (R188): STARTING, with every block at its power-on values and the sweep to do. -/
def State.reset : State :=
  { device := { state := .starting, startup := .sweep, cause := .powerOn, outcome := .emptied }
    ports := ⟨Port.reset, Port.reset, Port.reset, Port.reset⟩
    access := defaultAccess
    journal := Journal.reset
    dict := Dictionary.reset
    maint := Maintenance.reset
    engine := Engine.reset
    roster := rosterReset
    log := CaptionLog.reset
    feeds := ⟨none, none, none, none⟩
    session := Session.reset
    memory := Memory.reset
    reports := ⟨none, none, none, none⟩
    pending := [] }

end Sys2Proof.Machine
end

