-- ==== Sys2Proof/Machine/Wire.lean ====
section
/-! DEFINITION. The wire forms of R161 and R162: byte order, coded values, frames, items and report bodies. -/

namespace Sys2Proof.Machine

/-! ### Byte order: least significant byte first (R162) -/

/-- The n low bytes of a number, least significant first. -/
def leBytes : Nat → Nat → List Byte
  | 0, _ => []
  | n + 1, v => BitVec.ofNat 8 v :: leBytes n (v / 256)

/-- The number whose bytes are given, least significant first. -/
def leNat : List Byte → Nat
  | [] => 0
  | b :: rest => b.toNat + 256 * leNat rest

/-- One byte of a number. -/
def byteOf (n : Nat) : Byte := BitVec.ofNat 8 n

/-- A yes-or-no field (R162). -/
def byteOfBool (b : Bool) : Byte := if b then 1#8 else 0#8

/-- A 32-bit field. -/
def wordBytes (w : Word32) : List Byte := leBytes 4 w.toNat

/-! ### Coded values (R162, R164, the table of request kinds) -/

/-- The value of a kind on the wire. -/
def Kind.code : Kind → Nat
  | .stroke => 0x01 | .pull => 0x02 | .subscribe => 0x03 | .unsubscribe => 0x04 | .fetch => 0x05 | .collect => 0x06
  | .status => 0x07 | .speaker => 0x08 | .setTiers => 0x09 | .setHold => 0x0A | .setOffset => 0x0B
  | .setArbiter => 0x0C | .setAccess => 0x0D | .trust => 0x0E | .lockPort => 0x0F | .lockTier => 0x10
  | .restart => 0x11 | .put => 0x12 | .drop => 0x13 | .clearTier => 0x14 | .get => 0x15 | .retranslate => 0x16
  | .openSession => 0x17 | .closeSession => 0x18

/-- The kind a first byte names, if any (R161). -/
def Kind.ofCode : Nat → Option Kind
  | 0x01 => some .stroke | 0x02 => some .pull | 0x03 => some .subscribe | 0x04 => some .unsubscribe
  | 0x05 => some .fetch | 0x06 => some .collect | 0x07 => some .status | 0x08 => some .speaker
  | 0x09 => some .setTiers | 0x0A => some .setHold | 0x0B => some .setOffset | 0x0C => some .setArbiter
  | 0x0D => some .setAccess | 0x0E => some .trust | 0x0F => some .lockPort | 0x10 => some .lockTier
  | 0x11 => some .restart | 0x12 => some .put | 0x13 => some .drop | 0x14 => some .clearTier | 0x15 => some .get
  | 0x16 => some .retranslate | 0x17 => some .openSession | 0x18 => some .closeSession
  | _ => none

def ReplyOutcome.code : ReplyOutcome → Nat
  | .done => 1 | .accepted => 2 | .refused => 3 | .none => 4

def Cause.code : Cause → Nat
  | .malformed => 1 | .denied => 2 | .starting => 3 | .emptyChord => 4 | .busy => 5 | .wrongState => 6
  | .noSession => 7 | .notSubscribed => 8 | .locked => 9 | .notFound => 10 | .crowded => 11 | .unpulled => 12
  | .journalFull => 13

/-- The cause field: 0 where nothing was refused (R163). -/
def causeByte : Option Cause → Byte
  | some c => byteOf c.code
  | none => 0#8

/-- The codes 1 to 7 of the classes. -/
def Class.code : Class → Nat
  | .intake => 1 | .session => 2 | .dictWrite => 3 | .dictRead => 4 | .pull => 5 | .caption => 6 | .settings => 7

/-- Whether a class set holds a class: class n is bit n − 1 (R162). -/
def holdsClass (set : BitVec 7) (c : Class) : Bool := set.getLsbD (c.code - 1)

def DeviceState.code : DeviceState → Nat
  | .held => 0 | .starting => 0 | .ready => 1

def ResetCause.code : ResetCause → Nat
  | .powerOn => 0 | .resetLine => 1 | .restart => 2

def TableOutcome.code : TableOutcome → Nat
  | .kept => 0 | .emptied => 1

def FeedMode.code : FeedMode → Nat
  | .live => 0 | .settled => 1

def PutCase.code : PutCase → Nat
  | .placed => 0 | .replaced => 1 | .promoted => 2

def ArbiterMode.code : ArbiterMode → Nat
  | .fixed => 0 | .rotating => 1

/-- The PUT flags byte: ATTACH_LEFT bit 0 to KEEP_CASE bit 5. -/
def TextFlags.code (f : TextFlags) : Nat :=
  f.attachLeft.toNat + 2 * f.attachRight.toNat + 4 * f.capNext.toNat + 8 * f.lowerNext.toNat + 16 * f.glue.toNat
    + 32 * f.keepCase.toNat

/-- The six flags of a flags byte. -/
def TextFlags.ofCode (b : Byte) : TextFlags :=
  { attachLeft := b.getLsbD 0, attachRight := b.getLsbD 1, capNext := b.getLsbD 2, lowerNext := b.getLsbD 3,
    glue := b.getLsbD 4, keepCase := b.getLsbD 5 }

/-- Whether no flag is set. -/
def TextFlags.allClear (f : TextFlags) : Bool :=
  !(f.attachLeft || f.attachRight || f.capNext || f.lowerNext || f.glue || f.keepCase)

def Command.code : Command → Nat
  | .paragraph => 0 | .speaker _ => 1 | .capsOn => 2 | .capsOff => 3

/-- A tier mask: tier n is bit n (R162). -/
def tierMask (t : Quad Bool) : Nat := t.q0.toNat + 2 * t.q1.toNat + 4 * t.q2.toNat + 8 * t.q3.toNat

/-! ### Frames (R161 to R163) -/

/-- The response frame of a request of kind byte `kind` and tag `tag`. -/
def responseFrame (kind tag : Byte) (r : Reply) : List Byte :=
  [kind, tag, byteOf r.outcome.code, causeByte r.cause] ++ leBytes 2 r.detail.toNat ++ leBytes 2 r.body.length ++ r.body

/-- A DONE reply with its body. -/
def doneReply (body : List Byte) : Reply := { outcome := .done, cause := none, detail := 0#16, body := body }

/-- The ACCEPTED reply of a timed request. -/
def acceptedReply : Reply := { outcome := .accepted, cause := none, detail := 0#16, body := [] }

/-- The NONE reply of a COLLECT. -/
def noneReply : Reply := { outcome := .none, cause := none, detail := 0#16, body := [] }

/-- A REFUSED reply: cause and detail, empty body (R163). -/
def refusedReply (c : Cause) (detail : Nat) : Reply :=
  { outcome := .refused, cause := some c, detail := BitVec.ofNat 16 detail, body := [] }

/-- What the frame check makes of the bytes of a request phase (R161). -/
inductive FrameCheck where
  | good (kind : Kind) (tag : Byte) (body : List Byte)
  | bad (kindByte tag : Byte) (detail : Nat)
deriving DecidableEq, Repr

/-- The frame check of R161, its faults in the order of the table. The part keeps 260 bytes and counts the rest, so the
count of body bytes is that of all the bytes shifted in. -/
def checkFrame : List Byte → FrameCheck
  | [] => .bad 0#8 0#8 (Config.frameFault + 1)
  | [k] => .bad k 0#8 (Config.frameFault + 1)
  | [k, t] => .bad k t (Config.frameFault + 2)
  | [k, t, _] => .bad k t (Config.frameFault + 2)
  | k :: t :: l0 :: l1 :: body =>
    match Kind.ofCode k.toNat with
    | none => .bad k t Config.frameFault
    | some kind =>
      if leNat [l0, l1] ≤ Config.bodyLimit ∧ leNat [l0, l1] = body.length then .good kind t body
      else .bad k t (Config.frameFault + 2)

/-- The request frame a master writes (R162). -/
def requestFrame (k : Kind) (tag : Byte) (body : List Byte) : List Byte :=
  [byteOf k.code, tag] ++ leBytes 2 body.length ++ body

/-! ### Items of PULL and FETCH (R162) -/

/-- The GAP item. -/
def gapItem (count : Nat) : List Byte := 1#8 :: leBytes 4 count

/-- The record item of PULL, the stamp already with the port's offset (R17). -/
def recordItem (r : JournalRecord) (offset : Word32) : List Byte :=
  let tail : List Byte :=
    match r.kind with
    | .stroke struck => [byteOfBool struck]
    | .strike none => [0#8]
    | .strike (some target) => byteOf target.length :: target.flatMap (leBytes 4)
  let code : Byte := match r.kind with
    | .stroke _ => 0#8
    | .strike _ => 1#8
  [2#8] ++ leBytes 4 r.seq ++ [code] ++ leBytes 3 r.chord.toNat ++ wordBytes (r.stamp + offset)
    ++ [byteOf r.source.val] ++ tail

/-- The state byte of a TEXT item; a WITHDRAWN segment is never delivered (R96). -/
def TextState.code : TextState → Nat
  | .provisional => 0 | .settled => 1 | .withdrawn => 1

/-- The item a segment is delivered as on a port, given that port's erase count and offset (R96, R162). -/
def segmentItem (g : Segment) (erase : BitVec 16) (offset : Word32) : List Byte :=
  match g.body with
  | .start job stamp => [3#8] ++ wordBytes g.number ++ leBytes 2 job.toNat ++ wordBytes (stamp + offset)
  | .text unit text untranslated command stamp state =>
    [4#8] ++ wordBytes g.number ++ wordBytes unit ++ [byteOf (untranslated.toNat + 2 * command.toNat)]
      ++ [byteOf state.code] ++ wordBytes (stamp + offset) ++ [byteOf text.length] ++ text
  | .withdraw keepThrough _ => [5#8] ++ wordBytes g.number ++ wordBytes keepThrough ++ leBytes 2 erase.toNat
  | .fin job stamp => [6#8] ++ wordBytes g.number ++ leBytes 2 job.toNat ++ wordBytes (stamp + offset)

/-! ### Bodies of completions (R162) -/

/-- The retranslation values: start used, units withdrawn, units appended (R120). -/
def retransValues (startUsed withdrawn appended : Nat) : List Byte :=
  leBytes 4 startUsed ++ leBytes 1 withdrawn ++ leBytes 2 appended

/-- The report of a PUT (R134). -/
def putReport (p : PutPlan) : List Byte :=
  [byteOf p.case.code] ++ leBytes 4 p.slot.toNat ++ [byteOf p.placed] ++ [byteOf p.raised]

/-- The report of a DROP (R138): whether the record was vacated, its slot, STEM prefixes vacated, slots turned EMPTY. -/
def dropReport (vacated : Bool) (slot : SlotNo) (stems turned : Nat) : List Byte :=
  [byteOfBool vacated] ++ leBytes 4 slot.toNat ++ [byteOf stems] ++ leBytes 4 turned

/-- The list of chords of a GET completion: count, then three bytes each. -/
def chordBytes (cs : List Chord) : List Byte := byteOf cs.length :: cs.flatMap (fun c => leBytes 3 c.toNat)

/-- The kind byte of a GET completion (R162). -/
def Content.code : Content → Nat
  | .text .. => 0 | .command _ => 1 | .stem => 2

/-- The content of a GET completion: flags, length and text; command and argument; nothing for a STEM (R144). -/
def contentBytes : Content → List Byte
  | .text text flags => [byteOf flags.code, byteOf text.length] ++ text
  | .command (.speaker arg) => [byteOf (Command.speaker arg).code, byteOf arg.val]
  | .command c => [byteOf c.code]
  | .stem => []

/-- The report of a GET (R144). -/
def getReport (slot : SlotNo) (r : Record) : List Byte :=
  [byteOf r.tier.val] ++ leBytes 4 slot.toNat ++ [byteOf r.content.code] ++ chordBytes r.strokes
    ++ leBytes 4 r.extensions ++ contentBytes r.content

/-- The COLLECT body of a held completion (R162, R169). -/
def collectBody (k : Kind) (tag : Byte) (r : Reply) : List Byte := responseFrame (byteOf k.code) tag r

end Sys2Proof.Machine
end

