-- ==== Sys2Proof/Machine/Ops.lean ====
section
/-! DEFINITION. The named operations over ports and registers: reading and writing one of four, select periods,
responses, completions, and the checks every request passes first. -/

namespace Sys2Proof.Machine

/-! ### One of four -/

def Quad.get {α : Type} (q : Quad α) (i : Fin 4) : α :=
  match i with
  | 0 => q.q0
  | 1 => q.q1
  | 2 => q.q2
  | 3 => q.q3

def Quad.set {α : Type} (q : Quad α) (i : Fin 4) (a : α) : Quad α :=
  match i with
  | 0 => { q with q0 := a }
  | 1 => { q with q1 := a }
  | 2 => { q with q2 := a }
  | 3 => { q with q3 := a }

/-- Apply a function at one index. -/
def Quad.modify {α : Type} (q : Quad α) (i : Fin 4) (f : α → α) : Quad α := q.set i (f (q.get i))

def Quad.map {α β : Type} (f : α → β) (q : Quad α) : Quad β := ⟨f q.q0, f q.q1, f q.q2, f q.q3⟩

/-- The quad whose entry at i is f i. -/
def Quad.tabulate {α : Type} (f : Fin 4 → α) : Quad α := ⟨f 0, f 1, f 2, f 3⟩

/-- The ports, and the tiers, in rising order. -/
def allFour : List (Fin 4) := [0, 1, 2, 3]

/-! ### Select periods on a port (R158 to R160) -/

/-- Write one port's exchange state and the bytes it drove. -/
def setExchange (p : PortId) (x : Exchange) (out : List Byte) (s : State) : State :=
  { s with ports := s.ports.modify p (fun q => { q with exchange := x, dataOut := out }) }

/-- n bytes of 0x00. -/
def zeros (n : Nat) : List Byte := List.replicate n 0#8

/-- A response phase of n whole bytes: WORKING drives 0x00; ANSWERING shifts the frame from its first byte and then
0x00, and the port returns to IDLE once the last byte has been shifted (R160). On an IDLE port a period of no whole
byte is no exchange (R159). -/
def shiftOut (p : PortId) (n : Nat) (s : State) : State :=
  match (s.ports.get p).exchange with
  | .answering frame =>
    setExchange p (if frame.length ≤ n then .idle else .answering frame) ((frame ++ zeros (n - frame.length)).take n) s
  | .idle => setExchange p .idle (zeros n) s
  | .receiving b => setExchange p (.receiving b) (zeros n) s
  | .working => setExchange p .working (zeros n) s

/-- The response to a request is formed: the port enters ANSWERING (R160, R166). What the port drove is unchanged. -/
def respond (p : PortId) (kind tag : Byte) (r : Reply) (s : State) : State :=
  { s with ports := s.ports.modify p (fun q => { q with exchange := .answering (responseFrame kind tag r) }) }

/-- Answer a request of a known kind. -/
def answer (p : PortId) (k : Kind) (tag : Byte) (r : Reply) (s : State) : State :=
  respond p (byteOf k.code) tag r s

/-- Refuse a request (R163). -/
def refuse (p : PortId) (k : Kind) (tag : Byte) (c : Cause) (detail : Nat) (s : State) : State :=
  answer p k tag (refusedReply c detail) s

/-- The port waits for its response to be formed (R159). -/
def setWorking (p : PortId) (s : State) : State :=
  { s with ports := s.ports.modify p (fun q => { q with exchange := .working }) }

/-! ### STATUS: its blocks and its reading (R178, R179) -/

/-- The offset of a port (R156). -/
def offsetOf (p : PortId) (s : State) : Word32 := s.session.offsets.get p

/-- The enable mask of SET TIERS and STATUS. -/
def enableMask (t : Quad Tier) : Nat := tierMask (t.map Tier.enabled)

def lockMask (t : Quad Tier) : Nat := tierMask (t.map Tier.locked)

def clearingMask (t : Quad Tier) : Nat := tierMask (t.map Tier.clearing)

/-- The run and the unit list as of the last completed resolution: what a work under way has left to be shown, else what the
engine holds (R51). -/
def asOfLast (s : State) : Shown :=
  match s.memory.engineWork with
  | some w => w.shown
  | none => { run := s.engine.run, units := s.engine.units }

/-- The items of one block, read together, for a port, in the order of the layout table (R162, R178, R179). The device state,
the last reset cause and the table outcome are read as one block (DESIGN CHOICE, log entry 37). -/
def blockReport (s : State) (p : PortId) : StatusBlock → List Byte
  | .device => [byteOf s.device.state.code, byteOf s.device.cause.code, byteOf s.device.outcome.code]
  | .session =>
    [byteOfBool s.session.opened] ++ leBytes 2 s.session.job.toNat ++ wordBytes (s.session.clock + offsetOf p s)
      ++ leBytes 2 s.session.hold
  | .journal => leBytes 4 s.journal.head ++ leBytes 4 s.journal.oldest ++ leBytes 4 s.journal.cursor
  | .engine => [byteOf (asOfLast s).run.length, byteOf (asOfLast s).units.length]
  | .log => wordBytes s.log.newest ++ wordBytes s.log.oldest
  | .tiers =>
    [byteOf (enableMask s.dict.tiers), byteOf (lockMask s.dict.tiers), byteOf (clearingMask s.dict.tiers)]
  | .row =>
    [byteOf p.val, (s.access.get p).classes.setWidth 8, byteOfBool (s.access.get p).trusted,
      byteOfBool (s.access.get p).locked]

/-- The blocks in the order in which they are read (R178, R179). -/
def statusBlocks : List StatusBlock := [.device, .session, .journal, .engine, .log, .tiers, .row]

/-- How many blocks a reading reads next: as planned, or all that are left. -/
def StatusReading.next (r : StatusReading) : Nat := r.plan.headD r.left.length

/-- A reading goes on: the next blocks are read together with what the state holds now (R179). -/
def StatusReading.advance (s : State) (p : PortId) (r : StatusReading) : StatusReading :=
  { r with got := r.got ++ (r.left.take r.next).flatMap (blockReport s p), left := r.left.drop r.next,
           plan := r.plan.drop 1 }

/-- Write one port's STATUS in reading. -/
def setReport (p : PortId) (r : Option StatusReading) (s : State) : State := { s with reports := s.reports.set p r }

/-- A reading stands: its port is answered once every block is read, and stays WORKING until then (R166, R179). -/
def carryReport (p : PortId) (r : StatusReading) (s : State) : State :=
  if r.left = [] then answer p .status r.tag (doneReply r.got) (setReport p none s)
  else setReport p (some r) (setWorking p s)

/-- The STATUS in reading on a port, if there is one, goes on (R179). -/
def readOn (p : PortId) (s : State) : State :=
  match s.reports.get p with
  | some r => carryReport p (r.advance s p) s
  | none => s

/-- A response phase of n whole bytes, after which a STATUS still in reading on the port goes on (R160, R179). -/
def responsePeriod (p : PortId) (n : Nat) (s : State) : State := readOn p (shiftOut p n s)

/-! ### Checks 2 and 3 of R164: access and device state -/

/-- What a kind needs (R170). -/
inductive Need where
  | nothing
  | ofClass (c : Class)
  | trust
  | trustThenSettings
deriving DecidableEq, Repr

/-- The needs of R170. -/
def Kind.need : Kind → Need
  | .status | .collect => .nothing
  | .stroke => .ofClass .intake
  | .openSession | .closeSession => .ofClass .session
  | .put | .drop | .clearTier | .retranslate | .speaker | .setTiers => .ofClass .dictWrite
  | .get => .ofClass .dictRead
  | .pull => .ofClass .pull
  | .subscribe | .unsubscribe | .fetch => .ofClass .caption
  | .setHold | .setOffset | .setArbiter => .ofClass .settings
  | .setAccess | .trust | .lockPort | .lockTier => .trust
  | .restart => .trustThenSettings

/-- The detail of a DENIED refusal, if the row lacks the need: the class code, or 8 for trust (R165, R170). A RETRANSLATE
is refused DENIED with detail 3 by these rules, although R110 gives every refusal of it detail 0 (DESIGN CHOICE, log
entry 33). -/
def denial (n : Need) (row : AccessRow) : Option Nat :=
  match n with
  | .nothing => none
  | .ofClass c => if holdsClass row.classes c then none else some c.code
  | .trust => if row.trusted then none else some 8
  | .trustThenSettings =>
    if row.trusted then (if holdsClass row.classes .settings then none else some Class.settings.code) else some 8

/-- The kinds answered while the part is STARTING (R177). -/
def Kind.servedWhileStarting (k : Kind) : Bool := k == .status || k == .collect

/-- The access check, the STARTING check, and then the owner's work (R164, R170, R177). -/
def throughChecks (p : PortId) (k : Kind) (tag : Byte) (act : State → State) (s : State) : State :=
  match denial k.need (s.access.get p) with
  | some d => refuse p k tag .denied d s
  | none =>
    if s.device.state = .ready ∨ k.servedWhileStarting = true then act s
    else refuse p k tag .starting 0 s

/-- A request phase of n bytes has ended on a port: 0x00 was driven throughout and the port is WORKING (R159). -/
def beginExchange (p : PortId) (n : Nat) (s : State) : State := setExchange p .working (zeros n) s

/-- Whether a select period on the port is a request phase (R159). A RECEIVING port's period ends with this frame. -/
def Exchange.takesRequest : Exchange → Bool
  | .idle => true
  | .receiving _ => true
  | .working => false
  | .answering _ => false

/-- A select period in which a master writes a request frame of a known kind. A port that is not IDLE takes it as a
response phase (R160); a body above 256 bytes fails the frame check (R161); a part held in reset takes no select
period and drives 0x00 (R189). -/
def requestPeriod (p : PortId) (k : Kind) (tag : Byte) (body : List Byte) (act : State → State) (s : State) : State :=
  if s.device.state = .held then setExchange p (s.ports.get p).exchange (zeros (4 + body.length)) s
  else if (s.ports.get p).exchange.takesRequest then
    if body.length ≤ Config.bodyLimit then throughChecks p k tag act (beginExchange p (4 + body.length) s)
    else respond p (byteOf k.code) tag (refusedReply .malformed (Config.frameFault + 2))
      (beginExchange p (4 + body.length) s)
  else responsePeriod p (4 + body.length) s

/-! ### Timed requests and completions (R167, R168) -/

/-- Write one port's timed slot. -/
def setSlot (p : PortId) (t : TimedSlot) (s : State) : State :=
  { s with ports := s.ports.modify p (fun q => { q with slot := t }) }

/-- The check for a timed request in progress or a completion held on the port (R164, R167). -/
def slotBusy (p : PortId) (s : State) : Bool :=
  match (s.ports.get p).slot with
  | .clear => false
  | .inProgress .. => true
  | .held .. => true

/-- A timed request was taken: its slot notes kind and tag, and ACCEPTED is answered (R167). -/
def accept (p : PortId) (k : Kind) (tag : Byte) (s : State) : State :=
  answer p k tag acceptedReply (setSlot p (.inProgress k tag) s)

/-- What a slot holds once its owner hands the completion: only a request in progress is completed (R168). -/
def TimedSlot.complete (r : Reply) : TimedSlot → TimedSlot
  | .inProgress k tag => .held k tag r
  | .clear => .clear
  | .held k tag c => .held k tag c

/-- The owner of a timed request hands its port a completion (R168). -/
def complete (p : PortId) (r : Reply) (s : State) : State :=
  { s with ports := s.ports.modify p (fun q => { q with slot := q.slot.complete r }) }

/-! ### A session test used by several blocks -/

/-- A session is open for STROKE and RETRANSLATE: OPEN and no CLOSE accepted (R4, R110). -/
def sessionTaking (s : State) : Bool :=
  s.session.opened &&
    (match s.session.request with
     | .closeInProgress .. => false
     | .openInProgress .. => true
     | .none => true)

end Sys2Proof.Machine
end

