-- ==== Sys2Proof/Machine/Table.lean ====
section
/-! DEFINITION. The dictionary table: slots in canonical form, the key arithmetic, lookup, best lookup, the continuation
test, placement, vacating, and the plans of PUT and DROP (R22 to R33, R132 to R140). -/

namespace Sys2Proof.Machine

/-! ### Slots by number -/

/-- What a slot number reads as; an unlisted slot is EMPTY. -/
def slotAt : List (Nat × Slot) → Nat → Slot
  | [], _ => .empty
  | (k, v) :: rest, n => if k = n then v else slotAt rest n

/-- Write one slot, keeping the canonical form: numbers strictly rising, no EMPTY entry. -/
def writeSlot : List (Nat × Slot) → Nat → Slot → List (Nat × Slot)
  | [], n, v => if v = .empty then [] else [(n, v)]
  | (k, w) :: rest, n, v =>
    if n < k then (if v = .empty then (k, w) :: rest else (n, v) :: (k, w) :: rest)
    else if n = k then (if v = .empty then rest else (n, v) :: rest)
    else (k, w) :: writeSlot rest n v

/-- The canonical form of the slots: numbers strictly rising and below 262,144, no EMPTY entry. -/
def slotsWf : List (Nat × Slot) → Bool
  | [] => true
  | [(k, v)] => decide (k < Config.tableSlots) && decide (v ≠ .empty)
  | (k, v) :: (k', v') :: rest => decide (k < k') && decide (v ≠ .empty) && slotsWf ((k', v') :: rest)

/-! ### The key arithmetic (R26, R27) -/

/-- One step of the hash: h × 37 + c + 1, reduced modulo 2^32. -/
def hashStep (h : Word32) (c : Chord) : Word32 := h * 37#32 + c.setWidth 32 + 1#32

/-- The hash of a key, seeded with the tier number (R26). -/
def keyHash (tier : TierId) (strokes : List Chord) : Word32 := strokes.foldl hashStep (BitVec.ofNat 32 tier.val)

/-- The home slot: the low 18 bits of the hash (R26). -/
def homeSlot (tier : TierId) (strokes : List Chord) : SlotNo := (keyHash tier strokes).setWidth 18

/-! ### Lookup in one tier (R29) -/

/-- The walk from a slot with so many slots of the probe sequence left (R29). -/
def walk (slots : List (Nat × Slot)) (tier : TierId) (strokes : List Chord) : Nat → SlotNo → Option (SlotNo × Record)
  | 0, _ => none
  | n + 1, s =>
    match slotAt slots s.toNat with
    | .empty => none
    | .vacated => walk slots tier strokes n (s + 1#18)
    | .occupied r =>
      if r.tier = tier ∧ r.strokes = strokes then some (s, r) else walk slots tier strokes n (s + 1#18)

/-- A lookup of a key in one tier: the slot and the record, if found (R29). -/
def lookup (slots : List (Nat × Slot)) (tier : TierId) (strokes : List Chord) : Option (SlotNo × Record) :=
  walk slots tier strokes Config.probeLimit (homeSlot tier strokes)

/-- A bearing record has kind TEXT or COMMAND (R24). -/
def Content.bearing : Content → Bool
  | .text .. => true
  | .command _ => true
  | .stem => false

/-- The slots that the walk of `walk` reads, in order, one transaction each (R27, R29). -/
def walkReads (slots : List (Nat × Slot)) (tier : TierId) (strokes : List Chord) : Nat → SlotNo → List SlotNo
  | 0, _ => []
  | n + 1, s =>
    match slotAt slots s.toNat with
    | .empty => [s]
    | .vacated => s :: walkReads slots tier strokes n (s + 1#18)
    | .occupied r =>
      if r.tier = tier ∧ r.strokes = strokes then [s] else s :: walkReads slots tier strokes n (s + 1#18)

/-- The slots a lookup reads (R27, R29). -/
def lookupReads (slots : List (Nat × Slot)) (tier : TierId) (strokes : List Chord) : List SlotNo :=
  walkReads slots tier strokes Config.probeLimit (homeSlot tier strokes)

/-! ### Best lookup and the continuation test (R21, R31, R32) -/

/-- The tiers a read consults, in priority order: enabled and not CLEARING (R21, R31). -/
def visibleTiers (t : Quad Tier) : List TierId := allFour.filter (fun l => (t.get l).enabled && !(t.get l).clearing)

/-- Best lookup over the tiers given: the first bearing record, with its tier and slot (R31). -/
def bestLookup (slots : List (Nat × Slot)) : List TierId → List Chord → Option (TierId × SlotNo × Record)
  | [], _ => none
  | l :: rest, strokes =>
    match lookup slots l strokes with
    | some (n, r) => if r.content.bearing then some (l, n, r) else bestLookup slots rest strokes
    | none => bestLookup slots rest strokes

/-- The slots a best lookup reads: the tiers up to the one that answers (R31). -/
def bestReads (slots : List (Nat × Slot)) : List TierId → List Chord → List SlotNo
  | [], _ => []
  | l :: rest, strokes =>
    lookupReads slots l strokes ++
      match lookup slots l strokes with
      | some (_, r) => if r.content.bearing then [] else bestReads slots rest strokes
      | none => bestReads slots rest strokes

/-- A lookup found a record with extensions (R32). -/
def hasExtensions : Option (SlotNo × Record) → Bool
  | some (_, r) => decide (r.extensions ≠ 0)
  | none => false

/-- The continuation test over the tiers given (R32). -/
def continues (slots : List (Nat × Slot)) (tiers : List TierId) (strokes : List Chord) : Bool :=
  tiers.any (fun l => hasExtensions (lookup slots l strokes))

/-! ### Placement (R30) -/

/-- The placement walk: the first VACATED or EMPTY slot of the probe sequence (R30). -/
def placeWalk (slots : List (Nat × Slot)) : Nat → SlotNo → Option SlotNo
  | 0, _ => none
  | n + 1, s =>
    match slotAt slots s.toNat with
    | .empty => some s
    | .vacated => some s
    | .occupied _ => placeWalk slots n (s + 1#18)

/-- The slots a placement walk reads, in order (R27, R30). -/
def placeReads (slots : List (Nat × Slot)) : Nat → SlotNo → List SlotNo
  | 0, _ => []
  | n + 1, s =>
    match slotAt slots s.toNat with
    | .empty => [s]
    | .vacated => [s]
    | .occupied _ => s :: placeReads slots n (s + 1#18)

/-- The slot a new record of the key would take (R30). -/
def placement (slots : List (Nat × Slot)) (tier : TierId) (strokes : List Chord) : Option SlotNo :=
  placeWalk slots Config.probeLimit (homeSlot tier strokes)

/-! ### The vacating procedure (R137) -/

/-- The backward walk: turn VACATED slots EMPTY until the first that is not VACATED; also how many were turned. -/
def walkBack : Nat → List (Nat × Slot) → SlotNo → List (Nat × Slot) × Nat
  | 0, slots, _ => (slots, 0)
  | n + 1, slots, s =>
    match slotAt slots s.toNat with
    | .vacated =>
      let r := walkBack n (writeSlot slots s.toNat .empty) (s - 1#18)
      (r.1, r.2 + 1)
    | .empty => (slots, 0)
    | .occupied _ => (slots, 0)

/-- Remove the record of one slot; also how many slots were turned EMPTY (R137). -/
def vacate (slots : List (Nat × Slot)) (s : SlotNo) : List (Nat × Slot) × Nat :=
  if slotAt slots (s + 1#18).toNat = .empty then
    let r := walkBack Config.tableSlots (writeSlot slots s.toNat .empty) (s - 1#18)
    (r.1, r.2 + 1)
  else (writeSlot slots s.toNat .vacated, 0)

/-- The transactions of the backward walk: each slot it reads and each it turns EMPTY (R137). -/
def walkBackUses : Nat → List (Nat × Slot) → SlotNo → List MaintUse
  | 0, _, _ => []
  | n + 1, slots, s =>
    .read s ::
      match slotAt slots s.toNat with
      | .vacated => .write s .empty :: walkBackUses n (writeSlot slots s.toNat .empty) (s - 1#18)
      | .empty => []
      | .occupied _ => []

/-- The transactions of the vacating procedure: the slot after is read, the slot written, and the walk back made (R137). -/
def vacateUses (slots : List (Nat × Slot)) (s : SlotNo) : List MaintUse :=
  .read (s + 1#18) ::
    (if slotAt slots (s + 1#18).toNat = .empty then
      .write s .empty :: walkBackUses Config.tableSlots (writeSlot slots s.toNat .empty) (s - 1#18)
    else [.write s .vacated])

/-! ### PUT (R132 to R134) -/

/-- The proper prefixes of a stroke sequence in order of length, 1 to k − 1 (R25). -/
def properPrefixes (strokes : List Chord) : List (List Chord) :=
  (List.range (strokes.length - 1)).map (fun i => strokes.take (i + 1))

/-- The plan of the prefixes of a PLACED PUT, on a scratch table in which every slot already claimed is OCCUPIED by
the record that will stand there (R133): the scratch table, the writes so far, STEMs placed and counts raised; or the
length that found no slot. -/
def planPrefixes (tier : TierId) :
    List (List Chord) → List (Nat × Slot) → List (SlotNo × Record) → Nat → Nat →
      Except Nat (List (Nat × Slot) × List (SlotNo × Record) × Nat × Nat)
  | [], scratch, writes, placed, raised => .ok (scratch, writes, placed, raised)
  | q :: rest, scratch, writes, placed, raised =>
    match lookup scratch tier q with
    | some (n, r) =>
      planPrefixes tier rest scratch (writes ++ [(n, { r with extensions := r.extensions + 1 })]) placed (raised + 1)
    | none =>
      match placement scratch tier q with
      | none => .error q.length
      | some n =>
        let stem : Record := { tier := tier, strokes := q, content := .stem, extensions := 1 }
        planPrefixes tier rest (writeSlot scratch n.toNat (.occupied stem)) (writes ++ [(n, stem)]) (placed + 1) raised

/-- The writes that raise the count of each proper prefix's record (R132, PROMOTED). -/
def raisePrefixes (slots : List (Nat × Slot)) (tier : TierId) (strokes : List Chord) : List (SlotNo × Record) :=
  (properPrefixes strokes).filterMap (fun q =>
    (lookup slots tier q).map (fun nr => (nr.1, { nr.2 with extensions := nr.2.extensions + 1 })))

/-- The plan of a PUT, or the length that is CROWDED (R132, R133). -/
def planPut (slots : List (Nat × Slot)) (tier : TierId) (strokes : List Chord) (content : Content) :
    Except Nat PutPlan :=
  match lookup slots tier strokes with
  | some (n, r) =>
    if r.content.bearing then
      .ok { case := .replaced, slot := n, placed := 0, raised := 0, writes := [(n, { r with content := content })] }
    else
      let raises := raisePrefixes slots tier strokes
      .ok { case := .promoted, slot := n, placed := 0, raised := raises.length,
            writes := raises ++ [(n, { r with content := content })] }
  | none =>
    match planPrefixes tier (properPrefixes strokes) slots [] 0 0 with
    | .error len => .error len
    | .ok (scratch, writes, placed, raised) =>
      match placement scratch tier strokes with
      | none => .error strokes.length
      | some n =>
        .ok { case := .placed, slot := n, placed := placed, raised := raised,
              writes := writes ++ [(n, { tier := tier, strokes := strokes, content := content, extensions := 0 })] }

/-- The slots that the lookup and the placement walk of each length of a PLACED PUT read, the full key's last, claimed slots
counting as OCCUPIED by another key (R133). -/
def placedReads (tier : TierId) (strokes : List Chord) : List (List Chord) → List (Nat × Slot) → List SlotNo
  | [], scratch => lookupReads scratch tier strokes ++ placeReads scratch Config.probeLimit (homeSlot tier strokes)
  | q :: rest, scratch =>
    lookupReads scratch tier q ++
      match lookup scratch tier q with
      | some _ => placedReads tier strokes rest scratch
      | none =>
        placeReads scratch Config.probeLimit (homeSlot tier q) ++
          match placement scratch tier q with
          | none => []
          | some n =>
            placedReads tier strokes rest
              (writeSlot scratch n.toNat (.occupied { tier := tier, strokes := q, content := .stem, extensions := 1 }))

/-- The slots a PUT reads in CHECKING: those of the lookup of its key, and then those of its case (R127, R132, R133). -/
def putReads (slots : List (Nat × Slot)) (tier : TierId) (strokes : List Chord) : List SlotNo :=
  lookupReads slots tier strokes ++
    match lookup slots tier strokes with
    | some (_, r) => if r.content.bearing then [] else (properPrefixes strokes).flatMap (lookupReads slots tier)
    | none => placedReads tier strokes (properPrefixes strokes) slots

/-- The slot writes of a PUT, in order (R134). -/
def applyWrites (slots : List (Nat × Slot)) (writes : List (SlotNo × Record)) : List (Nat × Slot) :=
  writes.foldl (fun t w => writeSlot t w.1.toNat (.occupied w.2)) slots

/-! ### DROP (R135, R136, R138) -/

/-- The plan of a DROP: the record must be found and bearing; its proper prefixes' slots, longest first (R135). -/
def planDrop (slots : List (Nat × Slot)) (tier : TierId) (strokes : List Chord) : Option DropPlan :=
  match lookup slots tier strokes with
  | some (n, r) =>
    if r.content.bearing then
      some { slot := n,
             shorter := (properPrefixes strokes).reverse.filterMap (fun q => (lookup slots tier q).map (fun nr => nr.1)) }
    else none
  | none => none

/-- The slots a DROP reads in CHECKING: the key's, and those of its proper prefixes when it is held (R127, R135). -/
def dropReads (slots : List (Nat × Slot)) (tier : TierId) (strokes : List Chord) : List SlotNo :=
  lookupReads slots tier strokes ++
    match lookup slots tier strokes with
    | some (_, r) =>
      if r.content.bearing then (properPrefixes strokes).reverse.flatMap (lookupReads slots tier) else []
    | none => []

/-- What a DROP has done so far: the slots, STEM prefixes vacated, slots turned EMPTY. -/
structure DropTally where
  slots  : List (Nat × Slot)
  stems  : Nat
  turned : Nat
deriving DecidableEq, Repr

/-- One proper prefix loses one extension; a STEM that reaches 0 is vacated (R136). -/
def lowerPrefix (t : DropTally) (s : SlotNo) : DropTally :=
  match slotAt t.slots s.toNat with
  | .occupied r =>
    if r.content = .stem ∧ r.extensions - 1 = 0 then
      let v := vacate t.slots s
      { slots := v.1, stems := t.stems + 1, turned := t.turned + v.2 }
    else { t with slots := writeSlot t.slots s.toNat (.occupied { r with extensions := r.extensions - 1 }) }
  | .empty => t
  | .vacated => t

/-- The dropped record's own write: demoted when it has extensions, vacated when it has none (R136). -/
def dropRecord (slots : List (Nat × Slot)) (s : SlotNo) : Bool × DropTally :=
  match slotAt slots s.toNat with
  | .occupied r =>
    if r.extensions = 0 then
      let v := vacate slots s
      (true, { slots := v.1, stems := 0, turned := v.2 })
    else (false, { slots := writeSlot slots s.toNat (.occupied { r with content := .stem }), stems := 0, turned := 0 })
  | .empty => (false, { slots := slots, stems := 0, turned := 0 })
  | .vacated => (false, { slots := slots, stems := 0, turned := 0 })

/-- The slot writes of a DROP (R138): whether the record was vacated, and the tally. -/
def applyDrop (slots : List (Nat × Slot)) (p : DropPlan) : Bool × DropTally :=
  let first := dropRecord slots p.slot
  (first.1, p.shorter.foldl lowerPrefix first.2)

/-- The transactions of the dropped record's own write: the vacating procedure, or the write of a STEM (R136). -/
def dropRecordUses (slots : List (Nat × Slot)) (s : SlotNo) : List MaintUse :=
  match slotAt slots s.toNat with
  | .occupied r =>
    if r.extensions = 0 then vacateUses slots s else [.write s (.occupied { r with content := .stem })]
  | .empty => []
  | .vacated => []

/-- The transactions of a prefix's write (R136). -/
def lowerUses (slots : List (Nat × Slot)) (s : SlotNo) : List MaintUse :=
  match slotAt slots s.toNat with
  | .occupied r =>
    if r.content = .stem ∧ r.extensions - 1 = 0 then vacateUses slots s
    else [.write s (.occupied { r with extensions := r.extensions - 1 })]
  | .empty => []
  | .vacated => []

/-- The transactions of the prefixes' writes, longest first (R136). -/
def prefixUses : DropTally → List SlotNo → List MaintUse
  | _, [] => []
  | t, s :: rest => lowerUses t.slots s ++ prefixUses (lowerPrefix t s) rest

/-- The slot transactions of a DROP in WRITING (R136, R138). -/
def dropUses (slots : List (Nat × Slot)) (p : DropPlan) : List MaintUse :=
  dropRecordUses slots p.slot ++ prefixUses (dropRecord slots p.slot).2 p.shorter

/-! ### CLEAR TIER (R140) -/

/-- Whether a slot holds a record of the tier. -/
def Slot.ofTier (tier : TierId) : Slot → Bool
  | .occupied r => decide (r.tier = tier)
  | .empty => false
  | .vacated => false

/-- One slot of the sweep: a record of the tier is removed by the vacating procedure and counted (R140). -/
def sweepSlot (tier : TierId) (t : List (Nat × Slot) × Nat) (n : Nat) : List (Nat × Slot) × Nat :=
  if (slotAt t.1 n).ofTier tier then ((vacate t.1 (BitVec.ofNat 18 n)).1, t.2 + 1) else t

/-- The sweep of a tier from a slot on, in ascending order of slot; EMPTY slots, being left as they are, are not visited; also
how many records it removes (R140). -/
def sweepFrom (tier : TierId) (slots : List (Nat × Slot)) (first : Nat) : List (Nat × Slot) × Nat :=
  ((slots.map Prod.fst).filter (fun k => decide (first ≤ k))).foldl (sweepSlot tier) (slots, 0)

/-- The sweep of a tier (R140). -/
def sweepTier (slots : List (Nat × Slot)) (tier : TierId) : List (Nat × Slot) × Nat := sweepFrom tier slots 0

/-- The transactions that follow a sweep's read of slot n: a record of the tier is removed by the vacating procedure, and the
sweep goes on with the next slot (R140). -/
def sweepGoesOn (slots : List (Nat × Slot)) (tier : TierId) (n : Nat) : List MaintUse :=
  (if (slotAt slots n).ofTier tier then vacateUses slots (BitVec.ofNat 18 n) else []) ++
    (if n + 1 < Config.tableSlots then [.sweep tier (n + 1)] else [])

/-! ### Transactions of the maintenance unit (R37, R183) -/

/-- The block of a transaction of MAINT (R183). -/
def MaintUse.block : MaintUse → Block
  | .header _ => .header
  | .read n => .slot n
  | .write n _ => .slot n
  | .sweep _ n => .slot (BitVec.ofNat 18 n)
  | .empty n => .slot (BitVec.ofNat 18 n)

/-- What one transaction writes of the table (R37, R183). -/
def MaintUse.carry (u : MaintUse) (d : Dictionary) : Dictionary :=
  match u with
  | .header h => { d with header := h }
  | .read _ => d
  | .write n v => { d with slots := writeSlot d.slots n.toNat v }
  | .sweep _ _ => d
  | .empty n => { d with slots := writeSlot d.slots (BitVec.ofNat 18 n).toNat .empty }

/-- The transactions that follow from one that has been made (R140, R188, R190). -/
def MaintUse.goesOn (u : MaintUse) (slots : List (Nat × Slot)) : List MaintUse :=
  match u with
  | .header _ => []
  | .read _ => []
  | .write _ _ => []
  | .sweep t n => sweepGoesOn slots t n
  | .empty n => if n + 1 < Config.tableSlots then [.empty (n + 1)] else []

/-- The records that the read of a sweep finds of its tier: one or none (R140). -/
def MaintUse.found (u : MaintUse) (slots : List (Nat × Slot)) : Nat :=
  match u with
  | .header _ => 0
  | .read _ => 0
  | .write _ _ => 0
  | .sweep t n => if (slotAt slots n).ofTier t then 1 else 0
  | .empty _ => 0

/-- One transaction with all that follow from it, made one after another: what they leave of the table, with the records
removed so far. -/
def MaintUse.carryAll (x : Dictionary × Nat) (u : MaintUse) : Dictionary × Nat :=
  match u with
  | .header _ => (u.carry x.1, x.2)
  | .read _ => (u.carry x.1, x.2)
  | .write _ _ => (u.carry x.1, x.2)
  | .sweep t n => ({ x.1 with slots := (sweepFrom t x.1.slots n).1 }, x.2 + (sweepFrom t x.1.slots n).2)
  | .empty n => ({ x.1 with slots := x.1.slots.filter (fun k => decide (k.1 < n)) }, x.2)

end Sys2Proof.Machine
end

