-- ==== Sys2Proof/Machine/Rendering.lean ====
section
/-! DEFINITION. The format renderer: text units, empty-text entries, commands and untranslated strokes (R64 to R80). -/

namespace Sys2Proof.Machine

/-! ### Characters (00, conventions) -/

/-- The space character. -/
def chSpace : Byte := 0x20#8

/-- The line break. -/
def chBreak : Byte := 0x0A#8

/-- The colon. -/
def chColon : Byte := 0x3A#8

/-- The hyphen. -/
def chHyphen : Byte := 0x2D#8

/-- The characters of the word SPEAKER (R71). -/
def speakerWord : List Byte := [0x53#8, 0x50#8, 0x45#8, 0x41#8, 0x4B#8, 0x45#8, 0x52#8]

def isCapital (b : Byte) : Bool := decide (0x41 ≤ b.toNat) && decide (b.toNat ≤ 0x5A)

def isSmall (b : Byte) : Bool := decide (0x61 ≤ b.toNat) && decide (b.toNat ≤ 0x7A)

/-- A letter is A to Z or a to z (R67). -/
def isLetter (b : Byte) : Bool := isCapital b || isSmall b

def toCapital (b : Byte) : Byte := if isSmall b then b - 0x20#8 else b

def toSmall (b : Byte) : Byte := if isCapital b then b + 0x20#8 else b

/-- Apply a function to the first letter of a text, wherever it stands (R67). -/
def mapFirstLetter (f : Byte → Byte) : List Byte → List Byte
  | [] => []
  | b :: rest => if isLetter b then f b :: rest else b :: mapFirstLetter f rest

/-! ### Text units (R66 to R69) -/

/-- The letter rule (R67). -/
def letterRule (f : FormatState) (text : List Byte) : List Byte :=
  if f.caps then text.map toCapital
  else match f.case with
    | .nextCap => mapFirstLetter toCapital text
    | .nextLower => mapFirstLetter toSmall text
    | .none => text

/-- The separator before a nonempty text (R66). -/
def separator (f : FormatState) (g : TextFlags) : List Byte :=
  if f.lineStart || f.attachPending || g.attachLeft || (g.glue && f.glueTail) then [] else [chSpace]

/-- The case field after a TEXT record, given what it is when no flag sets it (R68, R69). -/
def caseAfter (g : TextFlags) (otherwise : CaseField) : CaseField :=
  if g.capNext then .nextCap else if g.lowerNext then .nextLower else otherwise

/-- A TEXT record with text (R66 to R68). -/
def renderText (f : FormatState) (text : List Byte) (g : TextFlags) : List Byte × FormatState :=
  (separator f g ++ letterRule f text,
   { lineStart := false, attachPending := g.attachRight, case := caseAfter g (if g.keepCase then f.case else .none),
     caps := f.caps, glueTail := g.glue })

/-- A TEXT record with empty text (R69). -/
def renderEmptyText (f : FormatState) (g : TextFlags) : List Byte × FormatState :=
  ([], { f with attachPending := f.attachPending || g.attachLeft || g.attachRight, case := caseAfter g f.case })

/-! ### Commands (R70 to R72) -/

/-- A number of at most two digits in decimal, without leading zeros. -/
def decimalDigits (n : Nat) : List Byte :=
  if n < 10 then [byteOf (0x30 + n)] else [byteOf (0x30 + n / 10), byteOf (0x30 + n % 10)]

/-- A line break unless a line has just begun. -/
def breakUnlessLineStart (f : FormatState) : List Byte := if f.lineStart then [] else [chBreak]

/-- The name of a roster slot (R73). -/
def rosterName (roster : List (List Byte)) (n : Nat) : List Byte := roster.getD n []

/-- What stands for the speaker in a label: the name held, or SPEAKER n for an empty slot (R71). -/
def speakerName (roster : List (List Byte)) (n : Nat) : List Byte :=
  if rosterName roster n = [] then speakerWord ++ [chSpace] ++ decimalDigits n else rosterName roster n

/-- A COMMAND record (R70 to R72). -/
def renderCommand (roster : List (List Byte)) (f : FormatState) : Command → List Byte × FormatState
  | .paragraph =>
    (breakUnlessLineStart f,
     { f with lineStart := true, attachPending := false, case := .nextCap, glueTail := false })
  | .speaker arg =>
    (breakUnlessLineStart f ++ speakerName roster arg.val ++ [chColon, chSpace],
     { f with lineStart := false, attachPending := true, case := .nextCap, glueTail := false })
  | .capsOn => ([], { f with caps := true })
  | .capsOff => ([], { f with caps := false })

/-! ### Untranslated strokes (R76 to R78) -/

/-- The characters of the keys 0 to 22 (R76). -/
def keyChars : List Byte :=
  [0x23#8, 0x53#8, 0x54#8, 0x4B#8, 0x50#8, 0x57#8, 0x48#8, 0x52#8, 0x41#8, 0x4F#8, 0x2A#8, 0x45#8, 0x55#8, 0x46#8,
   0x52#8, 0x50#8, 0x42#8, 0x4C#8, 0x47#8, 0x54#8, 0x53#8, 0x44#8, 0x5A#8]

/-- The ten digit keys with their digits: S- 1, T- 2, P- 3, H- 4, A- 5, O- 0, -F 6, -P 7, -L 8, -T 9 (R77). -/
def digitKeys : List (Nat × Byte) :=
  [(1, 0x31#8), (2, 0x32#8), (4, 0x33#8), (6, 0x34#8), (8, 0x35#8), (9, 0x30#8), (13, 0x36#8), (15, 0x37#8),
   (17, 0x38#8), (19, 0x39#8)]

/-- The digit of a key, if it is one of the ten. -/
def digitOf (i : Nat) : Option Byte := (digitKeys.find? (fun d => d.1 == i)).map Prod.snd

/-- Whether key i is pressed. -/
def pressed (c : Chord) (i : Nat) : Bool := c.getLsbD i

/-- Whether any of the keys is pressed. -/
def anyPressed (c : Chord) (keys : List Nat) : Bool := keys.any (pressed c)

/-- The vowel group, keys 8 to 12. -/
def vowelKeys : List Nat := [8, 9, 10, 11, 12]

/-- The right bank, keys 13 to 22. -/
def rightKeys : List Nat := [13, 14, 15, 16, 17, 18, 19, 20, 21, 22]

/-- The first pressed key of the right bank, before which the hyphen stands when no vowel-group key is pressed (R76). -/
def hyphenKey (c : Chord) : Option Nat := if anyPressed c vowelKeys then none else rightKeys.find? (pressed c)

/-- What one pressed key writes: nothing for a # that a digit hides, a digit with #, else its character (R76, R77). -/
def keyText (c : Chord) (i : Nat) : List Byte :=
  if i = 0 then (if anyPressed c (digitKeys.map Prod.fst) then [] else [keyChars.getD 0 0#8])
  else
    match pressed c 0, digitOf i with
    | true, some d => [d]
    | _, _ => [keyChars.getD i 0#8]

/-- The raw steno of a chord (R76, R77). -/
def rawSteno (c : Chord) : List Byte :=
  (List.range 23).flatMap (fun i =>
    if pressed c i then (if hyphenKey c = some i then [chHyphen] else []) ++ keyText c i else [])

/-- An UNTRANSLATED unit (R78). -/
def renderUntranslated (f : FormatState) (c : Chord) : List Byte × FormatState :=
  ((if f.lineStart || f.attachPending then [] else [chSpace]) ++ rawSteno c,
   { f with lineStart := false, attachPending := false, glueTail := false })

/-! ### One render (R64) -/

/-- Render a unit from a before-state: the content of its record, or its chord when it has none (R64). Best lookup
returns no STEM, so the last line is not met; it writes nothing and changes nothing. -/
def render (roster : List (List Byte)) (f : FormatState) (chord : Chord) : Option Content → List Byte × FormatState
  | none => renderUntranslated f chord
  | some (.text text flags) => if text = [] then renderEmptyText f flags else renderText f text flags
  | some (.command c) => renderCommand roster f c
  | some .stem => ([], f)

end Sys2Proof.Machine
end

