-- ==== Sys2Proof/Machine/Log.lean ====
section
/-! DEFINITION. The caption log and its feeds: numbers in the ring, appends with overwrite and lapse, withdrawals with
their erase counts, and the walk of FETCH (R81 to R99). -/

namespace Sys2Proof.Machine

/-! ### Numbers in the ring (R81, R82) -/

/-- The number of places from oldest held to a number, modulo 2^32; numbers are ordered by it (R82). -/
def CaptionLog.rank (l : CaptionLog) (n : SegNo) : Nat := (n - l.oldest).toNat

/-- Whether the ring holds a number. -/
def CaptionLog.holds (l : CaptionLog) (n : SegNo) : Bool := decide (l.rank n < l.segments.length)

/-- The number after newest. -/
def CaptionLog.next (l : CaptionLog) : SegNo := l.newest + 1#32

/-- The rank of a number a feed holds as a lower bound: a lapsed number lies before every held segment (R82). -/
def CaptionLog.refRank (l : CaptionLog) (r : SegmentRef) : Nat := if r.lapsed then 0 else l.rank r.number

/-- The block of a segment in entry memory (R182). -/
def segmentBlock (n : SegNo) : Block := .segment ((n - 1#32).setWidth 12)

/-- The text length of a TEXT segment; 0 for every other kind (R86). -/
def Segment.textLength (g : Segment) : Nat :=
  match g.body with
  | .text _ t _ _ _ _ => t.length
  | .start .. => 0
  | .withdraw .. => 0
  | .fin .. => 0

/-- The state of a TEXT segment. -/
def Segment.textState (g : Segment) : Option TextState :=
  match g.body with
  | .text _ _ _ _ _ st => some st
  | .start .. => none
  | .withdraw .. => none
  | .fin .. => none

/-- Write the state of a TEXT segment; other kinds have none. -/
def Segment.withState (st : TextState) (g : Segment) : Segment :=
  match g.body with
  | .text u t un c stamp _ => { g with body := .text u t un c stamp st }
  | .start .. => g
  | .withdraw .. => g
  | .fin .. => g

/-- The text of a held TEXT segment. -/
def CaptionLog.textOf (l : CaptionLog) (n : SegNo) : Option (List Byte) :=
  match l.segments.find? (fun g => g.number == n) with
  | some g =>
    match g.body with
    | .text _ t _ _ _ _ => some t
    | .start .. => none
    | .withdraw .. => none
    | .fin .. => none
  | none => none

/-- Promote a segment: from PROVISIONAL to SETTLED and from no other state (R84). -/
def CaptionLog.promote (l : CaptionLog) (n : SegNo) : CaptionLog :=
  { l with segments := l.segments.map (fun g =>
      if g.number = n ∧ g.textState = some .provisional then g.withState .settled else g) }

/-! ### Overwrite and append (R81, R97) -/

/-- A number a feed holds lapses when it names the overwritten segment (R97). -/
def SegmentRef.lapse (n : SegNo) (r : SegmentRef) : SegmentRef := if r.number = n then { r with lapsed := true } else r

/-- Every number of a feed that names the overwritten segment lapses (R97). -/
def Feed.lapse (n : SegNo) (f : Feed) : Feed :=
  { f with cursor := f.cursor.lapse n, floor := f.floor.lapse n, mark := f.mark.map (SegmentRef.lapse n) }

/-- The ring makes room when it is full: the unit naming the oldest segment is evicted as final, the feeds' numbers
naming it lapse, and it leaves the ring (R97). -/
def makeRoom (s : State) : State :=
  if s.log.segments.length < Config.logRing then s
  else
    { s with
      engine := { s.engine with units := s.engine.units.filter (fun u => u.segment ≠ s.log.oldest) }
      feeds := s.feeds.map (Option.map (Feed.lapse s.log.oldest))
      log := { s.log with oldest := s.log.oldest + 1#32, segments := s.log.segments.drop 1 } }

/-- The next segment joins a ring that has room (R81, R82). -/
def CaptionLog.push (l : CaptionLog) (body : SegmentBody) : CaptionLog :=
  { l with newest := l.next, wrapped := l.wrapped || decide (l.newest = 4294967295#32),
           segments := l.segments ++ [{ number := l.next, body := body }] }

/-- An append: room is made, then the segment is written under the next number (R81, R97). -/
def appendSegment (body : SegmentBody) (s : State) : State :=
  { makeRoom s with log := (makeRoom s).log.push body }

/-! ### Withdrawal (R85, R86) -/

/-- Whether a number lies after another that may have been overwritten (R82, R85). -/
def CaptionLog.after (l : CaptionLog) (k n : SegNo) : Bool := !l.holds k || decide (l.rank k < l.rank n)

/-- A target of a WITHDRAW with keep-through number k: a held TEXT segment after k that still stands (R85). -/
def CaptionLog.isTarget (l : CaptionLog) (k : SegNo) (g : Segment) : Bool :=
  l.after k g.number && (g.textState == some .provisional || g.textState == some .settled)

/-- Whether a segment counts for a feed: at or after its floor and before its cursor (R86). -/
def CaptionLog.counted (l : CaptionLog) (f : Feed) (g : Segment) : Bool :=
  decide (l.refRank f.floor ≤ l.rank g.number) && decide (l.rank g.number < l.refRank f.cursor)

/-- The erase count of a port for a WITHDRAW with keep-through number k (R86). -/
def eraseCount (l : CaptionLog) (k : SegNo) : Option Feed → Nat
  | none => 0
  | some f => ((l.segments.filter (fun g => l.isTarget k g && l.counted f g)).map Segment.textLength).sum

/-- The append of a WITHDRAW, in the five steps of R85. -/
def appendWithdraw (k : SegNo) (s : State) : State :=
  let r := makeRoom s
  let counts := r.feeds.map (fun f => BitVec.ofNat 16 (eraseCount r.log k f))
  { r with
    log := { r.log with segments := r.log.segments.map (fun g =>
               if r.log.isTarget k g then g.withState .withdrawn else g) }.push (.withdraw k counts) }

/-! ### FETCH (R92 to R94) -/

/-- The port's own erase count in a segment (R96). -/
def Segment.eraseFor (p : PortId) (g : Segment) : BitVec 16 :=
  match g.body with
  | .withdraw _ counts => counts.get p
  | .start .. => 0#16
  | .text .. => 0#16
  | .fin .. => 0#16

/-- What a feed does with a segment it examines (R94). -/
inductive Treatment where
  | deliver | passOver | stop
deriving DecidableEq, Repr

/-- Whether a segment lies after a feed's mark: an absent mark passes nothing, a lapsed one lies before every held
segment (R94). -/
def CaptionLog.afterMark (l : CaptionLog) (mark : Option SegmentRef) (n : SegNo) : Bool :=
  match mark with
  | none => true
  | some r => r.lapsed || decide (l.rank r.number < l.rank n)

/-- The table of R94. -/
def treat (l : CaptionLog) (p : PortId) (f : Feed) (g : Segment) : Treatment :=
  match g.body with
  | .start .. => .deliver
  | .fin .. => .deliver
  | .text _ _ _ _ _ .withdrawn => .passOver
  | .text _ _ _ _ _ .settled => .deliver
  | .text _ _ _ _ _ .provisional =>
    match f.mode with
    | .live => .deliver
    | .settled => .stop
  | .withdraw .. => if l.afterMark f.mark g.number ∧ g.eraseFor p ≠ 0#16 then .deliver else .passOver

/-- What a walk of FETCH did: the segments delivered, those read, and how many places the cursor moved. -/
structure WalkResult where
  delivered : List Segment
  reads     : List Segment
  moved     : Nat
deriving DecidableEq, Repr

/-- The walk of R92 over the segments from the cursor on, with so many items left to deliver. -/
def fetchWalk (l : CaptionLog) (p : PortId) (f : Feed) : Nat → List Segment → WalkResult
  | 0, _ => ⟨[], [], 0⟩
  | _ + 1, [] => ⟨[], [], 0⟩
  | n + 1, g :: rest =>
    match treat l p f g with
    | .deliver =>
      let w := fetchWalk l p f n rest
      ⟨g :: w.delivered, g :: w.reads, w.moved + 1⟩
    | .passOver =>
      let w := fetchWalk l p f (n + 1) rest
      ⟨w.delivered, g :: w.reads, w.moved + 1⟩
    | .stop => ⟨[], [g], 0⟩

/-- A lapsed cursor is replaced at a GAP: cursor and floor at oldest held, mark at newest (R93). -/
def Feed.afterGap (l : CaptionLog) (f : Feed) : Feed :=
  if f.cursor.lapsed then
    { f with cursor := ⟨l.oldest, false⟩, floor := ⟨l.oldest, false⟩, mark := some ⟨l.newest, false⟩ }
  else f

/-- The GAP item of a lapsed cursor (R93). -/
def Feed.gapItems (l : CaptionLog) (f : Feed) : List Byte :=
  if f.cursor.lapsed then gapItem (l.oldest - f.cursor.number).toNat else []

/-- The segments from a feed's cursor on. -/
def CaptionLog.fromCursor (l : CaptionLog) (f : Feed) : List Segment := l.segments.drop (l.refRank f.cursor)

/-- Whether the next FETCH of a feed would deliver an item (R102). -/
def feedWouldDeliver (l : CaptionLog) (p : PortId) (f : Feed) : Bool :=
  f.cursor.lapsed || !(fetchWalk l p f 1 (l.fromCursor f)).delivered.isEmpty

/-- A count of 0 is taken as 1 and a count above 16 as 16 (R16, R92). -/
def clampCount (n : Nat) : Nat := if n = 0 then 1 else if Config.itemLimit < n then Config.itemLimit else n

end Sys2Proof.Machine
end

