-- ==== Sys2Proof/Machine/JournalOps.lean ====
section
/-! DEFINITION. The stroke journal: records by sequence number, marks and targets, the append with its overwrite, pull
cursors, and the journal at OPEN and at a reset (R5 to R19). -/

namespace Sys2Proof.Machine

/-- The ring position of a sequence number as a block of entry memory (R9, R182). -/
def recordBlock (n : Nat) : Block := .record (BitVec.ofNat 16 (n - 1))

/-- The held record of a sequence number (R9). -/
def Journal.recordAt (j : Journal) (n : Nat) : Option JournalRecord :=
  if j.oldest ≤ n ∧ n ≤ j.head then j.records[n - j.oldest]? else none

/-- Rewrite the held record of a sequence number. -/
def Journal.modifyAt (j : Journal) (n : Nat) (f : JournalRecord → JournalRecord) : Journal :=
  if j.oldest ≤ n ∧ n ≤ j.head then { j with records := j.records.modify (n - j.oldest) f } else j

/-- Mark a STROKE record STRUCK (R7). -/
def JournalRecord.strike (r : JournalRecord) : JournalRecord :=
  match r.kind with
  | .stroke _ => { r with kind := .stroke true }
  | .strike _ => r

/-- Write the target of a STRIKE record (R8). -/
def JournalRecord.aim (target : List Nat) (r : JournalRecord) : JournalRecord :=
  match r.kind with
  | .strike _ => { r with kind := .strike (some target) }
  | .stroke _ => r

/-- Carry out a journal write (R7, R8). -/
def Journal.write (j : Journal) : JournalWrite → Journal
  | .mark n => j.modifyAt n JournalRecord.strike
  | .target n struck => j.modifyAt n (JournalRecord.aim struck)

/-- The journal writes of a strike record s that strikes out the given strokes: the marks, oldest first, and the
target last (R106, R108). -/
def strikeWrites (s : Nat) (struck : List Nat) : List JournalWrite := struck.map .mark ++ [.target s struck]

/-- How many records the ring holds (R9). -/
def Journal.held (j : Journal) : Nat := j.head + 1 - j.oldest

/-- Move a pull cursor off the overwritten record; the gap count rises and holds at its limit (R15). -/
def PullCursor.overwrite (n : Nat) (c : PullCursor) : PullCursor :=
  if c.cursor = n then { cursor := n + 1, gap := min (c.gap + 1) Config.gapLimit } else c

/-- The kind a masked chord is journaled as (R2). -/
def kindOfChord (c : Chord) : RecordKind := if c = Config.strikeChord then .strike none else .stroke false

/-- The record of an append (R5, R6). -/
def newRecord (j : Journal) (w : IntakeWork) (clock : Stamp) : JournalRecord :=
  { seq := j.head + 1, kind := kindOfChord w.chord, chord := w.chord, stamp := clock, source := w.port }

/-- The append: a full ring overwrites the record at oldest held (R9, R15). -/
def Journal.append (j : Journal) (r : JournalRecord) : Journal :=
  if j.held < Config.journalRing then { j with head := j.head + 1, records := j.records ++ [r] }
  else
    { j with head := j.head + 1, oldest := j.oldest + 1, records := j.records.drop 1 ++ [r],
             pull := j.pull.map (Option.map (PullCursor.overwrite j.oldest)) }

/-- The journal emptied by OPEN: every existing pull cursor at 1 with gap count 0 (R18). -/
def Journal.emptied (j : Journal) : Journal :=
  { head := 0, oldest := 1, cursor := 1, records := [], pull := j.pull.map (Option.map (fun _ => ⟨1, 0⟩)) }

/-- The pull cursor of a port after a change of its class set: kept, created at oldest held, or discarded (R11). -/
def Journal.notice (j : Journal) (p : PortId) (classes : BitVec 7) : Journal :=
  { j with pull := j.pull.modify p (fun c =>
      if holdsClass classes .pull then some (c.getD ⟨j.oldest, 0⟩) else none) }

/-- Ports holding PULL whose pull cursor is before the translate cursor, in rising order (R148). -/
def Journal.lagging (j : Journal) : List PortId :=
  allFour.filter (fun p =>
    match j.pull.get p with
    | some c => decide (c.cursor < j.cursor)
    | none => false)

/-- The discard count of an OPEN: how far the lowest pull cursor lies before the translate cursor (R150). -/
def Journal.unpulled (j : Journal) : Nat :=
  (allFour.map (fun p =>
    match j.pull.get p with
    | some c => j.cursor - c.cursor
    | none => 0)).foldl max 0

/-- The records a PULL of a count delivers from a cursor on: those before the translate cursor, in order (R16). -/
def Journal.pullable (j : Journal) (from' count : Nat) : List JournalRecord :=
  (j.records.drop (from' - j.oldest)).take (min count (j.cursor - from'))

end Sys2Proof.Machine
end

