-- ==== Sys2Proof/Machine/Translation.lean ====
section
/-! DEFINITION. The translation engine's procedures: resolution, rendering, the diff, settling, eviction, the replay
and the rebuild, and the order of its works (R39 to R63, R104 to R124). -/

namespace Sys2Proof.Machine

/-! ### Forming units (R43 to R45) -/

/-- The oldest strokes of a run taken as one unit: the strokes, the reading, and the record's content as read (R44). -/
structure Formed where
  strokes : List RunEntry
  reading : Reading
  content : Option Content
  settled : Bool
deriving DecidableEq, Repr

/-- The longest bearing reading of at most n strokes, if any (R44). -/
def longestReading (slots : List (Nat × Slot)) (tiers : List TierId) (run : List RunEntry) :
    Nat → Option (Nat × TierId × SlotNo × Record)
  | 0 => none
  | n + 1 =>
    match bestLookup slots tiers ((run.take (n + 1)).map RunEntry.chord) with
    | some (l, m, r) => some (n + 1, l, m, r)
    | none => longestReading slots tiers run n

/-- The head unit of a run by the longest reading found for it, and the strokes that remain (R44). -/
def headFrom (settled : Bool) (run : List RunEntry) :
    Option (Nat × TierId × SlotNo × Record) → Formed × List RunEntry
  | some (n, l, m, r) =>
    ({ strokes := run.take n, reading := .dictionary l m, content := some r.content, settled := settled }, run.drop n)
  | none =>
    ({ strokes := run.take 1, reading := .untranslated, content := none, settled := settled }, run.drop 1)

/-- The head unit of a run and the strokes that remain (R44). -/
def formHead (slots : List (Nat × Slot)) (tiers : List TierId) (settled : Bool) (run : List RunEntry) :
    Formed × List RunEntry := headFrom settled run (longestReading slots tiers run run.length)

/-- A nonempty run is closed at 6 strokes or when its continuation test is false (R43). -/
def runClosed (slots : List (Nat × Slot)) (tiers : List TierId) (run : List RunEntry) : Bool :=
  decide (Config.longestKey ≤ run.length) || !continues slots tiers (run.map RunEntry.chord)

/-- The settled heads of a run and the open run left, with fuel for its strokes (R43). -/
def settleHeads (slots : List (Nat × Slot)) (tiers : List TierId) :
    Nat → List RunEntry → List Formed × List RunEntry
  | 0, run => ([], run)
  | _ + 1, [] => ([], [])
  | n + 1, e :: rest =>
    if runClosed slots tiers (e :: rest) then
      let h := formHead slots tiers true (e :: rest)
      let more := settleHeads slots tiers n h.2
      (h.1 :: more.1, more.2)
    else ([], e :: rest)

/-- The provisional units that cover an open run, with fuel for its strokes (R45). -/
def provisionalUnits (slots : List (Nat × Slot)) (tiers : List TierId) : Nat → List RunEntry → List Formed
  | 0, _ => []
  | _ + 1, [] => []
  | n + 1, e :: rest =>
    let h := formHead slots tiers false (e :: rest)
    h.1 :: provisionalUnits slots tiers n h.2

/-- The new sequence of a run, settled heads first, and the run that stays (R43 to R45). -/
def formSequence (slots : List (Nat × Slot)) (tiers : List TierId) (run : List RunEntry) :
    List Formed × List RunEntry :=
  let h := settleHeads slots tiers run.length run
  (h.1 ++ provisionalUnits slots tiers h.2.length h.2, h.2)

/-! ### Forming units read by read (R27, R34, R183)

The same procedures as they go on while their slots are read, each slot by a transaction of its own: `ask` answers a read, given
the slots read before it, and each procedure gives its result with the slots read so far. The order of the lookups is a DESIGN
CHOICE, log entry 10. -/

/-- What the next read of a resolution finds: a read already made found what it found, and one still to come finds the slot as it
stands, so that a sweep's write between two reads of one slot shows in the second alone (R34). -/
def readSlot (slots : List (Nat × Slot)) (seen : List Slot) (reads : List SlotNo) (n : SlotNo) : Slot :=
  (seen[reads.length]?).getD (slotAt slots n.toNat)

/-- The walk of a lookup (R29). -/
def walkBy (ask : List SlotNo → SlotNo → Slot) (tier : TierId) (strokes : List Chord) :
    Nat → SlotNo → List SlotNo → Option (SlotNo × Record) × List SlotNo
  | 0, _, reads => (none, reads)
  | n + 1, m, reads =>
    match ask reads m with
    | .empty => (none, reads ++ [m])
    | .vacated => walkBy ask tier strokes n (m + 1#18) (reads ++ [m])
    | .occupied r =>
      if r.tier = tier ∧ r.strokes = strokes then (some (m, r), reads ++ [m])
      else walkBy ask tier strokes n (m + 1#18) (reads ++ [m])

/-- A lookup in one tier (R29). -/
def lookupBy (ask : List SlotNo → SlotNo → Slot) (tier : TierId) (strokes : List Chord) (reads : List SlotNo) :
    Option (SlotNo × Record) × List SlotNo :=
  walkBy ask tier strokes Config.probeLimit (homeSlot tier strokes) reads

/-- Best lookup (R31). -/
def bestBy (ask : List SlotNo → SlotNo → Slot) :
    List TierId → List Chord → List SlotNo → Option (TierId × SlotNo × Record) × List SlotNo
  | [], _, reads => (none, reads)
  | l :: rest, strokes, reads =>
    match lookupBy ask l strokes reads with
    | (some (n, r), after) => if r.content.bearing then (some (l, n, r), after) else bestBy ask rest strokes after
    | (none, after) => bestBy ask rest strokes after

/-- The continuation test, which consults every tier it does not skip (R32). -/
def continuesBy (ask : List SlotNo → SlotNo → Slot) : List TierId → List Chord → List SlotNo → Bool × List SlotNo
  | [], _, reads => (false, reads)
  | l :: rest, strokes, reads =>
    let x := lookupBy ask l strokes reads
    let y := continuesBy ask rest strokes x.2
    (hasExtensions x.1 || y.1, y.2)

/-- The longest bearing reading (R44). -/
def longestBy (ask : List SlotNo → SlotNo → Slot) (tiers : List TierId) (run : List RunEntry) :
    Nat → List SlotNo → Option (Nat × TierId × SlotNo × Record) × List SlotNo
  | 0, reads => (none, reads)
  | n + 1, reads =>
    match bestBy ask tiers ((run.take (n + 1)).map RunEntry.chord) reads with
    | (some (l, m, r), after) => (some (n + 1, l, m, r), after)
    | (none, after) => longestBy ask tiers run n after

/-- Whether a nonempty run is closed; at 6 strokes nothing is read (R43). -/
def closedBy (ask : List SlotNo → SlotNo → Slot) (tiers : List TierId) (run : List RunEntry) (reads : List SlotNo) :
    Bool × List SlotNo :=
  if Config.longestKey ≤ run.length then (true, reads)
  else
    let x := continuesBy ask tiers (run.map RunEntry.chord) reads
    (!x.1, x.2)

/-- The settled heads of a run and the open run left (R43). -/
def settleBy (ask : List SlotNo → SlotNo → Slot) (tiers : List TierId) :
    Nat → List RunEntry → List SlotNo → (List Formed × List RunEntry) × List SlotNo
  | 0, run, reads => (([], run), reads)
  | _ + 1, [], reads => (([], []), reads)
  | n + 1, e :: rest, reads =>
    let c := closedBy ask tiers (e :: rest) reads
    if c.1 then
      let l := longestBy ask tiers (e :: rest) (e :: rest).length c.2
      let h := headFrom true (e :: rest) l.1
      let more := settleBy ask tiers n h.2 l.2
      ((h.1 :: more.1.1, more.1.2), more.2)
    else (([], e :: rest), c.2)

/-- The provisional units that cover an open run (R45). -/
def provisionalBy (ask : List SlotNo → SlotNo → Slot) (tiers : List TierId) :
    Nat → List RunEntry → List SlotNo → List Formed × List SlotNo
  | 0, _, reads => ([], reads)
  | _ + 1, [], reads => ([], reads)
  | n + 1, e :: rest, reads =>
    let l := longestBy ask tiers (e :: rest) (e :: rest).length reads
    let h := headFrom false (e :: rest) l.1
    let more := provisionalBy ask tiers n h.2 l.2
    (h.1 :: more.1, more.2)

/-- The new sequence of a run, the run that stays, and all slots read (R43 to R45). -/
def formBy (ask : List SlotNo → SlotNo → Slot) (tiers : List TierId) (run : List RunEntry) :
    (List Formed × List RunEntry) × List SlotNo :=
  let h := settleBy ask tiers run.length run []
  let p := provisionalBy ask tiers h.1.2.length h.1.2 h.2
  ((h.1.1 ++ p.1, h.1.2), p.2)

/-! ### Rendering a sequence (R46) -/

/-- Whether a content is a COMMAND (R50). -/
def isCommandContent : Option Content → Bool
  | some (.command _) => true
  | some (.text ..) => false
  | some .stem => false
  | none => false

/-- The chord an UNTRANSLATED unit shows: that of its first stroke. -/
def Formed.firstChord (f : Formed) : Chord :=
  match f.strokes with
  | [] => 0#23
  | e :: _ => e.chord

/-- The stamp of a formed unit's newest stroke (R50). -/
def Formed.newestStamp (f : Formed) : Stamp :=
  match f.strokes.getLast? with
  | some e => e.stamp
  | none => 0#32

/-- Render a sequence in order, each unit from the after-state of the one before it (R46). -/
def renderSequence (roster : List (List Byte)) : FormatState → List Formed → List NewUnit
  | _, [] => []
  | f, u :: rest =>
    let r := render roster f u.firstChord u.content
    { strokes := u.strokes.map RunEntry.seq, reading := u.reading, command := isCommandContent u.content, text := r.1,
      before := f, after := r.2, stamp := u.newestStamp, settled := u.settled } :: renderSequence roster r.2 rest

/-- The after-state of the newest settled unit of a new sequence, or the state given when it holds none (R48, R50). -/
def settledAfter (f : FormatState) (news : List NewUnit) : FormatState :=
  match (news.filter NewUnit.settled).getLast? with
  | some q => q.after
  | none => f

/-! ### The diff (R47, R118) -/

/-- Two units match: strokes, kind with tier and slot, text; and no settled unit becomes provisional again (R47, R118). -/
def unitsMatch (l : CaptionLog) (o : ListedUnit) (q : NewUnit) : Bool :=
  decide (o.strokes = q.strokes) && decide (o.reading = q.reading) && decide (l.textOf o.segment = some q.text)
    && !(o.settled && !q.settled)

/-- The number of leading pairs that match (R47). -/
def leadingMatches (l : CaptionLog) : List ListedUnit → List NewUnit → Nat
  | o :: os, q :: qs => if unitsMatch l o q then leadingMatches l os qs + 1 else 0
  | [], _ => 0
  | _ :: _, [] => 0

/-- A kept unit records its counterpart's states: the after-state, and in a rebuild the before-state too (R48, R119). -/
def ListedUnit.keep (rebuild : Bool) (o : ListedUnit) (q : NewUnit) : ListedUnit :=
  { o with after := q.after, before := if rebuild then q.before else o.before }

/-- The promotion of one segment and of the unit that shows it, in one step (R48, R54, R84). -/
def promoteSegment (seg : SegNo) (s : State) : State :=
  { s with
    log := s.log.promote seg
    engine := { s.engine with units := s.engine.units.map (fun u => if u.segment = seg then { u with settled := true } else u) } }

/-- The segments of the kept units that are promoted, oldest first: the unit is provisional and its counterpart settled (R48,
R119). -/
def keptPromotions (kept : List (ListedUnit × NewUnit)) : List SegNo :=
  (kept.filter (fun k => !k.1.settled && k.2.settled)).map (fun k => k.1.segment)

/-! ### Joining and leaving the list (R50, R58, R59) -/

/-- The oldest settled unit leaves a list of 64 units before a new one joins (R58). -/
def evictForRoom (units : List ListedUnit) : List ListedUnit :=
  if units.length < Config.unitListLimit then units else units.eraseP ListedUnit.settled

/-- The next unit number, which continues at 1 after 4,294,967,295 (R50). -/
def bumpUnitNumber (n : Word32) : Word32 := if n = 4294967295#32 then 1#32 else n + 1#32

/-- The TEXT segment of a new unit (R50). -/
def NewUnit.segment (q : NewUnit) (number : Word32) : SegmentBody :=
  .text number q.text (decide (q.reading = .untranslated)) q.command q.stamp
    (if q.settled then .settled else .provisional)

/-- A new unit joins the list with its TEXT segment (R50, R58). -/
def joinUnit (s : State) (q : NewUnit) : State :=
  let s1 := { s with engine := { s.engine with units := evictForRoom s.engine.units } }
  let s2 := appendSegment (q.segment s1.engine.nextUnit) s1
  { s2 with engine := { s2.engine with
      units := s2.engine.units ++ [{ number := s1.engine.nextUnit, strokes := q.strokes, reading := q.reading,
                                     before := q.before, after := q.after, segment := s2.log.newest,
                                     settled := q.settled }]
      nextUnit := bumpUnitNumber s1.engine.nextUnit } }

/-! ### The changes of the log (R48 to R51, R81, R85) -/

/-- What one transaction of a work brings about in the part, whatever work it belongs to; the targets of a WITHDRAW turn as it
is written, as one event, and their own transactions follow (R51, R81, R85, R108). -/
def carryUse (u : Use) (s : State) : State :=
  match u with
  | .record _ => s
  | .slot _ => s
  | .write w => { s with journal := s.journal.write w }
  | .promote seg => promoteSegment seg s
  | .withdraw k => appendWithdraw k s
  | .turn _ => s
  | .text q => joinUnit s q

/-- The transactions of a work carried out in order, one right after another. -/
def carryUses (us : List Use) (s : State) : State := us.foldl (fun s u => carryUse u s) s

/-- What the diff asks of the log, j leading units matching: the promotions, at most one WITHDRAW, the new units (R48 to R51,
R119). -/
def diffUses (old : List ListedUnit) (news : List NewUnit) (j : Nat) : List Use :=
  (keptPromotions ((old.take j).zip (news.take j))).map .promote
    ++ ((old.drop j).head?.map (fun o => Use.withdraw (o.segment - 1#32))).toList
    ++ (news.drop j).map .text

/-- The list as the diff leaves it before the log changes: the units that stay, and the kept ones with their states (R48, R49,
R119). -/
def keepUnits (rebuild : Bool) (stay old : List ListedUnit) (news : List NewUnit) (j : Nat) (s : State) : State :=
  { s with engine := { s.engine with
      units := stay ++ ((old.take j).zip (news.take j)).map (fun k => k.1.keep rebuild k.2) } }

/-- The settled units of the list and its provisional ones (R57). -/
def settledUnits (s : State) : List ListedUnit := s.engine.units.filter ListedUnit.settled

def provisionalListed (s : State) : List ListedUnit := s.engine.units.filter (fun u => !u.settled)

/-! ### Settling (R54, R60, R62) -/

/-- The run as its settle by expiry leaves it: emptied, and the settled format state is the newest provisional unit's
after-state (R54). -/
def emptyRun (s : State) : State :=
  { s with engine := { s.engine with
      run := []
      format := match (provisionalListed s).getLast? with
        | some u => u.after
        | none => s.engine.format } }

/-- The promotions of a settle by expiry, oldest first (R54). -/
def settleUses (s : State) : List Use := (provisionalListed s).map (fun u => .promote u.segment)

/-- The run is settled by expiry: every provisional unit settles in place with its segment, the settled format state
becomes the newest one's after-state, and the run is emptied (R54). -/
def settleRun (s : State) : State := carryUses (settleUses s) (emptyRun s)

/-- The headroom check: the oldest provisional unit's segment is at most newest minus the bound, so the run is to be settled
(R60, R113). -/
def headroomDue (bound : Nat) (s : State) : Bool :=
  match (provisionalListed s).head? with
  | some u => decide (bound ≤ (s.log.newest - u.segment).toNat)
  | none => false

/-- Whether a later stamp lies at least the hold time after an earlier one, modulo 2^32 (R52). -/
def expired (hold : Nat) (earlier later : Stamp) : Bool := decide (hold ≤ (later - earlier).toNat)

/-- The expiry check of a take against a record's stamp, by the hold time held as it is made: the run is to be settled (R52,
R53). -/
def expiryDue (stamp : Stamp) (s : State) : Bool :=
  match s.engine.lastTaken with
  | some t => decide (s.engine.run ≠ []) && expired s.session.hold t stamp
  | none => false

/-! ### The order of the engine's works (R40, R41) -/

/-- A retranslation request waits (R111). -/
def retransWaits (s : State) : Bool :=
  match s.engine.request with
  | some r => decide (r.phase = .pending)
  | none => false

/-- Work 3 is ready: a record waits at the translate cursor. -/
def takeReady (s : State) : Bool := decide (s.journal.cursor ≤ s.journal.head)

/-- The engine has work that the table lock holds back: it is WAITING (R39, R41, R113; DEDUCED, log entry 26). -/
def heldBack (s : State) : Bool := s.maint.lockHeld && (s.engine.changePending || retransWaits s || takeReady s)

/-- The activity follows the table lock and the works ready, but for a resolution or a retranslation (R39, R41). -/
def refreshActivity (s : State) : State :=
  match s.engine.activity with
  | .idle => { s with engine := { s.engine with activity := if heldBack s then .waiting else .idle } }
  | .waiting => { s with engine := { s.engine with activity := if heldBack s then .waiting else .idle } }
  | .resolving => s
  | .retranslating => s

/-- A settle that the journal guard demanded still has a state change to write (R62). -/
def changesWait (s : State) : Bool :=
  s.memory.logWork.any (fun w =>
    match w with
    | .change _ => true
    | .fetch _ => false
    | .startAppend => false
    | .endAppend => false)

/-- The engine may begin a work at all: the part is READY, the engine IDLE and not held back, no PUT or DROP has the next
turn at the table lock, and no settle of the journal guard is running (R40, R41, R62, R129). -/
def engineFree (s : State) : Bool :=
  decide (s.device.state = .ready) && decide (s.engine.activity = .idle) && !heldBack s && !s.maint.lockTurn
    && !changesWait s

/-- Work 1, a re-resolution, is the one to begin. -/
def mayReResolve (s : State) : Bool := engineFree s && s.engine.changePending

/-- Work 2, a retranslation, is the one to begin (R113). -/
def mayRetranslate (s : State) : Bool := engineFree s && !s.engine.changePending && retransWaits s

/-- Work 3, the take of a record, is the one to begin. -/
def mayTake (s : State) : Bool := engineFree s && !s.engine.changePending && !retransWaits s && takeReady s

/-- Work 4, a settle, is the one to begin when its own condition holds. -/
def maySettle (s : State) : Bool :=
  engineFree s && !s.engine.changePending && !retransWaits s && decide (s.journal.cursor = s.journal.head + 1)

/-- The head of the maintenance queue stands in LOCK WAIT. -/
def headInLockWait (m : Maintenance) : Bool :=
  match m.queue with
  | [] => false
  | e :: _ =>
    match e.phase with
    | .lockWait _ => true
    | .queued => false
    | .checking _ => false
    | .writing _ => false
    | .sweeping => false

/-- A resolution or a retranslation ends: a PUT or DROP in LOCK WAIT has the next turn at the lock (R129; `lockTurn` is a DESIGN
CHOICE, log entry 18), and the engine chooses again. -/
def endWork (s : State) : State :=
  refreshActivity { s with maint := { s.maint with lockTurn := headInLockWait s.maint } }

/-! ### Takes (R53, R104 to R107) -/

/-- The translate cursor advances past the record taken (R10). -/
def advanceCursor (s : State) : State := { s with journal := { s.journal with cursor := s.journal.cursor + 1 } }

/-- The last taken stamp becomes the record's (R52). -/
def noteTaken (stamp : Stamp) (s : State) : State := { s with engine := { s.engine with lastTaken := some stamp } }

/-- The run with a record as its newest entry (R53). -/
def runWith (r : JournalRecord) (e : Engine) : List RunEntry := e.run ++ [⟨r.seq, r.chord, r.stamp⟩]

/-- What a strike strikes out, given the state after its checks: the newest run stroke, else the newest listed unit's
strokes, else nothing (R104). -/
def strikeTarget (e : Engine) : List Nat :=
  match e.run.getLast? with
  | some r => [r.seq]
  | none =>
    match e.units.getLast? with
    | some u => u.strokes
    | none => []

/-- The journal writes of the take of a STRIKE record (R104, R108). -/
def strikeJournalWrites (r : JournalRecord) (e : Engine) : List JournalWrite :=
  match strikeTarget e with
  | [] => []
  | struck => strikeWrites r.seq struck

/-- The STRIKE record the engine would take next, if that is the work to begin. -/
def strikeAtCursor (s : State) : Option JournalRecord :=
  if mayTake s then
    match s.journal.recordAt s.journal.cursor with
    | some r =>
      match r.kind with
      | .strike _ => some r
      | .stroke _ => none
    | none => none
  else none

/-- The STROKE record the engine would take next, if that is the work to begin. -/
def strokeAtCursor (s : State) : Option JournalRecord :=
  if mayTake s then
    match s.journal.recordAt s.journal.cursor with
    | some r =>
      match r.kind with
      | .stroke _ => some r
      | .strike _ => none
    | none => none
  else none

/-! ### Eviction by the journal guard (R14, R62) -/

/-- The units naming a record leave the list as final (R14, R59). -/
def evictNaming (n : Nat) (s : State) : State :=
  { s with engine := { s.engine with units := s.engine.units.filter (fun u => decide (n ∉ u.strokes)) } }

/-- Whether a listed unit names a record or the run holds it (R14). -/
def recordNamed (n : Nat) (e : Shown) : Bool :=
  e.units.any (fun u => decide (n ∈ u.strokes)) || e.run.any (fun r => decide (r.seq = n))

/-- The log has the state changes of a settle still to write, before any work that comes after (R62, R81; DESIGN CHOICE,
log entry 10). -/
def postChanges (units : List ListedUnit) (s : State) : State :=
  { s with memory := { s.memory with
      logWork := s.memory.logWork ++ units.map (fun u => .change (segmentBlock u.segment)) } }

/-- The run holds a record, so that the guard has it settled before the record is overwritten (R14, R62). -/
def runHolds (n : Nat) (s : State) : Bool := s.engine.run.any (fun r => decide (r.seq = n))

/-- The settle that the guard demanded has its changes of the log made, if none of them is still to write: it counts as a
resolution for the table lock, and ends as one (R62, R129). -/
def guardSettled (s : State) : State := if changesWait s then s else endWork s

/-- The guard releases a record: a run that holds it is first settled, then the unit naming it is evicted; the settle ends once
its changes of the log are written (R14, R62). -/
def guardRelease (n : Nat) (s : State) : State :=
  if runHolds n s then guardSettled (evictNaming n (postChanges (provisionalListed s) (settleRun s))) else evictNaming n s

/-! ### Replay and rebuild (R114 to R120) -/

/-- The place of the start unit: the oldest unit whose newest stroke is at or after the start asked, else the newest
unit (R114). -/
def startIndex (start : Nat) (units : List ListedUnit) : Nat :=
  match units.findIdx? (fun u =>
    match u.strokes.getLast? with
    | some n => decide (start ≤ n)
    | none => false) with
  | some i => i
  | none => units.length - 1

/-- The sequence number of a unit's first stroke. -/
def ListedUnit.firstStroke (u : ListedUnit) : Nat := u.strokes.headD 0

/-- The private run is settled by expiry: its provisional units settle and are collected (R116). -/
def Replay.settle (r : Replay) : Replay :=
  { r with
    run := []
    collected := r.collected ++ r.provisional.map (fun q => { q with settled := true })
    provisional := []
    format := match r.provisional.getLast? with
      | some q => q.after
      | none => r.format }

/-- The private expiry check against a stamp (R116). -/
def Replay.expire (hold : Nat) (stamp : Stamp) (r : Replay) : Replay :=
  match r.lastFed with
  | some t => if r.run ≠ [] ∧ expired hold t stamp = true then r.settle else r
  | none => r

/-- The private run resolves to a new sequence and the run that stays (R115). -/
def Replay.resolved (roster : List (List Byte)) (seq : List Formed × List RunEntry) (r : Replay) : Replay :=
  let news := renderSequence roster r.format seq.1
  { r with
    run := seq.2
    format := settledAfter r.format news
    collected := r.collected ++ news.filter NewUnit.settled
    provisional := news.filter (fun q => !q.settled) }

/-- Resolve the private run (R115). -/
def Replay.resolve (slots : List (Nat × Slot)) (tiers : List TierId) (roster : List (List Byte)) (r : Replay) :
    Replay := r.resolved roster (formSequence slots tiers r.run)

/-- A record joins the private run as its newest entry, after the private expiry check by the hold time held then (R115,
R116). -/
def Replay.joinedBy (hold : Nat) (j : JournalRecord) (r : Replay) : Replay :=
  let r1 := r.expire hold j.stamp
  { r1 with run := r1.run ++ [⟨j.seq, j.chord, j.stamp⟩], lastFed := some j.stamp }

/-- Feed one record into the replay (R115, R116). -/
def Replay.feed (slots : List (Nat × Slot)) (tiers : List TierId) (roster : List (List Byte)) (hold : Nat)
    (r : Replay) (j : JournalRecord) : Replay := (r.joinedBy hold j).resolve slots tiers roster

/-- Whether a replay feeds a record: a LIVE STROKE (R115). -/
def JournalRecord.fed (r : JournalRecord) : Bool :=
  match r.kind with
  | .stroke struck => !struck
  | .strike _ => false

/-- The records a replay reads, from the start up to the translate cursor (R115). -/
def replaySpan (j : Journal) (start : Nat) : List JournalRecord :=
  (j.records.drop (start - j.oldest)).take (j.cursor - start)

/-- Feed, of some records in order, those a replay feeds (R115). -/
def Replay.feedAll (slots : List (Nat × Slot)) (tiers : List TierId) (roster : List (List Byte)) (hold : Nat)
    (r : Replay) (span : List JournalRecord) : Replay :=
  (span.filter JournalRecord.fed).foldl (Replay.feed slots tiers roster hold) r

/-- The new units of a replay: the collected settled units, then the private provisional ones (R115). -/
def Replay.news (r : Replay) : List NewUnit := r.collected ++ r.provisional

/-- Hand each requester its completion: the report of its PUT or DROP, then the retranslation values (R120). -/
def giveCompletions (values : List Byte) (rs : List Requester) (s : State) : State :=
  rs.foldl (fun s r => complete r.port (doneReply (r.report ++ values)) s) s

/-- The requesters of the request held. -/
def heldRequesters (s : State) : List Requester :=
  match s.engine.request with
  | some r => r.requesters
  | none => []

/-- The request is released and every requester receives the same values (R120, R124). -/
def finishRetranslation (startUsed withdrawn appended : Nat) (s : State) : State :=
  let s1 := { s with engine := { s.engine with request := none, activity := .idle } }
  endWork (giveCompletions (retransValues startUsed withdrawn appended) (heldRequesters s) s1)

/-- What a retranslation beginning at a unit fixes (R33, R114). -/
def replayStartOf (tiers : List TierId) (r : RetransRequest) (s : State) (u : ListedUnit) : ReplayStart :=
  { first := startIndex r.start.toNat s.engine.units, startUsed := u.firstStroke, tiers := tiers }

/-- The beginning of a retranslation after its headroom check (R113, R114, R124). -/
def beginRetranslation (tiers : List TierId) (r : RetransRequest) (s : State) : State :=
  match s.engine.units[startIndex r.start.toNat s.engine.units]? with
  | none => finishRetranslation s.journal.cursor 0 0 s
  | some u =>
    { s with engine := { s.engine with
        activity := .retranslating
        request := some { r with phase := .inProgress (replayStartOf tiers r s u) } } }

/-- The before-state of the start unit, which begins the private format state (R115). -/
def replayBefore (p : ReplayStart) (e : Engine) : FormatState :=
  match (e.units.drop p.first).head? with
  | some u => u.before
  | none => e.format

/-- A replay as it begins: nothing fed, and the private format state is the start unit's before-state (R115). -/
def Replay.start (p : ReplayStart) (e : Engine) : Replay :=
  { run := [], format := replayBefore p e, collected := [], provisional := [], lastFed := none }

end Sys2Proof.Machine
end

