-- ==== Sys2Proof/Machine/Works.lean ====
section
/-! DEFINITION. How a work of the engine goes on: the stages of a resolution, a settle, a strike and a replay, the
transactions each asks for, and what each does once they are made (R40 to R62, R104 to R120, R183). -/

namespace Sys2Proof.Machine

/-! ### Transactions of a work (R183) -/

/-- The requester a transaction belongs to: slots and journal records are XLATE's, segments LOG's (R183). -/
def Use.requester : Use → MemRequester
  | .record _ => .xlate
  | .slot _ => .xlate
  | .write _ => .xlate
  | .promote _ => .log
  | .withdraw _ => .log
  | .turn _ => .log
  | .text _ => .log

/-- The record a journal write is made to. -/
def JournalWrite.seq : JournalWrite → Nat
  | .mark n => n
  | .target n _ => n

/-- The block of a transaction; an append's is that of the number after newest (R182). -/
def Use.block (newest : SegNo) : Use → Block
  | .record n => recordBlock n
  | .slot n => .slot n
  | .write w => recordBlock w.seq
  | .promote g => segmentBlock g
  | .withdraw _ => segmentBlock (newest + 1#32)
  | .turn g => segmentBlock g
  | .text _ => segmentBlock (newest + 1#32)

/-- The transactions that follow the write of a WITHDRAW: one for each target that turns (R81, R85). -/
def turnUses (s : State) : Use → List Use
  | .withdraw k => (((makeRoom s).log.segments.filter ((makeRoom s).log.isTarget k)).map Segment.number).map .turn
  | .record _ => []
  | .slot _ => []
  | .write _ => []
  | .promote _ => []
  | .turn _ => []
  | .text _ => []

/-- The next slot read of a resolution that has made the reads in `seen` (R27, R183). -/
def nextRead (slots : List (Nat × Slot)) (seen : List Slot) (tiers : List TierId) (run : List RunEntry) : List Use :=
  ((formBy (readSlot slots seen) tiers run).2[seen.length]?).toList.map .slot

/-- The new sequence of a run and the run that stays, by what a resolution's reads have found (R34, R43 to R45). -/
def formedBy (slots : List (Nat × Slot)) (seen : List Slot) (tiers : List TierId) (run : List RunEntry) :
    List Formed × List RunEntry := (formBy (readSlot slots seen) tiers run).1

/-! ### The stages (R53, R54, R60, R104, R115) -/

/-- The record at the translate cursor. -/
def recordToTake (s : State) : Option JournalRecord := s.journal.recordAt s.journal.cursor

/-- A take's headroom and expiry checks, either of which has the run settled (R53, R60, R104). -/
def takeSettles (s : State) : Bool :=
  headroomDue Config.takeHeadroom s ||
    (match recordToTake s with
     | some r => expiryDue r.stamp s
     | none => false)

/-- Whether a work begins with a settle of the run, by its checks as they are made now (R52 to R55, R60, R62, R113). -/
def settleDue (s : State) : WorkKind → Bool
  | .reResolution => headroomDue Config.takeHeadroom s
  | .retranslationStart => headroomDue Config.replayHeadroom s
  | .takeStroke => takeSettles s
  | .takeStrike => takeSettles s
  | .expiry => true
  | .closeSettle => true
  | .rebuild => false

/-- A work comes to its settle, if its checks ask for one (R54, R60). -/
def toSettling (w : EngineWork) (s : State) : EngineWork × State :=
  if settleDue s w.kind then ({ w with stage := .settling, left := settleUses s }, emptyRun s)
  else ({ w with stage := .settling, left := [] }, s)

/-- A work comes to the resolution of a run (R43 to R45). -/
def toForming (run : List RunEntry) (w : EngineWork) (s : State) : EngineWork × State :=
  ({ w with stage := .forming [], left := nextRead s.dict.slots [] w.tiers run },
   { s with engine := { s.engine with run := run } })

/-- A take of a STROKE record comes to the resolution of the run with the record as its newest entry (R53). -/
def takeForms (r : JournalRecord) (w : EngineWork) (s : State) : EngineWork × State :=
  toForming (runWith r s.engine) w (noteTaken r.stamp s)

/-- A strike against a settled unit takes it out of the list, restores its before-state and asks for one WITHDRAW (R106). -/
def strikeUnit (u : ListedUnit) (w : EngineWork) (s : State) : EngineWork × State :=
  ({ w with stage := .ending 0 0, left := [.withdraw (u.segment - 1#32)] },
   { s with engine := { s.engine with units := s.engine.units.dropLast, format := u.before } })

/-- A strike after its journal writes, in its three cases (R104 to R107). -/
def strikeGoesOn (w : EngineWork) (s : State) : EngineWork × State :=
  if s.engine.run = [] then
    match s.engine.units.getLast? with
    | some u => strikeUnit u w s
    | none => ({ w with stage := .ending 0 0, left := [] }, s)
  else toForming s.engine.run.dropLast w s

/-- What a work does once its settle is made (R53, R60, R61, R104). -/
def afterSettle (w : EngineWork) (s : State) : EngineWork × State :=
  match w.kind, recordToTake s with
  | .takeStroke, some r => takeForms r w s
  | .takeStrike, some r => ({ w with stage := .striking, left := (strikeJournalWrites r s.engine).map .write }, s)
  | .reResolution, _ => toForming s.engine.run w s
  | _, _ => ({ w with stage := .ending 0 0, left := [] }, s)

/-- The last taken stamp becomes that of the record being taken (R104). -/
def noteRecord (s : State) : State :=
  match recordToTake s with
  | some r => noteTaken r.stamp s
  | none => s

/-- A resolution that has made its reads has the new sequence rendered with the roster held now, and asks for the differences
(R43 to R51; when it renders: DESIGN CHOICE, log entry 38). -/
def afterForming (seq : List Formed × List RunEntry) (w : EngineWork) (s : State) : EngineWork × State :=
  let news := renderSequence s.roster s.engine.format seq.1
  let j := leadingMatches s.log (provisionalListed s) news
  let s1 := keepUnits false (settledUnits s) (provisionalListed s) news j s
  ({ w with stage := .ending 0 0, left := diffUses (provisionalListed s) news j },
   { s1 with engine := { s1.engine with run := seq.2, format := settledAfter s.engine.format news } })

/-- The next record of a replay is to be read (R115). -/
def toReading (rep : Replay) (span : List JournalRecord) (w : EngineWork) (s : State) : EngineWork × State :=
  ({ w with stage := .reading rep span, left := (span.head?.map (fun j => Use.record j.seq)).toList }, s)

/-- A record of a replay is read: it is fed, by the hold time held now, or passed over (R115, R116; when the check is made:
DESIGN CHOICE, log entry 16). -/
def replayReads (rep : Replay) (j : JournalRecord) (rest : List JournalRecord) (w : EngineWork) (s : State) :
    EngineWork × State :=
  if j.fed then
    ({ w with stage := .feeding (rep.joinedBy s.session.hold j) [] rest,
              left := nextRead s.dict.slots [] w.tiers (rep.joinedBy s.session.hold j).run }, s)
  else toReading rep rest w s

/-- The start values of the retranslation in progress. -/
def replayHeld (s : State) : Option ReplayStart :=
  match s.engine.request with
  | some r =>
    match r.phase with
    | .inProgress p => some p
    | .pending => none
  | none => none

/-- The replay ends with its final expiry check by the clock and the hold time held now, and the engine asks for the
differences; the live run and format become the private ones (R116, R118, R119; when the check is made: DESIGN CHOICE, log entry
16). -/
def afterReplay (rep : Replay) (p : ReplayStart) (w : EngineWork) (s : State) : EngineWork × State :=
  let rep1 := rep.expire s.session.hold s.session.clock
  let old := s.engine.units.drop p.first
  let j := leadingMatches s.log old rep1.news
  let s1 := keepUnits true (s.engine.units.take p.first) old rep1.news j s
  ({ w with stage := .ending (old.length - j) (rep1.news.length - j), left := diffUses old rep1.news j },
   { s1 with engine := { s1.engine with run := rep1.run, format := rep1.format } })

/-- A replay has fed all its records. -/
def replayEnds (rep : Replay) (w : EngineWork) (s : State) : EngineWork × State :=
  match replayHeld s with
  | some p => afterReplay rep p w s
  | none => ({ w with stage := .ending 0 0, left := [] }, s)

/-- A work whose stage has all its transactions made comes to its next stage. -/
def leaveStage (w : EngineWork) (s : State) : EngineWork × State :=
  match w.stage with
  | .taking => toSettling w s
  | .settling => afterSettle w s
  | .striking => strikeGoesOn w (noteRecord s)
  | .forming seen => afterForming (formedBy s.dict.slots seen w.tiers s.engine.run) w s
  | .reading rep [] => replayEnds rep w s
  | .reading rep (j :: rest) => replayReads rep j rest w s
  | .feeding rep seen rest =>
    toReading (rep.resolved s.roster (formedBy s.dict.slots seen w.tiers rep.run)) rest w s
  | .ending _ _ => (w, s)

/-! ### Going on after a transaction (R183) -/

/-- The work changes the log and has nothing after that. -/
def Stage.last : Stage → Bool
  | .ending _ _ => true
  | .taking => false
  | .settling => false
  | .striking => false
  | .forming _ => false
  | .reading _ _ => false
  | .feeding _ _ _ => false

/-- All transactions of a work are made. -/
def EngineWork.made (w : EngineWork) : Bool := w.stage.last && w.left.isEmpty

/-- The next read of a stage that reads slots, by what it has read so far. -/
def moreReads (w : EngineWork) (s : State) : List Use :=
  match w.stage with
  | .forming seen => nextRead s.dict.slots seen w.tiers s.engine.run
  | .feeding rep seen _ => nextRead s.dict.slots seen w.tiers rep.run
  | .taking => []
  | .settling => []
  | .striking => []
  | .reading _ _ => []
  | .ending _ _ => []

/-- A work with no transaction to make goes on, by at most so many stages, until it asks for one or only its row is left. -/
def goOn : Nat → EngineWork × State → EngineWork × State
  | 0, x => x
  | n + 1, x =>
    if x.1.stage.last || !x.1.left.isEmpty then x
    else
      match moreReads x.1 x.2 with
      | [] => goOn n (leaveStage x.1 x.2)
      | u :: us => ({ x.1 with left := u :: us }, x.2)

/-- What a work's reads have found, once a slot read is made: the slot as it then stands (R34). -/
def Stage.saw (slots : List (Nat × Slot)) (u : Use) (st : Stage) : Stage :=
  match u, st with
  | .slot n, .forming seen => .forming (seen ++ [slotAt slots n.toNat])
  | .slot n, .feeding rep seen rest => .feeding rep (seen ++ [slotAt slots n.toNat]) rest
  | _, _ => st

/-- A work whose next transaction has been made, with all it brings about, goes on (R51, R85, R108, R183). -/
def useMade (w : EngineWork) (u : Use) (rest : List Use) (s : State) : EngineWork × State :=
  goOn 5 ({ w with stage := w.stage.saw s.dict.slots u, left := turnUses s u ++ rest }, carryUse u s)

/-- The engine's block holds a work. -/
def setWork (x : EngineWork × State) : State := { x.2 with memory := { x.2.memory with engineWork := some x.1 } }

end Sys2Proof.Machine
end

