-- ==== Sys2Proof/Machine/Arbiter.lean ====
section
/-! DEFINITION. The entry memory controller: blocks and regions, requests of the five requesters, the arbiter's grant,
and the end of a transaction (R182 to R187). -/

namespace Sys2Proof.Machine

/-! ### Regions (R182) -/

/-- The byte offset of a block's first byte from the first byte of the SDRAM (R182). -/
def blockFirst : Block → Nat
  | .header => 0
  | .slot n => 64 + 64 * n.toNat
  | .record p => 16777280 + 64 * p.toNat
  | .segment p => 20971584 + 128 * p.toNat

/-- The bytes of a block (R182). -/
def blockSize : Block → Nat
  | .header => 64
  | .slot _ => 64
  | .record _ => 64
  | .segment _ => 128

/-! ### Requests (R183) -/

/-- Whether a block's region is one a requester reads or writes (R183). -/
def servedTo : MemRequester → Block → Bool
  | .xlate, .slot _ => true
  | .xlate, .record _ => true
  | .log, .segment _ => true
  | .maint, .header => true
  | .maint, .slot _ => true
  | .intake, .record _ => true
  | .pull, .record _ => true
  | _, _ => false

/-- The transaction a piece of the caption log's work asks for next; none once a FETCH has read everything. -/
def LogWork.transaction (newest : SegNo) : LogWork → Option Transaction
  | .fetch w => w.reads.head?.map (fun b => { requester := .log, block := b, work := .fetchRead })
  | .startAppend => some { requester := .log, block := segmentBlock (newest + 1#32), work := .startAppend }
  | .endAppend => some { requester := .log, block := segmentBlock (newest + 1#32), work := .endAppend }
  | .change b => some { requester := .log, block := b, work := .change }

/-- The next transaction of the engine's work begun, if it is that requester's: its block asks for one at a time (R183). -/
def engineTransaction (m : Memory) (newest : SegNo) (r : MemRequester) : Option Transaction :=
  match m.engineWork with
  | some w =>
    match w.left with
    | u :: _ => if u.requester = r then some { requester := r, block := u.block newest, work := .engine } else none
    | [] => none
  | none => none

/-- The next transaction of the maintenance unit's step begun (R183). -/
def maintTransaction (m : Memory) : Option Transaction :=
  match m.maintWork with
  | some w => w.left.head?.map (fun u => { requester := .maint, block := u.block, work := .maint })
  | none => none

/-- The append at the head of intake's queue waits for the state changes of the settle that its own guard demanded (R5, R62). -/
def appendHeld (s : State) : Bool :=
  match s.memory.intakeWork with
  | w :: _ => w.guarded && changesWait s
  | [] => false

/-- Whether the engine lets the lock be taken: it is IDLE or WAITING, and no settle of the journal guard is running
(R129). -/
def lockMayBeTaken (s : State) : Bool :=
  (decide (s.engine.activity = .idle) || decide (s.engine.activity = .waiting)) && !changesWait s

/-- The head stands before its writes, and cannot begin them now: a PUT or DROP in LOCK WAIT that the engine keeps from the lock,
or a CLEAR TIER during a retranslation. The header's write WRITING, with whose grant it begins, is not asked for then (R129,
R139; log entry 17). -/
def writesWithheld (s : State) : Bool :=
  match s.maint.queue.head? with
  | none => false
  | some e =>
    match e.request, e.phase with
    | _, .lockWait _ => !lockMayBeTaken s
    | .clearTier _, .checking true => decide (s.engine.activity = .retranslating)
    | _, _ => false

/-- The transaction each requester is requesting, one at most (R183). What the log has taken up stands before a work of the
engine. -/
def requestOf (s : State) : MemRequester → Option Transaction
  | .intake =>
    if appendHeld s then none
    else s.memory.intakeWork.head?.map (fun _ =>
      { requester := .intake, block := recordBlock (s.journal.head + 1), work := .journalAppend })
  | .xlate => engineTransaction s.memory s.log.newest .xlate
  | .log =>
    match s.memory.logWork with
    | w :: _ => w.transaction s.log.newest
    | [] => engineTransaction s.memory s.log.newest .log
  | .maint =>
    if s.device.state = .starting ∧ s.device.startup = .readHeader then
      some { requester := .maint, block := .header, work := .headerRead }
    else if writesWithheld s then none
    else maintTransaction s.memory
  | .pull =>
    match s.memory.pullWork with
    | w :: _ => w.left.head?.map (fun r => { requester := .pull, block := recordBlock r.seq, work := .pullRead })
    | [] => none

/-- Whether a requester is requesting. -/
def requesting (s : State) (r : MemRequester) : Bool := (requestOf s r).isSome

/-! ### The grant (R184, R185) -/

def PassCounts.get (c : PassCounts) : MemRequester → Nat
  | .intake => 0
  | .xlate => c.xlate
  | .log => c.log
  | .maint => c.maint
  | .pull => c.pull

/-- The requester granted among those requesting: INTAKE; else the highest at count 8; else the highest (R184). -/
def arbitrate (s : State) : Option MemRequester :=
  if requesting s .intake then some .intake
  else
    match (s.memory.order.filter (requesting s)).find? (fun r => decide (s.memory.counts.get r = Config.passLimit)) with
    | some r => some r
    | none => (s.memory.order.filter (requesting s)).head?

/-- A pass-over count after a grant: 0 for the one granted, one more for another that was requesting, held at 8 (R184). -/
def countAfter (s : State) (granted r : MemRequester) : Nat :=
  if r = granted then 0
  else if requesting s r then min (s.memory.counts.get r + 1) Config.passLimit
  else s.memory.counts.get r

/-- The order after a grant (R185), start-up's among them (R187, R191; DESIGN CHOICE, log entry 44). -/
def orderAfter (mode : ArbiterMode) (order : List MemRequester) (granted : MemRequester) : List MemRequester :=
  match mode with
  | .fixed => order
  | .rotating => if granted = .intake then order else order.erase granted ++ [granted]

/-- The grant of a transaction to a requester (R184, R185; in start-up too, log entry 44). -/
def grantTo (r : MemRequester) (t : Transaction) (s : State) : State :=
  { s with memory := { s.memory with
      inProgress := some t
      counts := { xlate := countAfter s r .xlate, log := countAfter s r .log, maint := countAfter s r .maint,
                  pull := countAfter s r .pull }
      order := orderAfter s.memory.mode s.memory.order r } }

/-- With no transaction in progress, grant one waiting requester; with none waiting, grant nothing (R184). -/
def grant (s : State) : State :=
  match s.memory.inProgress with
  | some _ => s
  | none =>
    match arbitrate s with
    | none => s
    | some r =>
      match requestOf s r with
      | some t => grantTo r t s
      | none => s

/-- The state in which a transaction of the work given is in progress: as it stands, or after the grant the arbiter
makes when the memory is idle (DESIGN CHOICE, log entry 9). -/
def granted (w : TxWork) (s : State) : Option State :=
  match (grant s).memory.inProgress with
  | some t => if t.work = w then some (grant s) else none
  | none => none

/-- The transaction in progress ends (R182). -/
def endTransaction (s : State) : State := { s with memory := { s.memory with inProgress := none } }

/-! ### Grants to one block alone (R183 to R185) -/

/-- A pass-over count back at 0. -/
def PassCounts.clear (c : PassCounts) : MemRequester → PassCounts
  | .intake => c
  | .xlate => { c with xlate := 0 }
  | .log => { c with log := 0 }
  | .maint => { c with maint := 0 }
  | .pull => { c with pull := 0 }

/-- The arbiter after a grant to a requester while no other was requesting, and the end of its transaction. -/
def grantAlone (m : Memory) (r : MemRequester) : Memory :=
  { m with counts := m.counts.clear r, order := orderAfter m.mode m.order r }

/-- The arbiter after such grants one after another. -/
def servedAlone (m : Memory) (rs : List MemRequester) : Memory := rs.foldl grantAlone m

/-- No transaction is in progress and no request of a port waits for entry memory. -/
def memoryFree (m : Memory) : Bool :=
  m.inProgress.isNone && m.intakeWork.isEmpty && m.logWork.isEmpty && m.pullWork.isEmpty

/-! ### Reads of PULL and FETCH (R160) -/

/-- The item of a record as a PULL reads it: as the ring has it now, or, where it has been overwritten since the PULL, as it
then stood (R15, R108; DEDUCED, log entry 7). An OPEN leaves no read of a PULL to be made (R149; log entry 39). -/
def pullItem (s : State) (p : PortId) (r : JournalRecord) : List Byte :=
  recordItem ((s.journal.recordAt r.seq).getD r) (offsetOf p s)

/-- One read of a PULL ends, with the item it makes; the response is formed after the last (R108, R160). -/
def pullReadEnds (s : State) : State :=
  match s.memory.pullWork with
  | [] => s
  | w :: rest =>
    match w.left with
    | [] => s
    | r :: more =>
      let items := w.items ++ pullItem s w.port r
      if more = [] then
        answer w.port .pull w.tag (doneReply items) { s with memory := { s.memory with pullWork := rest } }
      else { s with memory := { s.memory with pullWork := { w with left := more, items := items } :: rest } }

/-- One read of a FETCH ends; the response is formed after the last (R160). -/
def fetchReadEnds (s : State) : State :=
  match s.memory.logWork with
  | .fetch w :: rest =>
    if w.reads.length ≤ 1 then
      answer w.port .fetch w.tag (doneReply w.items) { s with memory := { s.memory with logWork := rest } }
    else { s with memory := { s.memory with logWork := .fetch { w with reads := w.reads.drop 1 } :: rest } }
  | .startAppend :: _ => s
  | .endAppend :: _ => s
  | .change _ :: _ => s
  | [] => s

/-- One transaction of the engine's work ends, and the work goes on (R51, R183). -/
def engineUseEnds (s : State) : State :=
  match s.memory.engineWork with
  | some w =>
    match w.left with
    | u :: rest => setWork (useMade w u rest s)
    | [] => s
  | none => s

/-- One transaction of the maintenance unit's step ends with what it writes, and those that follow from it are to make (R183).
The last one of a PUT, a DROP or a CLEAR TIER writes the header CONSISTENT; a reset that comes after it, and before the row that
ends the request, keeps the table (R38, R145, R190; DESIGN CHOICE, log entry 43). -/
def maintUseEnds (s : State) : State :=
  match s.memory.maintWork with
  | some w =>
    match w.left with
    | u :: rest =>
      { s with
        dict := u.carry s.dict
        memory := { s.memory with maintWork := some { w with
          removed := w.removed + u.found s.dict.slots, left := u.goesOn s.dict.slots ++ rest } } }
    | [] => s
  | none => s

/-- The log's work once an append or a state change at its head is made; a FETCH's reads end one by one. -/
def LogWork.made : List LogWork → List LogWork
  | .fetch w :: rest => .fetch w :: rest
  | .startAppend :: rest => rest
  | .endAppend :: rest => rest
  | .change _ :: rest => rest
  | [] => []

/-- One state change of the log ends; with the last one the settle that the journal guard demanded ends (R62, R81, R129). -/
def changeEnds (s : State) : State :=
  guardSettled { s with memory := { s.memory with logWork := LogWork.made s.memory.logWork } }

/-- A granted transaction of XLATE, LOG, MAINT or PULL ends and its block goes on (R182). The ends of the journal
append, the START and END appends and the start-up header read are steps of their own. -/
def transactionEnds (s : State) : State :=
  match s.memory.inProgress with
  | none => s
  | some t =>
    match t.work with
    | .pullRead => pullReadEnds (endTransaction s)
    | .fetchRead => fetchReadEnds (endTransaction s)
    | .engine => engineUseEnds (endTransaction s)
    | .maint => maintUseEnds (endTransaction s)
    | .change => changeEnds (endTransaction s)
    | .journalAppend => s
    | .dropped => endTransaction s
    | .headerRead => s
    | .startAppend => s
    | .endAppend => s

end Sys2Proof.Machine
end

