-- ==== Sys2Proof/Machine/Flags.lean ====
section
/-! DEFINITION. The flags of the part computed from its state: the attention lines with their conditions (R101 to R103). -/

namespace Sys2Proof.Machine

/-! ### Attention (R101 to R103) -/

/-- The completion condition: an uncollected completion (R101, R168). -/
def completionCondition (s : State) (p : PortId) : Bool :=
  match (s.ports.get p).slot with
  | .held .. => true
  | .clear => false
  | .inProgress .. => false

/-- The feed condition: the next FETCH of the port's feed would deliver an item (R102). -/
def feedCondition (s : State) (p : PortId) : Bool :=
  match s.feeds.get p with
  | some f => feedWouldDeliver s.log p f
  | none => false

/-- The pull condition: the port holds PULL and its next PULL would deliver an item (R103). -/
def pullCondition (s : State) (p : PortId) : Bool :=
  match s.journal.pull.get p with
  | some c => holdsClass (s.access.get p).classes .pull && (decide (c.cursor < s.journal.cursor) || decide (0 < c.gap))
  | none => false

/-- The attention line of a port: asserted while a condition holds and the part is READY (R101; computed: DESIGN
CHOICE, log entry 22). -/
def attention (s : State) (p : PortId) : Bool :=
  decide (s.device.state = .ready) && (completionCondition s p || feedCondition s p || pullCondition s p)

end Sys2Proof.Machine
end

