-- ==== Sys2Proof/Machine/Operands.lean ====
section
/-! DEFINITION. The fields of every request body, each with the field check of its owner: a body that fails gives the
index of the field at fault, which is the detail of the MALFORMED refusal (R164 check 4, R165). -/

namespace Sys2Proof.Machine

/-! ### Small forms -/

/-- One byte and nothing else; any other length fails field 0. -/
def oneByte : List Byte → Except Nat Byte
  | [b] => .ok b
  | _ => .error 0

/-- An empty body; any other length fails field 0. -/
def noBody : List Byte → Except Nat Unit
  | [] => .ok ()
  | _ :: _ => .error 0

/-- A value below four as a port or tier. -/
def four? (n : Nat) : Option (Fin 4) := if h : n < 4 then some ⟨n, h⟩ else none

/-- A character of text, 0x20 to 0x7E. -/
def printable (b : Byte) : Bool := decide (0x20 ≤ b.toNat) && decide (b.toNat ≤ 0x7E)

/-- A tier byte and nothing else (R139, R142). -/
def tierBody (body : List Byte) : Except Nat TierId :=
  match body with
  | [b] =>
    match four? b.toNat with
    | some t => .ok t
    | none => .error 0
  | _ => .error 0

/-- A port byte and nothing else (R175). -/
def portBody (body : List Byte) : Except Nat PortId := tierBody body

/-! ### STROKE (R1, R2) -/

/-- The 24-bit value of the three bytes with bit 23 cleared (R1). -/
def maskChord (b0 b1 b2 : Byte) : Chord := BitVec.ofNat 23 (leNat [b0, b1, b2] &&& Config.chordMask)

/-- The chord of a STROKE body; any length but three fails field 0 (R1). -/
def strokeBody : List Byte → Except Nat Chord
  | [b0, b1, b2] => .ok (maskChord b0 b1 b2)
  | _ => .error 0

/-! ### Settings and access (R35, R155, R156, R173, R174, R186) -/

/-- The enable mask: the upper four bits clear (R35). -/
def tiersBody (body : List Byte) : Except Nat Byte :=
  match body with
  | [b] => if b.toNat < 16 then .ok b else .error 0
  | _ => .error 0

/-- The hold time as given, two bytes (R155). -/
def holdBody : List Byte → Except Nat Nat
  | [b0, b1] => .ok (leNat [b0, b1])
  | _ => .error 0

/-- The hold time held for a value given (R155). -/
def clampHold (n : Nat) : Nat :=
  if n < Config.holdLow then Config.holdLow else if Config.holdHigh < n then Config.holdHigh else n

/-- Port and offset (R156). Of several fields at fault the first is reported
(DESIGN CHOICE, log entry 42). -/
def offsetBody : List Byte → Except Nat (PortId × Word32)
  | [] => .error 0
  | b :: rest =>
    match four? b.toNat with
    | none => .error 0
    | some p =>
      match rest with
      | [o0, o1, o2, o3] => .ok (p, BitVec.ofNat 32 (leNat [o0, o1, o2, o3]))
      | _ => .error 1

/-- The arbiter mode (R186). -/
def arbiterBody : List Byte → Except Nat ArbiterMode
  | [b] => if b = 0#8 then .ok .fixed else if b = 1#8 then .ok .rotating else .error 0
  | _ => .error 0

/-- Port and class set (R173). Of several fields at fault the first is reported
(DESIGN CHOICE, log entry 42). -/
def accessBody : List Byte → Except Nat (PortId × BitVec 7)
  | [] => .error 0
  | b :: rest =>
    match four? b.toNat with
    | none => .error 0
    | some p =>
      match rest with
      | [c] => if c.getLsbD 7 then .error 1 else .ok (p, c.setWidth 7)
      | _ => .error 1

/-- Port and trust value (R174). Of several fields at fault the first is reported
(DESIGN CHOICE, log entry 42). -/
def trustBody : List Byte → Except Nat (PortId × Bool)
  | [] => .error 0
  | b :: rest =>
    match four? b.toNat with
    | none => .error 0
    | some p =>
      match rest with
      | [v] => if v = 0#8 then .ok (p, false) else if v = 1#8 then .ok (p, true) else .error 1
      | _ => .error 1

/-! ### SPEAKER (R74) -/

/-- Slot and name: the slot fails field 0, any character of the name field 1 (R74). Of several fields at fault the
first is reported (DESIGN CHOICE, log entry 42). -/
def speakerBody : List Byte → Except Nat (Nat × List Byte)
  | [] => .error 0
  | b :: name =>
    if 15 < b.toNat then .error 0 else if name.all printable then .ok (b.toNat, name) else .error 1

/-! ### SUBSCRIBE (R89) -/

/-- The forms of the starting point. -/
inductive StartPoint where
  | oldest
  | next
  | number (n : SegNo)
deriving DecidableEq, Repr

/-- The mode byte. -/
def feedMode? (b : Byte) : Option FeedMode := if b = 0#8 then some .live else if b = 1#8 then some .settled else none

/-- The starting point by its form byte and what follows; a length that does not fit the form fails field 2. -/
def startPoint (form : Byte) (rest : List Byte) : Except Nat StartPoint :=
  if form = 0#8 then (if rest = [] then .ok .oldest else .error 2)
  else if form = 1#8 then (if rest = [] then .ok .next else .error 2)
  else if form = 2#8 then (if rest.length = 4 then .ok (.number (BitVec.ofNat 32 (leNat rest))) else .error 2)
  else .error 1

/-- Mode and starting point (R89). Of several fields at fault the first is reported
(DESIGN CHOICE, log entry 42). -/
def subscribeBody : List Byte → Except Nat (FeedMode × StartPoint)
  | [] => .error 0
  | [_] => .error 0
  | m :: form :: rest =>
    match feedMode? m with
    | none => .error 0
    | some mode =>
      match startPoint form rest with
      | .ok start => .ok (mode, start)
      | .error d => .error d

/-! ### Sessions (R147) -/

/-- Job number and discard flag (R147). Of several fields at fault the first is reported
(DESIGN CHOICE, log entry 42). -/
def openBody : List Byte → Except Nat (BitVec 16 × Bool)
  | [] => .error 0
  | [_] => .error 0
  | b0 :: b1 :: rest =>
    if leNat [b0, b1] = 0 then .error 0
    else
      match rest with
      | [o] => if o.toNat < 2 then .ok (BitVec.ofNat 16 (leNat [b0, b1]), o.getLsbD 0) else .error 1
      | _ => .error 1

/-- The start of a RETRANSLATE, four bytes (R110). -/
def retranslateBody : List Byte → Except Nat Word32
  | [b0, b1, b2, b3] => .ok (BitVec.ofNat 32 (leNat [b0, b1, b2, b3]))
  | _ => .error 0

/-! ### Strokes of PUT, DROP and GET (R131 field 2) -/

/-- A chord of a dictionary request: 1 to 8,388,607 and not the strike. It is not masked (R131). -/
def keyChord (b0 b1 b2 : Byte) : Option Chord :=
  let v := leNat [b0, b1, b2]
  if v = 0 ∨ v = 1024 ∨ Config.chordMask < v then none else some (BitVec.ofNat 23 v)

/-- That many chords, and what follows them. -/
def chords : Nat → List Byte → Option (List Chord × List Byte)
  | 0, rest => some ([], rest)
  | n + 1, b0 :: b1 :: b2 :: rest =>
    match keyChord b0 b1 b2, chords n rest with
    | some c, some (cs, rest') => some (c :: cs, rest')
    | _, _ => none
  | _ + 1, _ => none

/-- A count of 1 to 6 and that many chords, and what follows them (R131 field 2). -/
def strokesField : List Byte → Option (List Chord × List Byte)
  | [] => none
  | n :: rest => if n.toNat = 0 ∨ Config.longestKey < n.toNat then none else chords n.toNat rest

/-- Tier, options with the retranslate flag, and strokes: fields 0 to 2 of PUT and DROP, and what follows (R131, R135). -/
def keyFields : List Byte → Except Nat (TierId × Bool × List Chord × List Byte)
  | [] => .error 0
  | t :: rest =>
    match four? t.toNat with
    | none => .error 0
    | some tier =>
      match rest with
      | [] => .error 1
      | o :: rest2 =>
        if 1 < o.toNat then .error 1
        else
          match strokesField rest2 with
          | none => .error 2
          | some (cs, rest3) => .ok (tier, o.getLsbD 0, cs, rest3)

/-! ### PUT (R131) -/

/-- Field 5 of a TEXT: length and text, and nothing after (R131). -/
def textField (flags : TextFlags) : List Byte → Except Nat Content
  | [] => .error 5
  | n :: text =>
    if Config.textLimit < n.toNat ∨ text.length ≠ n.toNat ∨ text.all printable = false
        ∨ (text = [] ∧ flags.allClear = true) then .error 5
    else .ok (.text text flags)

/-- Fields 4 and 5 of a TEXT (R131). -/
def textContent : List Byte → Except Nat Content
  | [] => .error 4
  | f :: rest =>
    if 64 ≤ f.toNat ∨ ((TextFlags.ofCode f).capNext = true ∧ (TextFlags.ofCode f).lowerNext = true) then .error 4
    else textField (TextFlags.ofCode f) rest

/-- Field 5 of a SPEAKER: the argument, and nothing after (R131). -/
def speakerArgument : List Byte → Except Nat Content
  | [a] => if h : a.toNat < 16 then .ok (.command (.speaker ⟨a.toNat, h⟩)) else .error 5
  | _ => .error 5

/-- A command without an argument: nothing may follow field 4 (R131). -/
def bareCommand (c : Command) (rest : List Byte) : Except Nat Content :=
  if rest = [] then .ok (.command c) else .error 4

/-- Fields 4 and 5 of a COMMAND (R131). -/
def commandContent : List Byte → Except Nat Content
  | [] => .error 4
  | c :: rest =>
    if c = 0#8 then bareCommand .paragraph rest
    else if c = 1#8 then speakerArgument rest
    else if c = 2#8 then bareCommand .capsOn rest
    else if c = 3#8 then bareCommand .capsOff rest
    else .error 4

/-- Fields 3 to 5 of PUT (R131). -/
def contentFields : List Byte → Except Nat Content
  | [] => .error 3
  | k :: rest => if k = 0#8 then textContent rest else if k = 1#8 then commandContent rest else .error 3

/-- The body of PUT (R131). -/
def putBody (body : List Byte) : Except Nat MaintRequest :=
  match keyFields body with
  | .error d => .error d
  | .ok (tier, flag, strokes, rest) =>
    match contentFields rest with
    | .error d => .error d
    | .ok content => .ok (.put tier flag strokes content)

/-! ### DROP, CLEAR TIER, GET (R135, R139, R143) -/

/-- The body of DROP: nothing may follow field 2 (R135). -/
def dropBody (body : List Byte) : Except Nat MaintRequest :=
  match keyFields body with
  | .error d => .error d
  | .ok (tier, flag, strokes, rest) => if rest = [] then .ok (.drop tier flag strokes) else .error 2

/-- The body of CLEAR TIER (R139). -/
def clearBody (body : List Byte) : Except Nat MaintRequest :=
  match tierBody body with
  | .error d => .error d
  | .ok t => .ok (.clearTier t)

/-- The tier of a GET: 0 to 3, or 255 for ANY (R143). -/
def getTier (b : Byte) : Option (Option TierId) :=
  if b = 255#8 then some none else (four? b.toNat).map some

/-- The body of GET: tier and strokes, nothing after (R143). Of several fields at fault the first is reported
(DESIGN CHOICE, log entry 42). -/
def getBody : List Byte → Except Nat MaintRequest
  | [] => .error 0
  | t :: rest =>
    match getTier t with
    | none => .error 0
    | some tier =>
      match strokesField rest with
      | none => .error 1
      | some (cs, rest2) => if rest2 = [] then .ok (.get tier cs) else .error 1

/-- The owner's field check: a body that fails is refused MALFORMED with its detail (R164 check 4). -/
def withFields {α : Type} (p : PortId) (k : Kind) (tag : Byte) (fields : Except Nat α) (act : α → State → State)
    (s : State) : State :=
  match fields with
  | .error d => refuse p k tag .malformed d s
  | .ok a => act a s

end Sys2Proof.Machine
end

