-- ==== Sys2Proof/Machine/EngineSteps.lean ====
section
/-! DEFINITION. The translation engine's request and its works: RETRANSLATE, RE_RESOLUTION, TAKE_STROKE, TAKE_STRIKE,
EXPIRY, CLOSE_SETTLE, RETRANSLATION_START, RETRANSLATION_REBUILD. -/

namespace Sys2Proof.Machine

/-! ### RETRANSLATE (R110) -/

/-- The request a RETRANSLATE creates (R110, R111). -/
def newRetranslation (p : PortId) (start : Word32) : RetransRequest :=
  { start := start, requesters := [{ port := p, kind := .retranslate, report := [] }], phase := .pending }

/-- RETRANSLATE with its start, through its state checks (R110). -/
def acceptRetranslate (p : PortId) (tag : Byte) (start : Word32) (s : State) : State :=
  if slotBusy p s then refuse p .retranslate tag .busy 0 s
  else if s.engine.request.isSome then refuse p .retranslate tag .busy 0 s
  else if sessionTaking s = false then refuse p .retranslate tag .noSession 0 s
  else
    accept p .retranslate tag
      (refreshActivity { s with engine := { s.engine with request := some (newRetranslation p start) } })

/-- RETRANSLATE after its access and STARTING checks (R110). -/
def serveRetranslate (p : PortId) (tag : Byte) (body : List Byte) (s : State) : State :=
  withFields p .retranslate tag (retranslateBody body) (acceptRetranslate p tag) s

/-- RETRANSLATE (R110). -/
def execRetranslate (p : PortId) (tag : Byte) (body : List Byte) (s : State) : Host.Outcome State Fault Refusal :=
  .next (requestPeriod p .retranslate tag body (serveRetranslate p tag body) s)

/-! ### What begins a work and what it does (R40, R41) -/

/-- Change pending becomes no as the re-resolution begins (R61). -/
def clearChange (s : State) : State := { s with engine := { s.engine with changePending := false } }

/-- The run is nonempty and the session clock has reached its expiry time (R55). -/
def clockExpired (s : State) : Bool :=
  match s.engine.lastTaken with
  | some t => decide (s.engine.run ≠ []) && expired s.session.hold t s.session.clock
  | none => false

/-- A CLOSE waits for its settle, and no accepted append waits (R62, R152; DEDUCED, log entry 21). -/
def closeWaits (s : State) : Bool :=
  match s.session.request with
  | .closeInProgress _ settled => !settled && s.memory.intakeWork.isEmpty
  | .openInProgress .. => false
  | .none => false

/-- Session control has the caption log append END once the settle is done (R153). -/
def askEnd (p : PortId) (s : State) : State :=
  { s with
    session := { s.session with request := .closeInProgress p true }
    memory := { s.memory with logWork := s.memory.logWork ++ [.endAppend] } }

/-- The settle that a CLOSE demanded has ended (R62, R152). -/
def closeSettled (s : State) : State :=
  match s.session.request with
  | .closeInProgress p _ => endWork (askEnd p s)
  | .openInProgress .. => s
  | .none => s

/-- A replay is in progress: the retranslation has begun, the engine is RETRANSLATING and the part READY (R117). -/
def replaying (s : State) : Bool :=
  (replayHeld s).isSome && decide (s.device.state = .ready) && decide (s.engine.activity = .retranslating)

/-- Whether the engine may begin a work of that kind now (R40, R41, R62, R113, R119). -/
def mayBegin (s : State) : WorkKind → Bool
  | .reResolution => mayReResolve s
  | .retranslationStart => mayRetranslate s
  | .takeStroke => (strokeAtCursor s).isSome
  | .takeStrike => (strikeAtCursor s).isSome
  | .expiry => maySettle s && clockExpired s
  | .closeSettle => maySettle s && closeWaits s
  | .rebuild => replaying s

/-! ### Beginning a work (R33, R39, R183) -/

/-- What changes at once as a work begins: change pending is served (R61). -/
def startedWork (s : State) : WorkKind → State
  | .reResolution => clearChange s
  | .retranslationStart => s
  | .takeStroke => s
  | .takeStrike => s
  | .expiry => s
  | .closeSettle => s
  | .rebuild => s

/-- The activity during a work (R39). The beginning of a retranslation is part of it, so that no CLEAR TIER starts in between
(R113, R139). -/
def workActivity : WorkKind → Activity
  | .rebuild => .retranslating
  | .retranslationStart => .retranslating
  | .reResolution => .resolving
  | .takeStroke => .resolving
  | .takeStrike => .resolving
  | .expiry => .resolving
  | .closeSettle => .resolving

/-- The tiers a work reads: those in force as it begins, and for a replay those in force as the retranslation began (R33). -/
def workTiers (s : State) (k : WorkKind) : List TierId :=
  match k, replayHeld s with
  | .rebuild, some p => p.tiers
  | _, _ => visibleTiers s.dict.tiers

/-- A work as it begins, before its first stage. -/
def newWork (k : WorkKind) (s : State) : EngineWork :=
  { kind := k, tiers := workTiers s k, shown := { run := s.engine.run, units := s.engine.units }, stage := .taking, left := [] }

/-- A take as it begins: its record is to be read (R53, R104, R183). -/
def beginTake (w : EngineWork) (s : State) : EngineWork × State :=
  ({ w with stage := .taking, left := [.record s.journal.cursor] }, s)

/-- A replay as it begins (R115). -/
def beginReplay (w : EngineWork) (s : State) : EngineWork × State :=
  match replayHeld s with
  | some p => toReading (Replay.start p s.engine) (replaySpan s.journal p.startUsed) w s
  | none => ({ w with stage := .ending 0 0 }, s)

/-- A work begins, with its first stage. -/
def opened (k : WorkKind) (s : State) : EngineWork × State :=
  let s1 := startedWork s k
  match k with
  | .takeStroke => beginTake (newWork k s1) s1
  | .takeStrike => beginTake (newWork k s1) s1
  | .rebuild => beginReplay (newWork k s1) s1
  | .reResolution => toSettling (newWork k s1) s1
  | .retranslationStart => toSettling (newWork k s1) s1
  | .expiry => toSettling (newWork k s1) s1
  | .closeSettle => toSettling (newWork k s1) s1

/-- A work that begins goes on until it asks for a transaction or only its row is left. -/
def begun (k : WorkKind) (s : State) : EngineWork × State := goOn 5 (opened k s)

/-- The engine begins a work and asks for its first transaction (R39, R183). -/
def beginWork (k : WorkKind) (s : State) : State :=
  let s1 := setWork (begun k s)
  { s1 with engine := { s1.engine with activity := workActivity k } }

/-! ### Carrying a work to its end with nobody else asking (DESIGN CHOICE, log entry 9) -/

/-- Nobody else asks for entry memory, and no transaction is in progress. -/
def engineAlone (s : State) : Bool := memoryFree s.memory && !requesting s .maint

/-- The requester whose transactions a stage makes: each stage has those of one alone (R183). -/
def Stage.requester : Stage → MemRequester
  | .taking => .xlate
  | .settling => .log
  | .striking => .xlate
  | .forming _ => .xlate
  | .reading _ _ => .xlate
  | .feeding _ _ _ => .xlate
  | .ending _ _ => .log

/-- A stage with its reads made, a replay's to the last record (R115). -/
def Stage.allRead (tiers : List TierId) (s : State) : Stage → Stage
  | .reading rep span => .reading (rep.feedAll s.dict.slots tiers s.roster s.session.hold span) []
  | .feeding rep seen rest =>
    .reading ((rep.resolved s.roster (formedBy s.dict.slots seen tiers rep.run)).feedAll s.dict.slots tiers s.roster
      s.session.hold rest) []
  | .taking => .taking
  | .settling => .settling
  | .striking => .striking
  | .forming seen => .forming seen
  | .ending a b => .ending a b

/-- The transactions of a stage are made, granted one right after another (R183 to R185). -/
def stageMade (w : EngineWork) (s : State) : EngineWork × State :=
  let s1 := carryUses w.left s
  ({ w with stage := w.stage.allRead w.tiers s, left := [] },
   if w.left = [] then s1 else { s1 with memory := grantAlone s1.memory w.stage.requester })

/-- A work makes the transactions of at most so many stages. -/
def finishWork : Nat → EngineWork × State → EngineWork × State
  | 0, x => x
  | n + 1, x =>
    if x.1.stage.last then stageMade x.1 x.2
    else finishWork n (leaveStage (stageMade x.1 x.2).1 (stageMade x.1 x.2).2)

/-! ### The end of a work (R51, R120, R152) -/

/-- The engine holds no work, and what it has come to is what it shows (R51). -/
def dropWork (s : State) : State :=
  { s with
    engine := { s.engine with activity := if s.engine.activity = .resolving then .idle else s.engine.activity }
    memory := { s.memory with engineWork := none } }

/-- The end of the beginning of a retranslation, after its headroom check (R113). -/
def startEnds (tiers : List TierId) (s : State) : State :=
  match s.engine.request with
  | some r => beginRetranslation tiers r s
  | none => s

/-- The end of a rebuild, with the units it withdrew and appended (R120). -/
def rebuildEnds (withdrawn appended : Nat) (s : State) : State :=
  match replayHeld s with
  | some p => finishRetranslation p.startUsed withdrawn appended s
  | none => s

/-- What a rebuild reports: the units withdrawn and appended. -/
def Stage.counts : Stage → Nat × Nat
  | .ending a b => (a, b)
  | .taking => (0, 0)
  | .settling => (0, 0)
  | .striking => (0, 0)
  | .forming _ => (0, 0)
  | .reading _ _ => (0, 0)
  | .feeding _ _ _ => (0, 0)

/-- A work whose transactions are all made ends: its results are shown, and the engine chooses again (R51). -/
def workEnds (w : EngineWork) (s : State) : State :=
  match w.kind with
  | .reResolution => endWork (dropWork s)
  | .retranslationStart => startEnds w.tiers (dropWork s)
  | .takeStroke => endWork (advanceCursor (dropWork s))
  | .takeStrike => endWork (advanceCursor (dropWork s))
  | .expiry => endWork (dropWork s)
  | .closeSettle => closeSettled (dropWork s)
  | .rebuild => rebuildEnds w.stage.counts.1 w.stage.counts.2 (dropWork s)

/-- A work ends, if its transactions are made or can be made now with nobody else asking (DESIGN CHOICE, log entry 9). -/
def endsWork (x : EngineWork × State) : Option State :=
  if engineAlone x.2 then some (workEnds (finishWork 5 x).1 (finishWork 5 x).2)
  else if x.1.made then some (workEnds x.1 x.2)
  else none

/-- The row of a work of the engine: it begins the work if it has not begun, and ends it; while transactions are still to
make and others ask for entry memory it changes nothing (R41, R183; log entries 2 and 9). -/
def engineRow (k : WorkKind) (s : State) : State :=
  match s.memory.engineWork with
  | some w => if w.kind = k then (endsWork (w, s)).getD s else s
  | none => if mayBegin s k then (endsWork (if engineAlone s then opened k s else begun k s)).getD s else s

/-- The two settles of work 4. R62 has that of a CLOSE begun ahead of any expiry by clock, and R152 lets the two be taken in
either order, with the same result: that of the CLOSE comes first unless the command says otherwise (R40; DESIGN CHOICE, log
entry 41). -/
def settleOrder (expiryFirst : Bool) : List WorkKind :=
  if expiryFirst then [.expiry, .closeSettle] else [.closeSettle, .expiry]

/-- The work the engine would begin, in the order of R40. -/
def readyWork (expiryFirst : Bool) (s : State) : Option WorkKind :=
  ([WorkKind.rebuild, .reResolution, .retranslationStart, .takeStroke, .takeStrike] ++ settleOrder expiryFirst).find?
    (mayBegin s)

/-- The engine asks for entry memory: with no work begun it begins the one that is ready, if that asks for a transaction (R40,
R183). -/
def presentEngine (expiryFirst : Bool) (s : State) : State :=
  match s.memory.engineWork, readyWork expiryFirst s with
  | none, some k => if (begun k s).1.left = [] then s else beginWork k s
  | _, _ => s

/-! ### The rows -/

/-- RE_RESOLUTION (R61). -/
def execReResolution (s : State) : Host.Outcome State Fault Refusal := .next (engineRow .reResolution s)

/-- TAKE_STROKE (R53). -/
def execTakeStroke (s : State) : Host.Outcome State Fault Refusal := .next (engineRow .takeStroke s)

/-- TAKE_STRIKE (R104). -/
def execTakeStrike (s : State) : Host.Outcome State Fault Refusal := .next (engineRow .takeStrike s)

/-- An expiry by clock, behind the settle that a CLOSE waits for unless it is taken first (R55, R62, R152; DESIGN CHOICE, log
entry 41); once begun it goes on. -/
def expires (first : Bool) (s : State) : State :=
  if s.memory.engineWork.isNone && closeWaits s && !first then s else engineRow .expiry s

/-- EXPIRY (R55). -/
def execExpiry (s : State) (first : Bool := false) : Host.Outcome State Fault Refusal := .next (expires first s)

/-- CLOSE_SETTLE (R62). -/
def execCloseSettle (s : State) : Host.Outcome State Fault Refusal := .next (engineRow .closeSettle s)

/-- RETRANSLATION_START (R113). -/
def execRetranslationStart (s : State) : Host.Outcome State Fault Refusal := .next (engineRow .retranslationStart s)

/-- RETRANSLATION_REBUILD (R119). -/
def execRetranslationRebuild (s : State) : Host.Outcome State Fault Refusal := .next (engineRow .rebuild s)

end Sys2Proof.Machine
end

