-- ==== Sys2Proof/Machine/Settings.lean ====
section
/-! DEFINITION. COLLECT, STATUS and the requests that write settings, the roster, the access table and the tier items:
SPEAKER, SET_TIERS, SET_HOLD, SET_OFFSET, SET_ARBITER, SET_ACCESS, TRUST, LOCK_PORT, LOCK_TIER. -/

namespace Sys2Proof.Machine

/-! ### COLLECT (R169) -/

/-- COLLECT returns and clears a held completion, or answers NONE (R169). -/
def collectSlot (p : PortId) (tag : Byte) (s : State) : State :=
  match (s.ports.get p).slot with
  | .held k t r => answer p .collect tag (doneReply (collectBody k t r)) (setSlot p .clear s)
  | .clear => answer p .collect tag noneReply s
  | .inProgress .. => answer p .collect tag noneReply s

/-- COLLECT after its checks (R169). -/
def serveCollect (p : PortId) (tag : Byte) (body : List Byte) (s : State) : State :=
  withFields p .collect tag (noBody body) (fun _ s => collectSlot p tag s) s

/-- COLLECT (R169). -/
def execCollect (p : PortId) (tag : Byte) (body : List Byte) (s : State) : Host.Outcome State Fault Refusal :=
  .next (requestPeriod p .collect tag body (serveCollect p tag body) s)

/-! ### STATUS (R178, R179) -/

/-- A STATUS begins its reading with the first blocks; with no plan it reads them all (R178, R179). -/
def beginStatus (p : PortId) (tag : Byte) (reads : List Nat) (s : State) : State :=
  carryReport p (StatusReading.advance s p { tag := tag, got := [], left := statusBlocks, plan := reads }) s

/-- STATUS after its checks (R178). -/
def serveStatus (p : PortId) (tag : Byte) (reads : List Nat) (body : List Byte) (s : State) : State :=
  withFields p .status tag (noBody body) (fun _ s => beginStatus p tag reads s) s

/-- STATUS (R178, R179). -/
def execStatus (p : PortId) (tag : Byte) (body : List Byte) (s : State) (reads : List Nat := []) :
    Host.Outcome State Fault Refusal :=
  .next (requestPeriod p .status tag body (serveStatus p tag reads body) s)

/-! ### SPEAKER (R74) -/

/-- SPEAKER with its fields: the slot holds the first 24 characters (R74). -/
def writeSpeaker (p : PortId) (tag : Byte) (a : Nat × List Byte) (s : State) : State :=
  answer p .speaker tag (doneReply (byteOf a.1 :: a.2.take Config.nameLimit))
    { s with roster := s.roster.set a.1 (a.2.take Config.nameLimit) }

/-- SPEAKER after its access and STARTING checks (R74). -/
def serveSpeaker (p : PortId) (tag : Byte) (body : List Byte) (s : State) : State :=
  withFields p .speaker tag (speakerBody body) (writeSpeaker p tag) s

/-- SPEAKER (R74). -/
def execSpeaker (p : PortId) (tag : Byte) (body : List Byte) (s : State) : Host.Outcome State Fault Refusal :=
  .next (requestPeriod p .speaker tag body (serveSpeaker p tag body) s)

/-! ### SET TIERS (R35, R36) -/

/-- A dictionary change event reaches the engine (R61). -/
def handChange (s : State) : State := { s with engine := { s.engine with changePending := true } }

/-- The enables of a mask, bit n for tier n (R35). -/
def enablesOf (mask : Byte) (t : Quad Tier) : Quad Tier :=
  Quad.tabulate (fun l => { t.get l with enabled := mask.getLsbD l.val })

/-- SET TIERS with its mask (R35, R36). -/
def writeTiers (p : PortId) (tag : Byte) (mask : Byte) (s : State) : State :=
  let s1 := { s with dict := { s.dict with tiers := enablesOf mask s.dict.tiers } }
  answer p .setTiers tag (doneReply [mask]) (refreshActivity (handChange s1))

/-- SET TIERS after its access and STARTING checks (R35). -/
def serveSetTiers (p : PortId) (tag : Byte) (body : List Byte) (s : State) : State :=
  withFields p .setTiers tag (tiersBody body) (writeTiers p tag) s

/-- SET_TIERS (R35). -/
def execSetTiers (p : PortId) (tag : Byte) (body : List Byte) (s : State) : Host.Outcome State Fault Refusal :=
  .next (requestPeriod p .setTiers tag body (serveSetTiers p tag body) s)

/-! ### SET HOLD and SET OFFSET (R155, R156) -/

/-- SET HOLD with its value: the hold time is clamped (R155). -/
def writeHold (p : PortId) (tag : Byte) (n : Nat) (s : State) : State :=
  answer p .setHold tag (doneReply (leBytes 2 (clampHold n))) { s with session := { s.session with hold := clampHold n } }

/-- SET HOLD after its access and STARTING checks (R155). -/
def serveSetHold (p : PortId) (tag : Byte) (body : List Byte) (s : State) : State :=
  withFields p .setHold tag (holdBody body) (writeHold p tag) s

/-- SET_HOLD (R155). -/
def execSetHold (p : PortId) (tag : Byte) (body : List Byte) (s : State) : Host.Outcome State Fault Refusal :=
  .next (requestPeriod p .setHold tag body (serveSetHold p tag body) s)

/-- SET OFFSET with its fields (R156). -/
def writeOffset (p : PortId) (tag : Byte) (a : PortId × Word32) (s : State) : State :=
  answer p .setOffset tag (doneReply (byteOf a.1.val :: wordBytes a.2))
    { s with session := { s.session with offsets := s.session.offsets.set a.1 a.2 } }

/-- SET OFFSET after its access and STARTING checks (R156). -/
def serveSetOffset (p : PortId) (tag : Byte) (body : List Byte) (s : State) : State :=
  withFields p .setOffset tag (offsetBody body) (writeOffset p tag) s

/-- SET_OFFSET (R156). -/
def execSetOffset (p : PortId) (tag : Byte) (body : List Byte) (s : State) : Host.Outcome State Fault Refusal :=
  .next (requestPeriod p .setOffset tag body (serveSetOffset p tag body) s)

/-! ### SET ARBITER (R186) -/

/-- The arbiter after SET ARBITER: a change of mode restores the fixed order, the mode already held changes nothing (R186). -/
def arbiterWithMode (m : ArbiterMode) (a : Memory) : Memory :=
  if a.mode = m then a else { a with mode := m, order := fixedOrder }

/-- SET ARBITER with its mode (R186). -/
def writeArbiter (p : PortId) (tag : Byte) (m : ArbiterMode) (s : State) : State :=
  answer p .setArbiter tag (doneReply [byteOf m.code]) { s with memory := arbiterWithMode m s.memory }

/-- SET ARBITER after its access and STARTING checks (R186). -/
def serveSetArbiter (p : PortId) (tag : Byte) (body : List Byte) (s : State) : State :=
  withFields p .setArbiter tag (arbiterBody body) (writeArbiter p tag) s

/-- SET_ARBITER (R186). -/
def execSetArbiter (p : PortId) (tag : Byte) (body : List Byte) (s : State) : Host.Outcome State Fault Refusal :=
  .next (requestPeriod p .setArbiter tag body (serveSetArbiter p tag body) s)

/-! ### SET ACCESS, TRUST, LOCK PORT (R171 to R175) -/

/-- A row's class set is replaced whole, with the notices of R171: the journal creates or discards the port's pull
cursor (R11) and the caption log ends its feed when CAPTION is taken away (R91). -/
def changeClasses (q : PortId) (classes : BitVec 7) (s : State) : State :=
  { s with
    access := s.access.modify q (fun r => { r with classes := classes })
    journal := s.journal.notice q classes
    feeds := s.feeds.modify q (fun f => if holdsClass classes .caption then f else none) }

/-- SET ACCESS with its fields (R173). -/
def writeAccess (p : PortId) (tag : Byte) (a : PortId × BitVec 7) (s : State) : State :=
  if (s.access.get a.1).locked then refuse p .setAccess tag .locked 0 s
  else answer p .setAccess tag (doneReply [byteOf a.1.val, a.2.setWidth 8]) (changeClasses a.1 a.2 s)

/-- SET ACCESS after its trust and STARTING checks (R173). -/
def serveSetAccess (p : PortId) (tag : Byte) (body : List Byte) (s : State) : State :=
  withFields p .setAccess tag (accessBody body) (writeAccess p tag) s

/-- SET_ACCESS (R173). -/
def execSetAccess (p : PortId) (tag : Byte) (body : List Byte) (s : State) : Host.Outcome State Fault Refusal :=
  .next (requestPeriod p .setAccess tag body (serveSetAccess p tag body) s)

/-- The trust a TRUST leaves a port: P0 stays trusted (R172, R174). -/
def trustGiven (q : PortId) (v : Bool) : Bool := if q = 0 then true else v

/-- TRUST with its fields (R174). -/
def writeTrust (p : PortId) (tag : Byte) (a : PortId × Bool) (s : State) : State :=
  if (s.access.get a.1).locked then refuse p .trust tag .locked 0 s
  else
    answer p .trust tag (doneReply [byteOf a.1.val, byteOfBool (trustGiven a.1 a.2)])
      { s with access := s.access.modify a.1 (fun r => { r with trusted := trustGiven a.1 a.2 }) }

/-- TRUST after its trust and STARTING checks (R174). -/
def serveTrust (p : PortId) (tag : Byte) (body : List Byte) (s : State) : State :=
  withFields p .trust tag (trustBody body) (writeTrust p tag) s

/-- TRUST (R174). -/
def execTrust (p : PortId) (tag : Byte) (body : List Byte) (s : State) : Host.Outcome State Fault Refusal :=
  .next (requestPeriod p .trust tag body (serveTrust p tag body) s)

/-- LOCK PORT with its port (R175). -/
def writePortLock (p : PortId) (tag : Byte) (q : PortId) (s : State) : State :=
  answer p .lockPort tag
    (doneReply [byteOf q.val, (s.access.get q).classes.setWidth 8, byteOfBool (s.access.get q).trusted, 1#8])
    { s with access := s.access.modify q (fun r => { r with locked := true }) }

/-- LOCK PORT after its trust and STARTING checks (R175). -/
def serveLockPort (p : PortId) (tag : Byte) (body : List Byte) (s : State) : State :=
  withFields p .lockPort tag (portBody body) (writePortLock p tag) s

/-- LOCK_PORT (R175). -/
def execLockPort (p : PortId) (tag : Byte) (body : List Byte) (s : State) : Host.Outcome State Fault Refusal :=
  .next (requestPeriod p .lockPort tag body (serveLockPort p tag body) s)

/-! ### LOCK TIER (R142) -/

/-- LOCK TIER with its tier (R142). -/
def writeTierLock (p : PortId) (tag : Byte) (l : TierId) (s : State) : State :=
  answer p .lockTier tag (doneReply [byteOf l.val, 1#8])
    { s with dict := { s.dict with tiers := s.dict.tiers.modify l (fun t => { t with locked := true }) } }

/-- LOCK TIER after its trust and STARTING checks (R142). -/
def serveLockTier (p : PortId) (tag : Byte) (body : List Byte) (s : State) : State :=
  withFields p .lockTier tag (tierBody body) (writeTierLock p tag) s

/-- LOCK_TIER (R142). -/
def execLockTier (p : PortId) (tag : Byte) (body : List Byte) (s : State) : Host.Outcome State Fault Refusal :=
  .next (requestPeriod p .lockTier tag body (serveLockTier p tag body) s)

end Sys2Proof.Machine
end

