-- ==== Sys2Proof/Machine/Maintenance.lean ====
section
/-! DEFINITION. The maintenance unit: PUT, DROP, CLEAR_TIER and GET as requests, the service of the queue's head, the
table lock, the writes, the sweep and the answer of a GET. -/

namespace Sys2Proof.Machine

/-! ### Acceptance (R126, R131, R135, R139, R143) -/

/-- The tier a request names for the tier checks; a GET is not subject to them (R126). -/
def MaintRequest.namedTier : MaintRequest → Option TierId
  | .put t .. => some t
  | .drop t .. => some t
  | .clearTier t => some t
  | .get .. => none

/-- A request that names a tier in the CLEARING state (R126). -/
def namesClearing (r : MaintRequest) (s : State) : Bool :=
  match r.namedTier with
  | some t => (s.dict.tiers.get t).clearing
  | none => false

/-- A request that names a locked tier (R126, R128). -/
def namesLocked (r : MaintRequest) (s : State) : Bool :=
  match r.namedTier with
  | some t => (s.dict.tiers.get t).locked
  | none => false

/-- The phase of a request that joins the tail: CHECKING when the queue was empty, else QUEUED (R126). -/
def joiningPhase (queue : List MaintEntry) : Phase := if queue = [] then .checking false else .queued

/-- The request joins the tail of the maintenance queue (R126). -/
def enqueue (p : PortId) (r : MaintRequest) (s : State) : State :=
  { s with maint := { s.maint with
      queue := s.maint.queue ++ [{ port := p, request := r, phase := joiningPhase s.maint.queue }] } }

/-- The state and lock checks of a maintenance request, in their order, and its acceptance (R126). -/
def acceptMaint (p : PortId) (k : Kind) (tag : Byte) (r : MaintRequest) (s : State) : State :=
  if slotBusy p s then refuse p k tag .busy 0 s
  else if namesClearing r s then refuse p k tag .busy 0 s
  else if namesLocked r s then refuse p k tag .locked 0 s
  else accept p k tag (enqueue p r s)

/-- PUT after its access and STARTING checks (R126, R131). -/
def servePut (p : PortId) (tag : Byte) (body : List Byte) (s : State) : State :=
  withFields p .put tag (putBody body) (acceptMaint p .put tag) s

/-- PUT (R126, R131). -/
def execPut (p : PortId) (tag : Byte) (body : List Byte) (s : State) : Host.Outcome State Fault Refusal :=
  .next (requestPeriod p .put tag body (servePut p tag body) s)

/-- DROP after its access and STARTING checks (R126, R135). -/
def serveDrop (p : PortId) (tag : Byte) (body : List Byte) (s : State) : State :=
  withFields p .drop tag (dropBody body) (acceptMaint p .drop tag) s

/-- DROP (R126, R135). -/
def execDrop (p : PortId) (tag : Byte) (body : List Byte) (s : State) : Host.Outcome State Fault Refusal :=
  .next (requestPeriod p .drop tag body (serveDrop p tag body) s)

/-- CLEAR TIER after its access and STARTING checks (R126, R139). -/
def serveClearTier (p : PortId) (tag : Byte) (body : List Byte) (s : State) : State :=
  withFields p .clearTier tag (clearBody body) (acceptMaint p .clearTier tag) s

/-- CLEAR_TIER (R126, R139). -/
def execClearTier (p : PortId) (tag : Byte) (body : List Byte) (s : State) : Host.Outcome State Fault Refusal :=
  .next (requestPeriod p .clearTier tag body (serveClearTier p tag body) s)

/-- GET after its access and STARTING checks (R126, R143). -/
def serveGet (p : PortId) (tag : Byte) (body : List Byte) (s : State) : State :=
  withFields p .get tag (getBody body) (acceptMaint p .get tag) s

/-- GET (R126, R143). -/
def execGet (p : PortId) (tag : Byte) (body : List Byte) (s : State) : Host.Outcome State Fault Refusal :=
  .next (requestPeriod p .get tag body (serveGet p tag body) s)

/-! ### The head of the queue (R125, R127) -/

/-- The next entry becomes the head and enters CHECKING (R125). -/
def promoteHead : List MaintEntry → List MaintEntry
  | [] => []
  | e :: rest => { e with phase := .checking false } :: rest

/-- The head leaves the queue (R125). -/
def leaveQueue (s : State) : State :=
  { s with maint := { s.maint with queue := promoteHead (s.maint.queue.drop 1) } }

/-- Write the head's phase. -/
def setHeadPhase (ph : Phase) (s : State) : State :=
  { s with maint := { s.maint with queue :=
      match s.maint.queue with
      | [] => []
      | e :: rest => { e with phase := ph } :: rest } }

/-- The unit has finished with the head: it leaves, and its port is handed the completion (R127, R168). -/
def finishHead (e : MaintEntry) (r : Reply) (s : State) : State := complete e.port r (leaveQueue s)

/-- The head entry while the part is READY. Each step below changes nothing when its head is not in the phase it needs
(DESIGN CHOICE, log entry 2). -/
def headOf (s : State) : Option MaintEntry := if s.device.state = .ready then s.maint.queue.head? else none

/-- Write the table header (R37). -/
def setHeader (h : Header) (s : State) : State := { s with dict := { s.dict with header := h } }

/-- Write one tier's state (R20). -/
def setClearing (l : TierId) (c : Bool) (s : State) : State :=
  { s with dict := { s.dict with tiers := s.dict.tiers.modify l (fun t => { t with clearing := c }) } }

/-! ### The transactions of the unit's steps (R27, R37, R127, R183) -/

/-- One read for each slot. -/
def slotReads (ns : List SlotNo) : List MaintUse := ns.map .read

/-- The slots a GET reads (R144). -/
def getReads (tier : Option TierId) (strokes : List Chord) (s : State) : List SlotNo :=
  match tier with
  | some t => lookupReads s.dict.slots t strokes
  | none => bestReads s.dict.slots (visibleTiers s.dict.tiers) strokes

/-- The slot writes of a PUT, in order (R134). -/
def writeUses (ws : List (SlotNo × Record)) : List MaintUse := ws.map (fun w => .write w.1 (.occupied w.2))

/-- The transactions of the next step of the head: the reads of CHECKING, unless the lock check refuses the request; the
header's write WRITING, with whose grant the writes begin, unless the engine keeps it back; the slot writes or the sweep, and the
header's write CONSISTENT; or the reads of a GET (R37, R127 to R130, R139, R140, R144; log entry 17). -/
def headUses (e : MaintEntry) (s : State) : List MaintUse :=
  match e.request, e.phase with
  | .put t _ strokes _, .checking false =>
    if namesLocked e.request s then [] else slotReads (putReads s.dict.slots t strokes)
  | .drop t _ strokes, .checking false =>
    if namesLocked e.request s then [] else slotReads (dropReads s.dict.slots t strokes)
  | .get tier strokes, .checking _ => slotReads (getReads tier strokes s)
  | .clearTier _, .checking true => if writesWithheld s then [] else [.header .writing]
  | _, .lockWait _ => if writesWithheld s then [] else [.header .writing]
  | .clearTier t, .sweeping => [.sweep t 0, .header .consistent]
  | _, .writing (.put plan) => writeUses plan.writes ++ [.header .consistent]
  | _, .writing (.drop plan) => dropUses s.dict.slots plan ++ [.header .consistent]
  | _, _ => []

/-- The transactions of the start-up sweep: the header WRITING after power-on alone, every slot, the header CONSISTENT (R37,
R188, R190). -/
def startupUses (s : State) : List MaintUse :=
  (if s.device.cause = .powerOn then [.header .writing] else []) ++ [.empty 0, .header .consistent]

/-- The transactions of the next step of the maintenance unit. -/
def maintUses (s : State) : List MaintUse :=
  if s.device.state = .starting ∧ s.device.startup = .sweep then startupUses s
  else
    match headOf s with
    | some e => headUses e s
    | none => []

/-- The report of a DROP that goes through its plan on the table as it stands (R136, R138). -/
def dropReportOf (slots : List (Nat × Slot)) (plan : DropPlan) : List Byte :=
  let d := applyDrop slots plan
  dropReport d.1 plan.slot d.2.stems d.2.turned

/-- The report of the head's writes, as they are worked out when they begin (R134, R138). -/
def headReport (s : State) : List Byte :=
  match headOf s with
  | some e =>
    match e.phase with
    | .writing (.put plan) => putReport plan
    | .writing (.drop plan) => dropReportOf s.dict.slots plan
    | .queued => []
    | .checking _ => []
    | .lockWait _ => []
    | .sweeping => []
  | none => []

/-- The unit's next step as it begins (R33, R183). -/
def begunStep (s : State) : MaintWork :=
  { tiers := visibleTiers s.dict.tiers, report := headReport s, removed := 0, left := maintUses s }

/-- Nobody else asks for entry memory, and no transaction is in progress. -/
def maintAlone (s : State) : Bool := memoryFree s.memory && s.memory.engineWork.isNone

/-- The transactions a step has left, with all that follow from them, made one right after another: what they leave of the
table, with the records a sweep has removed in all. -/
def stepWrites (w : MaintWork) (d : Dictionary) : Dictionary × Nat := w.left.foldl MaintUse.carryAll (d, w.removed)

/-- The step's last transactions are made, granted one right after another, and it is about to end (R183 to R185). In start-up
they move the order as any grants do, so that MAINT stands lowest at READY (DESIGN CHOICE, log entry 44). -/
def stepServed (w : MaintWork) (s : State) : State :=
  { s with
    dict := (stepWrites w s.dict).1
    memory := { (if w.left = [] then s.memory else grantAlone s.memory .maint) with maintWork := none } }

/-- The step with its last transactions made. -/
def stepDone (w : MaintWork) (s : State) : MaintWork := { w with removed := (stepWrites w s.dict).2, left := [] }

/-- A step of the unit ends at its row once its transactions are made, or when it can make the rest with nobody else asking;
else it changes nothing (R183; DESIGN CHOICE, log entry 9). -/
def maintStep (act : MaintWork → State → State) (s : State) : State :=
  let w := s.memory.maintWork.getD (begunStep s)
  if w.left = [] ∨ maintAlone s = true then act (stepDone w s) (stepServed w s) else s

/-- The unit asks for entry memory: with no step begun it begins the next that has transactions (R183). -/
def presentMaint (s : State) : State :=
  if s.memory.maintWork.isSome || (maintUses s).isEmpty then s
  else { s with memory := { s.memory with maintWork := some (begunStep s) } }

/-- The header's write WRITING is made in the row that begins the writes, with nobody else asking (R183; DESIGN CHOICE, log
entry 9). -/
def headerMade (s : State) : State := { s with memory := { grantAlone s.memory .maint with maintWork := none } }

/-! ### MAINT_HEAD_CHECK (R128, R132, R133, R135, R139) -/

/-- The resource checks of a request whose lock check passed: CROWDED for PUT, NOT_FOUND for DROP; a GET is answered by
GET_ANSWER (R128). -/
def resourceCheck (e : MaintEntry) (s : State) : State :=
  match e.request with
  | .put t _ strokes content =>
    match planPut s.dict.slots t strokes content with
    | .error len => finishHead e (refusedReply .crowded len) s
    | .ok plan => setHeadPhase (.lockWait (.put plan)) s
  | .drop t _ strokes =>
    match planDrop s.dict.slots t strokes with
    | none => finishHead e (refusedReply .notFound 0) s
    | some plan => setHeadPhase (.lockWait (.drop plan)) s
  | .clearTier _ => setHeadPhase (.checking true) s
  | .get .. => setHeadPhase (.checking true) s

/-- A GET makes its reads at GET_ANSWER, and every other request at its check (R127). -/
def MaintRequest.readsAtCheck : MaintRequest → Bool
  | .get .. => false
  | .put .. => true
  | .drop .. => true
  | .clearTier _ => true

/-- The lock check is made again, and then the resource checks (R128). A request whose reads have begun has passed its lock
check, and a LOCK TIER taken since does not reach it (R128, R142). -/
def headCheck (e : MaintEntry) (s : State) : State :=
  if s.memory.maintWork = none ∧ namesLocked e.request s = true then finishHead e (refusedReply .locked 0) s
  else if e.request.readsAtCheck then maintStep (fun _ => resourceCheck e) s
  else resourceCheck e s

/-- The check of the head that has just entered CHECKING, with its reads (R127, R128). -/
def maintHeadChecks (s : State) : State :=
  match headOf s with
  | some e =>
    if e.phase = .checking false then headCheck e s else s
  | none => s

/-- MAINT_HEAD_CHECK (R128). -/
def execMaintHeadCheck (s : State) : Host.Outcome State Fault Refusal := .next (maintHeadChecks s)

/-! ### TABLE_LOCK_TAKE (R129, R130) -/

/-- The writes of a PUT or DROP begin: it takes the lock and enters WRITING, and the header is written WRITING (R37, R129,
R130; DESIGN CHOICE, log entry 17). -/
def takeLock (plan : Plan) (s : State) : State :=
  let s1 := setHeader .writing (setHeadPhase (.writing plan) s)
  refreshActivity { s1 with maint := { s1.maint with lockHeld := true, lockTurn := false } }

/-- A PUT or DROP in LOCK WAIT takes the table lock, if it can make its header's write now with nobody else asking; else it
takes it as that write is granted (R129, R183; log entries 9 and 17). -/
def tableLockTakes (s : State) : State :=
  match headOf s with
  | some e =>
    match e.phase with
    | .lockWait plan => if !writesWithheld s && maintAlone s then headerMade (takeLock plan s) else s
    | .queued => s
    | .checking _ => s
    | .writing _ => s
    | .sweeping => s
  | none => s

/-- TABLE_LOCK_TAKE (R129). -/
def execTableLockTake (s : State) : Host.Outcome State Fault Refusal := .next (tableLockTakes s)

/-! ### PUT_WRITE_END and DROP_WRITE_END (R112, R130, R134, R138) -/

/-- The request held after a flagged PUT or DROP handed one: created, or joined with start 0 (R112). -/
def joinRetranslation (r : Requester) : Option RetransRequest → RetransRequest
  | none => { start := 0#32, requesters := [r], phase := .pending }
  | some q => { q with start := 0#32, requesters := q.requesters ++ [r] }

/-- The engine holds a retranslation request with this port among its requesters (R112). -/
def handRetranslation (r : Requester) (s : State) : State :=
  { s with engine := { s.engine with request := some (joinRetranslation r s.engine.request) } }

/-- The end of a PUT's or DROP's writes, after the header's write CONSISTENT: lock released, the dictionary change event, and
then the retranslation request or the completion (R112, R130). A reset between that write and this end keeps the table (DESIGN
CHOICE, log entry 43). -/
def writesEnd (e : MaintEntry) (k : Kind) (flag : Bool) (report : List Byte) (s : State) : State :=
  let s3 := leaveQueue (handChange { s with maint := { s.maint with lockHeld := false } })
  refreshActivity
    (if flag = true ∧ sessionTaking s3 = true then handRetranslation { port := e.port, kind := k, report := report } s3
     else complete e.port (doneReply (report ++ (if flag then retransValues 0 0 0 else []))) s3)

/-- The writes of a PUT end (R134). -/
def putWritesEnd (s : State) : State :=
  match headOf s with
  | some e =>
    match e.request, e.phase with
    | .put _ flag _ _, .writing (.put _) => maintStep (fun w => writesEnd e .put flag w.report) s
    | _, _ => s
  | none => s

/-- PUT_WRITE_END (R134). -/
def execPutWriteEnd (s : State) : Host.Outcome State Fault Refusal := .next (putWritesEnd s)

/-- The writes of a DROP end (R138). -/
def dropWritesEnd (s : State) : State :=
  match headOf s with
  | some e =>
    match e.request, e.phase with
    | .drop _ flag _, .writing (.drop _) => maintStep (fun w => writesEnd e .drop flag w.report) s
    | _, _ => s
  | none => s

/-- DROP_WRITE_END (R138). -/
def execDropWriteEnd (s : State) : Host.Outcome State Fault Refusal := .next (dropWritesEnd s)

/-! ### CLEAR_TIER_START and CLEAR_TIER_SWEEP_END (R139 to R141) -/

/-- The start of a CLEAR TIER: header WRITING, tier CLEARING, the event handed, phase SWEEPING (R139; DESIGN CHOICE, log entry
17). -/
def startSweep (t : TierId) (s : State) : State :=
  refreshActivity (setHeadPhase .sweeping (handChange (setClearing t true (setHeader .writing s))))

/-- A CLEAR TIER whose checks have passed starts when no retranslation is in progress, if it can make its header's write now
with nobody else asking; else it starts as that write is granted (R139, R183; log entries 9 and 17). -/
def clearTierStarts (s : State) : State :=
  match headOf s with
  | some e =>
    match e.request, e.phase with
    | .clearTier t, .checking true => if !writesWithheld s && maintAlone s then headerMade (startSweep t s) else s
    | _, _ => s
  | none => s

/-- CLEAR_TIER_START (R139). -/
def execClearTierStart (s : State) : Host.Outcome State Fault Refusal := .next (clearTierStarts s)

/-- The end of a sweep, after the header's write CONSISTENT: tier VISIBLE, completion given with the records removed (R141). A
reset between that write and this end meets a tier still CLEARING and keeps the table (R38, R145, R190; DESIGN CHOICE, log entry
43). -/
def endSweep (e : MaintEntry) (t : TierId) (removed : Nat) (s : State) : State :=
  finishHead e (doneReply (byteOf t.val :: leBytes 4 removed)) (setClearing t false s)

/-- The sweep of the head's CLEAR TIER has passed the last slot (R141). -/
def clearTierSweepEnds (s : State) : State :=
  match headOf s with
  | some e =>
    match e.request, e.phase with
    | .clearTier t, .sweeping => maintStep (fun w => endSweep e t w.removed) s
    | _, _ => s
  | none => s

/-- CLEAR_TIER_SWEEP_END (R141). -/
def execClearTierSweepEnd (s : State) : Host.Outcome State Fault Refusal := .next (clearTierSweepEnds s)

/-! ### The writes begin at a grant (R37, R139, R145) -/

/-- The writes have begun with the grant of the header's write, which is in progress; the writes of the request follow it. -/
def askWrites (s : State) : State :=
  { s with memory := { s.memory with maintWork := some { begunStep s with left := .header .writing :: (begunStep s).left } } }

/-- A transaction of MAINT is granted: where it is the header's write of a head that stands before its writes, the lock is taken
or the sweep started with it, so that the header reads WRITING as long as they go on (R37, R129, R139, R145; DESIGN CHOICE, log
entry 17). -/
def writesBegin (s : State) : State :=
  match headOf s with
  | some e =>
    match e.request, e.phase with
    | _, .lockWait plan => askWrites (takeLock plan s)
    | .clearTier t, .checking true => askWrites (startSweep t s)
    | _, _ => s
  | none => s

/-! ### GET_ANSWER (R144) -/

/-- What a GET finds: one tier whatever its enable, or for ANY the best lookup over the tiers given (R33, R144). -/
def getFinds (tiers : List TierId) (tier : Option TierId) (strokes : List Chord) (s : State) :
    Option (SlotNo × Record) :=
  match tier with
  | some t => lookup s.dict.slots t strokes
  | none => (bestLookup s.dict.slots tiers strokes).map (fun x => x.2)

/-- The completion of a GET (R144). -/
def getReply : Option (SlotNo × Record) → Reply
  | some (n, r) => doneReply (getReport n r)
  | none => refusedReply .notFound 0

/-- The head's GET is answered from its reads (R144). -/
def getAnswers (s : State) : State :=
  match headOf s with
  | some e =>
    match e.request, e.phase with
    | .get tier strokes, .checking _ =>
      maintStep (fun w s => finishHead e (getReply (getFinds w.tiers tier strokes s)) s) s
    | _, _ => s
  | none => s

/-- GET_ANSWER (R144). -/
def execGetAnswer (s : State) : Host.Outcome State Fault Refusal := .next (getAnswers s)

end Sys2Proof.Machine
end

