-- ==== Sys2Proof/Machine/MemorySteps.lean ====
section
/-! DEFINITION. The entry memory controller's steps: MEMORY_GRANT, SDRAM_REFRESH, MEMORY_TRANSACTION_COMPLETE. -/

namespace Sys2Proof.Machine

/-- The blocks named begin the work they have ready and ask for what it needs (R183; DESIGN CHOICE, log entry 10). -/
def presented (asks : Asks) (s : State) : State :=
  let s1 := if asks.engine then presentEngine asks.expiryFirst s else s
  if asks.maint then presentMaint s1 else s1

/-- What a grant to MAINT brings about besides: the head's writes begin with the header's (R129, R139). -/
def begunWith (s : State) : State :=
  match s.memory.inProgress with
  | some t => if t.work = .maint then writesBegin s else s
  | none => s

/-- With no transaction in progress, the blocks ask, and the arbiter grants one of those requesting (R183, R184). -/
def memoryGrants (asks : Asks) (s : State) : State :=
  if s.memory.inProgress.isSome then s else begunWith (grant (presented asks s))

/-- MEMORY_GRANT (R184). -/
def execMemoryGrant (asks : Asks) (s : State) : Host.Outcome State Fault Refusal := .next (memoryGrants asks s)

/-- SDRAM_REFRESH (R182): a refresh delays the next grant and has no other effect. -/
def execSdramRefresh (s : State) : Host.Outcome State Fault Refusal := .next s

/-- MEMORY_TRANSACTION_COMPLETE (R182). -/
def execMemoryTransactionComplete (s : State) : Host.Outcome State Fault Refusal := .next (transactionEnds s)

end Sys2Proof.Machine
end

