-- ==== Sys2Proof/Machine/Feeds.lean ====
section
/-! DEFINITION. The caption log's requests: SUBSCRIBE, UNSUBSCRIBE, FETCH. -/

namespace Sys2Proof.Machine

/-- Write one port's feed. -/
def setFeed (p : PortId) (f : Option Feed) (s : State) : State := { s with feeds := s.feeds.set p f }

/-! ### SUBSCRIBE (R89) -/

/-- The cursor of a starting point: a NUMBER outside the ring is clamped (R89). At newest 4,294,967,295 with wrapped still no,
the number after newest is 0, and the case is taken by its letter (DESIGN CHOICE, log entry 36). -/
def startCursor (l : CaptionLog) : StartPoint → SegNo
  | .oldest => l.oldest
  | .next => l.next
  | .number n =>
    if l.holds n ∨ n = l.next then n
    else if l.wrapped = false ∧ l.next.toNat < n.toNat then l.next
    else l.oldest

/-- The feed a SUBSCRIBE gives: floor at the cursor, mark at newest or absent for an empty log (R89). -/
def newFeed (l : CaptionLog) (mode : FeedMode) (start : StartPoint) : Feed :=
  { mode := mode, cursor := ⟨startCursor l start, false⟩, floor := ⟨startCursor l start, false⟩,
    mark := if l.segments = [] then none else some ⟨l.newest, false⟩ }

/-- SUBSCRIBE with its fields (R89). -/
def subscribeTo (p : PortId) (tag : Byte) (a : FeedMode × StartPoint) (s : State) : State :=
  answer p .subscribe tag (doneReply (byteOf a.1.code :: wordBytes (startCursor s.log a.2)))
    (setFeed p (some (newFeed s.log a.1 a.2)) s)

/-- SUBSCRIBE after its access and STARTING checks (R89). -/
def serveSubscribe (p : PortId) (tag : Byte) (body : List Byte) (s : State) : State :=
  withFields p .subscribe tag (subscribeBody body) (subscribeTo p tag) s

/-- SUBSCRIBE (R89). -/
def execSubscribe (p : PortId) (tag : Byte) (body : List Byte) (s : State) : Host.Outcome State Fault Refusal :=
  .next (requestPeriod p .subscribe tag body (serveSubscribe p tag body) s)

/-! ### UNSUBSCRIBE (R90) -/

/-- UNSUBSCRIBE after its access and STARTING checks (R90). -/
def serveUnsubscribe (p : PortId) (tag : Byte) (body : List Byte) (s : State) : State :=
  withFields p .unsubscribe tag (noBody body)
    (fun _ s => answer p .unsubscribe tag (doneReply []) (setFeed p none s)) s

/-- UNSUBSCRIBE (R90). -/
def execUnsubscribe (p : PortId) (tag : Byte) (body : List Byte) (s : State) : Host.Outcome State Fault Refusal :=
  .next (requestPeriod p .unsubscribe tag body (serveUnsubscribe p tag body) s)

/-! ### FETCH (R92 to R94) -/

/-- A FETCH has its items, as the log takes it: with nothing to read it is answered at once, else the port stays WORKING until
the reads are made (R87, R160; DEDUCED, log entry 7). -/
def answerReads (p : PortId) (tag : Byte) (items : List Byte) (reads : List Block) (s : State) : State :=
  match reads with
  | [] => answer p .fetch tag (doneReply items) s
  | b :: rest =>
    setWorking p { s with memory := { s.memory with
      logWork := s.memory.logWork ++ [.fetch { port := p, tag := tag, reads := b :: rest, items := items }] } }

/-- A FETCH of a count on a feed: a GAP when the cursor is lapsed, then the walk (R92, R93). -/
def fetchFrom (p : PortId) (tag : Byte) (count : Nat) (f : Feed) (s : State) : State :=
  let f1 := f.afterGap s.log
  let w := fetchWalk s.log p f1 count (s.log.fromCursor f1)
  let items := f.gapItems s.log ++ w.delivered.flatMap (fun g => segmentItem g (g.eraseFor p) (offsetOf p s))
  let f2 := { f1 with cursor := ⟨f1.cursor.number + BitVec.ofNat 32 w.moved, false⟩ }
  answerReads p tag items (w.reads.map (fun g => segmentBlock g.number)) (setFeed p (some f2) s)

/-- FETCH with its count: refused without a feed at the state check (R92). -/
def serveFetchCount (p : PortId) (tag : Byte) (count : Byte) (s : State) : State :=
  match s.feeds.get p with
  | some f => fetchFrom p tag (clampCount count.toNat) f s
  | none => refuse p .fetch tag .notSubscribed 0 s

/-- FETCH after its access and STARTING checks (R92). -/
def serveFetch (p : PortId) (tag : Byte) (body : List Byte) (s : State) : State :=
  withFields p .fetch tag (oneByte body) (serveFetchCount p tag) s

/-- FETCH (R92). -/
def execFetch (p : PortId) (tag : Byte) (body : List Byte) (s : State) : Host.Outcome State Fault Refusal :=
  .next (requestPeriod p .fetch tag body (serveFetch p tag body) s)

end Sys2Proof.Machine
end

