-- ==== Sys2Proof/Machine/Intake.lean ====
section
/-! DEFINITION. Stroke intake and the journal's requests: STROKE, JOURNAL_APPEND, PULL. -/

namespace Sys2Proof.Machine

/-! ### STROKE (R1 to R4, R12 to R14) -/

/-- The ring is full once the appends already waiting are made (R9; DEDUCED, log entry 8). -/
def ringFull (s : State) : Bool := decide (Config.journalRing ≤ s.journal.held + s.memory.intakeWork.length)

/-- The record the next append would overwrite in a full ring (R9). -/
def victimSeq (s : State) : Nat :=
  s.journal.oldest + (s.journal.held + s.memory.intakeWork.length - Config.journalRing)

/-- A resolution or a retranslation is in progress (R14). A settle of the journal guard whose changes of the log still wait is
none: the engine carries it out while IDLE or WAITING, and R62 counts it as a resolution for the table lock (DESIGN CHOICE, log
entry 40). -/
def engineWorking (s : State) : Bool := s.engine.activity == .resolving || s.engine.activity == .retranslating

/-- The overwrite would take a record that a unit or the run still needs while the engine is at work (R14); a settle of the guard
with changes still to write does not count as work (DESIGN CHOICE, log entry 40). -/
def guardBusy (s : State) : Bool :=
  ringFull s && decide (victimSeq s < s.journal.cursor) && recordNamed (victimSeq s) (asOfLast s) && engineWorking s

/-- Numbering is exhausted (R12), or the overwrite would take an untaken record (R13). -/
def journalExhausted (s : State) : Bool :=
  decide (Config.lastSequence ≤ s.journal.head + s.memory.intakeWork.length)
    || (ringFull s && decide (s.journal.cursor ≤ victimSeq s))

/-- The guard of an append has the run settled: the ring is full, and the run holds the record to be overwritten (R14, R62). -/
def guardSettles (s : State) : Bool := ringFull s && runHolds (victimSeq s) s

/-- An accepted chord: the guard releases the record to be overwritten, and the append is asked for (R5, R14, R62). -/
def takeChord (p : PortId) (tag : Byte) (c : Chord) (s : State) : State :=
  let s1 := if ringFull s then guardRelease (victimSeq s) s else s
  { s1 with memory := { s1.memory with
    intakeWork := s1.memory.intakeWork ++ [{ port := p, tag := tag, chord := c, guarded := guardSettles s }] } }

/-- A masked chord through the checks of R3, in the order of R164. -/
def serveChord (p : PortId) (tag : Byte) (c : Chord) (s : State) : State :=
  if c = 0#23 then refuse p .stroke tag .emptyChord 0 s
  else if sessionTaking s = false then refuse p .stroke tag .noSession 0 s
  else if guardBusy s then refuse p .stroke tag .busy 0 s
  else if journalExhausted s then refuse p .stroke tag .journalFull s.journal.cursor s
  else takeChord p tag c s

/-- STROKE after its access and STARTING checks (R3). -/
def serveStroke (p : PortId) (tag : Byte) (body : List Byte) (s : State) : State :=
  withFields p .stroke tag (strokeBody body) (serveChord p tag) s

/-- STROKE (R3). -/
def execStroke (p : PortId) (tag : Byte) (body : List Byte) (s : State) : Host.Outcome State Fault Refusal :=
  .next (requestPeriod p .stroke tag body (serveStroke p tag body) s)

/-! ### JOURNAL_APPEND (R5, R9, R15) -/

/-- The journal takes the record of the oldest waiting append (R5). -/
def appendWaiting (w : IntakeWork) (rest : List IntakeWork) (s : State) : State :=
  { s with
    journal := s.journal.append (newRecord s.journal w s.session.clock)
    memory := { s.memory with intakeWork := rest } }

/-- The body of the STROKE response: sequence number and stamp with the port's offset (R3, R162). -/
def strokeReply (w : IntakeWork) (s : State) : Reply :=
  doneReply (leBytes 4 (s.journal.head + 1) ++ wordBytes (s.session.clock + offsetOf w.port s))

/-- The append transaction of the oldest waiting stroke ends (R5). -/
def journalAppends (s : State) : State :=
  match granted .journalAppend s with
  | none => s
  | some s1 =>
    match s1.memory.intakeWork with
    | [] => s
    | w :: rest =>
      refreshActivity (answer w.port .stroke w.tag (strokeReply w s1) (endTransaction (appendWaiting w rest s1)))

/-- JOURNAL_APPEND (R5). -/
def execJournalAppend (s : State) : Host.Outcome State Fault Refusal := .next (journalAppends s)

/-! ### PULL (R16, R17) -/

/-- The GAP item of a gap count above 0 (R17). -/
def pullGap (gap : Nat) : List Byte := if gap = 0 then [] else gapItem gap

/-- A PULL's GAP item stands, and its records are to be read: with none to read it is answered at once, else the port stays
WORKING until they are read (R17, R108, R160; DEDUCED, log entry 7). -/
def pullReads (p : PortId) (tag : Byte) (items : List Byte) (recs : List JournalRecord) (s : State) : State :=
  match recs with
  | [] => answer p .pull tag (doneReply items) s
  | r :: rest =>
    setWorking p { s with memory := { s.memory with
      pullWork := s.memory.pullWork ++ [{ port := p, tag := tag, left := r :: rest, items := items }] } }

/-- A PULL of a count on a port's cursor: a pending GAP, then records; the cursor moves past them and the gap count
returns to 0 (R16, R17). -/
def pullFrom (p : PortId) (tag : Byte) (count : Nat) (c : PullCursor) (s : State) : State :=
  let recs := s.journal.pullable c.cursor count
  pullReads p tag (pullGap c.gap) recs
    { s with journal := { s.journal with
      pull := s.journal.pull.set p (some { cursor := c.cursor + recs.length, gap := 0 }) } }

/-- PULL with its count; a port that passed the class check has a cursor (R11), and one without delivers nothing. -/
def servePullCount (p : PortId) (tag : Byte) (count : Byte) (s : State) : State :=
  match s.journal.pull.get p with
  | some c => pullFrom p tag (clampCount count.toNat) c s
  | none => answer p .pull tag (doneReply []) s

/-- PULL after its access and STARTING checks (R16). -/
def servePull (p : PortId) (tag : Byte) (body : List Byte) (s : State) : State :=
  withFields p .pull tag (oneByte body) (servePullCount p tag) s

/-- PULL (R16). -/
def execPull (p : PortId) (tag : Byte) (body : List Byte) (s : State) : Host.Outcome State Fault Refusal :=
  .next (requestPeriod p .pull tag body (servePull p tag body) s)

end Sys2Proof.Machine
end

