-- ==== Sys2Proof/Machine/Reset.lean ====
section
/-! DEFINITION. Power-on, the RESET line, RESTART and start-up: RESTART, POWER_ON, RESET_LINE, RESET_RELEASE,
STARTUP_HEADER_READ, STARTUP_COMPLETE. -/

namespace Sys2Proof.Machine

/-! ### What a reset changes (R189, R191) -/

/-- A transaction already granted is carried to its end, and nobody is answered: a journal append, a transaction of the
engine, of which the journal's writes outlast the reset, or one of the maintenance unit's, with what it writes of the table
(R19, R108, R187). A header read is `headerReadMet`'s. -/
def appendInFlight (s : State) : State :=
  match s.memory.inProgress with
  | none => s
  | some t =>
    match t.work, s.memory.intakeWork with
    | .journalAppend, w :: rest => { s with journal := s.journal.append (newRecord s.journal w s.session.clock),
                                            memory := { s.memory with intakeWork := rest } }
    | .engine, _ => engineUseEnds s
    | .maint, _ => maintUseEnds s
    | _, _ => s

/-- A port at a reset: IDLE with a CLEAR slot; what it last drove on data-out was driven (R181). -/
def Port.cleared (q : Port) : Port := { exchange := .idle, slot := .clear, dataOut := q.dataOut }

/-- The notices of the default classes, given against the rows as they stood (R11, R19, R171). -/
def noticeDefaults (j : Journal) : Journal :=
  allFour.foldl (fun j p => j.notice p (defaultAccess.get p).classes) j

/-- The journal at a RESET line or RESTART: kept, with the translate cursor at head + 1 (R19). -/
def Journal.atReset (j : Journal) : Journal := noticeDefaults { j with cursor := j.head + 1 }

/-- The table at a RESET line or RESTART: slots and header as they stand, tier items at their defaults (R38). -/
def Dictionary.atReset (d : Dictionary) : Dictionary :=
  { d with tiers := ⟨Tier.reset, Tier.reset, Tier.reset, Tier.reset⟩ }

/-- Every block at its reset values, and the start-up that reads the header still to do (R189, R190). -/
def resetBlocks (cause : ResetCause) (d : DeviceState) (s : State) : State :=
  { s with
    device := { state := d, startup := .readHeader, cause := cause, outcome := s.device.outcome }
    ports := s.ports.map Port.cleared
    access := defaultAccess
    journal := s.journal.atReset
    dict := s.dict.atReset
    maint := Maintenance.reset
    engine := Engine.reset
    roster := rosterReset
    log := CaptionLog.reset
    feeds := ⟨none, none, none, none⟩
    session := Session.reset
    memory := Memory.reset
    reports := ⟨none, none, none, none⟩ }

/-- A reset: the transaction in progress is completed, and every block takes its reset values (R19, R187, R189). What a
strike's take had written of the journal stays, since each of its writes was made by its transaction (R108). -/
def resetPart (cause : ResetCause) (d : DeviceState) (s : State) : State :=
  resetBlocks cause d (appendInFlight s)

/-! ### RESTART (R180) -/

/-- RESTART after its access and STARTING checks: a reset, and no answer (R180, R189). -/
def serveRestart (p : PortId) (tag : Byte) (body : List Byte) (s : State) : State :=
  withFields p .restart tag (noBody body) (fun _ s => resetPart .restart .starting s) s

/-- A RESTART has just begun its reset: no request has been taken and no transaction granted since (R180, R190). -/
def justRestarted (s : State) : Bool :=
  decide (s.device.state = .starting) && decide (s.device.startup = .readHeader) && decide (s.device.cause = .restart)
    && decide (s.memory = Memory.reset) && decide (s.reports = ⟨none, none, none, none⟩)
    && allFour.all (fun p => decide ((s.ports.get p).exchange = .idle))

/-- A RESTART: one that arrived together with the RESTART taken right before it is discarded by that reset, without an
answer (R180; DESIGN CHOICE, log entry 19). -/
def restarts (p : PortId) (tag : Byte) (body : List Byte) (together : Bool) (s : State) : State :=
  if together && justRestarted s then setExchange p .idle (zeros (4 + body.length)) s
  else requestPeriod p .restart tag body (serveRestart p tag body) s

/-- RESTART (R180). -/
def execRestart (p : PortId) (tag : Byte) (body : List Byte) (together : Bool) (s : State) :
    Host.Outcome State Fault Refusal :=
  .next (restarts p tag body together s)

/-! ### POWER_ON, RESET_LINE, RESET_RELEASE (R188, R189) -/

/-- POWER_ON (R188): every block at its power-on values, whatever went before (DEDUCED, log entry 28). -/
def execPowerOn (s : State) : Host.Outcome State Fault Refusal := .next { State.reset with pending := s.pending }

/-- The table outcome and what start-up does next, by the header read (R190). -/
def headerOutcome (h : Header) (d : Device) : Device :=
  match h with
  | .consistent => { d with outcome := .kept, startup := .done }
  | .writing => { d with outcome := .emptied, startup := .sweep }

/-- Start-up's read of the header, granted before a reset, is completed by it (R187). Whether it still sets the table outcome,
as R190 has a header read do, the command says (DESIGN CHOICE, log entry 34). A RESTART meets none: it is refused STARTING. -/
def headerReadMet (sets : Bool) (s : State) : State :=
  match s.memory.inProgress with
  | some t =>
    if sets = true ∧ t.work = .headerRead then
      { s with device := { s.device with outcome := (headerOutcome s.dict.header s.device).outcome } }
    else s
  | none => s

/-- An assertion of the RESET line of so many nanoseconds (R189). -/
def resetAsserted (ns : Nat) (sets : Bool) (s : State) : State :=
  if ns < Config.resetLineNs then s else resetPart .resetLine .held (headerReadMet sets s)

/-- RESET_LINE (R189). -/
def execResetLine (ns : Nat) (sets : Bool) (s : State) : Host.Outcome State Fault Refusal := .next (resetAsserted ns sets s)

/-- The RESET line is released: the part enters STARTING (R189). -/
def resetReleased (s : State) : State :=
  if s.device.state = .held then { s with device := { s.device with state := .starting, startup := .readHeader } } else s

/-- RESET_RELEASE (R189). -/
def execResetRelease (s : State) : Host.Outcome State Fault Refusal := .next (resetReleased s)

/-! ### STARTUP_HEADER_READ and STARTUP_COMPLETE (R190, R191) -/

/-- The start-up read of the table header completes (R190). -/
def headerReadEnds (s : State) : State :=
  if s.device.state = .starting ∧ s.device.startup = .readHeader then
    match granted .headerRead s with
    | some s1 => endTransaction { s1 with device := headerOutcome s1.dict.header s1.device }
    | none => s
  else s

/-- STARTUP_HEADER_READ (R190). -/
def execStartupHeaderRead (s : State) : Host.Outcome State Fault Refusal := .next (headerReadEnds s)

/-- The part becomes READY (R191). A port that was answered while the part was STARTING keeps its response to be read, as
R177 and R178 have it, although R188 and R191 say that every port is IDLE (DESIGN CHOICE, log entry 35). The arbiter's order is
as start-up's grants have left it, MAINT lowest, and not XLATE, LOG, MAINT, PULL (R187, R191; DESIGN CHOICE, log entry 44). -/
def becomeReady (s : State) : State := { s with device := { s.device with state := .ready, startup := .done } }

/-- The last write or read of start-up completes: the sweep ends once its transactions are made (R188, R190, R191). -/
def startupCompletes (s : State) : State :=
  if s.device.state = .starting then
    match s.device.startup with
    | .readHeader => s
    | .sweep => maintStep (fun _ => becomeReady) s
    | .done => becomeReady s
  else s

/-- STARTUP_COMPLETE (R191). -/
def execStartupComplete (s : State) : Host.Outcome State Fault Refusal := .next (startupCompletes s)

end Sys2Proof.Machine
end

