-- ==== Sys2Proof/Machine/Sessions.lean ====
section
/-! DEFINITION. Session control: OPEN, CLOSE, OPEN_START_APPENDED, CLOSE_END_APPENDED, SESSION_CLOCK_TICK. -/

namespace Sys2Proof.Machine

/-! ### OPEN (R147 to R149) -/

/-- A feed at OPEN keeps its mode; its cursor and floor become 1 and its mark absent (R99). -/
def Feed.atOpen (f : Feed) : Feed := { f with cursor := ⟨1#32, false⟩, floor := ⟨1#32, false⟩, mark := none }

/-- The PULLs and FETCHes whose reads are still to make are answered as the emptying finds them: with the records and segments
that they were taken for, as they then stand (R16, R92, R149, R182; DESIGN CHOICE, log entry 39). -/
def answerWaiting (s : State) : State :=
  let s1 := s.memory.pullWork.foldl (fun t w =>
    answer w.port .pull w.tag (doneReply (w.items ++ w.left.flatMap (pullItem s w.port))) t) s
  s.memory.logWork.foldl (fun t w =>
    match w with
    | .fetch f => answer f.port .fetch f.tag (doneReply f.items) t
    | .startAppend => t
    | .endAppend => t
    | .change _ => t) s1

/-- A transaction granted before an OPEN is carried to its end, but the work it was for is gone; an append, a header read and
the maintenance unit's go on (R149, R182; log entry 39). -/
def Transaction.atOpen (t : Transaction) : Transaction :=
  match t.work with
  | .pullRead => { t with work := .dropped }
  | .fetchRead => { t with work := .dropped }
  | .change => { t with work := .dropped }
  | .engine => { t with work := .dropped }
  | .journalAppend => t
  | .headerRead => t
  | .startAppend => t
  | .endAppend => t
  | .maint => t
  | .dropped => t

/-- The memory controller at OPEN: the rings are read and written for the previous session no more (R149, R182). -/
def Memory.atOpen (m : Memory) : Memory :=
  { m with inProgress := m.inProgress.map Transaction.atOpen, logWork := [], pullWork := [], engineWork := none }

/-- The emptying of the previous session as one event (R149). -/
def emptySession (job : BitVec 16) (s : State) : State :=
  { answerWaiting s with
    session := { s.session with job := job, clock := 0#32, clkin := 0 }
    journal := s.journal.emptied
    engine := Engine.reset
    log := CaptionLog.reset
    feeds := s.feeds.map (Option.map Feed.atOpen)
    memory := s.memory.atOpen }

/-- Session control holds OPEN IN PROGRESS and has START appended (R147, R150). -/
def askStart (p : PortId) (discard : Nat) (s : State) : State :=
  { s with
    session := { s.session with request := .openInProgress p discard }
    memory := { s.memory with logWork := s.memory.logWork ++ [.startAppend] } }

/-- The lowest port whose pull cursor lags, unless the discard flag is set (R148). -/
def unpulledPort (discard : Bool) (s : State) : Option PortId := if discard then none else s.journal.lagging.head?

/-- OPEN with its fields, through its state and resource checks (R147, R148). -/
def acceptOpen (p : PortId) (tag : Byte) (a : BitVec 16 × Bool) (s : State) : State :=
  if slotBusy p s then refuse p .openSession tag .busy 0 s
  else if s.session.request ≠ .none then refuse p .openSession tag .busy 0 s
  else if s.session.opened then refuse p .openSession tag .wrongState 0 s
  else
    match unpulledPort a.2 s with
    | some q => refuse p .openSession tag .unpulled q.val s
    | none => accept p .openSession tag (refreshActivity (askStart p s.journal.unpulled (emptySession a.1 s)))

/-- OPEN after its access and STARTING checks (R147). -/
def serveOpenSession (p : PortId) (tag : Byte) (body : List Byte) (s : State) : State :=
  withFields p .openSession tag (openBody body) (acceptOpen p tag) s

/-- OPEN (R147). -/
def execOpenSession (p : PortId) (tag : Byte) (body : List Byte) (s : State) : Host.Outcome State Fault Refusal :=
  .next (requestPeriod p .openSession tag body (serveOpenSession p tag body) s)

/-! ### OPEN_START_APPENDED (R150) -/

/-- START stands in the log: the session is OPEN, its clock counts from 0, and the completion is given (R150). -/
def startAppended (p : PortId) (discard : Nat) (s : State) : State :=
  let s1 := appendSegment (.start s.session.job 0#32) s
  let s2 := endTransaction { s1 with
    memory := { s1.memory with logWork := LogWork.made s1.memory.logWork }
    session := { s1.session with opened := true, request := .none, clkin := 0 } }
  complete p (doneReply (leBytes 2 s.session.job.toNat ++ leBytes 4 discard)) s2

/-- The append of START completes (R150). -/
def openStartAppends (s : State) : State :=
  match s.session.request with
  | .openInProgress p discard =>
    match granted .startAppend s with
    | some s1 => startAppended p discard s1
    | none => s
  | .closeInProgress .. => s
  | .none => s

/-- OPEN_START_APPENDED (R150). -/
def execOpenStartAppended (s : State) : Host.Outcome State Fault Refusal := .next (openStartAppends s)

/-! ### CLOSE (R151) -/

/-- CLOSE through its state checks (R151). -/
def acceptClose (p : PortId) (tag : Byte) (s : State) : State :=
  if slotBusy p s then refuse p .closeSession tag .busy 0 s
  else if s.session.request ≠ .none then refuse p .closeSession tag .busy 0 s
  else if s.engine.request.isSome then refuse p .closeSession tag .busy 0 s
  else if s.session.opened = false then refuse p .closeSession tag .wrongState 0 s
  else accept p .closeSession tag { s with session := { s.session with request := .closeInProgress p false } }

/-- CLOSE after its access and STARTING checks (R151). -/
def serveCloseSession (p : PortId) (tag : Byte) (body : List Byte) (s : State) : State :=
  withFields p .closeSession tag (noBody body) (fun _ s => acceptClose p tag s) s

/-- CLOSE (R151). -/
def execCloseSession (p : PortId) (tag : Byte) (body : List Byte) (s : State) : Host.Outcome State Fault Refusal :=
  .next (requestPeriod p .closeSession tag body (serveCloseSession p tag body) s)

/-! ### CLOSE_END_APPENDED (R153) -/

/-- The body of a CLOSE completion, once END is the newest segment (R153). -/
def closeReport (p : PortId) (s : State) : List Byte :=
  leBytes 2 s.session.job.toNat ++ wordBytes s.log.newest ++ leBytes 4 s.journal.head
    ++ wordBytes (s.session.clock + offsetOf p s)

/-- END stands in the log: the session is CLOSED, its clock stops, and the completion is given (R153). -/
def endAppended (p : PortId) (s : State) : State :=
  let s1 := appendSegment (.fin s.session.job s.session.clock) s
  let s2 := endTransaction { s1 with
    memory := { s1.memory with logWork := LogWork.made s1.memory.logWork }
    session := { s1.session with opened := false, request := .none, clkin := 0 } }
  complete p (doneReply (closeReport p s2)) s2

/-- The append of END completes (R153). -/
def closeEndAppends (s : State) : State :=
  match s.session.request with
  | .closeInProgress p true =>
    match granted .endAppend s with
    | some s1 => endAppended p s1
    | none => s
  | .closeInProgress _ false => s
  | .openInProgress .. => s
  | .none => s

/-- CLOSE_END_APPENDED (R153). -/
def execCloseEndAppended (s : State) : Host.Outcome State Fault Refusal := .next (closeEndAppends s)

/-! ### SESSION_CLOCK_TICK (R154, R192) -/

/-- So many periods of CLKIN pass: while the session is OPEN they are counted, and each 50,000 advance the clock by
1 ms modulo 2^32; otherwise the clock and the count are held (R154, R192). -/
def clockRuns (periods : Nat) (c : Session) : Session :=
  if c.opened then
    { c with clock := c.clock + BitVec.ofNat 32 ((c.clkin + periods) / Config.clkinPerMs),
             clkin := (c.clkin + periods) % Config.clkinPerMs }
  else c

/-- SESSION_CLOCK_TICK (R192). -/
def execSessionClockTick (periods : Nat) (s : State) : Host.Outcome State Fault Refusal :=
  .next { s with session := clockRuns periods s.session }

end Sys2Proof.Machine
end

