-- ==== Sys2Proof/Machine/Requests.lean ====
section
/-! DEFINITION. Select periods given as the bytes shifted in: FRAME_REFUSED and RESPONSE_PHASE. -/

namespace Sys2Proof.Machine

/-- The owner's work for each kind of request, after the access and STARTING checks. -/
def serve (k : Kind) (p : PortId) (tag : Byte) (body : List Byte) : State → State :=
  match k with
  | .stroke => serveStroke p tag body
  | .pull => servePull p tag body
  | .subscribe => serveSubscribe p tag body
  | .unsubscribe => serveUnsubscribe p tag body
  | .fetch => serveFetch p tag body
  | .collect => serveCollect p tag body
  | .status => serveStatus p tag [] body
  | .speaker => serveSpeaker p tag body
  | .setTiers => serveSetTiers p tag body
  | .setHold => serveSetHold p tag body
  | .setOffset => serveSetOffset p tag body
  | .setArbiter => serveSetArbiter p tag body
  | .setAccess => serveSetAccess p tag body
  | .trust => serveTrust p tag body
  | .lockPort => serveLockPort p tag body
  | .lockTier => serveLockTier p tag body
  | .restart => serveRestart p tag body
  | .put => servePut p tag body
  | .drop => serveDrop p tag body
  | .clearTier => serveClearTier p tag body
  | .get => serveGet p tag body
  | .retranslate => serveRetranslate p tag body
  | .openSession => serveOpenSession p tag body
  | .closeSession => serveCloseSession p tag body

/-- What a complete frame brings about: the frame check, and then the checks and work of its kind (R161, R164). -/
def takeFrame (p : PortId) (bytes : List Byte) (s : State) : State :=
  match checkFrame bytes with
  | .good k tag body => throughChecks p k tag (serve k p tag body) s
  | .bad kind tag detail => respond p kind tag (refusedReply .malformed detail) s

/-- A select period on a port, by the whole bytes shifted in: a part held in reset takes none (R189); an IDLE port makes
it a request phase, and no exchange when no byte came (R159); any other port a response phase (R160). DEDUCED, log entries 15
and 29. -/
def selectPeriod (p : PortId) (bytes : List Byte) (s : State) : State :=
  if s.device.state = .held then setExchange p (s.ports.get p).exchange (zeros bytes.length) s
  else if (s.ports.get p).exchange.takesRequest then
    if bytes = [] then setExchange p .idle [] s else takeFrame p bytes (beginExchange p bytes.length s)
  else responsePeriod p bytes.length s

/-- FRAME_REFUSED (R161): a select period by its bytes, which fail the frame check. -/
def execFrameRefused (p : PortId) (bytes : List Byte) (s : State) : Host.Outcome State Fault Refusal :=
  .next (selectPeriod p bytes s)

/-- RESPONSE_PHASE (R160): a select period by its bytes, which a port that is WORKING or ANSWERING ignores. -/
def execResponsePhase (p : PortId) (bytes : List Byte) (s : State) : Host.Outcome State Fault Refusal :=
  .next (selectPeriod p bytes s)

end Sys2Proof.Machine
end

