-- ==== Sys2Proof/Machine/Dispatch.lean ====
section
/-! DEFINITION. The effect of every command: one arm for each constructor of Instr. -/

namespace Sys2Proof.Machine

def exec (i : Instr) (s : State) : Host.Outcome State Fault Refusal :=
  match i with
  | .stroke p tag body => Sys2Proof.Machine.execStroke p tag body s
  | .journalAppend => Sys2Proof.Machine.execJournalAppend s
  | .pull p tag body => Sys2Proof.Machine.execPull p tag body s
  | .subscribe p tag body => Sys2Proof.Machine.execSubscribe p tag body s
  | .unsubscribe p tag body => Sys2Proof.Machine.execUnsubscribe p tag body s
  | .fetch p tag body => Sys2Proof.Machine.execFetch p tag body s
  | .collect p tag body => Sys2Proof.Machine.execCollect p tag body s
  | .status p tag body reads => Sys2Proof.Machine.execStatus p tag body s reads
  | .speaker p tag body => Sys2Proof.Machine.execSpeaker p tag body s
  | .setTiers p tag body => Sys2Proof.Machine.execSetTiers p tag body s
  | .setHold p tag body => Sys2Proof.Machine.execSetHold p tag body s
  | .setOffset p tag body => Sys2Proof.Machine.execSetOffset p tag body s
  | .setArbiter p tag body => Sys2Proof.Machine.execSetArbiter p tag body s
  | .setAccess p tag body => Sys2Proof.Machine.execSetAccess p tag body s
  | .trust p tag body => Sys2Proof.Machine.execTrust p tag body s
  | .lockPort p tag body => Sys2Proof.Machine.execLockPort p tag body s
  | .lockTier p tag body => Sys2Proof.Machine.execLockTier p tag body s
  | .restart p tag body together => Sys2Proof.Machine.execRestart p tag body together s
  | .put p tag body => Sys2Proof.Machine.execPut p tag body s
  | .drop p tag body => Sys2Proof.Machine.execDrop p tag body s
  | .clearTier p tag body => Sys2Proof.Machine.execClearTier p tag body s
  | .get p tag body => Sys2Proof.Machine.execGet p tag body s
  | .retranslate p tag body => Sys2Proof.Machine.execRetranslate p tag body s
  | .openSession p tag body => Sys2Proof.Machine.execOpenSession p tag body s
  | .closeSession p tag body => Sys2Proof.Machine.execCloseSession p tag body s
  | .frameRefused p bytes => Sys2Proof.Machine.execFrameRefused p bytes s
  | .responsePhase p bytes => Sys2Proof.Machine.execResponsePhase p bytes s
  | .maintHeadCheck => Sys2Proof.Machine.execMaintHeadCheck s
  | .tableLockTake => Sys2Proof.Machine.execTableLockTake s
  | .putWriteEnd => Sys2Proof.Machine.execPutWriteEnd s
  | .dropWriteEnd => Sys2Proof.Machine.execDropWriteEnd s
  | .clearTierStart => Sys2Proof.Machine.execClearTierStart s
  | .clearTierSweepEnd => Sys2Proof.Machine.execClearTierSweepEnd s
  | .getAnswer => Sys2Proof.Machine.execGetAnswer s
  | .reResolution => Sys2Proof.Machine.execReResolution s
  | .takeStroke => Sys2Proof.Machine.execTakeStroke s
  | .takeStrike => Sys2Proof.Machine.execTakeStrike s
  | .expiry first => Sys2Proof.Machine.execExpiry s first
  | .closeSettle => Sys2Proof.Machine.execCloseSettle s
  | .closeEndAppended => Sys2Proof.Machine.execCloseEndAppended s
  | .openStartAppended => Sys2Proof.Machine.execOpenStartAppended s
  | .retranslationStart => Sys2Proof.Machine.execRetranslationStart s
  | .retranslationRebuild => Sys2Proof.Machine.execRetranslationRebuild s
  | .sessionClockTick periods => Sys2Proof.Machine.execSessionClockTick periods s
  | .memoryGrant asks => Sys2Proof.Machine.execMemoryGrant asks s
  | .sdramRefresh => Sys2Proof.Machine.execSdramRefresh s
  | .powerOn => Sys2Proof.Machine.execPowerOn s
  | .resetLine ns sets => Sys2Proof.Machine.execResetLine ns sets s
  | .resetRelease => Sys2Proof.Machine.execResetRelease s
  | .startupHeaderRead => Sys2Proof.Machine.execStartupHeaderRead s
  | .startupComplete => Sys2Proof.Machine.execStartupComplete s
  | .memoryTransactionComplete => Sys2Proof.Machine.execMemoryTransactionComplete s

end Sys2Proof.Machine
end

