-- ==== Sys2Proof/WellFormed.lean ====
section
/-! DEFINITION. Which commands are well formed: what the senders of spec/ can bring to the part. -/

namespace Sys2Proof

/-- A request body fits a frame (R159). -/
def bodyFits (body : List Byte) : Bool := decide (body.length ≤ Config.bodyLimit)

/-- The bytes are a frame that fails the frame check (R161). -/
def frameFails (bytes : List Byte) : Bool :=
  match bytes, Machine.checkFrame bytes with
  | [], _ => false
  | _ :: _, .bad .. => true
  | _ :: _, .good .. => false

/-- A STATUS reads seven blocks, so its reads fall into at most seven groups of at most seven (R178, R179). -/
def readsFit (reads : List Nat) : Bool := decide (reads.length ≤ 7) && reads.all (fun n => decide (n ≤ 7))

/-- The well-formedness of a command. -/
def Instr.wf : Instr → Bool
  | .stroke _ _ body => bodyFits body
  | .pull _ _ body => bodyFits body
  | .subscribe _ _ body => bodyFits body
  | .unsubscribe _ _ body => bodyFits body
  | .fetch _ _ body => bodyFits body
  | .collect _ _ body => bodyFits body
  | .status _ _ body reads => bodyFits body && readsFit reads
  | .speaker _ _ body => bodyFits body
  | .setTiers _ _ body => bodyFits body
  | .setHold _ _ body => bodyFits body
  | .setOffset _ _ body => bodyFits body
  | .setArbiter _ _ body => bodyFits body
  | .setAccess _ _ body => bodyFits body
  | .trust _ _ body => bodyFits body
  | .lockPort _ _ body => bodyFits body
  | .lockTier _ _ body => bodyFits body
  | .restart _ _ body _ => bodyFits body
  | .put _ _ body => bodyFits body
  | .drop _ _ body => bodyFits body
  | .clearTier _ _ body => bodyFits body
  | .get _ _ body => bodyFits body
  | .retranslate _ _ body => bodyFits body
  | .openSession _ _ body => bodyFits body
  | .closeSession _ _ body => bodyFits body
  | .frameRefused _ bytes => frameFails bytes
  | .responsePhase _ _ => true
  | .journalAppend => true
  | .maintHeadCheck => true
  | .tableLockTake => true
  | .putWriteEnd => true
  | .dropWriteEnd => true
  | .clearTierStart => true
  | .clearTierSweepEnd => true
  | .getAnswer => true
  | .reResolution => true
  | .takeStroke => true
  | .takeStrike => true
  | .expiry _ => true
  | .closeSettle => true
  | .closeEndAppended => true
  | .openStartAppended => true
  | .retranslationStart => true
  | .retranslationRebuild => true
  | .sessionClockTick periods => decide (periods ≤ Config.clkinPerMs)
  | .memoryGrant _ => true
  | .sdramRefresh => true
  | .powerOn => true
  | .resetLine _ _ => true
  | .resetRelease => true
  | .startupHeaderRead => true
  | .startupComplete => true
  | .memoryTransactionComplete => true

end Sys2Proof
end

