-- ==== Sys2Proof/Safety.lean ====
section
/-! DEFINITION. The terms that statements use: when a request is taken, the state after an answer, and what holds of
the part's state in every run. -/

namespace Sys2Proof

/-! ### The wire form of a request command -/

/-- The kind, port, tag and body of a command that is a request. -/
def Instr.requestForm : Instr → Option (Machine.Kind × PortId × Byte × List Byte)
  | .stroke p t b => some (.stroke, p, t, b)
  | .pull p t b => some (.pull, p, t, b)
  | .subscribe p t b => some (.subscribe, p, t, b)
  | .unsubscribe p t b => some (.unsubscribe, p, t, b)
  | .fetch p t b => some (.fetch, p, t, b)
  | .collect p t b => some (.collect, p, t, b)
  | .status p t b _ => some (.status, p, t, b)
  | .speaker p t b => some (.speaker, p, t, b)
  | .setTiers p t b => some (.setTiers, p, t, b)
  | .setHold p t b => some (.setHold, p, t, b)
  | .setOffset p t b => some (.setOffset, p, t, b)
  | .setArbiter p t b => some (.setArbiter, p, t, b)
  | .setAccess p t b => some (.setAccess, p, t, b)
  | .trust p t b => some (.trust, p, t, b)
  | .lockPort p t b => some (.lockPort, p, t, b)
  | .lockTier p t b => some (.lockTier, p, t, b)
  | .restart p t b _ => some (.restart, p, t, b)
  | .put p t b => some (.put, p, t, b)
  | .drop p t b => some (.drop, p, t, b)
  | .clearTier p t b => some (.clearTier, p, t, b)
  | .get p t b => some (.get, p, t, b)
  | .retranslate p t b => some (.retranslate, p, t, b)
  | .openSession p t b => some (.openSession, p, t, b)
  | .closeSession p t b => some (.closeSession, p, t, b)
  | .frameRefused .. => none
  | .responsePhase .. => none
  | .journalAppend => none
  | .maintHeadCheck => none
  | .tableLockTake => none
  | .putWriteEnd => none
  | .dropWriteEnd => none
  | .clearTierStart => none
  | .clearTierSweepEnd => none
  | .getAnswer => none
  | .reResolution => none
  | .takeStroke => none
  | .takeStrike => none
  | .expiry _ => none
  | .closeSettle => none
  | .closeEndAppended => none
  | .openStartAppended => none
  | .retranslationStart => none
  | .retranslationRebuild => none
  | .sessionClockTick _ => none
  | .memoryGrant _ => none
  | .sdramRefresh => none
  | .powerOn => none
  | .resetLine .. => none
  | .resetRelease => none
  | .startupHeaderRead => none
  | .startupComplete => none
  | .memoryTransactionComplete => none

end Sys2Proof

namespace Sys2Proof.Machine

/-! ### A request that reaches its owner -/

/-- A request of a kind reaches its owner: the part is READY, the port IDLE, and the port's row grants the kind's need
(R159, R164, R170). -/
abbrev Taken (p : PortId) (k : Kind) (s : State) : Prop :=
  s.device.state = .ready ∧ (s.ports.get p).exchange = .idle ∧ denial k.need (s.access.get p) = none

/-- The state after a request frame of that body was answered: 0x00 was driven for each of its bytes, and the port is
ANSWERING with the response frame (R159, R160, R162). -/
def answered (p : PortId) (k : Kind) (tag : Byte) (body : List Byte) (r : Reply) (s : State) : State :=
  let port : Port :=
    { exchange := .answering (responseFrame (byteOf k.code) tag r), slot := (s.ports.get p).slot,
      dataOut := List.replicate (4 + body.length) 0#8 }
  { s with ports := s.ports.set p port }

/-- The state after a timed request was answered ACCEPTED: its port's slot is IN PROGRESS with kind and tag (R167). -/
def acceptedBy (p : PortId) (k : Kind) (tag : Byte) (body : List Byte) (s : State) : State :=
  let port : Port :=
    { exchange := .answering (responseFrame (byteOf k.code) tag acceptedReply), slot := .inProgress k tag,
      dataOut := List.replicate (4 + body.length) 0#8 }
  { s with ports := s.ports.set p port }

/-- The state after a request was taken whose response waits for entry memory: its port is WORKING (R159, R160). -/
def working (p : PortId) (body : List Byte) (s : State) : State :=
  let port : Port :=
    { exchange := .working, slot := (s.ports.get p).slot, dataOut := List.replicate (4 + body.length) 0#8 }
  { s with ports := s.ports.set p port }

/-- The state after a port's timed request of that kind and tag was completed with a reply: its slot holds it until it is
collected (R168). -/
def completedBy (p : PortId) (k : Kind) (tag : Byte) (r : Reply) (s : State) : State :=
  { s with ports := s.ports.set p { s.ports.get p with slot := .held k tag r } }

/-! ### Maintenance requests as a master writes them (R131, R135, R139, R143) -/

/-- The kind of a maintenance request. -/
def MaintRequest.kind : MaintRequest → Kind
  | .put .. => .put
  | .drop .. => .drop
  | .clearTier _ => .clearTier
  | .get .. => .get

/-- The command that sends a body as a request of one of the four maintenance kinds. -/
def MaintRequest.command (r : MaintRequest) (p : PortId) (tag : Byte) (body : List Byte) : Instr :=
  match r with
  | .put .. => .put p tag body
  | .drop .. => .drop p tag body
  | .clearTier _ => .clearTier p tag body
  | .get .. => .get p tag body

/-- A stroke count and its chords, three bytes each, low byte first (R131). -/
def strokesLayout (cs : List Chord) : List Byte := BitVec.ofNat 8 cs.length :: cs.flatMap (fun c => leBytes 3 c.toNat)

/-- Fields 3 to 5 of a PUT: kind, flags or command, and text or argument (R131). A STEM cannot be asked for. -/
def contentLayout : Content → List Byte
  | .text text flags => [0#8, BitVec.ofNat 8 flags.code, BitVec.ofNat 8 text.length] ++ text
  | .command .paragraph => [1#8, 0#8]
  | .command (.speaker a) => [1#8, 1#8, BitVec.ofNat 8 a.val]
  | .command .capsOn => [1#8, 2#8]
  | .command .capsOff => [1#8, 3#8]
  | .stem => []

/-- The retranslate flag as an options byte (R131). -/
def optionByte (flag : Bool) : Byte := if flag then 1#8 else 0#8

/-- The body of a maintenance request (R131, R135, R139, R143). -/
def MaintRequest.layout : MaintRequest → List Byte
  | .put t flag cs content => [BitVec.ofNat 8 t.val, optionByte flag] ++ strokesLayout cs ++ contentLayout content
  | .drop t flag cs => [BitVec.ofNat 8 t.val, optionByte flag] ++ strokesLayout cs
  | .clearTier t => [BitVec.ofNat 8 t.val]
  | .get (some t) cs => BitVec.ofNat 8 t.val :: strokesLayout cs
  | .get none cs => 255#8 :: strokesLayout cs

/-- A key may be asked for: one to six chords, none of them 0 or the strike (R131 field 2). -/
def keyLegal (cs : List Chord) : Prop := 1 ≤ cs.length ∧ cs.length ≤ 6 ∧ ∀ c ∈ cs, c ≠ 0#23 ∧ c ≠ 1024#23

/-- A content may be asked for (R131 fields 3 to 5). -/
def contentLegal : Content → Prop
  | .text text flags =>
    text.length ≤ 40 ∧ (∀ b ∈ text, 0x20 ≤ b.toNat ∧ b.toNat ≤ 0x7E) ∧ ¬(flags.capNext = true ∧ flags.lowerNext = true) ∧
      ¬(text = [] ∧ flags = ⟨false, false, false, false, false, false⟩)
  | .command _ => True
  | .stem => False

/-- A maintenance request passes its field checks. -/
def MaintRequest.legal : MaintRequest → Prop
  | .put _ _ cs content => keyLegal cs ∧ contentLegal content
  | .drop _ _ cs => keyLegal cs
  | .clearTier _ => True
  | .get _ cs => keyLegal cs

/-- The report of a PUT: the case, its slot, the prefixes placed and raised (R134, R162). -/
def putLayout (plan : PutPlan) : List Byte :=
  [match plan.case with
    | .placed => 0#8
    | .replaced => 1#8
    | .promoted => 2#8] ++ leBytes 4 plan.slot.toNat ++ [BitVec.ofNat 8 plan.placed, BitVec.ofNat 8 plan.raised]

/-- The report of a DROP: whether its record was vacated, its slot, the STEM prefixes vacated, the slots turned EMPTY (R138,
R162). -/
def dropLayout (slots : List (Nat × Slot)) (plan : DropPlan) : List Byte :=
  [if (applyDrop slots plan).1 then 1#8 else 0#8] ++ leBytes 4 plan.slot.toNat ++
    [BitVec.ofNat 8 (applyDrop slots plan).2.stems] ++ leBytes 4 (applyDrop slots plan).2.turned

/-! ### What holds in every run -/

/-- P0 is trusted (R172), and a port has a pull cursor exactly when its row holds PULL (R11). -/
def AccessSound (s : State) : Prop :=
  (s.access.get 0).trusted = true ∧
    ∀ p : PortId, (s.journal.pull.get p).isSome = holdsClass (s.access.get p).classes .pull

/-- The hold time, the CLKIN count and the roster stay in their ranges (R73, R146, R192). -/
def SettingsSound (s : State) : Prop :=
  Config.holdLow ≤ s.session.hold ∧ s.session.hold ≤ Config.holdHigh ∧ s.session.clkin < Config.clkinPerMs ∧
    s.roster.length = 16 ∧ ∀ n ∈ s.roster, n.length ≤ Config.nameLimit

/-- The slots keep their canonical form (R22). -/
def TableSound (s : State) : Prop := slotsWf s.dict.slots = true

/-- The arbiter's order is an order of its four requesters, the fixed one in FIXED mode (R185), and no pass-over count
exceeds 8 (R184). -/
def ArbiterSound (s : State) : Prop :=
  s.memory.order.Perm fixedOrder ∧ (s.memory.mode = .fixed → s.memory.order = fixedOrder) ∧
    s.memory.counts.xlate ≤ Config.passLimit ∧ s.memory.counts.log ≤ Config.passLimit ∧
    s.memory.counts.maint ≤ Config.passLimit ∧ s.memory.counts.pull ≤ Config.passLimit

/-- The log holds consecutive segment numbers from oldest held to newest, 4,096 of them at most (R81, R82). -/
def LogSound (s : State) : Prop :=
  s.log.segments.length ≤ Config.logRing ∧ s.log.newest + 1#32 = s.log.oldest + BitVec.ofNat 32 s.log.segments.length ∧
    s.log.segments.map Segment.number =
      (List.range s.log.segments.length).map (fun i => s.log.oldest + BitVec.ofNat 32 i)

/-- The journal holds consecutive sequence numbers from oldest held to head, 65,536 of them at most, and the translate
cursor is at most head + 1 (R9). -/
def JournalSound (s : State) : Prop :=
  1 ≤ s.journal.oldest ∧ s.journal.oldest ≤ s.journal.head + 1 ∧ s.journal.cursor ≤ s.journal.head + 1 ∧
    s.journal.held ≤ Config.journalRing ∧
    s.journal.records.map JournalRecord.seq = List.range' s.journal.oldest s.journal.held

/-- While the engine takes a record, one stands at the translate cursor (R53, R104). -/
def TakeSound (s : State) : Prop :=
  ∀ w, s.memory.engineWork = some w → w.kind = .takeStroke ∨ w.kind = .takeStrike → s.journal.cursor ≤ s.journal.head

/-- The journal's law of pointers: oldest held is at most every pull cursor, every pull cursor at most the translate cursor,
and the appends that wait will overwrite no untaken record (R9, R13). -/
def PointerSound (s : State) : Prop :=
  s.journal.oldest + (s.journal.held + s.memory.intakeWork.length - Config.journalRing) ≤ s.journal.cursor ∧
    ∀ p c, s.journal.pull.get p = some c → s.journal.oldest ≤ c.cursor ∧ c.cursor ≤ s.journal.cursor

/-- The responses that blocks are still forming for a port: a STROKE's, a PULL's, a FETCH's and a STATUS's. -/
def owedTo (p : PortId) (s : State) : Nat :=
  (s.memory.intakeWork.filter (fun w => decide (w.port = p))).length
    + (s.memory.pullWork.filter (fun w => decide (w.port = p))).length
    + (s.memory.logWork.filter (fun w =>
        match w with
        | .fetch f => decide (f.port = p)
        | .startAppend => false
        | .endAppend => false
        | .change _ => false)).length
    + (if (s.reports.get p).isSome then 1 else 0)

/-- Reads of a PULL or of a FETCH that came from the port are still to make (R160). -/
def ReadsWait (p : PortId) (s : State) : Prop :=
  (∃ w ∈ s.memory.pullWork, w.port = p) ∨ ∃ f, LogWork.fetch f ∈ s.memory.logWork ∧ f.port = p

/-- A port is WORKING exactly while one response is being formed for it, and no block forms two for one port (R158, R159). -/
def PortSound (s : State) : Prop :=
  ∀ p : PortId, owedTo p s = if (s.ports.get p).exchange = .working then 1 else 0

/-- An entry in WRITING. -/
def MaintEntry.isWriting (e : MaintEntry) : Bool :=
  match e.phase with
  | .writing _ => true
  | .queued => false
  | .checking _ => false
  | .lockWait _ => false
  | .sweeping => false

/-- The table lock is HELD exactly while the head is in WRITING, and every entry behind the head is QUEUED (R125). -/
def MaintSound (s : State) : Prop :=
  s.maint.lockHeld = (match s.maint.queue with
    | [] => false
    | e :: _ => e.isWriting) ∧
    ∀ e ∈ s.maint.queue.drop 1, e.phase = .queued

/-- An entry that stands before its writes: a PUT or DROP in LOCK WAIT, or a CLEAR TIER whose checks have passed. -/
def MaintEntry.isBeforeWrites (e : MaintEntry) : Prop :=
  (∃ plan, e.phase = .lockWait plan) ∨ ((∃ t, e.request = .clearTier t) ∧ e.phase = .checking true)

/-- The step the maintenance unit has begun has only reads to make, unless it is start-up's sweep or the head is in WRITING or
SWEEPING; a head that stands before its writes has the header's write WRITING to make (R37, R127, R130, R139, R190). -/
def StepSound (s : State) : Prop :=
  ∀ w, s.memory.maintWork = some w →
    (∀ u ∈ w.left, ∃ n, u = .read n) ∨ (s.device.state = .starting ∧ s.device.startup = .sweep) ∨
      ∃ e, s.maint.queue.head? = some e ∧
        (e.isWriting = true ∨ e.phase = .sweeping ∨ (e.isBeforeWrites ∧ w.left = [.header .writing]))

/-- Every record stands within the 32 slots of its own probe sequence, with no EMPTY slot before it there (R28). -/
def ProbeSound (slots : List (Nat × Slot)) : Prop :=
  ∀ (n : SlotNo) (r : Record), slotAt slots n.toNat = .occupied r →
    ∃ i, i < Config.probeLimit ∧ n = homeSlot r.tier r.strokes + BitVec.ofNat 18 i ∧
      ∀ j, j < i → slotAt slots (homeSlot r.tier r.strokes + BitVec.ofNat 18 j).toNat ≠ .empty

/-! ### The plan of a PLACED PUT (R132, R133) -/

/-- The proper prefixes of a key, in order of length (R25). -/
def prefixesOf (cs : List Chord) : List (List Chord) := (List.range (cs.length - 1)).map (fun i => cs.take (i + 1))

/-- What a PLACED PUT plans for its prefixes, one after another, with every slot claimed so far OCCUPIED: one that is held is
raised by one, one that is not is placed as a STEM with count 1; with the writes, how many were placed and raised, and the
table in which the next length looks (R132, R133). -/
inductive PrefixesPlanned (t : TierId) :
    List (List Chord) → List (Nat × Slot) → List (SlotNo × Record) → Nat → Nat → List (Nat × Slot) → Prop where
  | done (slots : List (Nat × Slot)) : PrefixesPlanned t [] slots [] 0 0 slots
  | raised {q : List Chord} {rest : List (List Chord)} {slots after : List (Nat × Slot)} {writes : List (SlotNo × Record)}
      {placed raises : Nat} {n : SlotNo} {r : Record} :
      lookup slots t q = some (n, r) → PrefixesPlanned t rest slots writes placed raises after →
      PrefixesPlanned t (q :: rest) slots ((n, { r with extensions := r.extensions + 1 }) :: writes) placed (raises + 1) after
  | placed {q : List Chord} {rest : List (List Chord)} {slots after : List (Nat × Slot)} {writes : List (SlotNo × Record)}
      {places raises : Nat} {n : SlotNo} :
      lookup slots t q = none → placement slots t q = some n →
      PrefixesPlanned t rest (writeSlot slots n.toNat (.occupied ⟨t, q, .stem, 1⟩)) writes places raises after →
      PrefixesPlanned t (q :: rest) slots ((n, ⟨t, q, .stem, 1⟩) :: writes) (places + 1) raises after

/-- A prefix of that length is not held and finds no slot (R133). -/
inductive PrefixesCrowded (t : TierId) : List (List Chord) → List (Nat × Slot) → Nat → Prop where
  | here {q : List Chord} {rest : List (List Chord)} {slots : List (Nat × Slot)} :
      lookup slots t q = none → placement slots t q = none → PrefixesCrowded t (q :: rest) slots q.length
  | raised {q : List Chord} {rest : List (List Chord)} {slots : List (Nat × Slot)} {len : Nat} :
      lookup slots t q ≠ none → PrefixesCrowded t rest slots len → PrefixesCrowded t (q :: rest) slots len
  | placed {q : List Chord} {rest : List (List Chord)} {slots : List (Nat × Slot)} {len : Nat} {n : SlotNo} :
      lookup slots t q = none → placement slots t q = some n →
      PrefixesCrowded t rest (writeSlot slots n.toNat (.occupied ⟨t, q, .stem, 1⟩)) len →
      PrefixesCrowded t (q :: rest) slots len

/-! ### The writes of a DROP (R136 to R138) -/

/-- The record of slot s was vacated. With an EMPTY slot after it, it and the VACATED slots before it, to the first that is not
VACATED, turned EMPTY, n in all; else it turned VACATED and none turned EMPTY (R137). -/
def VacatedAs (slots : List (Nat × Slot)) (s : SlotNo) (after : List (Nat × Slot)) (n : Nat) : Prop :=
  (slotAt slots (s + 1#18).toNat ≠ .empty → n = 0 ∧
    ∀ m : SlotNo, slotAt after m.toNat = if m = s then .vacated else slotAt slots m.toNat) ∧
  (slotAt slots (s + 1#18).toNat = .empty → 1 ≤ n ∧ n < 262144 ∧
    (∀ i, 1 ≤ i → i < n → slotAt slots (s - BitVec.ofNat 18 i).toNat = .vacated) ∧
    slotAt slots (s - BitVec.ofNat 18 n).toNat ≠ .vacated ∧
    ∀ m : SlotNo, slotAt after m.toNat = if (s - m).toNat < n then .empty else slotAt slots m.toNat)

/-- The proper prefixes' slots, longest first, have lost one extension each; a STEM that came to 0 was vacated; with how many
STEMs were vacated and how many slots turned EMPTY (R136, R138). -/
inductive LoweredAs : List (Nat × Slot) → List SlotNo → List (Nat × Slot) → Nat → Nat → Prop where
  | done (slots : List (Nat × Slot)) : LoweredAs slots [] slots 0 0
  | kept {slots after : List (Nat × Slot)} {s : SlotNo} {rest : List SlotNo} {r : Record} {stems turned : Nat} :
      slotAt slots s.toNat = .occupied r → (r.content ≠ .stem ∨ 2 ≤ r.extensions) →
      LoweredAs (writeSlot slots s.toNat (.occupied { r with extensions := r.extensions - 1 })) rest after stems turned →
      LoweredAs slots (s :: rest) after stems turned
  | vacated {slots mid after : List (Nat × Slot)} {s : SlotNo} {rest : List SlotNo} {r : Record} {n stems turned : Nat} :
      slotAt slots s.toNat = .occupied r → r.content = .stem → r.extensions ≤ 1 → VacatedAs slots s mid n →
      LoweredAs mid rest after stems turned → LoweredAs slots (s :: rest) after (stems + 1) (n + turned)

/-! ### The engine at a choice of work -/

/-- The engine may begin a work: the part READY, the engine IDLE, the table lock FREE and no PUT or DROP with the next
turn at it (R40, R41, R129). -/
abbrev EngineFree (s : State) : Prop :=
  s.device.state = .ready ∧ s.engine.activity = .idle ∧ s.maint.lockHeld = false ∧ s.maint.lockTurn = false

/-- No re-resolution and no retranslation is ready, so works 3 and 4 of R40 are the ones considered. -/
abbrev NothingBefore (s : State) : Prop := s.engine.changePending = false ∧ s.engine.request = none

/-- Entry memory is quiet: no transaction is in progress, no request waits for it, and no block has begun work that needs it. -/
abbrev MemoryQuiet (s : State) : Prop :=
  s.memory.inProgress = none ∧ s.memory.intakeWork = [] ∧ s.memory.logWork = [] ∧ s.memory.pullWork = [] ∧
    s.memory.engineWork = none ∧ s.memory.maintWork = none

/-- The memory controller after one or more transactions of a requester, granted one after another while no other requester
was requesting: its pass-over count is 0 and, ROTATING, it stands last in the order (R184, R185). -/
def afterGrants (r : MemRequester) (m : Memory) : Memory :=
  { m with
    counts := match r with
      | .intake => m.counts
      | .xlate => { m.counts with xlate := 0 }
      | .log => { m.counts with log := 0 }
      | .maint => { m.counts with maint := 0 }
      | .pull => { m.counts with pull := 0 }
    order := if m.mode = .fixed ∨ r = .intake then m.order else m.order.erase r ++ [r] }

/-- The memory controller after transactions of some requesters in turn, granted while no other was requesting (R183 to
R185). -/
def madeBy (rs : List MemRequester) (m : Memory) : Memory := rs.foldl (fun m r => afterGrants r m) m

/-- The activity as the table lock and the works ready leave it: an engine that is at no work is WAITING while the lock is
HELD and it has something to do (R39, R41, R113). -/
def refreshed (s : State) : State :=
  { s with engine := { s.engine with
      activity :=
        if s.engine.activity = .idle ∨ s.engine.activity = .waiting then
          (if s.maint.lockHeld = true ∧ (s.engine.changePending = true ∨
              (∃ r, s.engine.request = some r ∧ r.phase = .pending) ∨ s.journal.cursor ≤ s.journal.head) then .waiting
            else .idle)
        else s.engine.activity } }

/-- The state after a work of the engine ended: who has the next turn at the table lock (R129). -/
def workEnded (s : State) : State := { s with maint := { s.maint with lockTurn := headInLockWait s.maint } }

/-! ### The log's appends (R81 to R86, R97) -/

/-- The log has room for one segment more: a full ring lets its oldest segment go, the unit that names it leaves the list as
final, and every number of a feed that names it lapses (R97). -/
def roomMade (s : State) : State :=
  let lapsed := fun (r : SegmentRef) => if r.number = s.log.oldest then { r with lapsed := true } else r
  if s.log.segments.length < 4096 then s
  else
    { s with
      engine := { s.engine with units := s.engine.units.filter (fun u => u.segment ≠ s.log.oldest) }
      feeds := s.feeds.map (Option.map (fun f =>
        { f with cursor := lapsed f.cursor, floor := lapsed f.floor, mark := f.mark.map lapsed }))
      log := { s.log with oldest := s.log.oldest + 1#32, segments := s.log.segments.drop 1 } }

/-- The log with one segment more (R81, R82). -/
def logWith (l : CaptionLog) (body : SegmentBody) : CaptionLog :=
  { newest := l.newest + 1#32, oldest := l.oldest, wrapped := l.wrapped || decide (l.newest = 4294967295#32),
    segments := l.segments ++ [{ number := l.newest + 1#32, body := body }] }

/-- The state after the log appended one segment, in a ring with room or full (R81, R97). -/
def segmentAppended (body : SegmentBody) (s : State) : State := { roomMade s with log := logWith (roomMade s).log body }

/-- A target of a WITHDRAW with keep-through number k: a TEXT segment after k, PROVISIONAL or SETTLED; a number the ring does
not hold any more lies before every segment held (R82, R85). -/
def isTargetOf (l : CaptionLog) (k : SegNo) (g : Segment) : Bool :=
  decide (g.textState = some .provisional ∨ g.textState = some .settled) &&
    decide (l.segments.length ≤ (k - l.oldest).toNat ∨ (k - l.oldest).toNat < (g.number - l.oldest).toNat)

/-- The characters of a WITHDRAW's targets that a feed has shown: those at or after its floor and before its cursor; a lapsed
floor lies before every target, and so does a lapsed cursor (R86). -/
def erasedFor (l : CaptionLog) (k : SegNo) : Option Feed → Nat
  | none => 0
  | some f =>
    ((l.segments.filter (fun g =>
        isTargetOf l k g &&
          decide (f.floor.lapsed = true ∨ (f.floor.number - l.oldest).toNat ≤ (g.number - l.oldest).toNat) &&
          decide (f.cursor.lapsed = false ∧ (g.number - l.oldest).toNat < (f.cursor.number - l.oldest).toNat))).map
      Segment.textLength).sum

/-- The state after the log appended a WITHDRAW: room is made, the targets turn WITHDRAWN, and the segment carries each port's
erase count (R85, R86). -/
def withdrawAppended (k : SegNo) (s : State) : State :=
  let r := roomMade s
  let turned := r.log.segments.map (fun g => if isTargetOf r.log k g then g.withState .withdrawn else g)
  { r with
    log := logWith { r.log with segments := turned }
      (.withdraw k (r.feeds.map (fun f => BitVec.ofNat 16 (erasedFor r.log k f)))) }

/-- The records once a strike r has struck out the strokes given: each marked STRUCK, and the target written (R8,
R106). -/
def struckOut (r : Nat) (strokes : List Nat) (records : List JournalRecord) : List JournalRecord :=
  records.map (fun q =>
    match q.kind with
    | .stroke b => { q with kind := .stroke (b || decide (q.seq ∈ strokes)) }
    | .strike target => { q with kind := .strike (if q.seq = r then some strokes else target) })

/-- The tiers a read consults, in priority order (R21, R31). -/
abbrev tiersRead (s : State) : List TierId :=
  [(0 : TierId), 1, 2, 3].filter (fun l => (s.dict.tiers.get l).enabled && !(s.dict.tiers.get l).clearing)

/-- No tier read holds a record of the key with extensions: a run of its strokes is closed (R32, R43). -/
def closesAt (s : State) (key : List Chord) : Prop :=
  ∀ l ∈ tiersRead s, ∀ n q, lookup s.dict.slots l key = some (n, q) → q.extensions = 0

/-- The reading of what best lookup finds (R57). -/
def readingOf : Option (TierId × SlotNo × Record) → Reading
  | some (l, n, _) => .dictionary l n
  | none => .untranslated

/-- The settled format of units settled in place: the newest provisional unit's after-state (R54). -/
def settledFormat (e : Engine) : FormatState :=
  match (e.units.filter (fun u => !u.settled)).getLast? with
  | some u => u.after
  | none => e.format

/-- The state after the run is settled by expiry: the provisional units and their segments settle in place (R54). -/
def settledRun (s : State) : State :=
  { s with
    log := { s.log with segments := s.log.segments.map (fun g =>
      if g.textState = some .provisional ∧ s.engine.units.any (fun u => !u.settled && u.segment == g.number) = true then
        g.withState .settled
      else g) }
    engine := { s.engine with
      run := []
      units := s.engine.units.map (fun u => { u with settled := true })
      format := settledFormat s.engine } }

/-- The state after the headroom check with that bound: the run is settled when the oldest provisional unit's segment lies so
far before newest (R60, R113). -/
def headroomed (bound : Nat) (s : State) : State :=
  match (s.engine.units.filter (fun u => !u.settled)).head? with
  | some u => if bound ≤ (s.log.newest - u.segment).toNat then settledRun s else s
  | none => s

/-- The state after the expiry check of a take against a stamp (R52, R53). -/
def expiredBy (hold : Nat) (stamp : Stamp) (s : State) : State :=
  match s.engine.lastTaken with
  | some t => if s.engine.run ≠ [] ∧ hold ≤ (stamp - t).toNat then settledRun s else s
  | none => s

/-! ### Resolution (R43 to R51, R58, R118, R119) -/

/-- The head unit of a nonempty run: the longest bearing reading that best lookup finds for its oldest strokes, or the first
stroke alone, UNTRANSLATED (R44). -/
def HeadUnit (slots : List (Nat × Slot)) (tiers : List TierId) (run : List RunEntry) (settled : Bool) (u : Formed) : Prop :=
  ∃ (n : Nat) (found : Option (TierId × SlotNo × Record)),
    1 ≤ n ∧ n ≤ run.length ∧ u = ⟨run.take n, readingOf found, found.map (fun x => x.2.2.content), settled⟩ ∧
    (∀ m, n < m → m ≤ run.length → bestLookup slots tiers ((run.take m).map RunEntry.chord) = none) ∧
    found = bestLookup slots tiers ((run.take n).map RunEntry.chord) ∧ (found = none → n = 1)

/-- A run is closed: it has 6 strokes, or no tier read holds a record of its strokes with extensions (R32, R43). -/
def ClosedRun (slots : List (Nat × Slot)) (tiers : List TierId) (run : List RunEntry) : Prop :=
  6 ≤ run.length ∨
    ∀ l ∈ tiers, ∀ n q, lookup slots l (run.map RunEntry.chord) = some (n, q) → q.extensions = 0

/-- The provisional units of an open run: head units, one after another, until every stroke is covered (R45). -/
inductive CoversRun (slots : List (Nat × Slot)) (tiers : List TierId) : List RunEntry → List Formed → Prop where
  | done : CoversRun slots tiers [] []
  | unit {run : List RunEntry} {u : Formed} {us : List Formed} :
      HeadUnit slots tiers run false u → CoversRun slots tiers (run.drop u.strokes.length) us →
      CoversRun slots tiers run (u :: us)

/-- The new sequence of a run and the run that stays: settled heads while the run is closed, then the provisional units of the
open run (R43, R45). -/
inductive FormsRun (slots : List (Nat × Slot)) (tiers : List TierId) :
    List RunEntry → List Formed → List RunEntry → Prop where
  | empty : FormsRun slots tiers [] [] []
  | openRun {run : List RunEntry} {us : List Formed} :
      run ≠ [] → ¬ClosedRun slots tiers run → CoversRun slots tiers run us → FormsRun slots tiers run us run
  | head {run left : List RunEntry} {u : Formed} {us : List Formed} :
      run ≠ [] → ClosedRun slots tiers run → HeadUnit slots tiers run true u →
      FormsRun slots tiers (run.drop u.strokes.length) us left → FormsRun slots tiers run (u :: us) left

/-- The units formed, rendered in order: the first from the state given, each later one from the after-state of the one before
it; stamped with the stamp of the newest stroke (R46, R50). -/
def RendersRun (roster : List (List Byte)) (f : FormatState) : List Formed → List NewUnit → Prop
  | [], [] => True
  | u :: us, q :: qs =>
    q.strokes = u.strokes.map RunEntry.seq ∧ q.reading = u.reading ∧ q.settled = u.settled ∧ q.before = f ∧
      (q.text, q.after) = render roster f ((u.strokes.head?.map RunEntry.chord).getD 0#23) u.content ∧
      (q.command = true ↔ ∃ c, u.content = some (.command c)) ∧
      q.stamp = (u.strokes.getLast?.map RunEntry.stamp).getD 0#32 ∧ RendersRun roster q.after us qs
  | [], _ :: _ => False
  | _ :: _, [] => False

/-- The number of leading pairs of old and new units that match: strokes, reading and text agree, and no settled unit would
become provisional (R47, R118). -/
def MatchesUpTo (l : CaptionLog) (old : List ListedUnit) (news : List NewUnit) (j : Nat) : Prop :=
  let same := fun (o : ListedUnit) (q : NewUnit) =>
    o.strokes = q.strokes ∧ o.reading = q.reading ∧ l.textOf o.segment = some q.text ∧ (o.settled = true → q.settled = true)
  j ≤ old.length ∧ j ≤ news.length ∧ (∀ i o q, i < j → old[i]? = some o → news[i]? = some q → same o q) ∧
    ∀ o q, old[j]? = some o → news[j]? = some q → ¬same o q

/-- A new unit has joined the list: from a list of 64 the oldest settled unit leaves as final; the unit takes the next number
and its TEXT segment is appended (R50, R58). -/
def unitJoined (s : State) (q : NewUnit) : State :=
  let s1 := { s with engine := { s.engine with
    units := if s.engine.units.length < 64 then s.engine.units else s.engine.units.eraseP (fun u => u.settled) } }
  let s2 := segmentAppended (.text s.engine.nextUnit q.text (decide (q.reading = .untranslated)) q.command q.stamp
    (if q.settled then .settled else .provisional)) s1
  { s2 with engine := { s2.engine with
      units := s2.engine.units ++
        [⟨s.engine.nextUnit, q.strokes, q.reading, q.before, q.after, s2.log.newest, q.settled⟩]
      nextUnit := if s.engine.nextUnit = 4294967295#32 then 1#32 else s.engine.nextUnit + 1#32 } }

/-- The old units, which stand behind those that stay, have become the new ones, of which the first j match: these are kept,
a provisional one promoted with its segment where the new unit is settled (R84: a unit and its segment as one); one WITHDRAW
keeps through the segment before the first that does not match; the other new units join (R48 to R50, R119). In a rebuild the
kept units take the new before-states as well. -/
def diffed (rebuilt : Bool) (stay old : List ListedUnit) (news : List NewUnit) (j : Nat) (s : State) : State :=
  let kept := (old.zip news).take j
  let promoted := fun (n : SegNo) => kept.any (fun k => k.1.segment == n && !k.1.settled && k.2.settled)
  let units := stay ++ kept.map (fun k =>
    { k.1 with after := k.2.after, before := if rebuilt then k.2.before else k.1.before })
  let s1 := { s with
    log := { s.log with segments := s.log.segments.map (fun g =>
      if g.textState = some .provisional ∧ promoted g.number = true then g.withState .settled else g) }
    engine := { s.engine with units := units.map (fun u => { u with settled := u.settled || promoted u.segment }) } }
  let s2 := match old[j]? with
    | some o => withdrawAppended (o.segment - 1#32) s1
    | none => s1
  (news.drop j).foldl unitJoined s2

/-- The settled format state after new units: the after-state of the newest settled one, or as it was (R48, R50). -/
def formatAfter (f : FormatState) (news : List NewUnit) : FormatState :=
  match (news.filter (fun q => q.settled)).getLast? with
  | some q => q.after
  | none => f

/-- t is s after the resolution of its run over the tiers given (R43 to R51). -/
def Resolved (tiers : List TierId) (s t : State) : Prop :=
  ∃ (us : List Formed) (left : List RunEntry) (news : List NewUnit) (j : Nat) (d : State),
    FormsRun s.dict.slots tiers s.engine.run us left ∧ RendersRun s.roster s.engine.format us news ∧
    MatchesUpTo s.log (s.engine.units.filter (fun u => !u.settled)) news j ∧
    d = diffed false (s.engine.units.filter (fun u => u.settled)) (s.engine.units.filter (fun u => !u.settled)) news j s ∧
    t = { d with engine := { d.engine with run := left, format := formatAfter s.engine.format news } }

/-- What the private expiry check against a stamp makes of a replay: an expired run is settled, its provisional units collected
as settled, and the private format state is the newest one's after-state (R116). -/
def ReplayExpired (hold : Nat) (stamp : Stamp) (r base : Replay) : Prop :=
  ((∃ t, r.lastFed = some t ∧ r.run ≠ [] ∧ hold ≤ (stamp - t).toNat) →
    base = ⟨[], ((r.provisional.getLast?).map NewUnit.after).getD r.format,
      r.collected ++ r.provisional.map (fun q => { q with settled := true }), [], r.lastFed⟩) ∧
  ((∀ t, r.lastFed = some t → r.run = [] ∨ (stamp - t).toNat < hold) → base = r)

/-- A record has joined the private run as its newest entry (R115). -/
def Replay.withRecord (base : Replay) (j : JournalRecord) : Replay :=
  { base with run := base.run ++ [⟨j.seq, j.chord, j.stamp⟩], lastFed := some j.stamp }

/-- A replay whose private run came to new units and a run that stays: settled units are collected (R115). -/
def Replay.withUnits (base : Replay) (left : List RunEntry) (news : List NewUnit) : Replay :=
  { base with
    run := left
    format := formatAfter base.format news
    collected := base.collected ++ news.filter (fun q => q.settled)
    provisional := news.filter (fun q => !q.settled) }

/-- What one record fed makes of a replay: its private run is settled by expiry first, the record joins it, and the run is
resolved; settled units are collected (R115, R116). -/
def FedInto (slots : List (Nat × Slot)) (tiers : List TierId) (roster : List (List Byte)) (hold : Nat)
    (r : Replay) (j : JournalRecord) (r' : Replay) : Prop :=
  ∃ (base : Replay) (us : List Formed) (left : List RunEntry) (news : List NewUnit),
    ReplayExpired hold j.stamp r base ∧
    FormsRun slots tiers (base.withRecord j).run us left ∧ RendersRun roster base.format us news ∧
    r' = (base.withRecord j).withUnits left news

/-- The ports after each of some requesters was completed with its own report and the values given (R120). -/
def portsCompleted (rs : List Requester) (values : List Byte) (ports after : Quad Port) : Prop :=
  ∀ p : PortId,
    (∀ r ∈ rs, r.port = p → ∀ k tag, (ports.get p).slot = .inProgress k tag →
      after.get p = { ports.get p with slot := .held k tag (doneReply (r.report ++ values)) }) ∧
    ((∀ r ∈ rs, r.port ≠ p) → after.get p = ports.get p)

/-! ### A work of the engine made transaction by transaction (R43 to R62, R104 to R120, R183) -/

/-- What one transaction of a work brings about, whatever work it belongs to: a journal write, the promotion of a segment with
its unit, a WITHDRAW with its targets, or a new unit with its segment (R48 to R51, R84, R85, R108). -/
def brought (u : Use) (s : State) : State :=
  match u with
  | .write x => { s with journal := s.journal.write x }
  | .promote g => { s with
      log := { s.log with segments := s.log.segments.map (fun x =>
        if x.number = g ∧ x.textState = some .provisional then x.withState .settled else x) }
      engine := { s.engine with units := s.engine.units.map (fun x =>
        if x.segment = g then { x with settled := true } else x) } }
  | .withdraw k => withdrawAppended k s
  | .text q => unitJoined s q
  | .record _ | .slot _ | .turn _ => s

/-- The transactions that follow one: the change of each target that a WITHDRAW turns (R81, R85). -/
def following (u : Use) (s : State) : List Use :=
  match u with
  | .withdraw k => ((roomMade s).log.segments.filter (isTargetOf (roomMade s).log k)).map (fun g => .turn g.number)
  | _ => []

/-- What a stage has read once a slot read of its is made: the slot as it stands (R34). -/
def stageSaw (slots : List (Nat × Slot)) (u : Use) (st : Stage) : Stage :=
  match u, st with
  | .slot n, .forming seen => .forming (seen ++ [slotAt slots n.toNat])
  | .slot n, .feeding rep seen rest => .feeding rep (seen ++ [slotAt slots n.toNat]) rest
  | _, _ => st

/-- The oldest provisional unit's segment lies at least the bound before newest (R60, R113). -/
def HeadroomGone (bound : Nat) (s : State) : Prop :=
  ∃ u, (s.engine.units.filter (fun u => !u.settled)).head? = some u ∧ bound ≤ (s.log.newest - u.segment).toNat

/-- A work of that kind begins with a settle of the run: its headroom check or, in a take, its expiry check asks for it, or it is
itself a settle (R52 to R55, R60, R62, R113). -/
def SettleAsked (s : State) : WorkKind → Prop
  | .reResolution => HeadroomGone 4089 s
  | .retranslationStart => HeadroomGone 3711 s
  | .takeStroke | .takeStrike => HeadroomGone 4089 s ∨
      ∃ r t, s.journal.recordAt s.journal.cursor = some r ∧ s.engine.lastTaken = some t ∧ s.engine.run ≠ [] ∧
        s.session.hold ≤ (r.stamp - t).toNat
  | .expiry | .closeSettle => True
  | .rebuild => False

/-- A work comes to its settle: if one is asked, the run is emptied, the settled format state is the newest provisional unit's
after-state, and each provisional unit is to be promoted, oldest first (R54). -/
def SettleBegun (w : EngineWork) (s : State) (x : EngineWork × State) : Prop :=
  (SettleAsked s w.kind → x =
    ({ w with stage := .settling, left := (s.engine.units.filter (fun u => !u.settled)).map (fun u => .promote u.segment) },
     { s with engine := { s.engine with run := [], format := settledFormat s.engine } })) ∧
  (¬SettleAsked s w.kind → x = ({ w with stage := .settling, left := [] }, s))

/-- A run is to be resolved over the work's tiers, its slots read one by one (R34, R43). -/
def formingBegun (run : List RunEntry) (w : EngineWork) (s : State) : EngineWork × State :=
  ({ w with stage := .forming [], left := nextRead s.dict.slots [] w.tiers run },
   { s with engine := { s.engine with run := run } })

/-- The record at the translate cursor has become the last one taken (R52, R104). -/
def takenNoted (s : State) : State :=
  { s with engine := { s.engine with
      lastTaken := match s.journal.recordAt s.journal.cursor with
        | some r => some r.stamp
        | none => s.engine.lastTaken } }

/-- What the diff asks of the log, the first j of the old units matching: a promotion for each kept provisional unit whose new
unit is settled, one WITHDRAW through the segment before the first that does not match, and the other new units (R48 to R51). -/
def diffAsked (old : List ListedUnit) (news : List NewUnit) (j : Nat) : List Use :=
  ((old.zip news).take j).filterMap (fun k => if !k.1.settled && k.2.settled then some (.promote k.1.segment) else none)
    ++ (match old[j]? with
      | some o => [.withdraw (o.segment - 1#32)]
      | none => [])
    ++ (news.drop j).map .text

/-- The units that the diff keeps, with their new after-states, and in a rebuild their before-states too (R48, R119). -/
def keptWith (rebuilt : Bool) (old : List ListedUnit) (news : List NewUnit) (j : Nat) : List ListedUnit :=
  ((old.zip news).take j).map (fun k =>
    { k.1 with after := k.2.after, before := if rebuilt then k.2.before else k.1.before })

/-- The next record of a replay is to be read (R115). -/
def readingBegun (rep : Replay) (span : List JournalRecord) (w : EngineWork) (s : State) : EngineWork × State :=
  ({ w with
     stage := .reading rep span
     left := match span with
       | j :: _ => [.record j.seq]
       | [] => [] }, s)

/-- What a work whose stage has made its transactions comes to: a take or another work after its checks, its settle; after the
settle a resolution, or a strike's journal writes; after those the strike itself, against the run, a settled unit or nothing; the
units formed are rendered and compared, and the differences asked of the log; a replay reads, feeds and resolves record after
record, and then compares. What only changes the log has nothing after it. -/
def StageLeft (w : EngineWork) (s : State) (x : EngineWork × State) : Prop :=
  let rowLeft : EngineWork := { w with stage := .ending 0 0, left := [] }
  let record := s.journal.recordAt s.journal.cursor
  match w.stage with
  | .taking => SettleBegun w s x
  | .settling =>
    (∀ r, w.kind = .takeStroke → record = some r →
      x = formingBegun (s.engine.run ++ [⟨r.seq, r.chord, r.stamp⟩]) w (takenNoted s)) ∧
    (∀ r, w.kind = .takeStrike → record = some r →
      let struck := match s.engine.run.getLast?, s.engine.units.getLast? with
        | some e, _ => [e.seq]
        | none, some u => u.strokes
        | none, none => []
      x = ({ w with
        stage := .striking
        left := if struck = [] then [] else struck.map (fun n => .write (.mark n)) ++ [.write (.target r.seq struck)] }, s)) ∧
    (w.kind = .reResolution → x = formingBegun s.engine.run w s) ∧
    (w.kind ≠ .reResolution → ((w.kind ≠ .takeStroke ∧ w.kind ≠ .takeStrike) ∨ record = none) → x = (rowLeft, s))
  | .striking =>
    (s.engine.run ≠ [] → x = formingBegun s.engine.run.dropLast w (takenNoted s)) ∧
    (∀ us u, s.engine.run = [] → s.engine.units = us ++ [u] →
      x = ({ rowLeft with left := [.withdraw (u.segment - 1#32)] },
        { takenNoted s with engine := { (takenNoted s).engine with units := us, format := u.before } })) ∧
    (s.engine.run = [] → s.engine.units = [] → x = (rowLeft, takenNoted s))
  | .forming seen => ∃ (us : List Formed) (left : List RunEntry) (news : List NewUnit) (j : Nat),
      let old := s.engine.units.filter (fun u => !u.settled)
      formedBy s.dict.slots seen w.tiers s.engine.run = (us, left) ∧ RendersRun s.roster s.engine.format us news ∧
      MatchesUpTo s.log old news j ∧
      x = ({ rowLeft with left := diffAsked old news j },
        { s with engine := { s.engine with
            run := left
            units := s.engine.units.filter (fun u => u.settled) ++ keptWith false old news j
            format := formatAfter s.engine.format news } })
  | .reading rep [] =>
    (∀ r p, s.engine.request = some r → r.phase = .inProgress p → ∃ (rep1 : Replay) (j : Nat),
      let old := s.engine.units.drop p.first
      let news := rep1.collected ++ rep1.provisional
      ReplayExpired s.session.hold s.session.clock rep rep1 ∧ MatchesUpTo s.log old news j ∧
      x = ({ w with stage := .ending (old.length - j) (news.length - j), left := diffAsked old news j },
        { s with engine := { s.engine with
            run := rep1.run
            units := s.engine.units.take p.first ++ keptWith true old news j
            format := rep1.format } })) ∧
    ((∀ r p, s.engine.request = some r → r.phase ≠ .inProgress p) → x = (rowLeft, s))
  | .reading rep (j :: rest) =>
    (j.kind = .stroke false → ∃ base, ReplayExpired s.session.hold j.stamp rep base ∧
      x = ({ w with
        stage := .feeding (base.withRecord j) [] rest
        left := nextRead s.dict.slots [] w.tiers (base.withRecord j).run }, s)) ∧
    (j.kind ≠ .stroke false → x = readingBegun rep rest w s)
  | .feeding rep seen rest => ∃ (us : List Formed) (left : List RunEntry) (news : List NewUnit),
      formedBy s.dict.slots seen w.tiers rep.run = (us, left) ∧ RendersRun s.roster rep.format us news ∧
      x = readingBegun (rep.withUnits left news) rest w s
  | .ending _ _ => False

/-- A work with all transactions of its stage made goes on, stage after stage, to the next transaction it asks for, or until only
its row is left; a stage that reads slots asks for its next read (R183). -/
inductive GoesOn : EngineWork × State → EngineWork × State → Prop where
  | asks {w : EngineWork} {s : State} : w.left ≠ [] → GoesOn (w, s) (w, s)
  | waits {w : EngineWork} {s : State} {a b : Nat} : w.left = [] → w.stage = .ending a b → GoesOn (w, s) (w, s)
  | reads {w : EngineWork} {s : State} :
      w.left = [] → moreReads w s ≠ [] → GoesOn (w, s) ({ w with left := moreReads w s }, s)
  | stage {w : EngineWork} {s : State} {x y : EngineWork × State} :
      w.left = [] → moreReads w s = [] → StageLeft w s x → GoesOn x y → GoesOn (w, s) y

/-- A work makes all it has left with nobody else asking, stage after stage: each stage's transactions by grants to its one
requester, and a resolution or a replay with all its reads (R183 to R185). -/
inductive MadeAlone : EngineWork × State → EngineWork × State → Prop where
  | last {w : EngineWork} {s : State} {a b : Nat} : w.stage = .ending a b →
      MadeAlone (w, s) ({ w with left := [] }, { w.left.foldl (fun s u => brought u s) s with
        memory := if w.left = [] then s.memory else afterGrants .log s.memory })
  | stage {w : EngineWork} {s : State} {x y : EngineWork × State} : (∀ a b, w.stage ≠ .ending a b) →
      StageLeft { w with stage := w.stage.allRead w.tiers s, left := [] } { w.left.foldl (fun s u => brought u s) s with
        memory := if w.left = [] then s.memory else afterGrants w.stage.requester s.memory } x →
      MadeAlone x y → MadeAlone (w, s) y

/-- A work of the engine begins over the tiers in force, a replay over those in force as the retranslation began; a take's
record is to be read, change pending is served by a re-resolution, a replay begins from the start unit's before-state with the
records from the start used up to the translate cursor; the others come to their settle (R33, R53, R61, R104, R115). -/
def WorkBegun (k : WorkKind) (s : State) (x : EngineWork × State) : Prop :=
  let w : EngineWork :=
    { kind := k, tiers := tiersRead s, shown := ⟨s.engine.run, s.engine.units⟩, stage := .taking, left := [] }
  match k with
  | .takeStroke | .takeStrike => x = ({ w with left := [.record s.journal.cursor] }, s)
  | .reResolution => SettleBegun w { s with engine := { s.engine with changePending := false } } x
  | .retranslationStart | .expiry | .closeSettle => SettleBegun w s x
  | .rebuild => ∀ r p, s.engine.request = some r → r.phase = .inProgress p →
      x = readingBegun ⟨[], ((s.engine.units.drop p.first).head?.map ListedUnit.before).getD s.engine.format, [], [], none⟩
        ((s.journal.records.drop (p.startUsed - s.journal.oldest)).take (s.journal.cursor - p.startUsed))
        { w with tiers := p.tiers } s

/-- A work whose transactions are all made ends: a take moves the translate cursor on, a settle for a CLOSE has END appended, the
beginning of a retranslation fixes its start, and one with nothing to rebuild, like a rebuild, completes its requesters (R10,
R113, R114, R120, R153). -/
def WorkEnds (w : EngineWork) (s t : State) : Prop :=
  let dropped : State := { s with
    engine := { s.engine with activity := if s.engine.activity = .resolving then .idle else s.engine.activity }
    memory := { s.memory with engineWork := none } }
  let ends := fun (x : State) => t = refreshed (workEnded x)
  let released := fun (r : RetransRequest) (values : List Byte) => (r.requesters.map Requester.port).Nodup →
    ∃ ports, portsCompleted r.requesters values s.ports ports ∧
      ends { dropped with ports := ports, engine := { s.engine with request := none, activity := .idle } }
  match w.kind with
  | .reResolution | .expiry => ends dropped
  | .takeStroke | .takeStrike => ends { dropped with journal := { s.journal with cursor := s.journal.cursor + 1 } }
  | .closeSettle =>
    (∀ p b, s.session.request = .closeInProgress p b → ends { dropped with
      session := { s.session with request := .closeInProgress p true }
      memory := { s.memory with engineWork := none, logWork := s.memory.logWork ++ [.endAppend] } }) ∧
    ((∀ p b, s.session.request ≠ .closeInProgress p b) → t = dropped)
  | .retranslationStart => ∀ r, s.engine.request = some r →
    (s.engine.units = [] → released r (leBytes 4 s.journal.cursor ++ [0, 0, 0])) ∧
    (s.engine.units ≠ [] → (∀ u ∈ s.engine.units, u.strokes ≠ []) → ∃ (i : Nat) (u : ListedUnit),
      s.engine.units[i]? = some u ∧
      ((r.start.toNat ≤ u.strokes.getLastD 0 ∧ ∀ v ∈ s.engine.units.take i, v.strokes.getLastD 0 < r.start.toNat) ∨
        (i = s.engine.units.length - 1 ∧ ∀ v ∈ s.engine.units, v.strokes.getLastD 0 < r.start.toNat)) ∧
      t = { dropped with engine := { s.engine with
        activity := .retranslating
        request := some { r with phase := .inProgress ⟨i, u.strokes.headD 0, w.tiers⟩ } } })
  | .rebuild => ∀ r p a b, s.engine.request = some r → r.phase = .inProgress p → w.stage = .ending a b →
    released r (leBytes 4 p.startUsed ++ leBytes 1 a ++ leBytes 2 b)

/-- Nobody but the engine asks for entry memory, and no transaction is in progress. -/
abbrev EngineAlone (s : State) : Prop :=
  s.memory.inProgress = none ∧ s.memory.intakeWork = [] ∧ s.memory.logWork = [] ∧ s.memory.pullWork = [] ∧
    requestOf s .maint = none

/-- The engine may begin a work: the part READY, the engine IDLE, not held back by the table lock, no PUT or DROP with the next
turn at it, and no settle of the journal guard still to be written (R40, R41, R62, R129). -/
abbrev WorkAllowed (s : State) : Prop :=
  s.device.state = .ready ∧ s.engine.activity = .idle ∧ s.maint.lockTurn = false ∧
    (s.maint.lockHeld = true → s.engine.changePending = false ∧
      (∀ r, s.engine.request = some r → r.phase ≠ .pending) ∧ s.journal.head < s.journal.cursor) ∧
    ∀ b, .change b ∉ s.memory.logWork

/-- The works of R40 in their order, each ready with none before it ready; the two settles, of which either may come first, are
both work 4; a replay goes on while the engine is RETRANSLATING (R40, R55, R61, R62, R111, R113, R117, R119, R152). -/
def WorkReady (s : State) : WorkKind → Prop
  | .rebuild => s.device.state = .ready ∧ s.engine.activity = .retranslating ∧
      ∃ r p, s.engine.request = some r ∧ r.phase = .inProgress p
  | .reResolution => WorkAllowed s ∧ s.engine.changePending = true
  | .retranslationStart => WorkAllowed s ∧ s.engine.changePending = false ∧
      ∃ r, s.engine.request = some r ∧ r.phase = .pending
  | .takeStroke => WorkAllowed s ∧ s.engine.changePending = false ∧
      (∀ r, s.engine.request = some r → r.phase ≠ .pending) ∧ s.journal.cursor ≤ s.journal.head ∧
      ∃ r b, s.journal.recordAt s.journal.cursor = some r ∧ r.kind = .stroke b
  | .takeStrike => WorkAllowed s ∧ s.engine.changePending = false ∧
      (∀ r, s.engine.request = some r → r.phase ≠ .pending) ∧ s.journal.cursor ≤ s.journal.head ∧
      ∃ r b, s.journal.recordAt s.journal.cursor = some r ∧ r.kind = .strike b
  | .expiry => WorkAllowed s ∧ s.engine.changePending = false ∧
      (∀ r, s.engine.request = some r → r.phase ≠ .pending) ∧ s.journal.cursor = s.journal.head + 1 ∧
      s.engine.run ≠ [] ∧ ∃ t, s.engine.lastTaken = some t ∧ s.session.hold ≤ (s.session.clock - t).toNat
  | .closeSettle => WorkAllowed s ∧ s.engine.changePending = false ∧
      (∀ r, s.engine.request = some r → r.phase ≠ .pending) ∧ s.journal.cursor = s.journal.head + 1 ∧
      s.memory.intakeWork = [] ∧ ∃ p, s.session.request = .closeInProgress p false

/-- A capital of a small letter; every other character as it is (R67). -/
def capital (b : Byte) : Byte := if 0x61 ≤ b.toNat ∧ b.toNat ≤ 0x7A then BitVec.ofNat 8 (b.toNat - 0x20) else b

/-- A small letter of a capital; every other character as it is (R67). -/
def small (b : Byte) : Byte := if 0x41 ≤ b.toNat ∧ b.toNat ≤ 0x5A then BitVec.ofNat 8 (b.toNat + 0x20) else b

/-- A character from A to Z or a to z (R67). -/
def letter (b : Byte) : Prop := (0x41 ≤ b.toNat ∧ b.toNat ≤ 0x5A) ∨ (0x61 ≤ b.toNat ∧ b.toNat ≤ 0x7A)

/-- What the letter rule makes of a text (R67). -/
def lettered (f : FormatState) (text out : List Byte) : Prop :=
  (f.caps = true ∧ out = text.map capital) ∨
  (f.caps = false ∧ (f.case = .none ∨ ∀ b ∈ text, ¬letter b) ∧ out = text) ∨
  (f.caps = false ∧ ∃ pre b post, text = pre ++ b :: post ∧ (∀ c ∈ pre, ¬letter c) ∧ letter b ∧
    ((f.case = .nextCap ∧ out = pre ++ capital b :: post) ∨ (f.case = .nextLower ∧ out = pre ++ small b :: post)))

end Sys2Proof.Machine
end

