-- ==== Sys2Proof/Certificates/Slice0/Obligations.lean ====
section
/-! DEFINITION. The statements for the provers, from the rules of spec/. -/

open Sys2Proof Sys2Proof.Machine

/-! ## The machine as a whole -/

/-- A step takes the command at the front of the queue and is exec of it on the rest; on an empty queue the part idles
(the model's queue and the model's idling, log entries 3 and 4). -/
def Obligations.StepTakesTheFront : Prop :=
  ∀ s : State,
    (∀ (c : Instr) (rest : List Instr), s.pending = c :: rest → step s = exec c { s with pending := rest }) ∧
    (s.pending = [] → step s = .next s)

/-- A request command is the select period in which its request frame is written (R159, R161, R162), at every state of
the port and of the part. A select period given by its bytes is served as its bytes say, whichever row names it (log entries
14 and 29); as bytes, a STATUS reads all its blocks at once (log entry 32), and a RESTART came alone (log entry 19). -/
def Obligations.RequestIsItsFrame : Prop :=
  ∀ (c : Instr) (k : Kind) (p : PortId) (tag : Byte) (body : List Byte) (s : State),
    c.wf = true → c.requestForm = some (k, p, tag, body) → (∀ reads, c = .status p tag body reads → reads = []) →
    (∀ together, c = .restart p tag body together → together = false) →
    exec (.frameRefused p (requestFrame k tag body)) s = exec c s ∧
      exec (.responsePhase p (requestFrame k tag body)) s = exec c s

/-- Right after power-on everything that holds in every run holds. -/
def Obligations.SoundAtReset : Prop :=
  AccessSound State.reset ∧ SettingsSound State.reset ∧ TableSound State.reset ∧ ArbiterSound State.reset ∧
    LogSound State.reset ∧ JournalSound State.reset ∧ MaintSound State.reset ∧ PointerSound State.reset ∧
    PortSound State.reset ∧ StepSound State.reset ∧ TakeSound State.reset

/-- Every step keeps the slots in their canonical form and the table lock HELD exactly while the head is WRITING; and the
maintenance unit writes nothing of the table but in start-up's sweep, in WRITING and in SWEEPING. The moment at which the lock
becomes HELD, with the grant of the header's write, is the model's (log entry 17). -/
def Obligations.TableAndLockKept : Prop :=
  ∀ s t : State, TableSound s → MaintSound s → step s = .next t →
    TableSound t ∧ MaintSound t ∧ (StepSound s → StepSound t)

/-- Every step keeps both rings: consecutive numbers and no more than they hold; and while the engine takes a record, one
stands at the translate cursor (R53, R104). It keeps the journal's law of pointers, oldest held at most every pull cursor,
every pull cursor at most the translate cursor, the translate cursor at most head + 1 (R9), counting the appends that still
wait, as log entry 8 has it, and a port WORKING exactly while one response is formed for it (R158, R159). -/
def Obligations.RingsKept : Prop :=
  ∀ s t : State, LogSound s → JournalSound s → TakeSound s → step s = .next t →
    LogSound t ∧ JournalSound t ∧ TakeSound t ∧ (PointerSound s → PortSound s → PointerSound t ∧ PortSound t)

/-- Every step keeps P0 trusted, a pull cursor exactly for the ports that hold PULL, the settings in their ranges and
the arbiter's order and counts. -/
def Obligations.SettingsAndAccessKept : Prop :=
  ∀ s t : State, AccessSound s → SettingsSound s → ArbiterSound s → step s = .next t →
    AccessSound t ∧ SettingsSound t ∧ ArbiterSound t

/-- A request that is answered REFUSED has changed nothing but its own port's exchange (R164). -/
def Obligations.RefusalChangesNothing : Prop :=
  ∀ (c : Instr) (k : Kind) (p : PortId) (tag : Byte) (body : List Byte) (s t : State) (f : List Byte),
    c.wf = true → c.requestForm = some (k, p, tag, body) → s.device.state ≠ .held →
    (s.ports.get p).exchange = .idle → exec c s = .next t → (t.ports.get p).exchange = .answering f →
    f[2]? = some 3#8 →
    ∃ (cause : Cause) (detail : Nat), t = answered p k tag body (refusedReply cause detail) s

/-- A request other than RESTART leaves the exchange and the timed slot of every other port as they are, but that an OPEN
answers the ports for which reads of a PULL or a FETCH are still to make, which is the model's (log entry 39). -/
def Obligations.PortsKeptApart : Prop :=
  ∀ (c : Instr) (k : Kind) (p q : PortId) (tag : Byte) (body : List Byte) (s t : State),
    c.requestForm = some (k, p, tag, body) → k ≠ .restart → q ≠ p → exec c s = .next t →
    (t.ports.get q).slot = (s.ports.get q).slot ∧ (t.ports.get q).dataOut = (s.ports.get q).dataOut ∧
      (k ≠ .openSession ∨ ¬ReadsWait q s → t.ports.get q = s.ports.get q)

/-- The access table is written by SET ACCESS, TRUST, LOCK PORT and the resets alone (R171). A response phase on an IDLE
port is a request, so it stands apart. -/
def Obligations.AccessWrittenByItsRequests : Prop :=
  ∀ (c : Instr) (s t : State), c.wf = true →
    (match c with
      | .setAccess .. | .trust .. | .lockPort .. | .restart .. | .resetLine .. | .powerOn | .responsePhase .. => False
      | _ => True) →
    exec c s = .next t → t.access = s.access

/-- A locked access row and a tier's lock stay as they are until a reset (R142, R175). -/
def Obligations.LocksLastToTheReset : Prop :=
  ∀ (c : Instr) (s t : State), c.wf = true →
    (match c with
      | .restart .. | .resetLine .. | .powerOn | .responsePhase .. => False
      | _ => True) →
    exec c s = .next t →
    (∀ q : PortId, (s.access.get q).locked = true → t.access.get q = s.access.get q) ∧
      ∀ l : TierId, (s.dict.tiers.get l).locked = true → (t.dict.tiers.get l).locked = true

/-- The slots as a lookup reads them are written by transactions of MAINT alone: at the end of one, at the end of a PUT's, a
DROP's or a sweep's writes and of start-up's, which make those still to come with nobody else asking (log entry 9), at a reset
that meets one in progress, and at power-on (R37, R127, R183, R187). -/
def Obligations.SlotsWrittenByMaintenance : Prop :=
  ∀ (c : Instr) (s t : State), c.wf = true → StepSound s →
    (match c with
      | .putWriteEnd | .dropWriteEnd | .clearTierSweepEnd | .startupComplete | .powerOn => False
      | .memoryTransactionComplete | .restart .. | .resetLine .. | .responsePhase .. =>
        ∀ tx, s.memory.inProgress = some tx → tx.work ≠ .maint
      | _ => True) →
    exec c s = .next t → t.dict.slots = s.dict.slots

/-- The session becomes OPEN when START is appended and CLOSED when END is appended or at a reset, and at no other
command (R146). -/
def Obligations.SessionStateTurnsAtItsAppends : Prop :=
  (∀ (c : Instr) (s t : State), c.wf = true →
    (match c with
      | .openStartAppended | .closeEndAppended | .restart .. | .resetLine .. | .powerOn | .responsePhase .. => False
      | _ => True) →
    exec c s = .next t → t.session.opened = s.session.opened) ∧
  ∀ (p : PortId) (discard ns : Nat) (sets : Bool) (r : MemRequester) (b : Block) (tag : Byte) (s : State),
    (s.session.request = .openInProgress p discard → s.memory.inProgress = some ⟨r, b, .startAppend⟩ →
      ∃ t, exec .openStartAppended s = .next t ∧ t.session.opened = true) ∧
    (s.session.request = .closeInProgress p true → s.memory.inProgress = some ⟨r, b, .endAppend⟩ →
      ∃ t, exec .closeEndAppended s = .next t ∧ t.session.opened = false) ∧
    (1000 ≤ ns → ∃ t, exec (.resetLine ns sets) s = .next t ∧ t.session.opened = false) ∧
    (Taken p .restart s → ∃ t, exec (.restart p tag [] false) s = .next t ∧ t.session.opened = false) ∧
    ∃ t, exec .powerOn s = .next t ∧ t.session.opened = false

/-! ## The checks before the owner -/

/-- What each kind needs of its port's row, as the detail of DENIED (the table of R170; for RETRANSLATE the model's choice of
log entry 33). A request whose port lacks its need is refused DENIED before the device state is looked at; one that has it is
refused STARTING while the part is STARTING, but for STATUS and COLLECT (R164, R170, R177). A RESTART that came together with
another stands apart (log entry 19). -/
def Obligations.DeniedThenStarting : Prop :=
  (∀ (k : Kind) (row : AccessRow),
    denial k.need row =
      (match k with
        | .status | .collect => none
        | .stroke => if row.classes.getLsbD 0 then none else some 1
        | .openSession | .closeSession => if row.classes.getLsbD 1 then none else some 2
        | .put | .drop | .clearTier | .retranslate | .speaker | .setTiers =>
          if row.classes.getLsbD 2 then none else some 3
        | .get => if row.classes.getLsbD 3 then none else some 4
        | .pull => if row.classes.getLsbD 4 then none else some 5
        | .subscribe | .unsubscribe | .fetch => if row.classes.getLsbD 5 then none else some 6
        | .setHold | .setOffset | .setArbiter => if row.classes.getLsbD 6 then none else some 7
        | .setAccess | .trust | .lockPort | .lockTier => if row.trusted then none else some 8
        | .restart => if row.trusted then (if row.classes.getLsbD 6 then none else some 7) else some 8)) ∧
  ∀ (c : Instr) (k : Kind) (p : PortId) (tag : Byte) (body : List Byte) (s : State),
    c.wf = true → c.requestForm = some (k, p, tag, body) →
    (∀ together, c = .restart p tag body together → together = false) → s.device.state ≠ .held →
    (s.ports.get p).exchange = .idle →
    (∀ d, denial k.need (s.access.get p) = some d →
      exec c s = .next (answered p k tag body (refusedReply .denied d) s)) ∧
    (denial k.need (s.access.get p) = none → s.device.state = .starting → k ≠ .status → k ≠ .collect →
      exec c s = .next (answered p k tag body (refusedReply .starting 0) s))

/-- The four faults of the frame check, in their order, each answered MALFORMED with its detail and the kind and tag
bytes as far as they came (R161). -/
def Obligations.FrameFaultsAnswered : Prop :=
  ∀ (p : PortId) (k t x l0 l1 : Byte) (body : List Byte) (s : State),
    s.device.state ≠ .held → (s.ports.get p).exchange = .idle →
    let told := fun (bytes : List Byte) (kb tb : Byte) (d : Nat) =>
      exec (.frameRefused p bytes) s = .next { s with
        ports := s.ports.set p ⟨.answering (responseFrame kb tb (refusedReply .malformed d)),
          (s.ports.get p).slot, List.replicate bytes.length 0#8⟩ }
    told [k] k 0#8 65281 ∧ told [k, t] k t 65282 ∧ told [k, t, x] k t 65282 ∧
    (k.toNat = 0 ∨ 24 < k.toNat → told (k :: t :: l0 :: l1 :: body) k t 65280) ∧
    (1 ≤ k.toNat → k.toNat ≤ 24 →
      256 < l0.toNat + 256 * l1.toNat ∨ l0.toNat + 256 * l1.toNat ≠ body.length →
      told (k :: t :: l0 :: l1 :: body) k t 65282)

/-- A select period on a WORKING port drives 0x00 and changes nothing else; on an ANSWERING port it shifts the frame from
its first byte and then 0x00, and the port is IDLE once the last byte has been shifted (R160). A port with a STATUS still in
reading stands apart: it reads on (log entry 32). -/
def Obligations.ResponsePhaseShifts : Prop :=
  ∀ (p : PortId) (bytes f : List Byte) (s : State), s.device.state ≠ .held → s.reports.get p = none →
    ((s.ports.get p).exchange = .working →
      exec (.responsePhase p bytes) s = .next { s with
        ports := s.ports.set p ⟨.working, (s.ports.get p).slot, List.replicate bytes.length 0#8⟩ }) ∧
    ((s.ports.get p).exchange = .answering f →
      ∃ out : List Byte, out.length = bytes.length ∧ out <+: f ++ List.replicate bytes.length 0#8 ∧
        exec (.responsePhase p bytes) s = .next { s with
          ports := s.ports.set p ⟨if f.length ≤ bytes.length then .idle else .answering f, (s.ports.get p).slot, out⟩ })

/-! ## Strokes and the journal -/

/-- STROKE: bit 23 is cleared, and an accepted chord asks for its append while the port is WORKING (R1, R3, R5). In a full ring
the guard first releases the record to be overwritten: a unit that names it leaves the list as final, and a run that holds it
is settled before, and this append, but no other, waits for the settle's changes of the log (R5, R14, R62; the order of the
blocks' requests is log entry 10's). The appends that still wait count: a ring is full, and the record to be overwritten and
the next number are those, once they are made, which is the model's (log entry 8). With no change of the log to write, that
settle has ended as a resolution does (R62, R129; the turn at the lock is log entry 18's). While the engine is at work the
guard goes by the run and the list as of the last completed resolution (R14, R51; what those are is log entry 1's); a settle of
the guard with changes still to write is no such work, which is the model's (log entry 40). The activity as the settle ends,
with WAITING for every work the lock holds back, is log entry 26's. -/
def Obligations.StrokeAsksForItsAppend : Prop :=
  ∀ (p : PortId) (tag b0 b1 b2 : Byte) (c : Chord) (s : State),
    c = BitVec.ofNat 23 (b0.toNat + 256 * b1.toNat + 65536 * (b2.toNat % 128)) → c ≠ 0#23 →
    Taken p .stroke s → s.session.opened = true → s.session.request = .none →
    s.journal.head + s.memory.intakeWork.length < 4294967294 →
    let w : IntakeWork := { port := p, tag := tag, chord := c, guarded := false }
    let held := s.journal.held + s.memory.intakeWork.length
    let oldest := s.journal.oldest + (held - 65536)
    let atWork := s.engine.activity = .resolving ∨ s.engine.activity = .retranslating
    let runHolds := ∃ e ∈ s.engine.run, e.seq = oldest
    let unitNames := ∃ u ∈ s.engine.units, oldest ∈ u.strokes
    (held < 65536 →
      exec (.stroke p tag [b0, b1, b2]) s = .next { working p [b0, b1, b2] s with
        memory := { s.memory with intakeWork := s.memory.intakeWork ++ [w] } }) ∧
    (65536 ≤ held → oldest < s.journal.cursor →
      (¬runHolds → ¬unitNames → (atWork → (∀ u ∈ (asOfLast s).units, oldest ∉ u.strokes) ∧
          ∀ e ∈ (asOfLast s).run, e.seq ≠ oldest) →
        exec (.stroke p tag [b0, b1, b2]) s = .next { working p [b0, b1, b2] s with
          memory := { s.memory with intakeWork := s.memory.intakeWork ++ [w] } }) ∧
      (¬runHolds → unitNames → ¬atWork →
        exec (.stroke p tag [b0, b1, b2]) s = .next { working p [b0, b1, b2] s with
          engine := { s.engine with units := s.engine.units.filter (fun u => decide (oldest ∉ u.strokes)) }
          memory := { s.memory with intakeWork := s.memory.intakeWork ++ [w] } }) ∧
      (runHolds → ¬atWork →
        let after : State := { working p [b0, b1, b2] s with
          log := (settledRun s).log
          engine := { (settledRun s).engine with
            units := (settledRun s).engine.units.filter (fun u => decide (oldest ∉ u.strokes)) }
          memory := { s.memory with
            intakeWork := s.memory.intakeWork ++ [{ w with guarded := true }]
            logWork := s.memory.logWork ++
              (s.engine.units.filter (fun u => !u.settled)).map (fun u => .change (segmentBlock u.segment)) } }
        ((∃ b, .change b ∈ after.memory.logWork) → exec (.stroke p tag [b0, b1, b2]) s = .next after) ∧
        ((∀ b, .change b ∉ after.memory.logWork) →
          exec (.stroke p tag [b0, b1, b2]) s = .next (refreshed (workEnded after)))))

/-- STROKE's refusals: MALFORMED for a body that is not three bytes, EMPTY_CHORD, NO_SESSION, BUSY for a record that a unit or
the run, as of the last completed resolution, needs while the engine is at work, and JOURNAL_FULL at the last number and at an
untaken record (R2, R3, R12 to R14, R51). The appends that still wait count for both: the record to be overwritten and the
number left are those once they are made, which is the model's (log entry 8), and what the run and the list of the last
completed resolution are is log entry 1's. Where BUSY meets the last number, BUSY comes first (log entry 31), and a settle of
the guard with changes still to write is no work of the engine (log entry 40). -/
def Obligations.StrokeRefusals : Prop :=
  ∀ (p : PortId) (tag b0 b1 b2 : Byte) (c : Chord) (s : State),
    c = BitVec.ofNat 23 (b0.toNat + 256 * b1.toNat + 65536 * (b2.toNat % 128)) → Taken p .stroke s →
    let refused := fun (cause : Cause) (d : Nat) =>
      exec (.stroke p tag [b0, b1, b2]) s =
        .next (answered p .stroke tag [b0, b1, b2] (refusedReply cause d) s)
    let held := s.journal.held + s.memory.intakeWork.length
    let oldest := s.journal.oldest + (held - 65536)
    let needed := (∃ u ∈ (asOfLast s).units, oldest ∈ u.strokes) ∨ ∃ e ∈ (asOfLast s).run, e.seq = oldest
    let atWork := s.engine.activity = .resolving ∨ s.engine.activity = .retranslating
    (∀ body, body.length ≠ 3 → body.length ≤ 256 → exec (.stroke p tag body) s =
      .next (answered p .stroke tag body (refusedReply .malformed 0) s)) ∧
    (c = 0#23 → refused .emptyChord 0) ∧
    (c ≠ 0#23 → s.session.opened = false → refused .noSession 0) ∧
    (c ≠ 0#23 → s.session.opened = true → (∃ q b, s.session.request = .closeInProgress q b) → refused .noSession 0) ∧
    (c ≠ 0#23 → s.session.opened = true → s.session.request = .none →
      4294967294 ≤ s.journal.head + s.memory.intakeWork.length →
      ¬(65536 ≤ held ∧ oldest < s.journal.cursor ∧ needed ∧ atWork) → refused .journalFull s.journal.cursor) ∧
    (c ≠ 0#23 → s.session.opened = true → s.session.request = .none → 65536 ≤ held → s.journal.cursor ≤ oldest →
      refused .journalFull s.journal.cursor) ∧
    (c ≠ 0#23 → s.session.opened = true → s.session.request = .none → 65536 ≤ held → oldest < s.journal.cursor →
      needed → atWork → refused .busy 0)

/-- JOURNAL_APPEND: the record takes head + 1 and the clock, head advances, and the STROKE is answered DONE with number and
stamp plus offset; an engine that now has a record to take, and is held off by the table lock, is WAITING (R3, R5, R6, R41).
That it is WAITING for a retranslation or a change held back by the lock too is log entry 26's. -/
def Obligations.AppendJoinsTheJournal : Prop :=
  ∀ (s : State) (w : IntakeWork) (rest : List IntakeWork) (b : Block),
    s.memory.intakeWork = w :: rest → s.memory.inProgress = some ⟨.intake, b, .journalAppend⟩ →
    s.journal.held < 65536 →
    exec .journalAppend s = .next (refreshed { s with
      journal := { s.journal with
        head := s.journal.head + 1
        records := s.journal.records ++ [⟨s.journal.head + 1,
          if w.chord = 1024#23 then .strike none else .stroke false, w.chord, s.session.clock, w.port⟩] }
      ports := s.ports.modify w.port (fun q => { q with exchange := .answering (responseFrame 1#8 w.tag
        (doneReply (leBytes 4 (s.journal.head + 1) ++
          leBytes 4 (s.session.clock + s.session.offsets.get w.port).toNat))) })
      memory := { s.memory with inProgress := none, intakeWork := rest } })

/-- An append to a full ring overwrites the record at oldest held: the new record takes head + 1 as in a ring with room and is
answered alike; a pull cursor that pointed at the overwritten record moves on and its gap count rises, holding at
4,294,967,295; every other pull cursor and every other record held stay (R3, R5, R9, R15). The engine's activity follows as in
a ring with room (log entry 26). -/
def Obligations.AppendOverwritesTheOldest : Prop :=
  ∀ (s : State) (w : IntakeWork) (rest : List IntakeWork) (b : Block),
    s.memory.intakeWork = w :: rest → s.memory.inProgress = some ⟨.intake, b, .journalAppend⟩ →
    s.journal.held = 65536 →
    ∃ (t : State) (r : JournalRecord),
      r = ⟨s.journal.head + 1, if w.chord = 1024#23 then .strike none else .stroke false, w.chord, s.session.clock,
        w.port⟩ ∧
      exec .journalAppend s = .next t ∧
      t = refreshed { s with
        journal := { s.journal with
          head := s.journal.head + 1
          oldest := s.journal.oldest + 1
          records := s.journal.records.drop 1 ++ [r]
          pull := s.journal.pull.map (Option.map (fun c =>
            if c.cursor = s.journal.oldest then ⟨s.journal.oldest + 1, min (c.gap + 1) 4294967295⟩ else c)) }
        ports := s.ports.modify w.port (fun q => { q with exchange := .answering (responseFrame 1#8 w.tag
          (doneReply (leBytes 4 (s.journal.head + 1) ++
            leBytes 4 (s.session.clock + s.session.offsets.get w.port).toNat))) })
        memory := { s.memory with inProgress := none, intakeWork := rest } } ∧
      (JournalSound s → t.journal.recordAt (s.journal.head + 1) = some r ∧
        ∀ n, s.journal.oldest < n → n ≤ s.journal.head → t.journal.recordAt n = s.journal.recordAt n)

/-- PULL: a pending GAP, then the records from the pull cursor up to the translate cursor, at most the count; the cursor moves
past them, the gap count returns to 0, and the response waits for the reads of the records. Each read makes its item with the
port's offset, as the record then stands, and after the last one the port is ANSWERING (R16, R17, R108, R160, R162). That a
record overwritten since the PULL is delivered as it stood then is the model's (log entry 7). A body that is not one byte is
refused (R16). -/
def Obligations.PullDelivers : Prop :=
  ∀ (p : PortId) (tag n : Byte) (c : PullCursor) (m : Nat) (gap body : List Byte) (s : State),
    let item := fun (r : JournalRecord) (q : PortId) =>
      [2#8] ++ leBytes 4 r.seq ++
        [match r.kind with
          | .stroke _ => 0#8
          | .strike _ => 1#8] ++
        leBytes 3 r.chord.toNat ++ leBytes 4 (r.stamp + s.session.offsets.get q).toNat ++ [BitVec.ofNat 8 r.source.val] ++
        (match r.kind with
          | .stroke struck => [if struck then 1#8 else 0#8]
          | .strike none => [0#8]
          | .strike (some target) => BitVec.ofNat 8 target.length :: target.flatMap (leBytes 4))
    (Taken p .pull s → body.length ≠ 1 → body.length ≤ 256 →
      exec (.pull p tag body) s = .next (answered p .pull tag body (refusedReply .malformed 0) s)) ∧
    (Taken p .pull s → JournalSound s → s.journal.pull.get p = some c → s.journal.oldest ≤ c.cursor →
      c.cursor ≤ s.journal.cursor →
      m = min (if n = 0#8 then 1 else min n.toNat 16) (s.journal.cursor - c.cursor) →
      gap = (if c.gap = 0 then [] else 1#8 :: leBytes 4 c.gap) →
      let journal := { s.journal with pull := s.journal.pull.set p (some ⟨c.cursor + m, 0⟩) }
      (m = 0 → exec (.pull p tag [n]) s =
        .next { answered p .pull tag [n] (doneReply gap) s with journal := journal }) ∧
      (0 < m → ∃ records : List JournalRecord,
        records.map some = (List.range m).map (fun i => s.journal.recordAt (c.cursor + i)) ∧
        exec (.pull p tag [n]) s = .next { working p [n] s with
          journal := journal
          memory := { s.memory with pullWork := s.memory.pullWork ++ [⟨p, tag, records, gap⟩] } })) ∧
    ∀ (q : PortId) (t : Byte) (r now : JournalRecord) (more : List JournalRecord) (items : List Byte) (rest : List PullWork)
      (b : Block),
      s.memory.inProgress = some ⟨.pull, b, .pullRead⟩ → s.memory.pullWork = ⟨q, t, r :: more, items⟩ :: rest →
      now = (s.journal.recordAt r.seq).getD r →
      (more ≠ [] → exec .memoryTransactionComplete s = .next { s with
        memory := { s.memory with
          inProgress := none
          pullWork := ⟨q, t, more, items ++ item now q⟩ :: rest } }) ∧
      (more = [] → exec .memoryTransactionComplete s = .next { s with
        ports := s.ports.modify q (fun port =>
          { port with exchange := .answering (responseFrame 2#8 t (doneReply (items ++ item now q))) })
        memory := { s.memory with inProgress := none, pullWork := rest } })

/-! ## The caption log's feeds -/

/-- SUBSCRIBE: the starting point with its clamps, the floor at the cursor, the mark at newest or absent; a mode, a form and a
length that are none of the table's are refused with their fields (R89). At newest 4,294,967,295 with wrapped still no, where the
number after newest is 0, a NUMBER the ring does not hold goes by the letter of R89's case, to 0; that, and that of two fields at
fault the lower one is reported, is the model's choice (log entries 36 and 42). -/
def Obligations.SubscribeGivesAFeed : Prop :=
  ∀ (p : PortId) (tag : Byte) (mode : FeedMode) (n cur : SegNo) (start : List Byte) (s : State),
    Taken p .subscribe s →
    (start = [0#8] ∧ cur = s.log.oldest) ∨ (start = [1#8] ∧ cur = s.log.newest + 1#32) ∨
      (start = 2#8 :: leBytes 4 n.toNat ∧
        cur = (if (n - s.log.oldest).toNat < s.log.segments.length ∨ n = s.log.newest + 1#32 then n
          else if s.log.wrapped = false ∧ (s.log.newest + 1#32).toNat < n.toNat then s.log.newest + 1#32
          else s.log.oldest)) →
    let m : Byte := match mode with
      | .live => 0#8
      | .settled => 1#8
    let refused := fun (body : List Byte) (d : Nat) => exec (.subscribe p tag body) s =
      .next (answered p .subscribe tag body (refusedReply .malformed d) s)
    exec (.subscribe p tag (m :: start)) s = .next
      { answered p .subscribe tag (m :: start) (doneReply (m :: leBytes 4 cur.toNat)) s with
        feeds := s.feeds.set p (some ⟨mode, ⟨cur, false⟩, ⟨cur, false⟩,
          if s.log.segments = [] then none else some ⟨s.log.newest, false⟩⟩) } ∧
    refused [] 0 ∧ (∀ b : Byte, refused [b] 0) ∧
    ∀ (b form : Byte) (rest : List Byte), rest.length ≤ 254 →
      (1 < b.toNat → refused (b :: form :: rest) 0) ∧
      (b.toNat ≤ 1 → 2 < form.toNat → refused (b :: form :: rest) 1) ∧
      (b.toNat ≤ 1 → form.toNat ≤ 1 → rest ≠ [] → refused (b :: form :: rest) 2) ∧
      (b.toNat ≤ 1 → form.toNat = 2 → rest.length ≠ 4 → refused (b :: form :: rest) 2)

/-- UNSUBSCRIBE: the feed ends, whether or not there was one; a body that is not empty is refused; with no feed the erase
count is 0, the feed condition false and FETCH refused NOT_SUBSCRIBED (R90). -/
def Obligations.UnsubscribeEndsTheFeed : Prop :=
  ∀ (p : PortId) (tag n : Byte) (body : List Byte) (s : State), Taken p .unsubscribe s →
    exec (.unsubscribe p tag []) s =
      .next { answered p .unsubscribe tag [] (doneReply []) s with feeds := s.feeds.set p none } ∧
    (body ≠ [] → body.length ≤ 256 →
      exec (.unsubscribe p tag body) s = .next (answered p .unsubscribe tag body (refusedReply .malformed 0) s)) ∧
    (s.feeds.get p = none →
      (∀ (l : CaptionLog) (k : SegNo), eraseCount l k (s.feeds.get p) = 0) ∧ feedCondition s p = false ∧
      exec (.fetch p tag [n]) s = .next (answered p .fetch tag [n] (refusedReply .notSubscribed 0) s))

/-- FETCH: a GAP first when the cursor is lapsed, with cursor and floor then at oldest held and the mark at newest; then
the walk. The cursor moves past the segments delivered and passed over and stays before one the walk stopped at; the
response waits for the reads of all that were examined (R92, R93, R96, R162). That the items, with the port's offset, are
fixed at this step and kept until the reads end is the model's (log entry 7). A body that is not one byte is refused (R92). -/
def Obligations.FetchDelivers : Prop :=
  ∀ (p : PortId) (tag n : Byte) (f f1 : Feed) (w : WalkResult) (items body : List Byte) (s : State),
    let item := fun (g : Segment) =>
      let stamped := fun (st : Stamp) => leBytes 4 (st + s.session.offsets.get p).toNat
      match g.body with
      | .start job st => [3#8] ++ leBytes 4 g.number.toNat ++ leBytes 2 job.toNat ++ stamped st
      | .text unit text untranslated command st state =>
        [4#8] ++ leBytes 4 g.number.toNat ++ leBytes 4 unit.toNat ++
          [(if untranslated then 1#8 else 0#8) ||| (if command then 2#8 else 0#8)] ++
          [if state = .provisional then 0#8 else 1#8] ++ stamped st ++ [BitVec.ofNat 8 text.length] ++ text
      | .withdraw keepThrough counts =>
        [5#8] ++ leBytes 4 g.number.toNat ++ leBytes 4 keepThrough.toNat ++ leBytes 2 (counts.get p).toNat
      | .fin job st => [6#8] ++ leBytes 4 g.number.toNat ++ leBytes 2 job.toNat ++ stamped st
    (Taken p .fetch s → body.length ≠ 1 → body.length ≤ 256 →
      exec (.fetch p tag body) s = .next (answered p .fetch tag body (refusedReply .malformed 0) s)) ∧
    (Taken p .fetch s → s.feeds.get p = some f →
    f1 = (if f.cursor.lapsed then ⟨f.mode, ⟨s.log.oldest, false⟩, ⟨s.log.oldest, false⟩, some ⟨s.log.newest, false⟩⟩
      else f) →
    w = fetchWalk s.log p f1 (if n = 0#8 then 1 else min n.toNat 16)
      (s.log.segments.drop (f1.cursor.number - s.log.oldest).toNat) →
    items = (if f.cursor.lapsed then 1#8 :: leBytes 4 (s.log.oldest - f.cursor.number).toNat else []) ++
      w.delivered.flatMap item →
    let feeds := s.feeds.set p
      (some { f1 with cursor := ⟨f1.cursor.number + BitVec.ofNat 32 w.moved, false⟩ })
    (w.reads = [] → exec (.fetch p tag [n]) s =
      .next { answered p .fetch tag [n] (doneReply items) s with feeds := feeds }) ∧
    (w.reads ≠ [] → exec (.fetch p tag [n]) s = .next { working p [n] s with
      feeds := feeds
      memory := { s.memory with logWork := s.memory.logWork ++
        [.fetch ⟨p, tag, w.reads.map (fun g => segmentBlock g.number), items⟩] } }))

/-- The walk of a FETCH: it delivers, in order, those of the segments it passes that the feed's table says to deliver, no more
than the count, and ends with the count delivered, at the last segment, or at one the feed stops at (R92); and what that table
says of a segment of each kind and state (R94). Before and after go by the place in the ring, and a lapsed mark stands before
every segment, as log entry 30 reads the rules. -/
def Obligations.WalkDeliversInOrder : Prop :=
  ∀ (l : CaptionLog) (p : PortId) (f : Feed),
    (∀ (n : Nat) (segs : List Segment) (w : WalkResult), w = fetchWalk l p f n segs →
      w.delivered = (segs.take w.moved).filter (fun g => treat l p f g == .deliver) ∧ w.delivered.length ≤ n ∧
      (∀ g ∈ segs.take w.moved, treat l p f g ≠ .stop) ∧
      (w.delivered.length = n ∨ w.moved = segs.length ∨
        ∃ g, segs[w.moved]? = some g ∧ treat l p f g = .stop)) ∧
    ∀ (num k : SegNo) (job : BitVec 16) (st : Stamp) (u : Word32) (text : List Byte) (un com : Bool)
      (counts : Quad (BitVec 16)),
      treat l p f ⟨num, .start job st⟩ = .deliver ∧ treat l p f ⟨num, .fin job st⟩ = .deliver ∧
      treat l p f ⟨num, .text u text un com st .settled⟩ = .deliver ∧
      treat l p f ⟨num, .text u text un com st .withdrawn⟩ = .passOver ∧
      treat l p f ⟨num, .text u text un com st .provisional⟩ = (if f.mode = .live then .deliver else .stop) ∧
      (counts.get p = 0#16 → treat l p f ⟨num, .withdraw k counts⟩ = .passOver) ∧
      (counts.get p ≠ 0#16 → (∀ r, f.mark = some r → r.lapsed = true ∨
          (r.number - l.oldest).toNat < (num - l.oldest).toNat) →
        treat l p f ⟨num, .withdraw k counts⟩ = .deliver) ∧
      (∀ r, f.mark = some r → r.lapsed = false → (num - l.oldest).toNat ≤ (r.number - l.oldest).toNat →
        treat l p f ⟨num, .withdraw k counts⟩ = .passOver)

/-! ## Completions, STATUS and the settings -/

/-- COLLECT returns a held completion, clears the slot and ends the completion condition, and otherwise answers NONE; a body
that is not empty is refused; it needs no class and is taken while STARTING as well as READY (R169). What it returns is the
response frame, laid out as kind, tag, outcome, cause, detail and length, low bytes first, and body (R162 to R164). -/
def Obligations.CollectReturnsTheCompletion : Prop :=
  ∀ (p : PortId) (tag kt : Byte) (k : Kind) (r : Reply) (body : List Byte) (s : State),
    s.device.state ≠ .held → (s.ports.get p).exchange = .idle →
    ((s.ports.get p).slot = .held k kt r →
      ∃ t, exec (.collect p tag []) s = .next t ∧ completionCondition t p = false ∧
        t = { s with
          ports := s.ports.set p ⟨.answering (responseFrame 6#8 tag (doneReply (responseFrame (byteOf k.code) kt r))),
            .clear, List.replicate 4 0#8⟩ }) ∧
    ((s.ports.get p).slot = .clear ∨ (s.ports.get p).slot = .inProgress k kt →
      exec (.collect p tag []) s = .next (answered p .collect tag [] noneReply s)) ∧
    (body ≠ [] → body.length ≤ 256 →
      exec (.collect p tag body) s = .next (answered p .collect tag body (refusedReply .malformed 0) s)) ∧
    responseFrame (byteOf k.code) kt r =
      [match k with
        | .stroke => 0x01 | .pull => 0x02 | .subscribe => 0x03 | .unsubscribe => 0x04 | .fetch => 0x05
        | .collect => 0x06 | .status => 0x07 | .speaker => 0x08 | .setTiers => 0x09 | .setHold => 0x0A
        | .setOffset => 0x0B | .setArbiter => 0x0C | .setAccess => 0x0D | .trust => 0x0E | .lockPort => 0x0F
        | .lockTier => 0x10 | .restart => 0x11 | .put => 0x12 | .drop => 0x13 | .clearTier => 0x14 | .get => 0x15
        | .retranslate => 0x16 | .openSession => 0x17 | .closeSession => 0x18,
        kt,
        match r.outcome with
        | .done => 1 | .accepted => 2 | .refused => 3 | .none => 4,
        match r.cause with
        | none => 0
        | some .malformed => 1 | some .denied => 2 | some .starting => 3 | some .emptyChord => 4 | some .busy => 5
        | some .wrongState => 6 | some .noSession => 7 | some .notSubscribed => 8 | some .locked => 9
        | some .notFound => 10 | some .crowded => 11 | some .unpulled => 12 | some .journalFull => 13,
        r.detail.setWidth 8, (r.detail >>> 8).setWidth 8, BitVec.ofNat 8 r.body.length,
        BitVec.ofNat 8 (r.body.length / 256)] ++ r.body

/-- STATUS answers in every device state but a held reset with its 41 bytes, block after block in the order of the table of
R178, and changes nothing else (R162, R178). A reading may take its blocks at different times: each is read as it then stands,
and the answer comes with the last (R179; when each is read is the model's operand, log entry 32, and that the device state,
the last reset cause and the table outcome are read together is its choice, log entry 37). The run and the list are those of
the last completed resolution (R51). What that is while a work goes on is log entry 1's. -/
def Obligations.StatusReports : Prop :=
  ∀ (p : PortId) (tag : Byte) (s : State), s.device.state ≠ .held →
    let bit := fun (b : Bool) => if b then 1 else 0
    let mask := fun (f : Tier → Bool) => BitVec.ofNat 8 (bit (f s.dict.tiers.q0) + 2 * bit (f s.dict.tiers.q1) +
      4 * bit (f s.dict.tiers.q2) + 8 * bit (f s.dict.tiers.q3))
    let block := fun (b : StatusBlock) =>
      match b with
      | .device =>
        [if s.device.state = .ready then 1#8 else 0#8,
          match s.device.cause with
          | .powerOn => 0#8
          | .resetLine => 1#8
          | .restart => 2#8,
          if s.device.outcome = .kept then 0#8 else 1#8]
      | .session =>
        [if s.session.opened then 1#8 else 0#8] ++ leBytes 2 s.session.job.toNat ++
          leBytes 4 (s.session.clock + s.session.offsets.get p).toNat ++ leBytes 2 s.session.hold
      | .journal => leBytes 4 s.journal.head ++ leBytes 4 s.journal.oldest ++ leBytes 4 s.journal.cursor
      | .engine => [BitVec.ofNat 8 (asOfLast s).run.length, BitVec.ofNat 8 (asOfLast s).units.length]
      | .log => leBytes 4 s.log.newest.toNat ++ leBytes 4 s.log.oldest.toNat
      | .tiers => [mask Tier.enabled, mask Tier.locked, mask Tier.clearing]
      | .row =>
        [BitVec.ofNat 8 p.val, (s.access.get p).classes.setWidth 8,
          if (s.access.get p).trusted then 1#8 else 0#8, if (s.access.get p).locked then 1#8 else 0#8]
    let all : List StatusBlock := [.device, .session, .journal, .engine, .log, .tiers, .row]
    (all.flatMap block).length = 41 ∧
    ((s.ports.get p).exchange = .idle → s.reports.get p = none →
      exec (.status p tag [] []) s = .next (answered p .status tag [] (doneReply (all.flatMap block)) s) ∧
      (∀ (n : Nat) (plan : List Nat), n < 7 → exec (.status p tag [] (n :: plan)) s = .next
        { working p [] s with
          reports := s.reports.set p (some ⟨tag, (all.take n).flatMap block, all.drop n, plan⟩) }) ∧
      ∀ (body : List Byte) (reads : List Nat), body ≠ [] → body.length ≤ 256 → exec (.status p tag body reads) s =
        .next (answered p .status tag body (refusedReply .malformed 0) s)) ∧
    ∀ (got : List Byte) (left : List StatusBlock) (plan : List Nat) (n : Nat) (bytes : List Byte),
      (s.ports.get p).exchange = .working → s.reports.get p = some ⟨tag, got, left, plan⟩ →
      n = plan.headD left.length →
      let out := List.replicate bytes.length 0#8
      (left.length ≤ n → exec (.responsePhase p bytes) s = .next { s with
        ports := s.ports.set p
          ⟨.answering (responseFrame 7#8 tag (doneReply (got ++ left.flatMap block))), (s.ports.get p).slot, out⟩
        reports := s.reports.set p none }) ∧
      (n < left.length → exec (.responsePhase p bytes) s = .next { s with
        ports := s.ports.set p ⟨.working, (s.ports.get p).slot, out⟩
        reports := s.reports.set p
          (some ⟨tag, got ++ (left.take n).flatMap block, left.drop n, plan.drop 1⟩) })

/-- While the part is READY an attention line is asserted exactly by its three conditions, and otherwise it is not (R101 to
R103). -/
def Obligations.AttentionFollowsItsConditions : Prop :=
  ∀ (s : State) (p : PortId),
    (s.device.state ≠ .ready → attention s p = false) ∧
    (s.device.state = .ready →
      (attention s p = true ↔
        (∃ k t r, (s.ports.get p).slot = .held k t r) ∨
        (∃ f, s.feeds.get p = some f ∧
          (f.cursor.lapsed = true ∨ (fetchWalk s.log p f 1 (s.log.fromCursor f)).delivered ≠ [])) ∨
        (∃ c, s.journal.pull.get p = some c ∧ (s.access.get p).classes.getLsbD 4 = true ∧
          (c.cursor < s.journal.cursor ∨ 0 < c.gap))))

/-- SPEAKER: the slot holds the first 24 characters of the name; an empty body, a bad slot and a bad character are refused
(R74), a bad slot with a bad character as a bad slot, which is the model's choice (log entry 42). -/
def Obligations.SpeakerWritesTheRoster : Prop :=
  ∀ (p : PortId) (tag n : Byte) (name : List Byte) (s : State), Taken p .speaker s → name.length ≤ 255 →
    (n.toNat ≤ 15 → (∀ b ∈ name, 0x20 ≤ b.toNat ∧ b.toNat ≤ 0x7E) →
      exec (.speaker p tag (n :: name)) s =
        .next { answered p .speaker tag (n :: name) (doneReply (n :: name.take 24)) s with
          roster := s.roster.set n.toNat (name.take 24) }) ∧
    exec (.speaker p tag []) s = .next (answered p .speaker tag [] (refusedReply .malformed 0) s) ∧
    (15 < n.toNat → exec (.speaker p tag (n :: name)) s =
      .next (answered p .speaker tag (n :: name) (refusedReply .malformed 0) s)) ∧
    (n.toNat ≤ 15 → (∃ b ∈ name, b.toNat < 0x20 ∨ 0x7E < b.toNat) →
      exec (.speaker p tag (n :: name)) s =
        .next (answered p .speaker tag (n :: name) (refusedReply .malformed 1) s))

/-- SET TIERS writes the four enables and hands the engine a dictionary change event; a body that is not one byte and a mask
above 0x0F are refused (R35, R36, R61). The activity then, WAITING while the lock is HELD, is log entry 26's. -/
def Obligations.TierEnablesWritten : Prop :=
  ∀ (p : PortId) (tag mask : Byte) (body : List Byte) (s : State), Taken p .setTiers s →
    (body.length ≠ 1 → body.length ≤ 256 →
      exec (.setTiers p tag body) s = .next (answered p .setTiers tag body (refusedReply .malformed 0) s)) ∧
    (mask.toNat < 16 →
      exec (.setTiers p tag [mask]) s = .next { answered p .setTiers tag [mask] (doneReply [mask]) s with
        dict := { s.dict with
          tiers := ⟨{ s.dict.tiers.q0 with enabled := mask.getLsbD 0 },
            { s.dict.tiers.q1 with enabled := mask.getLsbD 1 }, { s.dict.tiers.q2 with enabled := mask.getLsbD 2 },
            { s.dict.tiers.q3 with enabled := mask.getLsbD 3 }⟩ }
        engine := { s.engine with
          changePending := true
          activity := if s.engine.activity = .idle ∨ s.engine.activity = .waiting then
              (if s.maint.lockHeld then .waiting else .idle)
            else s.engine.activity } }) ∧
    (16 ≤ mask.toNat →
      exec (.setTiers p tag [mask]) s = .next (answered p .setTiers tag [mask] (refusedReply .malformed 0) s))

/-- SET HOLD clamps to 200 to 4,000 ms and answers the value held; SET OFFSET writes the named port's offset. A SET HOLD body
that is not two bytes, and a SET OFFSET without a port from 0 to 3 or without an offset of four bytes after it, are refused with
the index of the field (R155, R156); of two at fault the lower one is the model's choice (log entry 42). -/
def Obligations.HoldAndOffsetsWritten : Prop :=
  ∀ (p q : PortId) (tag b0 b1 : Byte) (o : Word32) (h : Nat) (body rest : List Byte) (s : State),
    h = max 200 (min 4000 (b0.toNat + 256 * b1.toNat)) →
    (Taken p .setHold s → exec (.setHold p tag [b0, b1]) s =
      .next { answered p .setHold tag [b0, b1] (doneReply (leBytes 2 h)) s with
        session := { s.session with hold := h } }) ∧
    (Taken p .setOffset s → exec (.setOffset p tag (BitVec.ofNat 8 q.val :: leBytes 4 o.toNat)) s =
      .next { answered p .setOffset tag (BitVec.ofNat 8 q.val :: leBytes 4 o.toNat)
          (doneReply (BitVec.ofNat 8 q.val :: leBytes 4 o.toNat)) s with
        session := { s.session with offsets := s.session.offsets.set q o } }) ∧
    (Taken p .setHold s → body.length ≠ 2 → body.length ≤ 256 →
      exec (.setHold p tag body) s = .next (answered p .setHold tag body (refusedReply .malformed 0) s)) ∧
    (Taken p .setOffset s →
      exec (.setOffset p tag []) s = .next (answered p .setOffset tag [] (refusedReply .malformed 0) s)) ∧
    (Taken p .setOffset s → rest.length ≤ 255 →
      (3 < b0.toNat → exec (.setOffset p tag (b0 :: rest)) s =
        .next (answered p .setOffset tag (b0 :: rest) (refusedReply .malformed 0) s)) ∧
      (b0.toNat ≤ 3 → rest.length ≠ 4 → exec (.setOffset p tag (b0 :: rest)) s =
        .next (answered p .setOffset tag (b0 :: rest) (refusedReply .malformed 1) s)))

/-- SET ARBITER: a change of mode starts from the order XLATE, LOG, MAINT, PULL; the mode already held changes nothing; the
counts and the transaction in progress stay; any other body is refused; the mode is kept through OPEN and CLOSE, and
STATUS does not report it (R186). -/
def Obligations.ArbiterModeSet : Prop :=
  ∀ (p : PortId) (tag b : Byte) (body : List Byte) (m : ArbiterMode) (s : State),
    (Taken p .setArbiter s → (b = 0#8 ∧ m = .fixed ∨ b = 1#8 ∧ m = .rotating) →
      exec (.setArbiter p tag [b]) s = .next { answered p .setArbiter tag [b] (doneReply [b]) s with
        memory := if s.memory.mode = m then s.memory
          else { s.memory with mode := m, order := [.xlate, .log, .maint, .pull] } }) ∧
    (Taken p .setArbiter s → body.length ≤ 256 → body ≠ [0#8] → body ≠ [1#8] →
      exec (.setArbiter p tag body) s = .next (answered p .setArbiter tag body (refusedReply .malformed 0) s)) ∧
    (∀ (c : Instr) (t : State),
      (match c with
        | .openSession .. | .openStartAppended | .closeSession .. | .closeSettle | .closeEndAppended => True
        | _ => False) →
      exec c s = .next t → t.memory.mode = s.memory.mode) ∧
    ∀ (q : PortId) (b : StatusBlock), blockReport { s with memory := { s.memory with mode := m } } q b = blockReport s q b

/-- SET ACCESS: the class set is replaced whole, the pull cursor kept, created at oldest held or discarded, and the feed
ended without CAPTION; a locked row refuses, and a bad field or a wrong length is refused with its index (R11, R91, R171,
R173); of two at fault the lower one is the model's choice (log entry 42). -/
def Obligations.AccessRowReplaced : Prop :=
  ∀ (p q : PortId) (tag c b : Byte) (rest : List Byte) (s : State), Taken p .setAccess s → rest.length ≤ 255 →
    let refused := fun (body : List Byte) (d : Nat) =>
      exec (.setAccess p tag body) s = .next (answered p .setAccess tag body (refusedReply .malformed d) s)
    let body := [BitVec.ofNat 8 q.val, c]
    let cursor := if c.getLsbD 4 then some ((s.journal.pull.get q).getD ⟨s.journal.oldest, 0⟩) else none
    (c.getLsbD 7 = false → (s.access.get q).locked = false →
      exec (.setAccess p tag body) s = .next { answered p .setAccess tag body (doneReply body) s with
        access := s.access.set q { s.access.get q with classes := c.setWidth 7 }
        journal := { s.journal with pull := s.journal.pull.set q cursor }
        feeds := s.feeds.set q (if c.getLsbD 5 then s.feeds.get q else none) }) ∧
    (c.getLsbD 7 = false → (s.access.get q).locked = true →
      exec (.setAccess p tag body) s = .next (answered p .setAccess tag body (refusedReply .locked 0) s)) ∧
    refused [] 0 ∧ (3 < b.toNat → refused (b :: rest) 0) ∧ (b.toNat ≤ 3 → rest.length ≠ 1 → refused (b :: rest) 1) ∧
    (b.toNat ≤ 3 → c.getLsbD 7 = true → refused [b, c] 1)

/-- TRUST: the row's trust becomes the value, P0 stays trusted, a locked row refuses, a bad field is refused with its
index (R174); of two at fault the lower one is the model's choice (log entry 42). -/
def Obligations.TrustWritten : Prop :=
  ∀ (p q : PortId) (tag b : Byte) (v : Bool) (rest : List Byte) (s : State), Taken p .trust s →
    rest.length ≤ 255 →
    let value : Byte := if v then 1#8 else 0#8
    let now : Bool := if q = 0 then true else v
    let shown : Byte := if now then 1#8 else 0#8
    let body := [BitVec.ofNat 8 q.val, value]
    ((s.access.get q).locked = false →
      exec (.trust p tag body) s = .next
        { answered p .trust tag body (doneReply [BitVec.ofNat 8 q.val, shown]) s with
          access := s.access.set q { s.access.get q with trusted := now } }) ∧
    ((s.access.get q).locked = true →
      exec (.trust p tag body) s = .next (answered p .trust tag body (refusedReply .locked 0) s)) ∧
    (exec (.trust p tag []) s = .next (answered p .trust tag [] (refusedReply .malformed 0) s)) ∧
    (3 < b.toNat → exec (.trust p tag (b :: rest)) s =
      .next (answered p .trust tag (b :: rest) (refusedReply .malformed 0) s)) ∧
    (rest ≠ [0#8] → rest ≠ [1#8] → exec (.trust p tag (BitVec.ofNat 8 q.val :: rest)) s =
      .next (answered p .trust tag (BitVec.ofNat 8 q.val :: rest) (refusedReply .malformed 1) s))

/-- LOCK PORT locks the named row and shows it; LOCK TIER sets the tier's lock; either refuses a body that is not one byte and a
port or tier above 3 (R142, R175). -/
def Obligations.LocksSet : Prop :=
  ∀ (p : PortId) (q : Fin 4) (tag b : Byte) (body : List Byte) (s : State),
    (Taken p .lockPort s → exec (.lockPort p tag [BitVec.ofNat 8 q.val]) s =
      .next { answered p .lockPort tag [BitVec.ofNat 8 q.val] (doneReply [BitVec.ofNat 8 q.val,
          (s.access.get q).classes.setWidth 8, if (s.access.get q).trusted then 1#8 else 0#8, 1#8]) s with
        access := s.access.set q { s.access.get q with locked := true } }) ∧
    (Taken p .lockTier s → exec (.lockTier p tag [BitVec.ofNat 8 q.val]) s =
      .next { answered p .lockTier tag [BitVec.ofNat 8 q.val] (doneReply [BitVec.ofNat 8 q.val, 1#8]) s with
        dict := { s.dict with tiers := s.dict.tiers.set q { s.dict.tiers.get q with locked := true } } }) ∧
    ((body.length ≠ 1 ∧ body.length ≤ 256) ∨ (body = [b] ∧ 3 < b.toNat) →
      (Taken p .lockPort s →
        exec (.lockPort p tag body) s = .next (answered p .lockPort tag body (refusedReply .malformed 0) s)) ∧
      (Taken p .lockTier s →
        exec (.lockTier p tag body) s = .next (answered p .lockTier tag body (refusedReply .malformed 0) s)))

/-! ## Maintenance -/

/-- PUT, DROP, CLEAR TIER and GET: each body the spec lays out is read as its request; a CLEAR slot, a tier neither CLEARING
nor locked: ACCEPTED, and the request joins the tail of the queue, in CHECKING when the queue was empty; else BUSY for the
slot, BUSY for a CLEARING tier, LOCKED for a locked one, in that order, and a GET only for the slot (R126). A body that fails
is refused MALFORMED with the index of its first field at fault (R131, R135, R139, R143), which for GET is the model's choice
(log entry 42). The flag of CHECKING, not set here, is the model's (log entry 24). -/
def Obligations.MaintenanceAccepted : Prop :=
  (∀ (req : MaintRequest) (p : PortId) (tag : Byte) (named : Option TierId) (s : State),
    req.legal → Taken p req.kind s →
    named = (match req with
      | .put t .. | .drop t .. | .clearTier t => some t
      | .get .. => none) →
    let refused := fun (cause : Cause) =>
      exec (req.command p tag req.layout) s =
        .next (answered p req.kind tag req.layout (refusedReply cause 0) s)
    ((s.ports.get p).slot ≠ .clear → refused .busy) ∧
    ((s.ports.get p).slot = .clear → ∀ t, named = some t → (s.dict.tiers.get t).clearing = true → refused .busy) ∧
    ((s.ports.get p).slot = .clear → ∀ t, named = some t → (s.dict.tiers.get t).clearing = false →
      (s.dict.tiers.get t).locked = true → refused .locked) ∧
    ((s.ports.get p).slot = .clear →
      (∀ t, named = some t → (s.dict.tiers.get t).clearing = false ∧ (s.dict.tiers.get t).locked = false) →
      exec (req.command p tag req.layout) s = .next { acceptedBy p req.kind tag req.layout s with
        maint := { s.maint with
          queue := s.maint.queue ++ [⟨p, req, if s.maint.queue = [] then .checking false else .queued⟩] } })) ∧
  ∀ (p : PortId) (tag t o b : Byte) (cs : List Chord) (rest : List Byte) (s : State),
    let bad := fun (c : Byte → List Byte → Instr) (k : Kind) (body : List Byte) (d : Nat) =>
      Taken p k s → body.length ≤ 256 → exec (c tag body) s = .next (answered p k tag body (refusedReply .malformed d) s)
    let put := bad (.put p) .put
    let drop := bad (.drop p) .drop
    let get := bad (.get p) .get
    let key := [t, o] ++ strokesLayout cs
    let noKey := ∀ cs more, keyLegal cs → rest ≠ strokesLayout cs ++ more
    (put [] 0 ∧ drop [] 0 ∧ get [] 0) ∧
    (3 < t.toNat → put (t :: rest) 0 ∧ drop (t :: rest) 0 ∧ (t.toNat < 255 → get (t :: rest) 0)) ∧
    ((∀ l : TierId, rest ≠ [BitVec.ofNat 8 l.val]) → bad (.clearTier p) .clearTier rest 0) ∧
    (t.toNat ≤ 3 ∨ t.toNat = 255 → noKey → get (t :: rest) 1) ∧
    (t.toNat ≤ 3 ∨ t.toNat = 255 → keyLegal cs → rest ≠ [] → get (t :: (strokesLayout cs ++ rest)) 1) ∧
    (t.toNat ≤ 3 →
      (put [t] 1 ∧ drop [t] 1) ∧
      (1 < o.toNat → put (t :: o :: rest) 1 ∧ drop (t :: o :: rest) 1) ∧
      (o.toNat ≤ 1 → noKey → put (t :: o :: rest) 2 ∧ drop (t :: o :: rest) 2) ∧
      (o.toNat ≤ 1 → keyLegal cs →
        (rest ≠ [] → drop (key ++ rest) 2) ∧
        put key 3 ∧ (1 < b.toNat → put (key ++ b :: rest) 3) ∧
        put (key ++ [0#8]) 4 ∧ put (key ++ [1#8]) 4 ∧
        (64 ≤ b.toNat ∨ (b.getLsbD 2 = true ∧ b.getLsbD 3 = true) → put (key ++ 0#8 :: b :: rest) 4) ∧
        (3 < b.toNat → put (key ++ 1#8 :: b :: rest) 4) ∧
        (b.toNat ≤ 3 → b.toNat ≠ 1 → rest ≠ [] → put (key ++ 1#8 :: b :: rest) 4) ∧
        ((∀ a : Fin 16, rest ≠ [BitVec.ofNat 8 a.val]) → put (key ++ 1#8 :: 1#8 :: rest) 5) ∧
        (b.toNat < 64 → ¬(b.getLsbD 2 = true ∧ b.getLsbD 3 = true) →
          (∀ text : List Byte, text.length ≤ 40 → (∀ x ∈ text, 0x20 ≤ x.toNat ∧ x.toNat ≤ 0x7E) →
            ¬(text = [] ∧ b = 0#8) → rest ≠ BitVec.ofNat 8 text.length :: text) →
          put (key ++ 0#8 :: b :: rest) 5)))

/-- MAINT_HEAD_CHECK: the lock again, then CROWDED for a PUT without a place, NOT_FOUND for a DROP without a bearing record; a
PUT or DROP that passes stands in LOCK WAIT, the DROP with its record's slot and those of its proper prefixes, longest first; a
CLEAR TIER or GET has its checks passed; a request finished with leaves the queue, the next becomes the head in CHECKING, and
its port has the completion (R125, R127, R128, R132, R133, R135). The reads of a PUT or DROP are transactions of MAINT (R127,
R183); with nobody else asking they are made in this step (log entry 9). Once they have begun the lock check is passed, and a
LOCK TIER taken since does not reach the request (R128, R142). That a GET has its checks passed here with no read, where R128
has NOT_FOUND among the checks of resources, the passed flag that CHECKING has for a GET and a CLEAR TIER, and that the lock
check comes before the reads, are the model's reading (log entry 24). -/
def Obligations.HeadChecked : Prop :=
  ∀ (e : MaintEntry) (rest : List MaintEntry) (k : Kind) (tag : Byte) (s : State),
    s.device.state = .ready → s.maint.queue = e :: rest → e.phase = .checking false →
    (s.ports.get e.port).slot = .inProgress k tag →
    MemoryQuiet s ∨ (∃ w, s.memory.maintWork = some w ∧ w.left = []) →
    let refused := fun (t : TierId) => (s.dict.tiers.get t).locked = true ∧ s.memory.maintWork = none
    let read := if s.memory.maintWork = none then afterGrants .maint s.memory else { s.memory with maintWork := none }
    let done := fun (m : Memory) (cause : Cause) (d : Nat) => exec .maintHeadCheck s = .next
      { completedBy e.port k tag (refusedReply cause d) s with
        maint := { s.maint with queue := promoteHead rest }
        memory := m }
    let goesTo := fun (m : Memory) (ph : Phase) => exec .maintHeadCheck s = .next
      { s with maint := { s.maint with queue := { e with phase := ph } :: rest }, memory := m }
    match e.request with
    | .put t _ cs content =>
      (refused t → done s.memory .locked 0) ∧
      (¬refused t → ∀ len, planPut s.dict.slots t cs content = .error len → done read .crowded len) ∧
      (¬refused t → ∀ plan, planPut s.dict.slots t cs content = .ok plan → goesTo read (.lockWait (.put plan)))
    | .drop t _ cs =>
      (refused t → done s.memory .locked 0) ∧
      (¬refused t → (∀ n r, lookup s.dict.slots t cs = some (n, r) → r.content = .stem) → done read .notFound 0) ∧
      (¬refused t → ∀ n r, lookup s.dict.slots t cs = some (n, r) → r.content ≠ .stem →
        goesTo read (.lockWait (.drop ⟨n, (List.range (cs.length - 1)).reverse.filterMap (fun i =>
          (lookup s.dict.slots t (cs.take (i + 1))).map Prod.fst)⟩)))
    | .clearTier t =>
      (refused t → done s.memory .locked 0) ∧
      (¬refused t → goesTo { s.memory with maintWork := none } (.checking true))
    | .get .. => goesTo s.memory (.checking true)

/-- What a PUT plans: REPLACED writes the content over a bearing record and keeps its count; PROMOTED writes it over a
STEM and raises each proper prefix by one; PLACED raises each proper prefix that is held, places a STEM with count 1 for
each that is not, and writes a new record with count 0 in the slot its placement walk finds, every slot claimed before
counting as OCCUPIED; it is CROWDED at the first length that finds no slot (R132, R133). -/
def Obligations.PutPlanned : Prop :=
  ∀ (slots : List (Nat × Slot)) (t : TierId) (cs : List Chord) (content : Content),
    (∀ n r, lookup slots t cs = some (n, r) → r.content ≠ .stem →
      planPut slots t cs content = .ok ⟨.replaced, n, 0, 0, [(n, ⟨r.tier, r.strokes, content, r.extensions⟩)]⟩) ∧
    (∀ n r, lookup slots t cs = some (n, r) → r.content = .stem →
      (∀ i, i + 1 < cs.length → (lookup slots t (cs.take (i + 1))).isSome = true) →
      ∃ raises, planPut slots t cs content =
          .ok ⟨.promoted, n, 0, cs.length - 1, raises ++ [(n, ⟨r.tier, r.strokes, content, r.extensions⟩)]⟩ ∧
        raises.length = cs.length - 1 ∧
        ∀ i m q, i + 1 < cs.length → lookup slots t (cs.take (i + 1)) = some (m, q) →
          raises[i]? = some (m, ⟨q.tier, q.strokes, q.content, q.extensions + 1⟩)) ∧
    (lookup slots t cs = none →
      ((∃ writes placed raised after, PrefixesPlanned t (prefixesOf cs) slots writes placed raised after) ∨
        ∃ len, PrefixesCrowded t (prefixesOf cs) slots len) ∧
      (∀ len, PrefixesCrowded t (prefixesOf cs) slots len → planPut slots t cs content = .error len) ∧
      ∀ writes placed raised after, PrefixesPlanned t (prefixesOf cs) slots writes placed raised after →
        (∀ n, placement after t cs = some n →
          planPut slots t cs content = .ok ⟨.placed, n, placed, raised, writes ++ [(n, ⟨t, cs, content, 0⟩)]⟩) ∧
        (placement after t cs = none → planPut slots t cs content = .error cs.length)) ∧
    (∀ c, cs = [c] → lookup slots t cs = none →
      (∀ n, placement slots t cs = some n →
        planPut slots t cs content = .ok ⟨.placed, n, 0, 0, [(n, ⟨t, cs, content, 0⟩)]⟩) ∧
      (placement slots t cs = none → planPut slots t cs content = .error 1))

/-- The head moves on. TABLE_LOCK_TAKE: a PUT or DROP in LOCK WAIT takes the lock while the engine is IDLE or WAITING and no
settle of the journal guard is still to be written; the header is WRITING and an engine with work to begin is WAITING (R129,
R130). CLEAR_TIER_START: unless a retranslation is in progress, the header is WRITING, the tier CLEARING, the engine has its
change event, and the phase is SWEEPING (R139). GET_ANSWER: the record of the tier, or of the best lookup for ANY, is reported
in the layout of R162, or NOT_FOUND (R144). The header's write and a GET's reads are transactions of MAINT (R37, R183): with
nobody else asking they are made in this step, and while a transaction is in progress the two rows change nothing; the
MEMORY_GRANT that grants the header's write begins the writes as the row does, with that write in progress and the request's
own to follow, and the report that they will give (R134, R138; log entries 9 and 17). A GET whose reads were made one by one is
answered from the table as it stands, for ANY over the tiers in force as they began (R33); one with reads left, while a
transaction is in progress, changes nothing. By log entry, the model's are: that TABLE_LOCK_TAKE, CLEAR_TIER_START and
GET_ANSWER change nothing when they are not due (2); that a GET is answered flagged or not, and a CLEAR TIER starts from the
flagged CHECKING (24); that a settle of the guard with changes to write keeps the lock from being taken (10), and that taking
it ends the turn at it (18); and that the engine is WAITING for a retranslation held back as well (26). -/
def Obligations.HeadMovesOn : Prop :=
  ∀ (e : MaintEntry) (rest : List MaintEntry) (k : Kind) (tag : Byte) (s : State),
    s.device.state = .ready → s.maint.queue = e :: rest → (s.ports.get e.port).slot = .inProgress k tag → ArbiterSound s →
    let begins := fun (c : Instr) (report : List Byte) (uses : List MaintUse) (begun : Memory → State) =>
      (MemoryQuiet s → exec c s = .next (begun (afterGrants .maint s.memory)) ∧
        ∃ w : MaintWork, w.report = report ∧ w.removed = 0 ∧ w.left = .header .writing :: uses ∧
          exec (.memoryGrant ⟨false, true, false⟩) s = .next (begun { afterGrants .maint s.memory with
            inProgress := some ⟨.maint, .header, .maint⟩
            maintWork := some w })) ∧
      (s.memory.inProgress ≠ none → exec c s = .next s)
    (∀ plan, e.phase = .lockWait plan →
      let uses : List MaintUse := match plan with
        | .put q => q.writes.map (fun x => .write x.1 (.occupied x.2)) ++ [.header .consistent]
        | .drop q => dropUses s.dict.slots q ++ [.header .consistent]
      let report : List Byte := match plan with
        | .put q => putLayout q
        | .drop q => dropLayout s.dict.slots q
      ((s.engine.activity = .idle ∨ s.engine.activity = .waiting) →
        begins .tableLockTake report uses (fun m =>
          { s with
            dict := { s.dict with header := .writing }
            maint := ⟨{ e with phase := .writing plan } :: rest, true, false⟩
            engine := { s.engine with
              activity := if s.engine.changePending = true ∨ (∃ r, s.engine.request = some r ∧ r.phase = .pending) ∨
                  s.journal.cursor ≤ s.journal.head then .waiting else .idle }
            memory := m })) ∧
      (((∃ b, .change b ∈ s.memory.logWork) ∨ s.engine.activity = .resolving ∨ s.engine.activity = .retranslating) →
        exec .tableLockTake s = .next s)) ∧
    (∀ t, e.request = .clearTier t → e.phase = .checking true →
      (s.engine.activity ≠ .retranslating → begins .clearTierStart [] [.sweep t 0, .header .consistent] (fun m =>
        { s with
          dict := { s.dict with
            header := .writing
            tiers := s.dict.tiers.set t { s.dict.tiers.get t with clearing := true } }
          maint := { s.maint with queue := { e with phase := .sweeping } :: rest }
          engine := { s.engine with
            changePending := true
            activity := if s.engine.activity = .idle ∨ s.engine.activity = .waiting then
                (if s.maint.lockHeld then .waiting else .idle)
              else s.engine.activity }
          memory := m })) ∧
      (s.engine.activity = .retranslating → exec .clearTierStart s = .next s)) ∧
    (∀ (w : MaintWork), s.memory.maintWork = some w → w.left ≠ [] → s.memory.inProgress ≠ none →
      exec .getAnswer s = .next s) ∧
    (∀ (tier : Option TierId) (cs : List Chord) (b : Bool) (found : Option (SlotNo × Record)) (tiers : List TierId)
        (memory : Memory),
      e.request = .get tier cs → e.phase = .checking b →
      (MemoryQuiet s ∧ tiers = tiersRead s ∧
          memory = (if tier = none ∧ tiersRead s = [] then s.memory else afterGrants .maint s.memory)) ∨
        (∃ w, s.memory.maintWork = some w ∧ w.left = [] ∧ tiers = w.tiers ∧
          memory = { s.memory with maintWork := none }) →
      found = (match tier with
        | some t => lookup s.dict.slots t cs
        | none => (bestLookup s.dict.slots tiers cs).map Prod.snd) →
      exec .getAnswer s = .next
        { completedBy e.port k tag (match found with
            | some (n, r) => doneReply ([BitVec.ofNat 8 r.tier.val] ++ leBytes 4 n.toNat ++
                [match r.content with
                  | .text .. => 0#8
                  | .command _ => 1#8
                  | .stem => 2#8] ++
                strokesLayout r.strokes ++ leBytes 4 r.extensions ++
                (match r.content with
                  | .text text flags => [BitVec.ofNat 8 flags.code, BitVec.ofNat 8 text.length] ++ text
                  | .command .paragraph => [0#8]
                  | .command (.speaker a) => [1#8, BitVec.ofNat 8 a.val]
                  | .command .capsOn => [2#8]
                  | .command .capsOff => [3#8]
                  | .stem => []))
            | none => refusedReply .notFound 0) s with
          maint := { s.maint with queue := promoteHead rest }
          memory := memory })

/-- PUT_WRITE_END and DROP_WRITE_END: after the last slot write the header is CONSISTENT, the lock released and the engine has
its change event; with the retranslate flag and an open session not closing the engine holds or joins a retranslation from 0,
and otherwise the port has its completion, with zero retranslation values for the flag. The writes change no record outside the
plan's slots (R112, R130, R134, R138). A DROP demotes its record to a STEM, or vacates it when it has no extensions; then each
proper prefix loses one, and a STEM that comes to 0 is vacated (R136 to R138). The writes are transactions of MAINT, made in
this step with nobody else asking (log entry 9); made one by one before, they leave the end of the request to this step, with
the report fixed as they began and the table as they left it; while some of them are left and a transaction is in progress it
changes nothing. By log entry, the model's are: that the row changes nothing then (2); that the report is fixed as the writes
begin, with the grant of the header's write (17); and the activity, an engine that waited being IDLE (26). -/
def Obligations.WritesEnd : Prop :=
  (∀ (e : MaintEntry) (rest : List MaintEntry) (flag : Bool) (c : Instr) (k kd : Kind) (tag : Byte)
    (written report : List Byte) (dict : Dictionary) (memory : Memory) (s : State),
    s.device.state = .ready → s.maint.queue = e :: rest → (s.ports.get e.port).slot = .inProgress k tag →
    (∃ t cs content plan, e.request = .put t flag cs content ∧ e.phase = .writing (.put plan) ∧ c = .putWriteEnd ∧
        kd = .put ∧ written = putLayout plan ∧ dict = { s.dict with
          slots := plan.writes.foldl (fun m w => writeSlot m w.1.toNat (.occupied w.2)) s.dict.slots
          header := .consistent }) ∨
      (∃ t cs plan, e.request = .drop t flag cs ∧ e.phase = .writing (.drop plan) ∧ c = .dropWriteEnd ∧ kd = .drop ∧
        written = dropLayout s.dict.slots plan ∧
        dict = { s.dict with slots := (applyDrop s.dict.slots plan).2.slots, header := .consistent }) →
    let after := fun (d : Dictionary) (request : Option RetransRequest) (s : State) =>
      { s with
        dict := d
        maint := { s.maint with queue := promoteHead rest, lockHeld := false }
        engine := { s.engine with
          changePending := true
          request := request
          activity := if s.engine.activity = .waiting then .idle else s.engine.activity }
        memory := memory }
    let ends := fun (d : Dictionary) =>
      (flag = false → exec c s = .next (after d s.engine.request (completedBy e.port k tag (doneReply report) s))) ∧
      (flag = true → (s.session.opened = false ∨ ∃ q b, s.session.request = .closeInProgress q b) → exec c s = .next
        (after d s.engine.request (completedBy e.port k tag (doneReply (report ++ [0, 0, 0, 0, 0, 0, 0])) s))) ∧
      (flag = true → s.session.opened = true → (∀ q b, s.session.request ≠ .closeInProgress q b) → exec c s = .next
        (after d (some (match s.engine.request with
          | none => ⟨0#32, [⟨e.port, kd, report⟩], .pending⟩
          | some r => ⟨0#32, r.requesters ++ [⟨e.port, kd, report⟩], r.phase⟩)) s))
    (MemoryQuiet s → report = written → memory = afterGrants .maint s.memory → ends dict) ∧
    (∀ w, s.memory.maintWork = some w → w.left = [] → report = w.report → memory = { s.memory with maintWork := none } →
      ends s.dict) ∧
    (∀ w, s.memory.maintWork = some w → w.left ≠ [] → s.memory.inProgress ≠ none → exec c s = .next s)) ∧
  (∀ (plan : PutPlan) (slots : List (Nat × Slot)) (n : Nat) (r : Record), (∀ w ∈ plan.writes, w.1.toNat ≠ n) →
    slotAt slots n = .occupied r →
    slotAt (plan.writes.foldl (fun m w => writeSlot m w.1.toNat (.occupied w.2)) slots) n = .occupied r) ∧
  (∀ (plan : DropPlan) (slots : List (Nat × Slot)) (n : Nat) (r : Record),
    (∀ m ∈ plan.slot :: plan.shorter, m.toNat ≠ n) → slotAt slots n = .occupied r →
    slotAt (applyDrop slots plan).2.slots n = .occupied r) ∧
  ∀ (slots : List (Nat × Slot)) (plan : DropPlan) (r : Record),
    slotsWf slots = true → (plan.slot :: plan.shorter).Nodup → slotAt slots plan.slot.toNat = .occupied r →
    (∀ n ∈ plan.shorter, ∃ q, slotAt slots n.toNat = .occupied q) →
    (r.extensions ≠ 0 → ∃ after stems turned,
      LoweredAs (writeSlot slots plan.slot.toNat (.occupied { r with content := .stem })) plan.shorter after stems turned ∧
        applyDrop slots plan = (false, ⟨after, stems, turned⟩)) ∧
    (r.extensions = 0 → ∃ mid n after stems turned,
      VacatedAs slots plan.slot mid n ∧ LoweredAs mid plan.shorter after stems turned ∧
        applyDrop slots plan = (true, ⟨after, stems, n + turned⟩))

/-- CLEAR_TIER_SWEEP_END: no record of the tier is left, every other record stands in its slot and no other appeared;
the header is CONSISTENT, the tier VISIBLE, and the completion gives the records removed (R140, R141). The sweep's reads and
writes are transactions of MAINT (R183); with nobody else asking they are made in this step (log entry 9). Made one by one before,
the header's write among them, they leave to this step the tier and the completion, with the records removed by then; while some
of them are left and a transaction is in progress it changes nothing, which is the model's (log entry 2). -/
def Obligations.SweepRemovesTheTier : Prop :=
  ∀ (e : MaintEntry) (rest : List MaintEntry) (t : TierId) (k : Kind) (tag : Byte) (s : State),
    s.device.state = .ready → s.maint.queue = e :: rest → e.request = .clearTier t → e.phase = .sweeping →
    (s.ports.get e.port).slot = .inProgress k tag →
    let ends := fun (slots : List (Nat × Slot)) (header : Header) (removed : Nat) (memory : Memory) =>
      exec .clearTierSweepEnd s = .next
        { completedBy e.port k tag (doneReply (BitVec.ofNat 8 t.val :: leBytes 4 removed)) s with
          dict := { s.dict with
            slots := slots
            header := header
            tiers := s.dict.tiers.set t { s.dict.tiers.get t with clearing := false } }
          maint := { s.maint with queue := promoteHead rest }
          memory := memory }
    (TableSound s → MemoryQuiet s → ∃ (slots : List (Nat × Slot)) (removed : Nat),
      removed = (s.dict.slots.filter (fun x => x.2.ofTier t)).length ∧
      (∀ n r, slotAt slots n = .occupied r ↔ (slotAt s.dict.slots n = .occupied r ∧ r.tier ≠ t)) ∧
      ends slots .consistent removed (afterGrants .maint s.memory)) ∧
    (∀ w, s.memory.maintWork = some w → w.left = [] →
      ends s.dict.slots s.dict.header w.removed { s.memory with maintWork := none }) ∧
    (∀ w, s.memory.maintWork = some w → w.left ≠ [] → s.memory.inProgress ≠ none →
      exec .clearTierSweepEnd s = .next s)

/-! ## The table -/

/-- The hash of a key: from the tier number, for each chord in order times 37 plus the chord plus 1, reduced modulo 2^32
after each; its home slot is the hash modulo 262,144; up to two chords the reduction changes nothing (R26). -/
def Obligations.HashOfKey : Prop :=
  ∀ (t : TierId) (cs : List Chord) (h : Nat),
    h = cs.foldl (fun h c => (h * 37 + c.toNat + 1) % 4294967296) t.val →
    (keyHash t cs).toNat = h ∧ h < 4294967296 ∧ (homeSlot t cs).toNat = h % 262144 ∧
      (cs.length ≤ 2 → h = cs.foldl (fun h c => h * 37 + c.toNat + 1) t.val ∧ h ≤ 3 * 37 * 37 + 38 * 8388608) ∧
      (1 ≤ cs.length → cs.length ≤ 2 → t.val < h)

/-- A lookup finds exactly the first slot of the key's probe sequence, among its 32, that holds the key's record with no
EMPTY slot before it. It reads the slots of the sequence one by one, each in a transaction of its own, from the home slot
on: up to the first that is EMPTY or holds the key's record, or all 32 (R27, R29). -/
def Obligations.LookupFinds : Prop :=
  ∀ (slots : List (Nat × Slot)) (t : TierId) (cs : List Chord),
    let probe := fun (i : Nat) => homeSlot t cs + BitVec.ofNat 18 i
    let passes := fun (i : Nat) => slotAt slots (probe i).toNat ≠ .empty ∧
      ∀ q, slotAt slots (probe i).toNat = .occupied q → ¬(q.tier = t ∧ q.strokes = cs)
    (∀ (n : SlotNo) (r : Record), lookup slots t cs = some (n, r) ↔
      ∃ i, i < 32 ∧ n = homeSlot t cs + BitVec.ofNat 18 i ∧ slotAt slots n.toNat = .occupied r ∧
        r.tier = t ∧ r.strokes = cs ∧
        ∀ j, j < i → slotAt slots (homeSlot t cs + BitVec.ofNat 18 j).toNat ≠ .empty ∧
          ∀ q, slotAt slots (homeSlot t cs + BitVec.ofNat 18 j).toNat = .occupied q → ¬(q.tier = t ∧ q.strokes = cs)) ∧
    ∃ m, m < 32 ∧ lookupReads slots t cs = (List.range (m + 1)).map probe ∧ (∀ i, i < m → passes i) ∧
      (m = 31 ∨ ¬passes m)

/-- Vacating any slot, placing a record where its placement walk ends, and the sweep of a tier keep every record within
the 32 slots of its probe sequence with no EMPTY slot before it (R28, R30, R137, R140). -/
def Obligations.ProbesKept : Prop :=
  ∀ (slots : List (Nat × Slot)), slotsWf slots = true → ProbeSound slots →
    (∀ n : SlotNo, ProbeSound (vacate slots n).1) ∧
    (∀ (r : Record) (n : SlotNo), placement slots r.tier r.strokes = some n →
      ProbeSound (writeSlot slots n.toNat (.occupied r))) ∧
    (∀ t : TierId, ProbeSound (sweepTier slots t).1)

/-! ## Sessions -/

/-- RETRANSLATE: BUSY for the slot or a request held, NO_SESSION unless a session is open and not closing, else a request
PENDING from the start asked; a body that is not four bytes is refused (R110, R111). CLOSE: BUSY for the slot, a session
request or a retranslation request, WRONG_STATE when CLOSED, else CLOSE IN PROGRESS; a body that is not empty is refused
(R151). That a retranslation which waits behind the lock makes the engine WAITING is log entry 26's. -/
def Obligations.RetranslateAndCloseTaken : Prop :=
  ∀ (p : PortId) (tag : Byte) (start : Word32) (bad : List Byte) (s : State),
    (Taken p .retranslate s → bad.length ≠ 4 → bad.length ≤ 256 →
      exec (.retranslate p tag bad) s = .next (answered p .retranslate tag bad (refusedReply .malformed 0) s)) ∧
    (Taken p .closeSession s → bad ≠ [] → bad.length ≤ 256 →
      exec (.closeSession p tag bad) s = .next (answered p .closeSession tag bad (refusedReply .malformed 0) s)) ∧
    (Taken p .retranslate s →
      let body := leBytes 4 start.toNat
      let refused := fun (cause : Cause) =>
        exec (.retranslate p tag body) s = .next (answered p .retranslate tag body (refusedReply cause 0) s)
      let isOpen := s.session.opened = true ∧ ∀ q b, s.session.request ≠ .closeInProgress q b
      ((s.ports.get p).slot ≠ .clear ∨ s.engine.request ≠ none → refused .busy) ∧
      ((s.ports.get p).slot = .clear → s.engine.request = none → ¬isOpen → refused .noSession) ∧
      ((s.ports.get p).slot = .clear → s.engine.request = none → isOpen → exec (.retranslate p tag body) s = .next
        { acceptedBy p .retranslate tag body s with
          engine := { s.engine with
            request := some ⟨start, [⟨p, .retranslate, []⟩], .pending⟩
            activity := if s.engine.activity = .idle ∨ s.engine.activity = .waiting then
                (if s.maint.lockHeld then .waiting else .idle)
              else s.engine.activity } })) ∧
    (Taken p .closeSession s →
      let refused := fun (cause : Cause) =>
        exec (.closeSession p tag []) s = .next (answered p .closeSession tag [] (refusedReply cause 0) s)
      let busy := (s.ports.get p).slot ≠ .clear ∨ s.session.request ≠ .none ∨ s.engine.request ≠ none
      (busy → refused .busy) ∧
      (¬busy → s.session.opened = false → refused .wrongState) ∧
      (¬busy → s.session.opened = true → exec (.closeSession p tag []) s = .next
        { acceptedBy p .closeSession tag [] s with
          session := { s.session with request := .closeInProgress p false } }))

/-- OPEN empties the previous session as one event and has START appended; its discard count is how far the lowest pull
cursor lies before the translate cursor. Without the discard flag a lagging pull cursor refuses UNPULLED with the
lowest such port; a slot or a session request in the way refuses BUSY, an OPEN session WRONG_STATE; a body that fails is
refused with its field (R18, R39, R81, R99, R147 to R149), the lowest where two fail (log entry 42). That a PULL or a FETCH whose
reads are still to make is answered at the emptying, with what it was taken for, and that the transaction in progress for it, for
the engine or for a change of the log is dropped, is the model's (log entry 39). -/
def Obligations.OpenEmptiesTheSession : Prop :=
  ∀ (p : PortId) (tag b : Byte) (job : BitVec 16) (flag : Bool) (body rest : List Byte) (s : State),
    body = leBytes 2 job.toNat ++ [if flag then 1#8 else 0#8] → job ≠ 0#16 → Taken p .openSession s →
    let lags := fun (q : PortId) => ∃ c, s.journal.pull.get q = some c ∧ c.cursor < s.journal.cursor
    let refused := fun (body : List Byte) (cause : Cause) (d : Nat) => exec (.openSession p tag body) s =
      .next (answered p .openSession tag body (refusedReply cause d) s)
    let free := (s.ports.get p).slot = .clear ∧ s.session.request = .none ∧ s.session.opened = false
    (free → (flag = true ∨ ∀ q, ¬lags q) →
      ∃ (discard : Nat) (ports : Quad Port),
        (∀ q c, s.journal.pull.get q = some c → s.journal.cursor - c.cursor ≤ discard) ∧
        (discard = 0 ∨ ∃ q c, s.journal.pull.get q = some c ∧ discard = s.journal.cursor - c.cursor) ∧
        ports.get p = (acceptedBy p .openSession tag body s).ports.get p ∧
        (∀ q, q ≠ p → ¬ReadsWait q s → ports.get q = s.ports.get q) ∧
        (∀ w ∈ s.memory.pullWork, w.port ≠ p → (∀ x ∈ s.memory.pullWork, x.port = w.port → x = w) →
          (∀ f, .fetch f ∈ s.memory.logWork → f.port ≠ w.port) → ports.get w.port = { s.ports.get w.port with
            exchange := .answering (responseFrame 2#8 w.tag (doneReply (w.items ++ w.left.flatMap (pullItem s w.port)))) }) ∧
        (∀ f, .fetch f ∈ s.memory.logWork → f.port ≠ p → (∀ x, .fetch x ∈ s.memory.logWork → x.port = f.port → x = f) →
          ports.get f.port = { s.ports.get f.port with
            exchange := .answering (responseFrame 5#8 f.tag (doneReply f.items)) }) ∧
        exec (.openSession p tag body) s = .next
          { s with
            ports := ports
            session := { s.session with request := .openInProgress p discard, job := job, clock := 0#32, clkin := 0 }
            journal := ⟨0, 1, 1, [], s.journal.pull.map (Option.map (fun _ => ⟨1, 0⟩))⟩
            engine := ⟨[], [], ⟨true, false, .nextCap, false, false⟩, none, 1#32, false, none, .idle⟩
            log := ⟨0#32, 1#32, false, []⟩
            feeds := s.feeds.map (Option.map (fun f => ⟨f.mode, ⟨1#32, false⟩, ⟨1#32, false⟩, none⟩))
            memory := { s.memory with
              inProgress := s.memory.inProgress.map (fun tx =>
                if tx.work = .pullRead ∨ tx.work = .fetchRead ∨ tx.work = .change ∨ tx.work = .engine then
                  { tx with work := .dropped }
                else tx)
              logWork := [.startAppend]
              pullWork := []
              engineWork := none } }) ∧
    (∀ q, free → flag = false → lags q → (∀ r : PortId, r.val < q.val → ¬lags r) → refused body .unpulled q.val) ∧
    ((s.ports.get p).slot ≠ .clear ∨ s.session.request ≠ .none → refused body .busy 0) ∧
    ((s.ports.get p).slot = .clear → s.session.request = .none → s.session.opened = true →
      refused body .wrongState 0) ∧
    refused [] .malformed 0 ∧ refused [b] .malformed 0 ∧
    (rest.length ≤ 254 → refused (0#8 :: 0#8 :: rest) .malformed 0 ∧
      (rest ≠ [0#8] → rest ≠ [1#8] → refused (leBytes 2 job.toNat ++ rest) .malformed 1))

/-- OPEN_START_APPENDED and CLOSE_END_APPENDED: the log appends START or END, in a ring with room or full; with START the
session is OPEN and counts from 0; with END it is CLOSED, its clock held; the port has its completion (R97, R150, R153,
R154). -/
def Obligations.StartAndEndAppended : Prop :=
  ∀ (p : PortId) (discard : Nat) (k : Kind) (tag : Byte) (r : MemRequester) (b : Block) (works : List LogWork) (s : State),
    (s.ports.get p).slot = .inProgress k tag →
    (s.session.request = .openInProgress p discard → s.memory.inProgress = some ⟨r, b, .startAppend⟩ →
      s.memory.logWork = .startAppend :: works →
      exec .openStartAppended s = .next
        { segmentAppended (.start s.session.job 0#32)
            (completedBy p k tag (doneReply (leBytes 2 s.session.job.toNat ++ leBytes 4 discard)) s) with
          session := { s.session with opened := true, request := .none, clkin := 0 }
          memory := { s.memory with inProgress := none, logWork := works } }) ∧
    (s.session.request = .closeInProgress p true → s.memory.inProgress = some ⟨r, b, .endAppend⟩ →
      s.memory.logWork = .endAppend :: works →
      exec .closeEndAppended s = .next
        { segmentAppended (.fin s.session.job s.session.clock)
            (completedBy p k tag (doneReply (leBytes 2 s.session.job.toNat ++ leBytes 4 (s.log.newest + 1#32).toNat ++
              leBytes 4 s.journal.head ++ leBytes 4 (s.session.clock + s.session.offsets.get p).toNat)) s) with
          session := { s.session with opened := false, request := .none, clkin := 0 }
          memory := { s.memory with inProgress := none, logWork := works } })

/-- SESSION_CLOCK_TICK: while the session is OPEN each 50,000 periods of CLKIN advance the clock by 1 ms modulo 2^32 and the
rest is kept; otherwise nothing changes (R154, R192). That a tick carries the periods that passed is the model's (log entry
20). -/
def Obligations.ClockTicks : Prop :=
  ∀ (n : Nat) (s : State),
    (s.session.opened = false → exec (.sessionClockTick n) s = .next s) ∧
    (s.session.opened = true →
      ∃ ms rest : Nat, s.session.clkin + n = 50000 * ms + rest ∧ rest < 50000 ∧
        exec (.sessionClockTick n) s = .next
          { s with session := { s.session with clock := s.session.clock + BitVec.ofNat 32 ms, clkin := rest } })

/-! ## Translation -/

/-- TAKE_STROKE. With an empty run one unit of that stroke joins, read by best lookup or UNTRANSLATED and rendered from the
settled format state; it is settled, with the run empty again, when no tier read continues the stroke, and is provisional with
the run open otherwise; a list of 64 and a full log make room for it (R58, R97). In general the headroom and expiry checks come
first, the record joins the run, and the run is resolved (R43 to R53, R58, R60, R97). The take's reads and the log's changes
are transactions of XLATE and LOG (R183); with nobody else asking they are made in this step (log entry 9). The turn at the
table lock as the work ends is log entry 18's, and before and after among segments of a WITHDRAW log entry 30's. -/
def Obligations.SingleStrokeTaken : Prop :=
  ∀ (r : JournalRecord) (struck closed : Bool) (found : Option (TierId × SlotNo × Record))
    (out : List Byte × FormatState) (s s0 : State),
    EngineFree s → NothingBefore s → MemoryQuiet s → s.journal.cursor ≤ s.journal.head →
    s.journal.recordAt s.journal.cursor = some r → r.kind = .stroke struck →
    let journal := { s.journal with cursor := s.journal.cursor + 1 }
    (s.engine.run = [] → (∀ u ∈ s.engine.units, u.settled = true) → ArbiterSound s →
      found = bestLookup s.dict.slots (tiersRead s) [r.chord] → (closed = true ↔ closesAt s [r.chord]) →
      out = render s.roster s.engine.format r.chord (found.map (fun x => x.2.2.content)) →
      let d := unitJoined s ⟨[r.seq], readingOf found,
        (match found with
          | some (_, _, q) => (match q.content with
            | .command _ => true
            | _ => false)
          | none => false),
        out.1, s.engine.format, out.2, r.stamp, closed⟩
      exec .takeStroke s = .next (workEnded
        { d with
          journal := journal
          engine := { d.engine with
            run := if closed then [] else [⟨r.seq, r.chord, r.stamp⟩]
            format := if closed then out.2 else s.engine.format
            lastTaken := some r.stamp }
          memory := afterGrants .log (afterGrants .xlate s.memory) })) ∧
    (s0 = expiredBy s.session.hold r.stamp (headroomed 4089 s) →
      ∃ t rs, (∀ q ∈ rs, q = .xlate ∨ q = .log) ∧
        Resolved (tiersRead s)
          { s0 with engine := { s0.engine with
              run := s0.engine.run ++ [⟨r.seq, r.chord, r.stamp⟩]
              lastTaken := some r.stamp } } t ∧
        exec .takeStroke s = .next (workEnded { t with journal := journal, memory := madeBy rs s.memory }))

/-- RE_RESOLUTION: with nothing listed as provisional and no run only change pending ends; a run of one stroke whose unit reads
and renders as before keeps its unit and segment, and both settle, with the run emptied, when no tier read continues the stroke
any more. In general the headroom check comes first and the run is resolved (R43 to R51, R60, R61). Its transactions are made
in this step, with nobody else asking (log entry 9). The turn at the table lock as the work ends is log entry 18's, and before
and after among segments of a WITHDRAW log entry 30's. -/
def Obligations.ReResolutionKeepsAUnit : Prop :=
  ∀ (e : RunEntry) (us : List ListedUnit) (u : ListedUnit) (closed : Bool)
    (found : Option (TierId × SlotNo × Record)) (out : List Byte × FormatState) (s : State),
    EngineFree s → s.engine.changePending = true → MemoryQuiet s →
    ((∀ v ∈ us, v.settled = true) → s.engine.run = [] → s.engine.units = us → exec .reResolution s = .next (workEnded
      { s with engine := { s.engine with changePending := false } })) ∧
    ((∀ v ∈ us, v.settled = true) → s.engine.run = [e] → s.engine.units = us ++ [u] → u.settled = false →
      u.strokes = [e.seq] → (s.log.newest - u.segment).toNat < 4089 →
      found = bestLookup s.dict.slots (tiersRead s) [e.chord] → (closed = true ↔ closesAt s [e.chord]) →
      out = render s.roster s.engine.format e.chord (found.map (fun x => x.2.2.content)) →
      u.reading = readingOf found → s.log.textOf u.segment = some out.1 →
      exec .reResolution s = .next (workEnded
        { s with
          engine := { s.engine with
            changePending := false
            run := if closed then [] else [e]
            units := us ++ [⟨u.number, u.strokes, u.reading, u.before, out.2, u.segment, closed⟩]
            format := if closed then out.2 else s.engine.format }
          log := if closed then { s.log with segments := s.log.segments.map (fun g =>
              if g.number = u.segment ∧ g.textState = some .provisional then g.withState .settled else g) }
            else s.log
          memory := madeBy ((if tiersRead s = [] then [] else [.xlate]) ++ (if closed then [.log] else [])) s.memory })) ∧
    ∃ t rs, (∀ q ∈ rs, q = .xlate ∨ q = .log) ∧
      Resolved (tiersRead s) (headroomed 4089 { s with engine := { s.engine with changePending := false } }) t ∧
      exec .reResolution s = .next (workEnded { t with memory := madeBy rs s.memory })

/-- EXPIRY settles a nonempty run whose last taken stamp lies at least the hold time before the session clock; while a CLOSE
waits for its settle, that comes first unless the command takes the expiry first (log entry 41). CLOSE_SETTLE settles it for a
CLOSE once every record is taken, and END is then to be appended (R40, R52, R54, R55, R62, R152). The log's changes are
transactions of LOG, made in this step with nobody else asking (log entry 9). That an EXPIRY named before the hold time is
reached, with an empty run, or behind the settle of a CLOSE changes nothing is the model's (log entry 2); that no append may
wait, as the hypotheses have it, is its reading (log entry 21). The turn at the table lock as the work ends is log entry 18's. -/
def Obligations.ExpiryAndCloseSettle : Prop :=
  ∀ (t : Stamp) (p : PortId) (s : State),
    EngineFree s → NothingBefore s → MemoryQuiet s → s.journal.cursor = s.journal.head + 1 →
    let made := madeBy (if ∀ u ∈ s.engine.units, u.settled = true then [] else [.log]) s.memory
    (∀ first : Bool, (first = true ∨ ∀ q, s.session.request ≠ .closeInProgress q false) →
      s.engine.run ≠ [] → s.engine.lastTaken = some t → s.session.hold ≤ (s.session.clock - t).toNat →
      exec (.expiry first) s = .next (workEnded { settledRun s with memory := made })) ∧
    (∀ first : Bool, s.engine.run = [] → exec (.expiry first) s = .next s) ∧
    (∀ first : Bool, s.engine.lastTaken = some t → (s.session.clock - t).toNat < s.session.hold →
      exec (.expiry first) s = .next s) ∧
    (s.session.request = .closeInProgress p false →
      exec (.expiry false) s = .next s ∧
      exec .closeSettle s = .next (workEnded
        { settledRun s with
          session := { s.session with request := .closeInProgress p true }
          memory := { made with logWork := [.endAppend] } }))

/-! ## Strikes and retranslation -/

/-- TAKE_STRIKE with the run and the unit list empty: no target is written, nothing is appended, and the strike counts as taken
(R107); its record is read by XLATE (R183), in this step, with nobody else asking (log entry 9). The turn at the table lock as
the work ends is log entry 18's. -/
def Obligations.StrikeWithoutTarget : Prop :=
  ∀ (r : JournalRecord) (target : Option (List Nat)) (s : State),
    EngineFree s → NothingBefore s → MemoryQuiet s → s.journal.cursor ≤ s.journal.head →
    s.journal.recordAt s.journal.cursor = some r → r.kind = .strike target →
    s.engine.run = [] → s.engine.units = [] →
    exec .takeStrike s = .next (workEnded
      { s with
        journal := { s.journal with cursor := s.journal.cursor + 1 }
        engine := { s.engine with lastTaken := some r.stamp }
        memory := afterGrants .xlate s.memory })

/-- TAKE_STRIKE against a settled unit: its strokes are STRUCK and are the strike's target, one WITHDRAW keeps through the
segment before its own, in a log with room or full, it leaves the list, and the settled format state is its before-state (R85,
R97, R104, R106). Its transactions are made in this step, with nobody else asking (log entry 9). The turn at the table lock as
the work ends is log entry 18's, and before and after among segments of the WITHDRAW log entry 30's. -/
def Obligations.StrikeAgainstUnit : Prop :=
  ∀ (r : JournalRecord) (target : Option (List Nat)) (us : List ListedUnit) (u : ListedUnit) (s : State),
    EngineFree s → NothingBefore s → MemoryQuiet s → ArbiterSound s → JournalSound s →
    s.journal.cursor ≤ s.journal.head →
    s.journal.recordAt s.journal.cursor = some r → r.kind = .strike target →
    s.engine.run = [] → s.engine.units = us ++ [u] → (∀ v ∈ us, v.settled = true) → u.settled = true →
    u.strokes ≠ [] →
    let d := withdrawAppended (u.segment - 1#32) { s with engine := { s.engine with units := us, format := u.before } }
    exec .takeStrike s = .next (workEnded
      { d with
        journal := { s.journal with
          cursor := s.journal.cursor + 1
          records := struckOut r.seq u.strokes s.journal.records }
        engine := { d.engine with lastTaken := some r.stamp }
        memory := afterGrants .log (afterGrants .xlate s.memory) })

/-- TAKE_STRIKE against a run. Of one stroke, before its expiry: the stroke is STRUCK and is the strike's target, its
provisional unit is withdrawn and leaves the list, and the run is empty. In general, after the headroom and expiry checks, the
newest run stroke is struck out and the strokes that are left are resolved (R85, R97, R104, R105). Its transactions are made in
this step, with nobody else asking (log entry 9). The turn at the table lock as the work ends is log entry 18's, and before and
after among segments of the WITHDRAW log entry 30's. -/
def Obligations.StrikeAgainstTheRun : Prop :=
  ∀ (r : JournalRecord) (target : Option (List Nat)) (e : RunEntry) (es : List RunEntry) (us : List ListedUnit)
    (u : ListedUnit) (t : Stamp) (s s0 : State),
    EngineFree s → NothingBefore s → MemoryQuiet s → JournalSound s → s.journal.cursor ≤ s.journal.head →
    s.journal.recordAt s.journal.cursor = some r → r.kind = .strike target →
    let journal := { s.journal with
      cursor := s.journal.cursor + 1
      records := struckOut r.seq [e.seq] s.journal.records }
    (s.engine.run = [e] → s.engine.units = us ++ [u] → (∀ v ∈ us, v.settled = true) → u.settled = false →
      s.engine.lastTaken = some t → (r.stamp - t).toNat < s.session.hold →
      (s.log.newest - u.segment).toNat < 4089 → ArbiterSound s →
      let d := withdrawAppended (u.segment - 1#32) { s with engine := { s.engine with units := us } }
      exec .takeStrike s = .next (workEnded
        { d with
          journal := journal
          engine := { d.engine with run := [], lastTaken := some r.stamp }
          memory := afterGrants .log (afterGrants .xlate s.memory) })) ∧
    (s0 = expiredBy s.session.hold r.stamp (headroomed 4089 s) → s0.engine.run = es ++ [e] →
      ∃ t rs, (∀ q ∈ rs, q = .xlate ∨ q = .log) ∧
        Resolved (tiersRead s) { s0 with engine := { s0.engine with run := es } } t ∧
        exec .takeStrike s = .next (workEnded
          { t with
            journal := journal
            engine := { t.engine with lastTaken := some r.stamp }
            memory := madeBy rs s.memory }))

/-- RETRANSLATION_START: with an empty list every requester has its completion at once, the start used being the translate
cursor with 0 and 0; otherwise, after the headroom check, the start unit is the oldest whose newest stroke is at or after the
start asked, or the newest unit, and the replay's start and tiers are fixed (R33, R111, R113, R114, R124). The headroom
settle's transactions are made in this step, with nobody else asking (log entry 9). The turn at the table lock as the work ends
is log entry 18's, and that the engine is RETRANSLATING from here on, before its replay reads, log entry 26's. -/
def Obligations.RetranslationStarts : Prop :=
  ∀ (r : RetransRequest) (s s0 : State),
    EngineFree s → s.engine.changePending = false → s.engine.request = some r → r.phase = .pending → MemoryQuiet s →
    (s.engine.units = [] → (r.requesters.map Requester.port).Nodup →
      ∃ t, exec .retranslationStart s = .next t ∧
        t = workEnded { s with ports := t.ports, engine := { s.engine with request := none } } ∧
        portsCompleted r.requesters (leBytes 4 s.journal.cursor ++ [0, 0, 0]) s.ports t.ports) ∧
    (s0 = headroomed 3711 s → s.engine.units ≠ [] → (∀ u ∈ s.engine.units, u.strokes ≠ []) →
      ∃ (i : Nat) (u : ListedUnit) (rs : List MemRequester),
        (∀ q ∈ rs, q = .log) ∧ s0.engine.units[i]? = some u ∧
        ((r.start.toNat ≤ u.strokes.getLastD 0 ∧
            ∀ v ∈ s0.engine.units.take i, v.strokes.getLastD 0 < r.start.toNat) ∨
          (i = s0.engine.units.length - 1 ∧ ∀ v ∈ s0.engine.units, v.strokes.getLastD 0 < r.start.toNat)) ∧
        exec .retranslationStart s = .next
          { s0 with
            engine := { s0.engine with
              activity := .retranslating
              request := some { r with phase := .inProgress ⟨i, u.strokes.headD 0, tiersRead s⟩ } }
            memory := madeBy rs s.memory })

/-- RETRANSLATION_REBUILD: the replay, from the start unit's before-state, feeds the LIVE STROKE records from the start used up
to the translate cursor, one after another, with an expiry check before each and at its end; what it forms is compared with the
old units from the start unit on: those before the first that does not match are kept, the others withdrawn by one WITHDRAW,
the new ones appended; the replay's run and format are taken over, the request is released, and every requester has the start
used and the two counts (R115 to R120). Its transactions are made in this step, with nobody else asking (log entry 9), so that
one hold time and one roster serve the whole replay; made one by one, each check goes by the hold time held then and each
render by the roster held then (R75, R116; the moments are log entries 16's and 38's). The turn at the table lock as the work
ends is log entry 18's, the activity then log entry 26's, and before and after among segments of the WITHDRAW log entry 30's. -/
def Obligations.RebuildReleases : Prop :=
  (∀ (r : RetransRequest) (p : ReplayStart) (old : List ListedUnit) (before : FormatState) (rep : Replay) (s : State),
    s.device.state = .ready → s.engine.activity = .retranslating → s.engine.request = some r →
    r.phase = .inProgress p → (r.requesters.map Requester.port).Nodup → MemoryQuiet s →
    old = s.engine.units.drop p.first → before = (old.head?.map ListedUnit.before).getD s.engine.format →
    rep = (((((s.journal.records.drop (p.startUsed - s.journal.oldest)).take (s.journal.cursor - p.startUsed)).filter
        (fun q => decide (q.kind = .stroke false))).foldl (Replay.feed s.dict.slots p.tiers s.roster s.session.hold)
      ⟨[], before, [], [], none⟩).expire s.session.hold s.session.clock) →
    ∃ (t d : State) (j : Nat) (rs : List MemRequester), (∀ q ∈ rs, q = .xlate ∨ q = .log) ∧
      exec .retranslationRebuild s = .next t ∧
      MatchesUpTo s.log old (rep.collected ++ rep.provisional) j ∧
      d = diffed true (s.engine.units.take p.first) old (rep.collected ++ rep.provisional) j s ∧
      t = workEnded { d with
        ports := t.ports
        engine := { d.engine with
          run := rep.run
          format := rep.format
          request := none
          activity := if s.maint.lockHeld = true ∧ (s.engine.changePending = true ∨ s.journal.cursor ≤ s.journal.head)
            then .waiting else .idle }
        memory := madeBy rs s.memory } ∧
      portsCompleted r.requesters (leBytes 4 p.startUsed ++ leBytes 1 (old.length - j) ++
        leBytes 2 ((rep.collected ++ rep.provisional).length - j)) s.ports t.ports) ∧
  ∀ (slots : List (Nat × Slot)) (tiers : List TierId) (roster : List (List Byte)) (hold : Nat) (clock : Stamp)
    (rep : Replay) (q : JournalRecord),
    FedInto slots tiers roster hold rep q (rep.feed slots tiers roster hold q) ∧
    (∀ t, rep.lastFed = some t → rep.run ≠ [] → hold ≤ (clock - t).toNat → rep.expire hold clock =
      ⟨[], ((rep.provisional.getLast?).map NewUnit.after).getD rep.format,
        rep.collected ++ rep.provisional.map (fun q => { q with settled := true }), [], some t⟩) ∧
    ((∀ t, rep.lastFed = some t → rep.run = [] ∨ (clock - t).toNat < hold) → rep.expire hold clock = rep)

/-! ## Rendering -/

/-- What each kind of unit writes and leaves as format state: TEXT with text, TEXT without, the four commands, and an
UNTRANSLATED stroke (R66 to R72, R78); and the raw steno of a chord: its keys in order, a hyphen before the right bank when
no key of the vowel group is pressed, digits for the ten digit keys while the number key is (R76, R77). -/
def Obligations.UnitsRendered : Prop :=
  ∀ (roster : List (List Byte)) (f : FormatState) (g : TextFlags) (c : Chord) (text out name : List Byte) (a : Fin 16)
    (after : CaseField),
    let flagged := fun (otherwise : CaseField) =>
      if g.capNext then CaseField.nextCap else if g.lowerNext then CaseField.nextLower else otherwise
    let newLine : List Byte := if f.lineStart then [] else [0x0A#8]
    let none' := fun (first count : Nat) => (List.range count).all (fun k => !c.getLsbD (first + k))
    let digit : Nat → Option Byte := fun i =>
      match i with
      | 1 => some 0x31 | 2 => some 0x32 | 4 => some 0x33 | 6 => some 0x34 | 8 => some 0x35 | 9 => some 0x30
      | 13 => some 0x36 | 15 => some 0x37 | 17 => some 0x38 | 19 => some 0x39
      | _ => none
    let letters : List Byte := [0x23, 0x53, 0x54, 0x4B, 0x50, 0x57, 0x48, 0x52, 0x41, 0x4F, 0x2A, 0x45, 0x55, 0x46, 0x52,
      0x50, 0x42, 0x4C, 0x47, 0x54, 0x53, 0x44, 0x5A]
    (text ≠ [] → lettered f text out → after = flagged (if g.keepCase then f.case else .none) →
      render roster f c (some (.text text g)) =
        ((if f.lineStart = true ∨ f.attachPending = true ∨ g.attachLeft = true ∨ (g.glue = true ∧ f.glueTail = true)
            then [] else [0x20#8]) ++ out,
          ⟨false, g.attachRight, after, f.caps, g.glue⟩)) ∧
    render roster f c (some (.text [] g)) =
      ([], ⟨f.lineStart, f.attachPending || g.attachLeft || g.attachRight, flagged f.case, f.caps, f.glueTail⟩) ∧
    render roster f c (some (.command .paragraph)) = (newLine, ⟨true, false, .nextCap, f.caps, false⟩) ∧
    (name = (match roster[a.val]? with
        | some (x :: more) => x :: more
        | _ => [0x53, 0x50, 0x45, 0x41, 0x4B, 0x45, 0x52, 0x20] ++
            (if a.val < 10 then [BitVec.ofNat 8 (0x30 + a.val)] else [0x31, BitVec.ofNat 8 (0x26 + a.val)])) →
      render roster f c (some (.command (.speaker a))) =
        (newLine ++ name ++ [0x3A, 0x20], ⟨false, true, .nextCap, f.caps, false⟩)) ∧
    render roster f c (some (.command .capsOn)) = ([], { f with caps := true }) ∧
    render roster f c (some (.command .capsOff)) = ([], { f with caps := false }) ∧
    render roster f c none =
      ((if f.lineStart = true ∨ f.attachPending = true then [] else [0x20#8]) ++ rawSteno c,
        ⟨false, false, f.case, f.caps, false⟩) ∧
    rawSteno c = (List.range 23).flatMap (fun i =>
      if c.getLsbD i then
        (if 13 ≤ i ∧ none' 8 5 = true ∧ none' 13 (i - 13) = true then [0x2D#8] else []) ++
          (if i = 0 then (if (List.range 23).any (fun k => c.getLsbD k && (digit k).isSome) then [] else [0x23#8])
            else match c.getLsbD 0, digit i with
              | true, some d => [d]
              | _, _ => [letters.getD i 0])
      else [])

/-! ## Entry memory, power and reset -/

/-- MEMORY_GRANT with no transaction in progress: the engine and the maintenance unit, those the command names, begin the work
they have ready, the engine's by the order of R40 up to its first transaction, MAINT's the next step of its head or start-up's
sweep (R37, R39, R127, R139, R140, R144, R188, R190); then INTAKE is granted if it requests, otherwise the highest in the order
with count 8, or with none at 8 the highest requesting; the counts and the order move as the rules say; with nobody requesting
nothing is granted (R183 to R185). Each asks for one transaction at a time: XLATE and LOG for the engine's work, MAINT one block
after another and start-up's header read, LOG for a FETCH's next read, START's or END's segment or a settle's change, PULL for its
next record (R183). Intake asks while an append waits, unless the settle its own guard demanded is still to be written (R5, R62).
The model's, not the rules', are, by log entry: when a block asks, in which order, and that the log's own work and a guard's settle
come before the engine's work and the lock (9, 10); that a head's writes, the lock and the sweep begin with the grant of the
header's write WRITING, kept back meanwhile (17); which settle comes first (41); that CLOSE_SETTLE is ready only with no append
waiting (21); the turn at the lock (18); the activity from that grant on, RETRANSLATING from RETRANSLATION_START's headroom settle,
where R39 gives it to the running replay (26); when and by which hold time and clock a replay checks expiry, and when and with
which roster units are rendered, in what a work comes to first (16, 38); what it has left to be shown (1); that a PULL and a FETCH
read what their request fixed (7); that a head reads after its lock check, a GET flagged or not, and a CLEAR TIER asks once checked
(24). -/
def Obligations.GrantChooses : Prop :=
  (∀ (asks : Asks) (r : MemRequester) (tx : Transaction) (before after : List MemRequester) (s se s1 : State),
    s.memory.inProgress = none → se = (if asks.engine then presentEngine asks.expiryFirst s else s) →
    s1 = (if asks.maint then presentMaint se else se) →
    let asking := fun (q : MemRequester) => requestOf s1 q ≠ none
    let count := fun (q : MemRequester) => s1.memory.counts.get q
    let moved := fun (q : MemRequester) =>
      if q = r then 0 else if (requestOf s1 q).isSome then min (count q + 1) 8 else count q
    let grantedWith := fun (order : List MemRequester) => ∃ t : State, exec (.memoryGrant asks) s = .next t ∧
      t.memory.inProgress = some tx ∧ t.memory.order = order ∧
      t.memory.counts = ⟨moved .xlate, moved .log, moved .maint, moved .pull⟩ ∧
      ((r = .maint → s1.device.state = .ready → ∀ e, s1.maint.queue.head? = some e → ¬e.isBeforeWrites) →
        t = { s1 with memory := { s1.memory with inProgress := some tx, counts := t.memory.counts, order := order } })
    ((∀ q, ¬asking q) → exec (.memoryGrant asks) s = .next s1) ∧
    (r = .intake → requestOf s1 r = some tx → grantedWith s1.memory.order) ∧
    (¬asking .intake → s1.memory.order = before ++ r :: after → r ≠ .intake → requestOf s1 r = some tx →
      ((count r = 8 ∧ ∀ q ∈ before, asking q → count q ≠ 8) ∨
        ((∀ q ∈ s1.memory.order, asking q → count q ≠ 8) ∧ ∀ q ∈ before, ¬asking q)) →
      grantedWith (if s1.memory.mode = .fixed then s1.memory.order else before ++ after ++ [r]))) ∧
  (∀ (k : WorkKind) (first : Bool) (s : State),
    (s.memory.engineWork ≠ none → presentEngine first s = s) ∧
    ((∀ q, ¬WorkReady s q) → presentEngine first s = s) ∧
    (s.memory.engineWork = none → WorkReady s k → (k = .expiry → first = false → ¬WorkReady s .closeSettle) →
      (k = .closeSettle → first = true → ¬WorkReady s .expiry) →
      ∃ x y, WorkBegun k s x ∧ GoesOn x y ∧ (y.1.left = [] → presentEngine first s = s) ∧
        (y.1.left ≠ [] → presentEngine first s = { y.2 with
          engine := { y.2.engine with
            activity := if k = .rebuild ∨ k = .retranslationStart then .retranslating else .resolving }
          memory := { s.memory with engineWork := some y.1 } }))) ∧
  (∀ (e : MaintEntry) (rest : List MaintEntry) (t : TierId) (flag : Bool) (cs : List Chord) (content : Content) (s : State),
    let begins := fun (report : List Byte) (uses : List MaintUse) => presentMaint s =
      if uses = [] then s else { s with memory := { s.memory with maintWork := some ⟨tiersRead s, report, 0, uses⟩ } }
    let reads := fun (ns : List SlotNo) => ns.map MaintUse.read
    (s.memory.maintWork ≠ none → presentMaint s = s) ∧
    (s.memory.maintWork = none → s.device.state = .starting → s.device.startup = .sweep →
      begins [] ((if s.device.cause = .powerOn then [.header .writing] else []) ++ [.empty 0, .header .consistent])) ∧
    (s.memory.maintWork = none → s.device.state = .ready → s.maint.queue = [] → presentMaint s = s) ∧
    (s.memory.maintWork = none → s.device.state = .ready → s.maint.queue = e :: rest →
      (e.request = .put t flag cs content → e.phase = .checking false →
        begins [] (if (s.dict.tiers.get t).locked then [] else reads (putReads s.dict.slots t cs))) ∧
      (e.request = .drop t flag cs → e.phase = .checking false →
        begins [] (if (s.dict.tiers.get t).locked then [] else reads (dropReads s.dict.slots t cs))) ∧
      (∀ b, e.request = .get (some t) cs → e.phase = .checking b → begins [] (reads (lookupReads s.dict.slots t cs))) ∧
      (∀ b, e.request = .get none cs → e.phase = .checking b →
        begins [] (reads (bestReads s.dict.slots (tiersRead s) cs))) ∧
      (∀ plan, (e.request = .put t flag cs content ∨ e.request = .drop t flag cs) → e.phase = .lockWait plan →
        let free := (s.engine.activity = .idle ∨ s.engine.activity = .waiting) ∧ ∀ b, .change b ∉ s.memory.logWork
        (free → begins [] [.header .writing]) ∧ (¬free → presentMaint s = s)) ∧
      (∀ plan, e.request = .put t flag cs content → e.phase = .writing (.put plan) →
        begins (putLayout plan) (plan.writes.map (fun x => .write x.1 (.occupied x.2)) ++ [.header .consistent])) ∧
      (∀ plan, e.request = .drop t flag cs → e.phase = .writing (.drop plan) →
        begins (dropLayout s.dict.slots plan) (dropUses s.dict.slots plan ++ [.header .consistent])) ∧
      (e.request = .clearTier t →
        (e.phase = .checking false → presentMaint s = s) ∧
        (e.phase = .checking true →
          begins [] (if s.engine.activity = .retranslating then [] else [.header .writing])) ∧
        (e.phase = .sweeping → begins [] [.sweep t 0, .header .consistent])))) ∧
  ∀ (w : EngineWork) (u : Use) (us : List Use) (m : MaintWork) (x : MaintUse) (more : List MaintUse) (a : IntakeWork)
    (rest : List IntakeWork) (l : LogWork) (works : List LogWork) (p : PullWork) (pulls : List PullWork) (s : State),
    let next := u.block s.log.newest
    (s.memory.engineWork = some w → w.left = u :: us →
      (u.requester = .xlate → requestOf s .xlate = some ⟨.xlate, next, .engine⟩) ∧
      (u.requester = .log → requestOf s .xlate = none ∧
        (s.memory.logWork = [] → requestOf s .log = some ⟨.log, next, .engine⟩))) ∧
    (s.memory.engineWork = none → requestOf s .xlate = none ∧ (s.memory.logWork = [] → requestOf s .log = none)) ∧
    (s.memory.logWork = l :: works → requestOf s .log = (match l with
      | .fetch f => f.reads.head?.map (fun b => ⟨.log, b, .fetchRead⟩)
      | .startAppend => some ⟨.log, segmentBlock (s.log.newest + 1#32), .startAppend⟩
      | .endAppend => some ⟨.log, segmentBlock (s.log.newest + 1#32), .endAppend⟩
      | .change b => some ⟨.log, b, .change⟩)) ∧
    (s.memory.pullWork = p :: pulls →
      requestOf s .pull = p.left.head?.map (fun r => ⟨.pull, recordBlock r.seq, .pullRead⟩)) ∧
    (s.memory.pullWork = [] → requestOf s .pull = none) ∧
    (s.device.state = .starting → s.device.startup = .readHeader →
      requestOf s .maint = some ⟨.maint, .header, .headerRead⟩) ∧
    (s.device.state = .starting → s.device.startup = .sweep → s.maint.queue = [] → s.memory.maintWork = some m →
      m.left = x :: more → requestOf s .maint = some ⟨.maint, x.block, .maint⟩) ∧
    (s.device.state = .ready → s.memory.maintWork = some m → m.left = x :: more →
      let kept := ∃ e, s.maint.queue.head? = some e ∧
        (((∃ plan, e.phase = .lockWait plan) ∧ ((s.engine.activity ≠ .idle ∧ s.engine.activity ≠ .waiting) ∨
            ∃ b, .change b ∈ s.memory.logWork)) ∨
          ((∃ t, e.request = .clearTier t) ∧ e.phase = .checking true ∧ s.engine.activity = .retranslating))
      (kept → requestOf s .maint = none) ∧ (¬kept → requestOf s .maint = some ⟨.maint, x.block, .maint⟩)) ∧
    (s.device.state = .ready → s.memory.maintWork = none → requestOf s .maint = none) ∧
    (s.memory.intakeWork = a :: rest →
      (a.guarded = false ∨ (∀ b, .change b ∉ s.memory.logWork) →
        requestOf s .intake = some ⟨.intake, recordBlock (s.journal.head + 1), .journalAppend⟩) ∧
      (a.guarded = true → (∃ b, .change b ∈ s.memory.logWork) → requestOf s .intake = none)) ∧
    (s.memory.intakeWork = [] → requestOf s .intake = none)

/-- MEMORY_TRANSACTION_COMPLETE: the memory is idle again. A FETCH whose last read it was is answered, and else goes on to its
next (R160, R182). A transaction of the engine's work brings about what it writes: a journal write, a promotion with its unit, a
WITHDRAW with its targets, whose transactions follow, or a new unit with its segment (R51, R81, R85, R108, R183); with the last of
a stage the work goes on to the next: its settle, a strike's writes, a resolution's slots, the diff's changes of the log, a replay
record by record, or its row (R43 to R62, R104 to R119). A resolution forms its run as on any one table that holds what its reads
found (R34, R43 to R45). A transaction of MAINT writes its header or slot, and a sweep goes on slot by slot (R37, R130, R140,
R190). With the last change of a settle that the guard demanded, the settle ends as a resolution does (R62, R129). A work's row
begins it where it is ready (R40), makes all it has left where nobody else asks, and ends it once all is made. SDRAM_REFRESH
changes nothing (R182).
The model's, not the rules', are, by log entry: that a write shows with its transaction's end, and what a work has left to be shown
(1, 17); that a row not due changes nothing (2); a FETCH's items as fixed at its request (7); that a row alone makes its
transactions (9); their order, and that a guard's settle comes before a work (10); which ends this command makes (11); that a
replay checks a record by the hold time held as its read ends, and last by clock and hold time as its last units are formed (16);
the turn at the lock (18); that CLOSE_SETTLE is ready only with no append waiting (21); a settle or replay without its request, in
no run (25); the activity, RETRANSLATING from RETRANSLATION_START's headroom settle (26); before and after where numbers wrap or
lapse (30); that units are rendered and compared as the last slot read ends, with the roster held then (38); a work an OPEN
discarded (39); which settle comes first (41). -/
def Obligations.TransactionsEnd : Prop :=
  (∀ (tx : Transaction) (w : ReadWork) (b : Block) (more : List Block) (works : List LogWork)
    (ew : EngineWork) (u : Use) (us : List Use) (mw : MaintWork) (ms : List MaintUse) (s : State),
    let ended := { s.memory with inProgress := none }
    let idle : State := { s with memory := ended }
    let rows : List (WorkKind × Instr) := [(.reResolution, .reResolution), (.retranslationStart, .retranslationStart),
      (.takeStroke, .takeStroke), (.takeStrike, .takeStrike), (.expiry, .expiry true), (.expiry, .expiry false),
      (.closeSettle, .closeSettle), (.rebuild, .retranslationRebuild)]
    exec .sdramRefresh s = .next s ∧
    (s.memory.inProgress = none → exec .memoryTransactionComplete s = .next s) ∧
    (s.memory.inProgress = some tx → tx.work = .dropped → exec .memoryTransactionComplete s = .next idle) ∧
    (s.memory.inProgress = some tx → tx.work = .engine → s.memory.engineWork = some ew → ew.left = u :: us →
      ∃ y : EngineWork × State, y.1.kind = ew.kind ∧ y.1.tiers = ew.tiers ∧ y.1.shown = ew.shown ∧
        y.2.engine.activity = s.engine.activity ∧ y.2.engine.request = s.engine.request ∧
        y.2.engine.changePending = s.engine.changePending ∧
        GoesOn ({ ew with stage := stageSaw s.dict.slots u ew.stage, left := following u idle ++ us }, brought u idle) y ∧
        exec .memoryTransactionComplete s = .next { y.2 with memory := { ended with engineWork := some y.1 } }) ∧
    (s.memory.inProgress = some tx → tx.work = .maint → s.memory.maintWork = some mw →
      let goesTo := fun (d : Dictionary) (found : Nat) (left : List MaintUse) => exec .memoryTransactionComplete s = .next
        { s with
          dict := d
          memory := { ended with maintWork := some { mw with removed := mw.removed + found, left := left } } }
      (∀ h, mw.left = .header h :: ms → goesTo { s.dict with header := h } 0 ms) ∧
      (∀ n, mw.left = .read n :: ms → goesTo s.dict 0 ms) ∧
      (∀ n v, mw.left = .write n v :: ms → goesTo { s.dict with slots := writeSlot s.dict.slots n.toNat v } 0 ms) ∧
      (∀ t n, mw.left = .sweep t n :: ms → n < 262144 →
        let on : List MaintUse := if n + 1 < 262144 then [.sweep t (n + 1)] else []
        ((∀ r, slotAt s.dict.slots n = .occupied r → r.tier ≠ t) → goesTo s.dict 0 (on ++ ms)) ∧
        (∀ r, slotAt s.dict.slots n = .occupied r → r.tier = t →
          goesTo s.dict 1 (vacateUses s.dict.slots (BitVec.ofNat 18 n) ++ on ++ ms))) ∧
      (∀ n, mw.left = .empty n :: ms → n < 262144 →
        goesTo { s.dict with slots := writeSlot s.dict.slots n .empty } 0
          ((if n + 1 < 262144 then [.empty (n + 1)] else []) ++ ms))) ∧
    (s.memory.inProgress = some tx → tx.work = .change → s.memory.logWork = .change b :: works →
      let made : State := { s with memory := { ended with logWork := works } }
      ((∃ b', .change b' ∈ works) → exec .memoryTransactionComplete s = .next made) ∧
      ((∀ b', .change b' ∉ works) → exec .memoryTransactionComplete s = .next (refreshed (workEnded made)))) ∧
    (∀ row ∈ rows,
      (s.memory.engineWork = some ew → ew.kind ≠ row.1 → exec row.2 s = .next s) ∧
      (s.memory.engineWork = some ew → ew.kind = row.1 →
        (EngineAlone s → ∃ y t, MadeAlone (ew, s) y ∧ WorkEnds y.1 y.2 t ∧ exec row.2 s = .next t) ∧
        (∀ n m, ew.left = [] → ew.stage = .ending n m → ∃ t, WorkEnds ew s t ∧ exec row.2 s = .next t) ∧
        (¬EngineAlone s → ew.left ≠ [] → exec row.2 s = .next s)) ∧
      (s.memory.engineWork = none → WorkReady s row.1 → (row.2 = .expiry false → ¬WorkReady s .closeSettle) →
        ∃ x, WorkBegun row.1 s x ∧
          (EngineAlone s → ∃ y t, MadeAlone x y ∧ WorkEnds y.1 y.2 t ∧ exec row.2 s = .next t) ∧
          (¬EngineAlone s → ∃ y, GoesOn x y ∧
            (y.1.left = [] → ∃ t, WorkEnds y.1 y.2 t ∧ exec row.2 s = .next t) ∧
            (y.1.left ≠ [] → exec row.2 s = .next s))) ∧
      (s.memory.engineWork = none → (¬WorkReady s row.1 ∨ (row.2 = .expiry false ∧ WorkReady s .closeSettle)) →
        exec row.2 s = .next s)) ∧
    (s.memory.inProgress = some tx → tx.work = .fetchRead → s.memory.logWork = .fetch w :: works → w.reads = b :: more →
      (more = [] → exec .memoryTransactionComplete s = .next
        { s with
          ports := s.ports.set w.port { s.ports.get w.port with
            exchange := .answering (responseFrame 5#8 w.tag (doneReply w.items)) }
          memory := { ended with logWork := works } }) ∧
      (more ≠ [] → exec .memoryTransactionComplete s = .next
        { s with memory := { ended with logWork := .fetch { w with reads := more } :: works } }))) ∧
  ∀ (slots table : List (Nat × Slot)) (seen : List Slot) (tiers : List TierId) (run : List RunEntry),
    (∀ (i : Nat) (n : SlotNo), (formBy (readSlot slots seen) tiers run).2[i]? = some n →
      (seen[i]?).getD (slotAt slots n.toNat) = slotAt table n.toNat) →
    FormsRun table tiers run (formedBy slots seen tiers run).1 (formedBy slots seen tiers run).2

/-- RESTART and an assertion of the RESET line of 1 µs or more: every block takes its reset values, the journal, the slots
and the header stay, and the translate cursor goes to head + 1; a shorter assertion changes nothing, and a RESTART whose body is
not empty is refused (R19, R38, R180, R187, R189). A transaction already granted is carried to its end without an answer: of a
journal append, a journal write of a strike's take, and a write of the header or of a slot, a PUT's, a DROP's or a sweep's last
header write among them, the journal or the table keeps what it wrote; any other, a read or a change of the log among them, leaves
nothing (R19, R108, R187). A RESTART that arrived together with the one taken right before it is discarded by
that reset, without an answer (R180). The HELD device state, the data-out bytes kept, which RESTARTs arrived together, whether a
header read that the reset completes sets the table outcome, and that a table whose last header write is made, by then or by the
reset, is kept although the request's row has not ended, are the model's (log entries 6, 13, 19, 34 and 43). -/
def Obligations.ResetsAndTheirValues : Prop :=
  ∀ (p q : PortId) (tag : Byte) (body : List Byte) (ns : Nat) (sets line : Bool) (c : Instr) (s : State),
    let row := fun (j : Journal) (c : Option PullCursor) => some (c.getD ⟨j.oldest, 0⟩)
    let values := fun (line : Bool) (outcome : TableOutcome) (j : Journal) (d : Dictionary) =>
      { State.reset with
        device := ⟨if line then .held else .starting, .readHeader, if line then .resetLine else .restart, outcome⟩
        ports := (if line then s.ports else (working p [] s).ports).map (fun q => ⟨.idle, .clear, q.dataOut⟩)
        journal := { j with
          cursor := j.head + 1
          pull := ⟨row j (j.pull.get 0), row j (j.pull.get 1), none, none⟩ }
        dict := { d with tiers := ⟨⟨true, false, false⟩, ⟨true, false, false⟩, ⟨true, false, false⟩, ⟨true, false, false⟩⟩ }
        pending := s.pending }
    let restarted := values false s.device.outcome s.journal s.dict
    let leaves := fun (j : Journal) (d : Dictionary) => exec c s = .next (values line s.device.outcome j d)
    ((line = true ∧ 1000 ≤ ns ∧ c = .resetLine ns sets ∧
          (sets = true → ∀ tx, s.memory.inProgress = some tx → tx.work ≠ .headerRead)) ∨
        (line = false ∧ Taken p .restart s ∧ c = .restart p tag [] false) →
      ((∀ tx, s.memory.inProgress = some tx → tx.work ≠ .journalAppend ∧ tx.work ≠ .maint ∧
          (tx.work = .engine → ∀ ew x us, s.memory.engineWork = some ew → ew.left ≠ .write x :: us)) →
        leaves s.journal s.dict) ∧
      (∀ r b ew us x, s.memory.inProgress = some ⟨r, b, .engine⟩ → s.memory.engineWork = some ew →
        ew.left = .write x :: us → leaves (s.journal.write x) s.dict) ∧
      (∀ w rest b, s.memory.inProgress = some ⟨.intake, b, .journalAppend⟩ → s.memory.intakeWork = w :: rest →
        let r : JournalRecord := ⟨s.journal.head + 1, if w.chord = 1024#23 then .strike none else .stroke false, w.chord,
          s.session.clock, w.port⟩
        (s.journal.held < 65536 →
          leaves { s.journal with head := s.journal.head + 1, records := s.journal.records ++ [r] } s.dict) ∧
        (s.journal.held = 65536 →
          leaves { s.journal with
            head := s.journal.head + 1
            oldest := s.journal.oldest + 1
            records := s.journal.records.drop 1 ++ [r]
            pull := s.journal.pull.map (Option.map (fun c =>
              if c.cursor = s.journal.oldest then ⟨s.journal.oldest + 1, min (c.gap + 1) 4294967295⟩ else c)) } s.dict)) ∧
      (∀ r b mw u us, s.memory.inProgress = some ⟨r, b, .maint⟩ → s.memory.maintWork = some mw → mw.left = u :: us →
        leaves s.journal { s.dict with
          header := (match u with
            | .header h => h
            | _ => s.dict.header)
          slots := (match u with
            | .write n v => writeSlot s.dict.slots n.toNat v
            | .empty n => writeSlot s.dict.slots (n % 262144) .empty
            | _ => s.dict.slots) })) ∧
    (∀ r b, 1000 ≤ ns → s.memory.inProgress = some ⟨r, b, .headerRead⟩ → exec (.resetLine ns true) s =
      .next (values true (if s.dict.header = .consistent then .kept else .emptied) s.journal s.dict)) ∧
    exec (.restart q tag body true) restarted =
      .next { restarted with ports := restarted.ports.set q ⟨.idle, .clear, List.replicate (4 + body.length) 0#8⟩ } ∧
    (Taken p .restart s → body ≠ [] → body.length ≤ 256 →
      exec (.restart p tag body false) s = .next (answered p .restart tag body (refusedReply .malformed 0) s)) ∧
    (ns < 1000 → exec (.resetLine ns sets) s = .next s)

/-- POWER_ON gives every block its power-on values; RESET_RELEASE starts start-up; the header read decides KEPT or EMPTIED;
STARTUP_COMPLETE, after the sweep of an EMPTIED table, makes the part READY (R19, R39, R73, R81, R146, R171, R187 to R191).
Not the rules' but the model's choices are these clauses: that at STARTUP_COMPLETE every port keeps what it was answered while
STARTING, where R188 and R191 read by the letter would make it IDLE (log entry 35); that the data-out bytes are empty at
POWER_ON (log entry 13); that the queue of commands stays, that slots read EMPTY before the sweep, and the HELD device state
(log entries 28, 5 and 6); that the header read or the sweep is made in its row with nobody else asking (log entry 9); that its
grants to MAINT move the arbiter's order, so that READY does not find the one that R187 and R191 give (log entry 44); and that
STARTUP_COMPLETE changes nothing while writes are left and one is in progress (log entry 2). A sweep made transaction by
transaction leaves READY to STARTUP_COMPLETE, with the slots and the header as it left them. -/
def Obligations.PowerOnAndStartUp : Prop :=
  ∀ (r : MemRequester) (b : Block) (s : State),
    let device := fun (h : Header) => (⟨.starting, if h = .consistent then .done else .sweep, s.device.cause,
      if h = .consistent then .kept else .emptied⟩ : Device)
    let port : Port := ⟨.idle, .clear, []⟩
    let other : AccessRow := ⟨0b0100000#7, false, false⟩
    let tier : Tier := ⟨true, false, false⟩
    exec .powerOn s = .next
      { device := ⟨.starting, .sweep, .powerOn, .emptied⟩
        ports := ⟨port, port, port, port⟩
        access := ⟨⟨0b1111111#7, true, false⟩, ⟨0b0111110#7, false, false⟩, other, other⟩
        journal := ⟨0, 1, 1, [], ⟨some ⟨1, 0⟩, some ⟨1, 0⟩, none, none⟩⟩
        dict := ⟨.writing, [], ⟨tier, tier, tier, tier⟩⟩
        maint := { queue := [], lockHeld := false, lockTurn := false }
        engine := { run := [], units := [], format := ⟨true, false, .nextCap, false, false⟩, lastTaken := none,
                    nextUnit := 1#32, changePending := false, request := none, activity := .idle }
        roster := List.replicate 16 []
        log := { newest := 0#32, oldest := 1#32, wrapped := false, segments := [] }
        feeds := ⟨none, none, none, none⟩
        session := { opened := false, request := .none, job := 0#16, clock := 0#32, clkin := 0, hold := 1000,
                     offsets := ⟨0#32, 0#32, 0#32, 0#32⟩ }
        memory := { mode := .rotating, order := [.xlate, .log, .maint, .pull], counts := ⟨0, 0, 0, 0⟩,
                    inProgress := none, intakeWork := [], logWork := [], pullWork := [], engineWork := none,
                    maintWork := none }
        reports := ⟨none, none, none, none⟩
        pending := s.pending } ∧
    (s.device.state = .held → exec .resetRelease s = .next
      { s with device := { s.device with state := .starting, startup := .readHeader } }) ∧
    (s.device.state = .starting → s.device.startup = .readHeader →
      (s.memory.inProgress = some ⟨r, b, .headerRead⟩ → exec .startupHeaderRead s = .next
        { s with
          device := device s.dict.header
          memory := { s.memory with inProgress := none } }) ∧
      (MemoryQuiet s → ArbiterSound s → exec .startupHeaderRead s = .next
        { s with
          device := device s.dict.header
          memory := afterGrants .maint s.memory })) ∧
    (s.device.state = .starting → s.device.startup = .sweep → MemoryQuiet s →
      exec .startupComplete s = .next
        { s with
          device := { s.device with state := .ready, startup := .done }
          dict := { s.dict with slots := [], header := .consistent }
          memory := afterGrants .maint s.memory }) ∧
    (∀ w, s.device.state = .starting → s.device.startup = .sweep → s.memory.maintWork = some w →
      (w.left = [] → exec .startupComplete s = .next
        { s with
          device := { s.device with state := .ready, startup := .done }
          memory := { s.memory with maintWork := none } }) ∧
      (w.left ≠ [] → s.memory.inProgress ≠ none → exec .startupComplete s = .next s)) ∧
    (s.device.state = .starting → s.device.startup = .done → exec .startupComplete s = .next
      { s with device := { s.device with state := .ready } })
end

