-- ==== Sys2Proof/Laws/State.lean ====
section
/-! SUPPORT. What each named update of the state leaves alone, one lemma for each field, and what it writes. -/

namespace Sys2Proof.Machine

variable (s : State)

/-! ### setExchange -/

@[simp] theorem setExchange_device (p : PortId) (x : Exchange) (out : List Byte) : (setExchange p x out s).device = s.device := rfl
@[simp] theorem setExchange_access (p : PortId) (x : Exchange) (out : List Byte) : (setExchange p x out s).access = s.access := rfl
@[simp] theorem setExchange_journal (p : PortId) (x : Exchange) (out : List Byte) : (setExchange p x out s).journal = s.journal := rfl
@[simp] theorem setExchange_dict (p : PortId) (x : Exchange) (out : List Byte) : (setExchange p x out s).dict = s.dict := rfl
@[simp] theorem setExchange_maint (p : PortId) (x : Exchange) (out : List Byte) : (setExchange p x out s).maint = s.maint := rfl
@[simp] theorem setExchange_engine (p : PortId) (x : Exchange) (out : List Byte) : (setExchange p x out s).engine = s.engine := rfl
@[simp] theorem setExchange_roster (p : PortId) (x : Exchange) (out : List Byte) : (setExchange p x out s).roster = s.roster := rfl
@[simp] theorem setExchange_log (p : PortId) (x : Exchange) (out : List Byte) : (setExchange p x out s).log = s.log := rfl
@[simp] theorem setExchange_feeds (p : PortId) (x : Exchange) (out : List Byte) : (setExchange p x out s).feeds = s.feeds := rfl
@[simp] theorem setExchange_session (p : PortId) (x : Exchange) (out : List Byte) : (setExchange p x out s).session = s.session := rfl
@[simp] theorem setExchange_memory (p : PortId) (x : Exchange) (out : List Byte) : (setExchange p x out s).memory = s.memory := rfl
@[simp] theorem setExchange_reports (p : PortId) (x : Exchange) (out : List Byte) : (setExchange p x out s).reports = s.reports := rfl
@[simp] theorem setExchange_pending (p : PortId) (x : Exchange) (out : List Byte) : (setExchange p x out s).pending = s.pending := rfl

/-! ### respond -/

@[simp] theorem respond_device (p : PortId) (k t : Byte) (r : Reply) : (respond p k t r s).device = s.device := rfl
@[simp] theorem respond_access (p : PortId) (k t : Byte) (r : Reply) : (respond p k t r s).access = s.access := rfl
@[simp] theorem respond_journal (p : PortId) (k t : Byte) (r : Reply) : (respond p k t r s).journal = s.journal := rfl
@[simp] theorem respond_dict (p : PortId) (k t : Byte) (r : Reply) : (respond p k t r s).dict = s.dict := rfl
@[simp] theorem respond_maint (p : PortId) (k t : Byte) (r : Reply) : (respond p k t r s).maint = s.maint := rfl
@[simp] theorem respond_engine (p : PortId) (k t : Byte) (r : Reply) : (respond p k t r s).engine = s.engine := rfl
@[simp] theorem respond_roster (p : PortId) (k t : Byte) (r : Reply) : (respond p k t r s).roster = s.roster := rfl
@[simp] theorem respond_log (p : PortId) (k t : Byte) (r : Reply) : (respond p k t r s).log = s.log := rfl
@[simp] theorem respond_feeds (p : PortId) (k t : Byte) (r : Reply) : (respond p k t r s).feeds = s.feeds := rfl
@[simp] theorem respond_session (p : PortId) (k t : Byte) (r : Reply) : (respond p k t r s).session = s.session := rfl
@[simp] theorem respond_memory (p : PortId) (k t : Byte) (r : Reply) : (respond p k t r s).memory = s.memory := rfl
@[simp] theorem respond_reports (p : PortId) (k t : Byte) (r : Reply) : (respond p k t r s).reports = s.reports := rfl
@[simp] theorem respond_pending (p : PortId) (k t : Byte) (r : Reply) : (respond p k t r s).pending = s.pending := rfl

/-! ### answer -/

@[simp] theorem answer_device (p : PortId) (k : Kind) (t : Byte) (r : Reply) : (answer p k t r s).device = s.device := rfl
@[simp] theorem answer_access (p : PortId) (k : Kind) (t : Byte) (r : Reply) : (answer p k t r s).access = s.access := rfl
@[simp] theorem answer_journal (p : PortId) (k : Kind) (t : Byte) (r : Reply) : (answer p k t r s).journal = s.journal := rfl
@[simp] theorem answer_dict (p : PortId) (k : Kind) (t : Byte) (r : Reply) : (answer p k t r s).dict = s.dict := rfl
@[simp] theorem answer_maint (p : PortId) (k : Kind) (t : Byte) (r : Reply) : (answer p k t r s).maint = s.maint := rfl
@[simp] theorem answer_engine (p : PortId) (k : Kind) (t : Byte) (r : Reply) : (answer p k t r s).engine = s.engine := rfl
@[simp] theorem answer_roster (p : PortId) (k : Kind) (t : Byte) (r : Reply) : (answer p k t r s).roster = s.roster := rfl
@[simp] theorem answer_log (p : PortId) (k : Kind) (t : Byte) (r : Reply) : (answer p k t r s).log = s.log := rfl
@[simp] theorem answer_feeds (p : PortId) (k : Kind) (t : Byte) (r : Reply) : (answer p k t r s).feeds = s.feeds := rfl
@[simp] theorem answer_session (p : PortId) (k : Kind) (t : Byte) (r : Reply) : (answer p k t r s).session = s.session := rfl
@[simp] theorem answer_memory (p : PortId) (k : Kind) (t : Byte) (r : Reply) : (answer p k t r s).memory = s.memory := rfl
@[simp] theorem answer_reports (p : PortId) (k : Kind) (t : Byte) (r : Reply) : (answer p k t r s).reports = s.reports := rfl
@[simp] theorem answer_pending (p : PortId) (k : Kind) (t : Byte) (r : Reply) : (answer p k t r s).pending = s.pending := rfl

/-! ### refuse -/

@[simp] theorem refuse_device (p : PortId) (k : Kind) (t : Byte) (c : Cause) (d : Nat) : (refuse p k t c d s).device = s.device := rfl
@[simp] theorem refuse_access (p : PortId) (k : Kind) (t : Byte) (c : Cause) (d : Nat) : (refuse p k t c d s).access = s.access := rfl
@[simp] theorem refuse_journal (p : PortId) (k : Kind) (t : Byte) (c : Cause) (d : Nat) : (refuse p k t c d s).journal = s.journal := rfl
@[simp] theorem refuse_dict (p : PortId) (k : Kind) (t : Byte) (c : Cause) (d : Nat) : (refuse p k t c d s).dict = s.dict := rfl
@[simp] theorem refuse_maint (p : PortId) (k : Kind) (t : Byte) (c : Cause) (d : Nat) : (refuse p k t c d s).maint = s.maint := rfl
@[simp] theorem refuse_engine (p : PortId) (k : Kind) (t : Byte) (c : Cause) (d : Nat) : (refuse p k t c d s).engine = s.engine := rfl
@[simp] theorem refuse_roster (p : PortId) (k : Kind) (t : Byte) (c : Cause) (d : Nat) : (refuse p k t c d s).roster = s.roster := rfl
@[simp] theorem refuse_log (p : PortId) (k : Kind) (t : Byte) (c : Cause) (d : Nat) : (refuse p k t c d s).log = s.log := rfl
@[simp] theorem refuse_feeds (p : PortId) (k : Kind) (t : Byte) (c : Cause) (d : Nat) : (refuse p k t c d s).feeds = s.feeds := rfl
@[simp] theorem refuse_session (p : PortId) (k : Kind) (t : Byte) (c : Cause) (d : Nat) : (refuse p k t c d s).session = s.session := rfl
@[simp] theorem refuse_memory (p : PortId) (k : Kind) (t : Byte) (c : Cause) (d : Nat) : (refuse p k t c d s).memory = s.memory := rfl
@[simp] theorem refuse_reports (p : PortId) (k : Kind) (t : Byte) (c : Cause) (d : Nat) : (refuse p k t c d s).reports = s.reports := rfl
@[simp] theorem refuse_pending (p : PortId) (k : Kind) (t : Byte) (c : Cause) (d : Nat) : (refuse p k t c d s).pending = s.pending := rfl

/-! ### setWorking -/

@[simp] theorem setWorking_device (p : PortId) : (setWorking p s).device = s.device := rfl
@[simp] theorem setWorking_access (p : PortId) : (setWorking p s).access = s.access := rfl
@[simp] theorem setWorking_journal (p : PortId) : (setWorking p s).journal = s.journal := rfl
@[simp] theorem setWorking_dict (p : PortId) : (setWorking p s).dict = s.dict := rfl
@[simp] theorem setWorking_maint (p : PortId) : (setWorking p s).maint = s.maint := rfl
@[simp] theorem setWorking_engine (p : PortId) : (setWorking p s).engine = s.engine := rfl
@[simp] theorem setWorking_roster (p : PortId) : (setWorking p s).roster = s.roster := rfl
@[simp] theorem setWorking_log (p : PortId) : (setWorking p s).log = s.log := rfl
@[simp] theorem setWorking_feeds (p : PortId) : (setWorking p s).feeds = s.feeds := rfl
@[simp] theorem setWorking_session (p : PortId) : (setWorking p s).session = s.session := rfl
@[simp] theorem setWorking_memory (p : PortId) : (setWorking p s).memory = s.memory := rfl
@[simp] theorem setWorking_reports (p : PortId) : (setWorking p s).reports = s.reports := rfl
@[simp] theorem setWorking_pending (p : PortId) : (setWorking p s).pending = s.pending := rfl

/-! ### beginExchange -/

@[simp] theorem beginExchange_device (p : PortId) (n : Nat) : (beginExchange p n s).device = s.device := rfl
@[simp] theorem beginExchange_access (p : PortId) (n : Nat) : (beginExchange p n s).access = s.access := rfl
@[simp] theorem beginExchange_journal (p : PortId) (n : Nat) : (beginExchange p n s).journal = s.journal := rfl
@[simp] theorem beginExchange_dict (p : PortId) (n : Nat) : (beginExchange p n s).dict = s.dict := rfl
@[simp] theorem beginExchange_maint (p : PortId) (n : Nat) : (beginExchange p n s).maint = s.maint := rfl
@[simp] theorem beginExchange_engine (p : PortId) (n : Nat) : (beginExchange p n s).engine = s.engine := rfl
@[simp] theorem beginExchange_roster (p : PortId) (n : Nat) : (beginExchange p n s).roster = s.roster := rfl
@[simp] theorem beginExchange_log (p : PortId) (n : Nat) : (beginExchange p n s).log = s.log := rfl
@[simp] theorem beginExchange_feeds (p : PortId) (n : Nat) : (beginExchange p n s).feeds = s.feeds := rfl
@[simp] theorem beginExchange_session (p : PortId) (n : Nat) : (beginExchange p n s).session = s.session := rfl
@[simp] theorem beginExchange_memory (p : PortId) (n : Nat) : (beginExchange p n s).memory = s.memory := rfl
@[simp] theorem beginExchange_reports (p : PortId) (n : Nat) : (beginExchange p n s).reports = s.reports := rfl
@[simp] theorem beginExchange_pending (p : PortId) (n : Nat) : (beginExchange p n s).pending = s.pending := rfl

/-! ### setSlot -/

@[simp] theorem setSlot_device (p : PortId) (t : TimedSlot) : (setSlot p t s).device = s.device := rfl
@[simp] theorem setSlot_access (p : PortId) (t : TimedSlot) : (setSlot p t s).access = s.access := rfl
@[simp] theorem setSlot_journal (p : PortId) (t : TimedSlot) : (setSlot p t s).journal = s.journal := rfl
@[simp] theorem setSlot_dict (p : PortId) (t : TimedSlot) : (setSlot p t s).dict = s.dict := rfl
@[simp] theorem setSlot_maint (p : PortId) (t : TimedSlot) : (setSlot p t s).maint = s.maint := rfl
@[simp] theorem setSlot_engine (p : PortId) (t : TimedSlot) : (setSlot p t s).engine = s.engine := rfl
@[simp] theorem setSlot_roster (p : PortId) (t : TimedSlot) : (setSlot p t s).roster = s.roster := rfl
@[simp] theorem setSlot_log (p : PortId) (t : TimedSlot) : (setSlot p t s).log = s.log := rfl
@[simp] theorem setSlot_feeds (p : PortId) (t : TimedSlot) : (setSlot p t s).feeds = s.feeds := rfl
@[simp] theorem setSlot_session (p : PortId) (t : TimedSlot) : (setSlot p t s).session = s.session := rfl
@[simp] theorem setSlot_memory (p : PortId) (t : TimedSlot) : (setSlot p t s).memory = s.memory := rfl
@[simp] theorem setSlot_reports (p : PortId) (t : TimedSlot) : (setSlot p t s).reports = s.reports := rfl
@[simp] theorem setSlot_pending (p : PortId) (t : TimedSlot) : (setSlot p t s).pending = s.pending := rfl

/-! ### complete -/

@[simp] theorem complete_device (p : PortId) (r : Reply) : (complete p r s).device = s.device := rfl
@[simp] theorem complete_access (p : PortId) (r : Reply) : (complete p r s).access = s.access := rfl
@[simp] theorem complete_journal (p : PortId) (r : Reply) : (complete p r s).journal = s.journal := rfl
@[simp] theorem complete_dict (p : PortId) (r : Reply) : (complete p r s).dict = s.dict := rfl
@[simp] theorem complete_maint (p : PortId) (r : Reply) : (complete p r s).maint = s.maint := rfl
@[simp] theorem complete_engine (p : PortId) (r : Reply) : (complete p r s).engine = s.engine := rfl
@[simp] theorem complete_roster (p : PortId) (r : Reply) : (complete p r s).roster = s.roster := rfl
@[simp] theorem complete_log (p : PortId) (r : Reply) : (complete p r s).log = s.log := rfl
@[simp] theorem complete_feeds (p : PortId) (r : Reply) : (complete p r s).feeds = s.feeds := rfl
@[simp] theorem complete_session (p : PortId) (r : Reply) : (complete p r s).session = s.session := rfl
@[simp] theorem complete_memory (p : PortId) (r : Reply) : (complete p r s).memory = s.memory := rfl
@[simp] theorem complete_reports (p : PortId) (r : Reply) : (complete p r s).reports = s.reports := rfl
@[simp] theorem complete_pending (p : PortId) (r : Reply) : (complete p r s).pending = s.pending := rfl

/-! ### accept -/

@[simp] theorem accept_device (p : PortId) (k : Kind) (t : Byte) : (accept p k t s).device = s.device := rfl
@[simp] theorem accept_access (p : PortId) (k : Kind) (t : Byte) : (accept p k t s).access = s.access := rfl
@[simp] theorem accept_journal (p : PortId) (k : Kind) (t : Byte) : (accept p k t s).journal = s.journal := rfl
@[simp] theorem accept_dict (p : PortId) (k : Kind) (t : Byte) : (accept p k t s).dict = s.dict := rfl
@[simp] theorem accept_maint (p : PortId) (k : Kind) (t : Byte) : (accept p k t s).maint = s.maint := rfl
@[simp] theorem accept_engine (p : PortId) (k : Kind) (t : Byte) : (accept p k t s).engine = s.engine := rfl
@[simp] theorem accept_roster (p : PortId) (k : Kind) (t : Byte) : (accept p k t s).roster = s.roster := rfl
@[simp] theorem accept_log (p : PortId) (k : Kind) (t : Byte) : (accept p k t s).log = s.log := rfl
@[simp] theorem accept_feeds (p : PortId) (k : Kind) (t : Byte) : (accept p k t s).feeds = s.feeds := rfl
@[simp] theorem accept_session (p : PortId) (k : Kind) (t : Byte) : (accept p k t s).session = s.session := rfl
@[simp] theorem accept_memory (p : PortId) (k : Kind) (t : Byte) : (accept p k t s).memory = s.memory := rfl
@[simp] theorem accept_reports (p : PortId) (k : Kind) (t : Byte) : (accept p k t s).reports = s.reports := rfl
@[simp] theorem accept_pending (p : PortId) (k : Kind) (t : Byte) : (accept p k t s).pending = s.pending := rfl

/-! ### setFeed -/

@[simp] theorem setFeed_device (p : PortId) (f : Option Feed) : (setFeed p f s).device = s.device := rfl
@[simp] theorem setFeed_ports (p : PortId) (f : Option Feed) : (setFeed p f s).ports = s.ports := rfl
@[simp] theorem setFeed_access (p : PortId) (f : Option Feed) : (setFeed p f s).access = s.access := rfl
@[simp] theorem setFeed_journal (p : PortId) (f : Option Feed) : (setFeed p f s).journal = s.journal := rfl
@[simp] theorem setFeed_dict (p : PortId) (f : Option Feed) : (setFeed p f s).dict = s.dict := rfl
@[simp] theorem setFeed_maint (p : PortId) (f : Option Feed) : (setFeed p f s).maint = s.maint := rfl
@[simp] theorem setFeed_engine (p : PortId) (f : Option Feed) : (setFeed p f s).engine = s.engine := rfl
@[simp] theorem setFeed_roster (p : PortId) (f : Option Feed) : (setFeed p f s).roster = s.roster := rfl
@[simp] theorem setFeed_log (p : PortId) (f : Option Feed) : (setFeed p f s).log = s.log := rfl
@[simp] theorem setFeed_session (p : PortId) (f : Option Feed) : (setFeed p f s).session = s.session := rfl
@[simp] theorem setFeed_memory (p : PortId) (f : Option Feed) : (setFeed p f s).memory = s.memory := rfl
@[simp] theorem setFeed_reports (p : PortId) (f : Option Feed) : (setFeed p f s).reports = s.reports := rfl
@[simp] theorem setFeed_pending (p : PortId) (f : Option Feed) : (setFeed p f s).pending = s.pending := rfl

/-! ### handChange -/

@[simp] theorem handChange_device : (handChange s).device = s.device := rfl
@[simp] theorem handChange_ports : (handChange s).ports = s.ports := rfl
@[simp] theorem handChange_access : (handChange s).access = s.access := rfl
@[simp] theorem handChange_journal : (handChange s).journal = s.journal := rfl
@[simp] theorem handChange_dict : (handChange s).dict = s.dict := rfl
@[simp] theorem handChange_maint : (handChange s).maint = s.maint := rfl
@[simp] theorem handChange_roster : (handChange s).roster = s.roster := rfl
@[simp] theorem handChange_log : (handChange s).log = s.log := rfl
@[simp] theorem handChange_feeds : (handChange s).feeds = s.feeds := rfl
@[simp] theorem handChange_session : (handChange s).session = s.session := rfl
@[simp] theorem handChange_memory : (handChange s).memory = s.memory := rfl
@[simp] theorem handChange_reports : (handChange s).reports = s.reports := rfl
@[simp] theorem handChange_pending : (handChange s).pending = s.pending := rfl

/-! ### clearChange -/

@[simp] theorem clearChange_device : (clearChange s).device = s.device := rfl
@[simp] theorem clearChange_ports : (clearChange s).ports = s.ports := rfl
@[simp] theorem clearChange_access : (clearChange s).access = s.access := rfl
@[simp] theorem clearChange_journal : (clearChange s).journal = s.journal := rfl
@[simp] theorem clearChange_dict : (clearChange s).dict = s.dict := rfl
@[simp] theorem clearChange_maint : (clearChange s).maint = s.maint := rfl
@[simp] theorem clearChange_roster : (clearChange s).roster = s.roster := rfl
@[simp] theorem clearChange_log : (clearChange s).log = s.log := rfl
@[simp] theorem clearChange_feeds : (clearChange s).feeds = s.feeds := rfl
@[simp] theorem clearChange_session : (clearChange s).session = s.session := rfl
@[simp] theorem clearChange_memory : (clearChange s).memory = s.memory := rfl
@[simp] theorem clearChange_reports : (clearChange s).reports = s.reports := rfl
@[simp] theorem clearChange_pending : (clearChange s).pending = s.pending := rfl

/-! ### noteTaken -/

@[simp] theorem noteTaken_device (t : Stamp) : (noteTaken t s).device = s.device := rfl
@[simp] theorem noteTaken_ports (t : Stamp) : (noteTaken t s).ports = s.ports := rfl
@[simp] theorem noteTaken_access (t : Stamp) : (noteTaken t s).access = s.access := rfl
@[simp] theorem noteTaken_journal (t : Stamp) : (noteTaken t s).journal = s.journal := rfl
@[simp] theorem noteTaken_dict (t : Stamp) : (noteTaken t s).dict = s.dict := rfl
@[simp] theorem noteTaken_maint (t : Stamp) : (noteTaken t s).maint = s.maint := rfl
@[simp] theorem noteTaken_roster (t : Stamp) : (noteTaken t s).roster = s.roster := rfl
@[simp] theorem noteTaken_log (t : Stamp) : (noteTaken t s).log = s.log := rfl
@[simp] theorem noteTaken_feeds (t : Stamp) : (noteTaken t s).feeds = s.feeds := rfl
@[simp] theorem noteTaken_session (t : Stamp) : (noteTaken t s).session = s.session := rfl
@[simp] theorem noteTaken_memory (t : Stamp) : (noteTaken t s).memory = s.memory := rfl
@[simp] theorem noteTaken_reports (t : Stamp) : (noteTaken t s).reports = s.reports := rfl
@[simp] theorem noteTaken_pending (t : Stamp) : (noteTaken t s).pending = s.pending := rfl

/-! ### evictNaming -/

@[simp] theorem evictNaming_device (n : Nat) : (evictNaming n s).device = s.device := rfl
@[simp] theorem evictNaming_ports (n : Nat) : (evictNaming n s).ports = s.ports := rfl
@[simp] theorem evictNaming_access (n : Nat) : (evictNaming n s).access = s.access := rfl
@[simp] theorem evictNaming_journal (n : Nat) : (evictNaming n s).journal = s.journal := rfl
@[simp] theorem evictNaming_dict (n : Nat) : (evictNaming n s).dict = s.dict := rfl
@[simp] theorem evictNaming_maint (n : Nat) : (evictNaming n s).maint = s.maint := rfl
@[simp] theorem evictNaming_roster (n : Nat) : (evictNaming n s).roster = s.roster := rfl
@[simp] theorem evictNaming_log (n : Nat) : (evictNaming n s).log = s.log := rfl
@[simp] theorem evictNaming_feeds (n : Nat) : (evictNaming n s).feeds = s.feeds := rfl
@[simp] theorem evictNaming_session (n : Nat) : (evictNaming n s).session = s.session := rfl
@[simp] theorem evictNaming_memory (n : Nat) : (evictNaming n s).memory = s.memory := rfl
@[simp] theorem evictNaming_reports (n : Nat) : (evictNaming n s).reports = s.reports := rfl
@[simp] theorem evictNaming_pending (n : Nat) : (evictNaming n s).pending = s.pending := rfl

/-! ### handRetranslation -/

@[simp] theorem handRetranslation_device (r : Requester) : (handRetranslation r s).device = s.device := rfl
@[simp] theorem handRetranslation_ports (r : Requester) : (handRetranslation r s).ports = s.ports := rfl
@[simp] theorem handRetranslation_access (r : Requester) : (handRetranslation r s).access = s.access := rfl
@[simp] theorem handRetranslation_journal (r : Requester) : (handRetranslation r s).journal = s.journal := rfl
@[simp] theorem handRetranslation_dict (r : Requester) : (handRetranslation r s).dict = s.dict := rfl
@[simp] theorem handRetranslation_maint (r : Requester) : (handRetranslation r s).maint = s.maint := rfl
@[simp] theorem handRetranslation_roster (r : Requester) : (handRetranslation r s).roster = s.roster := rfl
@[simp] theorem handRetranslation_log (r : Requester) : (handRetranslation r s).log = s.log := rfl
@[simp] theorem handRetranslation_feeds (r : Requester) : (handRetranslation r s).feeds = s.feeds := rfl
@[simp] theorem handRetranslation_session (r : Requester) : (handRetranslation r s).session = s.session := rfl
@[simp] theorem handRetranslation_memory (r : Requester) : (handRetranslation r s).memory = s.memory := rfl
@[simp] theorem handRetranslation_reports (r : Requester) : (handRetranslation r s).reports = s.reports := rfl
@[simp] theorem handRetranslation_pending (r : Requester) : (handRetranslation r s).pending = s.pending := rfl

/-! ### setHeader -/

@[simp] theorem setHeader_device (h : Header) : (setHeader h s).device = s.device := rfl
@[simp] theorem setHeader_ports (h : Header) : (setHeader h s).ports = s.ports := rfl
@[simp] theorem setHeader_access (h : Header) : (setHeader h s).access = s.access := rfl
@[simp] theorem setHeader_journal (h : Header) : (setHeader h s).journal = s.journal := rfl
@[simp] theorem setHeader_maint (h : Header) : (setHeader h s).maint = s.maint := rfl
@[simp] theorem setHeader_engine (h : Header) : (setHeader h s).engine = s.engine := rfl
@[simp] theorem setHeader_roster (h : Header) : (setHeader h s).roster = s.roster := rfl
@[simp] theorem setHeader_log (h : Header) : (setHeader h s).log = s.log := rfl
@[simp] theorem setHeader_feeds (h : Header) : (setHeader h s).feeds = s.feeds := rfl
@[simp] theorem setHeader_session (h : Header) : (setHeader h s).session = s.session := rfl
@[simp] theorem setHeader_memory (h : Header) : (setHeader h s).memory = s.memory := rfl
@[simp] theorem setHeader_reports (h : Header) : (setHeader h s).reports = s.reports := rfl
@[simp] theorem setHeader_pending (h : Header) : (setHeader h s).pending = s.pending := rfl

/-! ### setClearing -/

@[simp] theorem setClearing_device (l : TierId) (c : Bool) : (setClearing l c s).device = s.device := rfl
@[simp] theorem setClearing_ports (l : TierId) (c : Bool) : (setClearing l c s).ports = s.ports := rfl
@[simp] theorem setClearing_access (l : TierId) (c : Bool) : (setClearing l c s).access = s.access := rfl
@[simp] theorem setClearing_journal (l : TierId) (c : Bool) : (setClearing l c s).journal = s.journal := rfl
@[simp] theorem setClearing_maint (l : TierId) (c : Bool) : (setClearing l c s).maint = s.maint := rfl
@[simp] theorem setClearing_engine (l : TierId) (c : Bool) : (setClearing l c s).engine = s.engine := rfl
@[simp] theorem setClearing_roster (l : TierId) (c : Bool) : (setClearing l c s).roster = s.roster := rfl
@[simp] theorem setClearing_log (l : TierId) (c : Bool) : (setClearing l c s).log = s.log := rfl
@[simp] theorem setClearing_feeds (l : TierId) (c : Bool) : (setClearing l c s).feeds = s.feeds := rfl
@[simp] theorem setClearing_session (l : TierId) (c : Bool) : (setClearing l c s).session = s.session := rfl
@[simp] theorem setClearing_memory (l : TierId) (c : Bool) : (setClearing l c s).memory = s.memory := rfl
@[simp] theorem setClearing_reports (l : TierId) (c : Bool) : (setClearing l c s).reports = s.reports := rfl
@[simp] theorem setClearing_pending (l : TierId) (c : Bool) : (setClearing l c s).pending = s.pending := rfl

/-! ### leaveQueue -/

@[simp] theorem leaveQueue_device : (leaveQueue s).device = s.device := rfl
@[simp] theorem leaveQueue_ports : (leaveQueue s).ports = s.ports := rfl
@[simp] theorem leaveQueue_access : (leaveQueue s).access = s.access := rfl
@[simp] theorem leaveQueue_journal : (leaveQueue s).journal = s.journal := rfl
@[simp] theorem leaveQueue_dict : (leaveQueue s).dict = s.dict := rfl
@[simp] theorem leaveQueue_engine : (leaveQueue s).engine = s.engine := rfl
@[simp] theorem leaveQueue_roster : (leaveQueue s).roster = s.roster := rfl
@[simp] theorem leaveQueue_log : (leaveQueue s).log = s.log := rfl
@[simp] theorem leaveQueue_feeds : (leaveQueue s).feeds = s.feeds := rfl
@[simp] theorem leaveQueue_session : (leaveQueue s).session = s.session := rfl
@[simp] theorem leaveQueue_memory : (leaveQueue s).memory = s.memory := rfl
@[simp] theorem leaveQueue_reports : (leaveQueue s).reports = s.reports := rfl
@[simp] theorem leaveQueue_pending : (leaveQueue s).pending = s.pending := rfl

/-! ### setHeadPhase -/

@[simp] theorem setHeadPhase_device (ph : Phase) : (setHeadPhase ph s).device = s.device := rfl
@[simp] theorem setHeadPhase_ports (ph : Phase) : (setHeadPhase ph s).ports = s.ports := rfl
@[simp] theorem setHeadPhase_access (ph : Phase) : (setHeadPhase ph s).access = s.access := rfl
@[simp] theorem setHeadPhase_journal (ph : Phase) : (setHeadPhase ph s).journal = s.journal := rfl
@[simp] theorem setHeadPhase_dict (ph : Phase) : (setHeadPhase ph s).dict = s.dict := rfl
@[simp] theorem setHeadPhase_engine (ph : Phase) : (setHeadPhase ph s).engine = s.engine := rfl
@[simp] theorem setHeadPhase_roster (ph : Phase) : (setHeadPhase ph s).roster = s.roster := rfl
@[simp] theorem setHeadPhase_log (ph : Phase) : (setHeadPhase ph s).log = s.log := rfl
@[simp] theorem setHeadPhase_feeds (ph : Phase) : (setHeadPhase ph s).feeds = s.feeds := rfl
@[simp] theorem setHeadPhase_session (ph : Phase) : (setHeadPhase ph s).session = s.session := rfl
@[simp] theorem setHeadPhase_memory (ph : Phase) : (setHeadPhase ph s).memory = s.memory := rfl
@[simp] theorem setHeadPhase_reports (ph : Phase) : (setHeadPhase ph s).reports = s.reports := rfl
@[simp] theorem setHeadPhase_pending (ph : Phase) : (setHeadPhase ph s).pending = s.pending := rfl

/-! ### enqueue -/

@[simp] theorem enqueue_device (p : PortId) (r : MaintRequest) : (enqueue p r s).device = s.device := rfl
@[simp] theorem enqueue_ports (p : PortId) (r : MaintRequest) : (enqueue p r s).ports = s.ports := rfl
@[simp] theorem enqueue_access (p : PortId) (r : MaintRequest) : (enqueue p r s).access = s.access := rfl
@[simp] theorem enqueue_journal (p : PortId) (r : MaintRequest) : (enqueue p r s).journal = s.journal := rfl
@[simp] theorem enqueue_dict (p : PortId) (r : MaintRequest) : (enqueue p r s).dict = s.dict := rfl
@[simp] theorem enqueue_engine (p : PortId) (r : MaintRequest) : (enqueue p r s).engine = s.engine := rfl
@[simp] theorem enqueue_roster (p : PortId) (r : MaintRequest) : (enqueue p r s).roster = s.roster := rfl
@[simp] theorem enqueue_log (p : PortId) (r : MaintRequest) : (enqueue p r s).log = s.log := rfl
@[simp] theorem enqueue_feeds (p : PortId) (r : MaintRequest) : (enqueue p r s).feeds = s.feeds := rfl
@[simp] theorem enqueue_session (p : PortId) (r : MaintRequest) : (enqueue p r s).session = s.session := rfl
@[simp] theorem enqueue_memory (p : PortId) (r : MaintRequest) : (enqueue p r s).memory = s.memory := rfl
@[simp] theorem enqueue_reports (p : PortId) (r : MaintRequest) : (enqueue p r s).reports = s.reports := rfl
@[simp] theorem enqueue_pending (p : PortId) (r : MaintRequest) : (enqueue p r s).pending = s.pending := rfl

/-! ### endTransaction -/

@[simp] theorem endTransaction_device : (endTransaction s).device = s.device := rfl
@[simp] theorem endTransaction_ports : (endTransaction s).ports = s.ports := rfl
@[simp] theorem endTransaction_access : (endTransaction s).access = s.access := rfl
@[simp] theorem endTransaction_journal : (endTransaction s).journal = s.journal := rfl
@[simp] theorem endTransaction_dict : (endTransaction s).dict = s.dict := rfl
@[simp] theorem endTransaction_maint : (endTransaction s).maint = s.maint := rfl
@[simp] theorem endTransaction_engine : (endTransaction s).engine = s.engine := rfl
@[simp] theorem endTransaction_roster : (endTransaction s).roster = s.roster := rfl
@[simp] theorem endTransaction_log : (endTransaction s).log = s.log := rfl
@[simp] theorem endTransaction_feeds : (endTransaction s).feeds = s.feeds := rfl
@[simp] theorem endTransaction_session : (endTransaction s).session = s.session := rfl
@[simp] theorem endTransaction_reports : (endTransaction s).reports = s.reports := rfl
@[simp] theorem endTransaction_pending : (endTransaction s).pending = s.pending := rfl

/-! ### grantTo -/

@[simp] theorem grantTo_device (r : MemRequester) (t : Transaction) : (grantTo r t s).device = s.device := rfl
@[simp] theorem grantTo_ports (r : MemRequester) (t : Transaction) : (grantTo r t s).ports = s.ports := rfl
@[simp] theorem grantTo_access (r : MemRequester) (t : Transaction) : (grantTo r t s).access = s.access := rfl
@[simp] theorem grantTo_journal (r : MemRequester) (t : Transaction) : (grantTo r t s).journal = s.journal := rfl
@[simp] theorem grantTo_dict (r : MemRequester) (t : Transaction) : (grantTo r t s).dict = s.dict := rfl
@[simp] theorem grantTo_maint (r : MemRequester) (t : Transaction) : (grantTo r t s).maint = s.maint := rfl
@[simp] theorem grantTo_engine (r : MemRequester) (t : Transaction) : (grantTo r t s).engine = s.engine := rfl
@[simp] theorem grantTo_roster (r : MemRequester) (t : Transaction) : (grantTo r t s).roster = s.roster := rfl
@[simp] theorem grantTo_log (r : MemRequester) (t : Transaction) : (grantTo r t s).log = s.log := rfl
@[simp] theorem grantTo_feeds (r : MemRequester) (t : Transaction) : (grantTo r t s).feeds = s.feeds := rfl
@[simp] theorem grantTo_session (r : MemRequester) (t : Transaction) : (grantTo r t s).session = s.session := rfl
@[simp] theorem grantTo_reports (r : MemRequester) (t : Transaction) : (grantTo r t s).reports = s.reports := rfl
@[simp] theorem grantTo_pending (r : MemRequester) (t : Transaction) : (grantTo r t s).pending = s.pending := rfl

/-! ### advanceCursor -/

@[simp] theorem advanceCursor_device : (advanceCursor s).device = s.device := rfl
@[simp] theorem advanceCursor_ports : (advanceCursor s).ports = s.ports := rfl
@[simp] theorem advanceCursor_access : (advanceCursor s).access = s.access := rfl
@[simp] theorem advanceCursor_dict : (advanceCursor s).dict = s.dict := rfl
@[simp] theorem advanceCursor_maint : (advanceCursor s).maint = s.maint := rfl
@[simp] theorem advanceCursor_engine : (advanceCursor s).engine = s.engine := rfl
@[simp] theorem advanceCursor_roster : (advanceCursor s).roster = s.roster := rfl
@[simp] theorem advanceCursor_log : (advanceCursor s).log = s.log := rfl
@[simp] theorem advanceCursor_feeds : (advanceCursor s).feeds = s.feeds := rfl
@[simp] theorem advanceCursor_session : (advanceCursor s).session = s.session := rfl
@[simp] theorem advanceCursor_memory : (advanceCursor s).memory = s.memory := rfl
@[simp] theorem advanceCursor_reports : (advanceCursor s).reports = s.reports := rfl
@[simp] theorem advanceCursor_pending : (advanceCursor s).pending = s.pending := rfl

/-! ### promoteSegment -/

@[simp] theorem promoteSegment_device (g : SegNo) : (promoteSegment g s).device = s.device := rfl
@[simp] theorem promoteSegment_ports (g : SegNo) : (promoteSegment g s).ports = s.ports := rfl
@[simp] theorem promoteSegment_access (g : SegNo) : (promoteSegment g s).access = s.access := rfl
@[simp] theorem promoteSegment_journal (g : SegNo) : (promoteSegment g s).journal = s.journal := rfl
@[simp] theorem promoteSegment_dict (g : SegNo) : (promoteSegment g s).dict = s.dict := rfl
@[simp] theorem promoteSegment_maint (g : SegNo) : (promoteSegment g s).maint = s.maint := rfl
@[simp] theorem promoteSegment_roster (g : SegNo) : (promoteSegment g s).roster = s.roster := rfl
@[simp] theorem promoteSegment_feeds (g : SegNo) : (promoteSegment g s).feeds = s.feeds := rfl
@[simp] theorem promoteSegment_session (g : SegNo) : (promoteSegment g s).session = s.session := rfl
@[simp] theorem promoteSegment_memory (g : SegNo) : (promoteSegment g s).memory = s.memory := rfl
@[simp] theorem promoteSegment_reports (g : SegNo) : (promoteSegment g s).reports = s.reports := rfl
@[simp] theorem promoteSegment_pending (g : SegNo) : (promoteSegment g s).pending = s.pending := rfl

/-! ### emptyRun -/

@[simp] theorem emptyRun_device : (emptyRun s).device = s.device := rfl
@[simp] theorem emptyRun_ports : (emptyRun s).ports = s.ports := rfl
@[simp] theorem emptyRun_access : (emptyRun s).access = s.access := rfl
@[simp] theorem emptyRun_journal : (emptyRun s).journal = s.journal := rfl
@[simp] theorem emptyRun_dict : (emptyRun s).dict = s.dict := rfl
@[simp] theorem emptyRun_maint : (emptyRun s).maint = s.maint := rfl
@[simp] theorem emptyRun_roster : (emptyRun s).roster = s.roster := rfl
@[simp] theorem emptyRun_log : (emptyRun s).log = s.log := rfl
@[simp] theorem emptyRun_feeds : (emptyRun s).feeds = s.feeds := rfl
@[simp] theorem emptyRun_session : (emptyRun s).session = s.session := rfl
@[simp] theorem emptyRun_memory : (emptyRun s).memory = s.memory := rfl
@[simp] theorem emptyRun_reports : (emptyRun s).reports = s.reports := rfl
@[simp] theorem emptyRun_pending : (emptyRun s).pending = s.pending := rfl

/-! ### keepUnits -/

@[simp] theorem keepUnits_device (b : Bool) (x y : List ListedUnit) (q : List NewUnit) (j : Nat) : (keepUnits b x y q j s).device = s.device := rfl
@[simp] theorem keepUnits_ports (b : Bool) (x y : List ListedUnit) (q : List NewUnit) (j : Nat) : (keepUnits b x y q j s).ports = s.ports := rfl
@[simp] theorem keepUnits_access (b : Bool) (x y : List ListedUnit) (q : List NewUnit) (j : Nat) : (keepUnits b x y q j s).access = s.access := rfl
@[simp] theorem keepUnits_journal (b : Bool) (x y : List ListedUnit) (q : List NewUnit) (j : Nat) : (keepUnits b x y q j s).journal = s.journal := rfl
@[simp] theorem keepUnits_dict (b : Bool) (x y : List ListedUnit) (q : List NewUnit) (j : Nat) : (keepUnits b x y q j s).dict = s.dict := rfl
@[simp] theorem keepUnits_maint (b : Bool) (x y : List ListedUnit) (q : List NewUnit) (j : Nat) : (keepUnits b x y q j s).maint = s.maint := rfl
@[simp] theorem keepUnits_roster (b : Bool) (x y : List ListedUnit) (q : List NewUnit) (j : Nat) : (keepUnits b x y q j s).roster = s.roster := rfl
@[simp] theorem keepUnits_log (b : Bool) (x y : List ListedUnit) (q : List NewUnit) (j : Nat) : (keepUnits b x y q j s).log = s.log := rfl
@[simp] theorem keepUnits_feeds (b : Bool) (x y : List ListedUnit) (q : List NewUnit) (j : Nat) : (keepUnits b x y q j s).feeds = s.feeds := rfl
@[simp] theorem keepUnits_session (b : Bool) (x y : List ListedUnit) (q : List NewUnit) (j : Nat) : (keepUnits b x y q j s).session = s.session := rfl
@[simp] theorem keepUnits_memory (b : Bool) (x y : List ListedUnit) (q : List NewUnit) (j : Nat) : (keepUnits b x y q j s).memory = s.memory := rfl
@[simp] theorem keepUnits_reports (b : Bool) (x y : List ListedUnit) (q : List NewUnit) (j : Nat) : (keepUnits b x y q j s).reports = s.reports := rfl
@[simp] theorem keepUnits_pending (b : Bool) (x y : List ListedUnit) (q : List NewUnit) (j : Nat) : (keepUnits b x y q j s).pending = s.pending := rfl

/-! ### setReport -/

@[simp] theorem setReport_device (p : PortId) (r : Option StatusReading) : (setReport p r s).device = s.device := rfl
@[simp] theorem setReport_ports (p : PortId) (r : Option StatusReading) : (setReport p r s).ports = s.ports := rfl
@[simp] theorem setReport_access (p : PortId) (r : Option StatusReading) : (setReport p r s).access = s.access := rfl
@[simp] theorem setReport_journal (p : PortId) (r : Option StatusReading) : (setReport p r s).journal = s.journal := rfl
@[simp] theorem setReport_dict (p : PortId) (r : Option StatusReading) : (setReport p r s).dict = s.dict := rfl
@[simp] theorem setReport_maint (p : PortId) (r : Option StatusReading) : (setReport p r s).maint = s.maint := rfl
@[simp] theorem setReport_engine (p : PortId) (r : Option StatusReading) : (setReport p r s).engine = s.engine := rfl
@[simp] theorem setReport_roster (p : PortId) (r : Option StatusReading) : (setReport p r s).roster = s.roster := rfl
@[simp] theorem setReport_log (p : PortId) (r : Option StatusReading) : (setReport p r s).log = s.log := rfl
@[simp] theorem setReport_feeds (p : PortId) (r : Option StatusReading) : (setReport p r s).feeds = s.feeds := rfl
@[simp] theorem setReport_session (p : PortId) (r : Option StatusReading) : (setReport p r s).session = s.session := rfl
@[simp] theorem setReport_memory (p : PortId) (r : Option StatusReading) : (setReport p r s).memory = s.memory := rfl
@[simp] theorem setReport_pending (p : PortId) (r : Option StatusReading) : (setReport p r s).pending = s.pending := rfl

/-! ### postChanges -/

@[simp] theorem postChanges_device (us : List ListedUnit) : (postChanges us s).device = s.device := rfl
@[simp] theorem postChanges_ports (us : List ListedUnit) : (postChanges us s).ports = s.ports := rfl
@[simp] theorem postChanges_access (us : List ListedUnit) : (postChanges us s).access = s.access := rfl
@[simp] theorem postChanges_journal (us : List ListedUnit) : (postChanges us s).journal = s.journal := rfl
@[simp] theorem postChanges_dict (us : List ListedUnit) : (postChanges us s).dict = s.dict := rfl
@[simp] theorem postChanges_maint (us : List ListedUnit) : (postChanges us s).maint = s.maint := rfl
@[simp] theorem postChanges_engine (us : List ListedUnit) : (postChanges us s).engine = s.engine := rfl
@[simp] theorem postChanges_roster (us : List ListedUnit) : (postChanges us s).roster = s.roster := rfl
@[simp] theorem postChanges_log (us : List ListedUnit) : (postChanges us s).log = s.log := rfl
@[simp] theorem postChanges_feeds (us : List ListedUnit) : (postChanges us s).feeds = s.feeds := rfl
@[simp] theorem postChanges_session (us : List ListedUnit) : (postChanges us s).session = s.session := rfl
@[simp] theorem postChanges_reports (us : List ListedUnit) : (postChanges us s).reports = s.reports := rfl
@[simp] theorem postChanges_pending (us : List ListedUnit) : (postChanges us s).pending = s.pending := rfl

/-! ### dropWork -/

@[simp] theorem dropWork_device : (dropWork s).device = s.device := rfl
@[simp] theorem dropWork_ports : (dropWork s).ports = s.ports := rfl
@[simp] theorem dropWork_access : (dropWork s).access = s.access := rfl
@[simp] theorem dropWork_journal : (dropWork s).journal = s.journal := rfl
@[simp] theorem dropWork_dict : (dropWork s).dict = s.dict := rfl
@[simp] theorem dropWork_maint : (dropWork s).maint = s.maint := rfl
@[simp] theorem dropWork_roster : (dropWork s).roster = s.roster := rfl
@[simp] theorem dropWork_log : (dropWork s).log = s.log := rfl
@[simp] theorem dropWork_feeds : (dropWork s).feeds = s.feeds := rfl
@[simp] theorem dropWork_session : (dropWork s).session = s.session := rfl
@[simp] theorem dropWork_reports : (dropWork s).reports = s.reports := rfl
@[simp] theorem dropWork_pending : (dropWork s).pending = s.pending := rfl

/-! ### stepServed -/

@[simp] theorem stepServed_device (w : MaintWork) : (stepServed w s).device = s.device := rfl
@[simp] theorem stepServed_ports (w : MaintWork) : (stepServed w s).ports = s.ports := rfl
@[simp] theorem stepServed_access (w : MaintWork) : (stepServed w s).access = s.access := rfl
@[simp] theorem stepServed_journal (w : MaintWork) : (stepServed w s).journal = s.journal := rfl
@[simp] theorem stepServed_maint (w : MaintWork) : (stepServed w s).maint = s.maint := rfl
@[simp] theorem stepServed_engine (w : MaintWork) : (stepServed w s).engine = s.engine := rfl
@[simp] theorem stepServed_roster (w : MaintWork) : (stepServed w s).roster = s.roster := rfl
@[simp] theorem stepServed_log (w : MaintWork) : (stepServed w s).log = s.log := rfl
@[simp] theorem stepServed_feeds (w : MaintWork) : (stepServed w s).feeds = s.feeds := rfl
@[simp] theorem stepServed_session (w : MaintWork) : (stepServed w s).session = s.session := rfl
@[simp] theorem stepServed_reports (w : MaintWork) : (stepServed w s).reports = s.reports := rfl
@[simp] theorem stepServed_pending (w : MaintWork) : (stepServed w s).pending = s.pending := rfl

/-! ### setWork -/

@[simp] theorem setWork_device (x : EngineWork × State) : (setWork x).device = x.2.device := rfl
@[simp] theorem setWork_ports (x : EngineWork × State) : (setWork x).ports = x.2.ports := rfl
@[simp] theorem setWork_access (x : EngineWork × State) : (setWork x).access = x.2.access := rfl
@[simp] theorem setWork_journal (x : EngineWork × State) : (setWork x).journal = x.2.journal := rfl
@[simp] theorem setWork_dict (x : EngineWork × State) : (setWork x).dict = x.2.dict := rfl
@[simp] theorem setWork_maint (x : EngineWork × State) : (setWork x).maint = x.2.maint := rfl
@[simp] theorem setWork_engine (x : EngineWork × State) : (setWork x).engine = x.2.engine := rfl
@[simp] theorem setWork_roster (x : EngineWork × State) : (setWork x).roster = x.2.roster := rfl
@[simp] theorem setWork_log (x : EngineWork × State) : (setWork x).log = x.2.log := rfl
@[simp] theorem setWork_feeds (x : EngineWork × State) : (setWork x).feeds = x.2.feeds := rfl
@[simp] theorem setWork_session (x : EngineWork × State) : (setWork x).session = x.2.session := rfl
@[simp] theorem setWork_reports (x : EngineWork × State) : (setWork x).reports = x.2.reports := rfl
@[simp] theorem setWork_pending (x : EngineWork × State) : (setWork x).pending = x.2.pending := rfl

/-! ### What the updates write -/

@[simp] theorem setExchange_ports (p : PortId) (x : Exchange) (out : List Byte) :
    (setExchange p x out s).ports = s.ports.modify p (fun q => { q with exchange := x, dataOut := out }) := rfl
@[simp] theorem respond_ports (p : PortId) (k t : Byte) (r : Reply) :
    (respond p k t r s).ports = s.ports.modify p (fun q => { q with exchange := .answering (responseFrame k t r) }) :=
  rfl
@[simp] theorem answer_ports (p : PortId) (k : Kind) (t : Byte) (r : Reply) :
    (answer p k t r s).ports =
      s.ports.modify p (fun q => { q with exchange := .answering (responseFrame (byteOf k.code) t r) }) := rfl
@[simp] theorem setWorking_ports (p : PortId) :
    (setWorking p s).ports = s.ports.modify p (fun q => { q with exchange := .working }) := rfl
@[simp] theorem setSlot_ports (p : PortId) (t : TimedSlot) :
    (setSlot p t s).ports = s.ports.modify p (fun q => { q with slot := t }) := rfl
@[simp] theorem complete_ports (p : PortId) (r : Reply) :
    (complete p r s).ports = s.ports.modify p (fun q => { q with slot := q.slot.complete r }) := rfl
@[simp] theorem setFeed_feeds (p : PortId) (f : Option Feed) : (setFeed p f s).feeds = s.feeds.set p f := rfl
@[simp] theorem handChange_engine : (handChange s).engine = { s.engine with changePending := true } := rfl
@[simp] theorem clearChange_engine : (clearChange s).engine = { s.engine with changePending := false } := rfl
@[simp] theorem noteTaken_engine (t : Stamp) : (noteTaken t s).engine = { s.engine with lastTaken := some t } := rfl
@[simp] theorem setHeader_dict (h : Header) : (setHeader h s).dict = { s.dict with header := h } := rfl
@[simp] theorem setClearing_dict (l : TierId) (c : Bool) :
    (setClearing l c s).dict = { s.dict with tiers := s.dict.tiers.modify l (fun t => { t with clearing := c }) } := rfl
@[simp] theorem leaveQueue_maint :
    (leaveQueue s).maint = { s.maint with queue := promoteHead (s.maint.queue.drop 1) } := rfl
@[simp] theorem enqueue_maint (p : PortId) (r : MaintRequest) :
    (enqueue p r s).maint =
      { s.maint with queue := s.maint.queue ++ [{ port := p, request := r, phase := joiningPhase s.maint.queue }] } := rfl
@[simp] theorem endTransaction_memory : (endTransaction s).memory = { s.memory with inProgress := none } := rfl
@[simp] theorem advanceCursor_journal :
    (advanceCursor s).journal = { s.journal with cursor := s.journal.cursor + 1 } := rfl
@[simp] theorem promoteSegment_log (g : SegNo) : (promoteSegment g s).log = s.log.promote g := rfl
@[simp] theorem promoteSegment_engine (g : SegNo) : (promoteSegment g s).engine = { s.engine with
    units := s.engine.units.map (fun u => if u.segment = g then { u with settled := true } else u) } := rfl
@[simp] theorem stepServed_dict (w : MaintWork) : (stepServed w s).dict = (stepWrites w s.dict).1 := rfl
@[simp] theorem setWork_memory (x : EngineWork × State) :
    (setWork x).memory = { x.2.memory with engineWork := some x.1 } := rfl
@[simp] theorem setReport_reports (p : PortId) (r : Option StatusReading) :
    (setReport p r s).reports = s.reports.set p r := rfl

end Sys2Proof.Machine
end

