-- ==== Sys2Proof/Laws/Frames.lean ====
section
/-! SUPPORT. What the engine's procedures can do: they write the engine, the feeds and the log, and keep the ring's
numbers consecutive; what the other shared operations leave alone. -/

namespace Sys2Proof.Machine

/-! ### The activity and the turn at the table lock -/

/-- Choosing again writes the activity alone. -/
theorem refreshActivity_shape (s : State) :
    ∃ a, refreshActivity s = { s with engine := { s.engine with activity := a } } := by
  simp only [refreshActivity]
  split
  · exact ⟨_, rfl⟩
  · exact ⟨_, rfl⟩
  · exact ⟨s.engine.activity, rfl⟩
  · exact ⟨s.engine.activity, rfl⟩

/-- The end of a work writes the activity and the turn at the lock. -/
theorem endWork_shape (s : State) :
    ∃ a b, endWork s = { s with
      engine := { s.engine with activity := a }, maint := { s.maint with lockTurn := b } } := by
  obtain ⟨a, h⟩ := refreshActivity_shape { s with maint := { s.maint with lockTurn := headInLockWait s.maint } }
  exact ⟨a, _, h⟩

/-- So does the end of a settle that the guard demanded. -/
theorem guardSettled_shape (s : State) :
    ∃ a b, guardSettled s = { s with
      engine := { s.engine with activity := a }, maint := { s.maint with lockTurn := b } } := by
  simp only [guardSettled]
  split
  · exact ⟨s.engine.activity, s.maint.lockTurn, rfl⟩
  · exact endWork_shape s

/-- A change of the log made writes the log's work, the activity and the turn at the lock (R62, R81, R129). -/
theorem changeEnds_shape (s : State) :
    ∃ a b, changeEnds s = { s with
      engine := { s.engine with activity := a }
      maint := { s.maint with lockTurn := b }
      memory := { s.memory with logWork := LogWork.made s.memory.logWork } } :=
  guardSettled_shape { s with memory := { s.memory with logWork := LogWork.made s.memory.logWork } }

@[simp] theorem changeEnds_device (s : State) : (changeEnds s).device = s.device := by
  obtain ⟨a, b, h⟩ := changeEnds_shape s; rw [h]
@[simp] theorem changeEnds_ports (s : State) : (changeEnds s).ports = s.ports := by
  obtain ⟨a, b, h⟩ := changeEnds_shape s; rw [h]
@[simp] theorem changeEnds_access (s : State) : (changeEnds s).access = s.access := by
  obtain ⟨a, b, h⟩ := changeEnds_shape s; rw [h]
@[simp] theorem changeEnds_journal (s : State) : (changeEnds s).journal = s.journal := by
  obtain ⟨a, b, h⟩ := changeEnds_shape s; rw [h]
@[simp] theorem changeEnds_dict (s : State) : (changeEnds s).dict = s.dict := by
  obtain ⟨a, b, h⟩ := changeEnds_shape s; rw [h]
@[simp] theorem changeEnds_roster (s : State) : (changeEnds s).roster = s.roster := by
  obtain ⟨a, b, h⟩ := changeEnds_shape s; rw [h]
@[simp] theorem changeEnds_log (s : State) : (changeEnds s).log = s.log := by
  obtain ⟨a, b, h⟩ := changeEnds_shape s; rw [h]
@[simp] theorem changeEnds_feeds (s : State) : (changeEnds s).feeds = s.feeds := by
  obtain ⟨a, b, h⟩ := changeEnds_shape s; rw [h]
@[simp] theorem changeEnds_session (s : State) : (changeEnds s).session = s.session := by
  obtain ⟨a, b, h⟩ := changeEnds_shape s; rw [h]
@[simp] theorem changeEnds_reports (s : State) : (changeEnds s).reports = s.reports := by
  obtain ⟨a, b, h⟩ := changeEnds_shape s; rw [h]
@[simp] theorem changeEnds_pending (s : State) : (changeEnds s).pending = s.pending := by
  obtain ⟨a, b, h⟩ := changeEnds_shape s; rw [h]

/-! ### What the engine's procedures write -/

/-- t is s but for the engine, the feeds and the log, and its ring is sound if that of s is. -/
def EngineOnly (s t : State) : Prop :=
  (∃ e f l, t = { s with engine := e, feeds := f, log := l }) ∧ (LogSound s → LogSound t)

theorem EngineOnly.refl (s : State) : EngineOnly s s := ⟨⟨s.engine, s.feeds, s.log, rfl⟩, id⟩

theorem EngineOnly.trans {s t u : State} (h : EngineOnly s t) (k : EngineOnly t u) : EngineOnly s u := by
  obtain ⟨⟨e, f, l, rfl⟩, h2⟩ := h
  obtain ⟨⟨e', f', l', rfl⟩, k2⟩ := k
  exact ⟨⟨e', f', l', rfl⟩, fun x => k2 (h2 x)⟩

/-- A change of the engine alone. -/
theorem EngineOnly.engine (s : State) (e : Engine) : EngineOnly s { s with engine := e } :=
  ⟨⟨e, s.feeds, s.log, rfl⟩, id⟩

theorem EngineOnly.device {s t : State} (h : EngineOnly s t) : t.device = s.device := by
  obtain ⟨⟨_, _, _, rfl⟩, -⟩ := h; rfl

theorem EngineOnly.ports {s t : State} (h : EngineOnly s t) : t.ports = s.ports := by
  obtain ⟨⟨_, _, _, rfl⟩, -⟩ := h; rfl

theorem EngineOnly.access {s t : State} (h : EngineOnly s t) : t.access = s.access := by
  obtain ⟨⟨_, _, _, rfl⟩, -⟩ := h; rfl

theorem EngineOnly.journal {s t : State} (h : EngineOnly s t) : t.journal = s.journal := by
  obtain ⟨⟨_, _, _, rfl⟩, -⟩ := h; rfl

theorem EngineOnly.dict {s t : State} (h : EngineOnly s t) : t.dict = s.dict := by
  obtain ⟨⟨_, _, _, rfl⟩, -⟩ := h; rfl

theorem EngineOnly.maint {s t : State} (h : EngineOnly s t) : t.maint = s.maint := by
  obtain ⟨⟨_, _, _, rfl⟩, -⟩ := h; rfl

theorem EngineOnly.roster {s t : State} (h : EngineOnly s t) : t.roster = s.roster := by
  obtain ⟨⟨_, _, _, rfl⟩, -⟩ := h; rfl

theorem EngineOnly.session {s t : State} (h : EngineOnly s t) : t.session = s.session := by
  obtain ⟨⟨_, _, _, rfl⟩, -⟩ := h; rfl

theorem EngineOnly.memory {s t : State} (h : EngineOnly s t) : t.memory = s.memory := by
  obtain ⟨⟨_, _, _, rfl⟩, -⟩ := h; rfl

theorem EngineOnly.pending {s t : State} (h : EngineOnly s t) : t.pending = s.pending := by
  obtain ⟨⟨_, _, _, rfl⟩, -⟩ := h; rfl

/-! ### Changes of state in the log keep its numbers -/

@[simp] theorem withState_number (st : TextState) (g : Segment) : (g.withState st).number = g.number := by
  obtain ⟨n, b⟩ := g
  cases b <;> rfl

/-- Rewriting the states of segments keeps the ring's numbers. -/
theorem map_states_number (p : Segment → Prop) [DecidablePred p] (st : TextState) (gs : List Segment) :
    (gs.map (fun g => if p g then g.withState st else g)).map Segment.number = gs.map Segment.number := by
  rw [List.map_map]
  apply List.map_congr_left
  intro g _
  simp only [Function.comp]
  split
  · exact withState_number st g
  · rfl

/-- A promotion keeps the pointers and the numbers. -/
theorem promote_ring (l : CaptionLog) (n : SegNo) :
    (l.promote n).newest = l.newest ∧ (l.promote n).oldest = l.oldest ∧
      (l.promote n).segments.map Segment.number = l.segments.map Segment.number :=
  ⟨rfl, rfl, map_states_number _ _ _⟩

/-- A ring with the same pointers and numbers is sound as well. -/
theorem LogSound.congr {s t : State} (h : LogSound s) (h1 : t.log.newest = s.log.newest)
    (h2 : t.log.oldest = s.log.oldest)
    (h3 : t.log.segments.map Segment.number = s.log.segments.map Segment.number) : LogSound t := by
  have hl : t.log.segments.length = s.log.segments.length := by simpa using congrArg List.length h3
  obtain ⟨a, b, c⟩ := h
  exact ⟨by rw [hl]; exact a, by rw [h1, h2, hl]; exact b, by rw [h3, h2, hl]; exact c⟩

/-- A promotion writes the engine and the log alone (R48, R84). -/
theorem promoteSegment_only (g : SegNo) (s : State) : EngineOnly s (promoteSegment g s) :=
  ⟨⟨_, s.feeds, _, rfl⟩, fun h => h.congr (promote_ring s.log g).1 (promote_ring s.log g).2.1 (promote_ring s.log g).2.2⟩

/-- Several promotions write the engine and the log alone. -/
theorem promotes_only {α : Type} (f : α → SegNo) (xs : List α) (s : State) :
    EngineOnly s (carryUses (xs.map (fun x => .promote (f x))) s) := by
  induction xs generalizing s with
  | nil => exact .refl s
  | cons x xs ih => exact (promoteSegment_only (f x) s).trans (ih _)

/-! ### Appends -/

/-- Room is made in the engine, the feeds and the log; the ring then has room. -/
theorem makeRoom_only (s : State) : EngineOnly s (makeRoom s) ∧
    (LogSound s → (makeRoom s).log.segments.length < Config.logRing) := by
  simp only [makeRoom]
  split
  · next h => exact ⟨.refl s, fun _ => h⟩
  · next h =>
    refine ⟨⟨⟨_, _, _, rfl⟩, ?_⟩, ?_⟩
    · rintro ⟨a, b, c⟩
      cases hs : s.log.segments with
      | nil => rw [hs] at h; exact absurd (by decide) h
      | cons g gs =>
        rw [hs] at a b c
        simp only [List.length_cons] at a b c
        refine ⟨?_, ?_, ?_⟩
        · simp only [List.drop_succ_cons, List.drop_zero]; omega
        · simp only [List.drop_succ_cons, List.drop_zero]
          rw [b, BitVec.add_assoc]
          congr 1
          apply BitVec.eq_of_toNat_eq
          simp [Nat.add_comm]
        · simp only [List.drop_succ_cons, List.drop_zero]
          have c2 := congrArg List.tail c
          simp only [List.map_cons, List.tail_cons] at c2
          rw [c2, List.range_succ_eq_map, List.map_cons, List.tail_cons, List.map_map]
          apply List.map_congr_left
          intro i _
          simp only [Function.comp]
          rw [BitVec.add_assoc]
          congr 1
          apply BitVec.eq_of_toNat_eq
          simp [Nat.add_comm]
    · rintro ⟨a, -, -⟩
      simp only [List.length_drop]
      show _ < 4096
      have : s.log.segments.length ≤ 4096 := a
      omega

/-- A segment pushed into a ring with room, whatever the states of those before it. -/
theorem push_sound {s t : State} (body : SegmentBody) (h : LogSound s) (hr : s.log.segments.length < Config.logRing)
    (gs : List Segment) (hg : gs.map Segment.number = s.log.segments.map Segment.number)
    (ht : t.log = CaptionLog.push { s.log with segments := gs } body) : LogSound t := by
  obtain ⟨a, b, c⟩ := h
  have hl : gs.length = s.log.segments.length := by simpa using congrArg List.length hg
  have hn : t.log.newest = s.log.newest + 1#32 := by rw [ht]; rfl
  have ho : t.log.oldest = s.log.oldest := by rw [ht]; rfl
  have hs : t.log.segments = gs ++ [⟨s.log.newest + 1#32, body⟩] := by rw [ht]; rfl
  have hc : t.log.segments.length = s.log.segments.length + 1 := by rw [hs]; simp [hl]
  refine ⟨by rw [hc]; exact hr, ?_, ?_⟩
  · rw [hn, ho, hc, b, BitVec.add_assoc]
    congr 1
    apply BitVec.eq_of_toNat_eq
    simp
  · rw [hc, ho, hs, List.map_append, hg, c, List.range_succ, List.map_append, b]
    rfl

/-- An append writes the engine, the feeds and the log alone (R81, R97). -/
theorem appendSegment_only (body : SegmentBody) (s : State) : EngineOnly s (appendSegment body s) := by
  obtain ⟨⟨⟨e, f, l, h⟩, h2⟩, hr⟩ := makeRoom_only s
  refine ⟨⟨e, f, _, by simp only [appendSegment]; rw [h]⟩, fun hl => ?_⟩
  exact push_sound body (h2 hl) (hr hl) _ rfl rfl

/-- The append of a WITHDRAW writes the engine, the feeds and the log alone (R85). -/
theorem appendWithdraw_only (k : SegNo) (s : State) : EngineOnly s (appendWithdraw k s) := by
  obtain ⟨⟨⟨e, f, l, h⟩, h2⟩, hr⟩ := makeRoom_only s
  refine ⟨⟨e, f, _, by simp only [appendWithdraw]; rw [h]⟩, fun hl => ?_⟩
  exact push_sound _ (h2 hl) (hr hl) _ (map_states_number (fun g => (makeRoom s).log.isTarget k g = true) _ _) rfl

/-- A unit joins in the engine, the feeds and the log alone (R50, R58). -/
theorem joinUnit_only (s : State) (q : NewUnit) : EngineOnly s (joinUnit s q) := by
  simp only [joinUnit]
  refine (EngineOnly.engine s { s.engine with units := evictForRoom s.engine.units }).trans ?_
  exact (appendSegment_only _ _).trans (EngineOnly.engine _ _)

/-- A settle by expiry writes the engine and the log alone (R54). -/
theorem settleRun_only (s : State) : EngineOnly s (settleRun s) :=
  (EngineOnly.engine s (emptyRun s).engine).trans (promotes_only ListedUnit.segment (provisionalListed s) (emptyRun s))

/-- The release of a record by the journal guard writes the engine, the log, the feeds, the lock's turn and the state
changes that the log is to write (R14, R62). -/
theorem guardRelease_shape (n : Nat) (s : State) :
    ∃ (t : State) (b : Bool) (us : List ListedUnit), EngineOnly s t ∧ guardRelease n s = { t with
      maint := { t.maint with lockTurn := b }
      memory := { t.memory with
        logWork := t.memory.logWork ++ us.map (fun u => .change (segmentBlock u.segment)) } } := by
  simp only [guardRelease]
  split
  · obtain ⟨a, b, h⟩ := guardSettled_shape (evictNaming n (postChanges (provisionalListed s) (settleRun s)))
    refine ⟨{ evictNaming n (settleRun s) with
      engine := { (evictNaming n (settleRun s)).engine with activity := a } }, b, provisionalListed s, ?_, h⟩
    exact (settleRun_only s).trans ((EngineOnly.engine _ _).trans (EngineOnly.engine _ _))
  · exact ⟨evictNaming n s, s.maint.lockTurn, [], EngineOnly.engine s _, by simp [evictNaming]⟩

/-! ### Completions -/

/-- Completions are handed in the ports alone (R120). -/
theorem giveCompletions_shape (values : List Byte) (rs : List Requester) (s : State) :
    ∃ q, giveCompletions values rs s = { s with ports := q } := by
  induction rs generalizing s with
  | nil => exact ⟨s.ports, rfl⟩
  | cons r rs ih =>
    obtain ⟨q, h⟩ := ih (complete r.port (doneReply (r.report ++ values)) s)
    exact ⟨q, h⟩

/-- The end of a retranslation writes the engine, the ports and the lock's turn (R120). -/
theorem finishRetranslation_shape (a b c : Nat) (s : State) :
    ∃ e q x, finishRetranslation a b c s =
      { s with engine := e, ports := q, maint := { s.maint with lockTurn := x } } := by
  simp only [finishRetranslation]
  obtain ⟨q, h⟩ := giveCompletions_shape (retransValues a b c) (heldRequesters s)
    { s with engine := { s.engine with request := none, activity := .idle } }
  rw [h]
  obtain ⟨y, x, h2⟩ := endWork_shape
    { s with engine := { s.engine with request := none, activity := .idle }, ports := q }
  exact ⟨_, q, x, h2⟩

/-! ### The arbiter -/

/-- A grant writes the memory controller alone, and there neither the mode nor the work that waits (R184). -/
theorem grant_shape (s : State) :
    ∃ o c i, grant s = { s with memory := { s.memory with order := o, counts := c, inProgress := i } } := by
  simp only [grant]
  split
  · exact ⟨_, _, _, rfl⟩
  · split
    · exact ⟨_, _, _, rfl⟩
    · split
      · exact ⟨_, _, _, rfl⟩
      · exact ⟨_, _, _, rfl⟩

/-- A transaction of the work asked for is in progress after at most one grant. -/
theorem granted_shape {w : TxWork} {s t : State} (h : granted w s = some t) : t = grant s := by
  simp only [granted] at h
  split at h
  · split at h
    · exact (Option.some.inj h).symm
    · cases h
  · cases h

end Sys2Proof.Machine
end

