-- ==== Sys2Proof/Laws/Wire.lean ====
section
/-! SUPPORT. The byte order and the frame check undo what a master writes. -/

namespace Sys2Proof.Machine

@[simp] theorem leBytes_length (n v : Nat) : (leBytes n v).length = n := by
  induction n generalizing v with
  | zero => rfl
  | succ n ih => simp [leBytes, ih]

/-- Reading n bytes back gives the value modulo 256 to the n. -/
theorem leNat_leBytes (n v : Nat) : leNat (leBytes n v) = v % 256 ^ n := by
  induction n generalizing v with
  | zero => simp [leBytes, leNat, Nat.mod_one]
  | succ n ih =>
    simp only [leBytes, leNat, ih, BitVec.toNat_ofNat]
    rw [Nat.pow_succ 256 n, Nat.mul_comm (256 ^ n) 256, Nat.mod_mul]

@[simp] theorem Kind.ofCode_code (k : Kind) : Kind.ofCode k.code = some k := by cases k <;> rfl

theorem Kind.code_lt (k : Kind) : k.code < 256 := by cases k <;> decide

theorem Kind.code_ne_zero (k : Kind) : k.code ≠ 0 := by cases k <;> decide

@[simp] theorem byteOf_code_toNat (k : Kind) : (byteOf k.code).toNat = k.code := by
  simp only [byteOf, BitVec.toNat_ofNat]
  exact Nat.mod_eq_of_lt k.code_lt

/-- Two bytes hold a body length. -/
theorem leBytes_two (v : Nat) : leBytes 2 v = [BitVec.ofNat 8 v, BitVec.ofNat 8 (v / 256)] := rfl

/-- The frame check passes the frame a master writes for a body that fits, and reads its kind, tag and body. -/
theorem checkFrame_requestFrame (k : Kind) (tag : Byte) (body : List Byte) (h : body.length ≤ Config.bodyLimit) :
    checkFrame (requestFrame k tag body) = .good k tag body := by
  have hl : leNat [BitVec.ofNat 8 body.length, BitVec.ofNat 8 (body.length / 256)] = body.length := by
    rw [← leBytes_two, leNat_leBytes]
    have : body.length ≤ 256 := h
    exact Nat.mod_eq_of_lt (by omega)
  have e : requestFrame k tag body =
      byteOf k.code :: tag :: BitVec.ofNat 8 body.length :: BitVec.ofNat 8 (body.length / 256) :: body := rfl
  rw [e]
  simp only [checkFrame, byteOf_code_toNat, Kind.ofCode_code, hl]
  rw [if_pos ⟨h, trivial⟩]

theorem requestFrame_length (k : Kind) (tag : Byte) (body : List Byte) :
    (requestFrame k tag body).length = 4 + body.length := by
  simp [requestFrame]; omega

/-- A response frame has eight bytes before its body. -/
theorem responseFrame_length (k t : Byte) (r : Reply) : (responseFrame k t r).length = 8 + r.body.length := by
  simp [responseFrame]; omega

end Sys2Proof.Machine
end

