-- ==== Sys2Proof/Laws/PerInstr.lean ====
section
/-! SUPPORT. Per command: the frame of a well-formed request passes the frame check and reads back as its kind, tag and
body (R159, R161), and the bytes of a refused frame fail it. -/

namespace Sys2Proof.Laws

open Sys2Proof.Machine

/-- A well-formed request's frame reads back whole; a FRAME_REFUSED that is well formed has bytes that fail the check. -/
def FrameForm.Statement (i : Instr) : Prop :=
  i.wf = true →
    (∀ k p tag body, i.requestForm = some (k, p, tag, body) → checkFrame (requestFrame k tag body) = .good k tag body) ∧
    (∀ p bytes, i = .frameRefused p bytes → bytes ≠ [] ∧ ∃ kind tag d, checkFrame bytes = .bad kind tag d)

/-- A command that is no request and no refused frame. -/
theorem FrameForm.of_event {i : Instr} (h : i.requestForm = none) (hn : ∀ p bytes, i ≠ .frameRefused p bytes) :
    FrameForm.Statement i :=
  fun _ => ⟨fun _ _ _ _ e => absurd (h.symm.trans e) (by simp), fun p bytes e => absurd e (hn p bytes)⟩

/-- A request whose well-formedness bounds its body. -/
theorem FrameForm.of_request {i : Instr} {k : Kind} {p : PortId} {tag : Byte} {body : List Byte}
    (hf : i.requestForm = some (k, p, tag, body)) (hw : i.wf = true → body.length ≤ Config.bodyLimit)
    (hn : ∀ p bytes, i ≠ .frameRefused p bytes) : FrameForm.Statement i := by
  intro h
  refine ⟨fun _ _ _ _ e => ?_, fun p bytes e => absurd e (hn p bytes)⟩
  have e2 := Option.some.inj (hf.symm.trans e)
  simp only [Prod.mk.injEq] at e2
  obtain ⟨rfl, rfl, rfl, rfl⟩ := e2
  exact checkFrame_requestFrame _ _ _ (hw h)

/-- The bound that `bodyFits` is. -/
theorem bodyFits_le {body : List Byte} (h : bodyFits body = true) : body.length ≤ Config.bodyLimit := of_decide_eq_true h

namespace FrameForm

theorem stroke (p : PortId) (tag : Byte) (body : List Byte) : Statement (.stroke p tag body) :=
  of_request rfl bodyFits_le nofun
theorem journalAppend : Statement .journalAppend := of_event rfl nofun
theorem pull (p : PortId) (tag : Byte) (body : List Byte) : Statement (.pull p tag body) :=
  of_request rfl bodyFits_le nofun
theorem subscribe (p : PortId) (tag : Byte) (body : List Byte) : Statement (.subscribe p tag body) :=
  of_request rfl bodyFits_le nofun
theorem unsubscribe (p : PortId) (tag : Byte) (body : List Byte) : Statement (.unsubscribe p tag body) :=
  of_request rfl bodyFits_le nofun
theorem fetch (p : PortId) (tag : Byte) (body : List Byte) : Statement (.fetch p tag body) :=
  of_request rfl bodyFits_le nofun
theorem collect (p : PortId) (tag : Byte) (body : List Byte) : Statement (.collect p tag body) :=
  of_request rfl bodyFits_le nofun
theorem status (p : PortId) (tag : Byte) (body : List Byte) (reads : List Nat) : Statement (.status p tag body reads) :=
  of_request rfl (fun h => bodyFits_le (Bool.and_eq_true_iff.1 h).1) nofun
theorem speaker (p : PortId) (tag : Byte) (body : List Byte) : Statement (.speaker p tag body) :=
  of_request rfl bodyFits_le nofun
theorem setTiers (p : PortId) (tag : Byte) (body : List Byte) : Statement (.setTiers p tag body) :=
  of_request rfl bodyFits_le nofun
theorem setHold (p : PortId) (tag : Byte) (body : List Byte) : Statement (.setHold p tag body) :=
  of_request rfl bodyFits_le nofun
theorem setOffset (p : PortId) (tag : Byte) (body : List Byte) : Statement (.setOffset p tag body) :=
  of_request rfl bodyFits_le nofun
theorem setArbiter (p : PortId) (tag : Byte) (body : List Byte) : Statement (.setArbiter p tag body) :=
  of_request rfl bodyFits_le nofun
theorem setAccess (p : PortId) (tag : Byte) (body : List Byte) : Statement (.setAccess p tag body) :=
  of_request rfl bodyFits_le nofun
theorem trust (p : PortId) (tag : Byte) (body : List Byte) : Statement (.trust p tag body) :=
  of_request rfl bodyFits_le nofun
theorem lockPort (p : PortId) (tag : Byte) (body : List Byte) : Statement (.lockPort p tag body) :=
  of_request rfl bodyFits_le nofun
theorem lockTier (p : PortId) (tag : Byte) (body : List Byte) : Statement (.lockTier p tag body) :=
  of_request rfl bodyFits_le nofun
theorem restart (p : PortId) (tag : Byte) (body : List Byte) (together : Bool) :
    Statement (.restart p tag body together) :=
  of_request rfl bodyFits_le nofun
theorem put (p : PortId) (tag : Byte) (body : List Byte) : Statement (.put p tag body) :=
  of_request rfl bodyFits_le nofun
theorem drop (p : PortId) (tag : Byte) (body : List Byte) : Statement (.drop p tag body) :=
  of_request rfl bodyFits_le nofun
theorem clearTier (p : PortId) (tag : Byte) (body : List Byte) : Statement (.clearTier p tag body) :=
  of_request rfl bodyFits_le nofun
theorem get (p : PortId) (tag : Byte) (body : List Byte) : Statement (.get p tag body) :=
  of_request rfl bodyFits_le nofun
theorem retranslate (p : PortId) (tag : Byte) (body : List Byte) : Statement (.retranslate p tag body) :=
  of_request rfl bodyFits_le nofun
theorem openSession (p : PortId) (tag : Byte) (body : List Byte) : Statement (.openSession p tag body) :=
  of_request rfl bodyFits_le nofun
theorem closeSession (p : PortId) (tag : Byte) (body : List Byte) : Statement (.closeSession p tag body) :=
  of_request rfl bodyFits_le nofun
theorem frameRefused (p : PortId) (bytes : List Byte) : Statement (.frameRefused p bytes) := by
  intro h
  refine ⟨nofun, fun q b e => ?_⟩
  cases e
  cases bytes with
  | nil => cases h
  | cons x xs =>
    refine ⟨List.cons_ne_nil x xs, ?_⟩
    have h2 : frameFails (x :: xs) = true := h
    simp only [frameFails] at h2
    split at h2
    · cases h2
    · next hb => exact ⟨_, _, _, hb⟩
    · cases h2
theorem responsePhase (p : PortId) (bytes : List Byte) : Statement (.responsePhase p bytes) := of_event rfl nofun
theorem maintHeadCheck : Statement .maintHeadCheck := of_event rfl nofun
theorem tableLockTake : Statement .tableLockTake := of_event rfl nofun
theorem putWriteEnd : Statement .putWriteEnd := of_event rfl nofun
theorem dropWriteEnd : Statement .dropWriteEnd := of_event rfl nofun
theorem clearTierStart : Statement .clearTierStart := of_event rfl nofun
theorem clearTierSweepEnd : Statement .clearTierSweepEnd := of_event rfl nofun
theorem getAnswer : Statement .getAnswer := of_event rfl nofun
theorem reResolution : Statement .reResolution := of_event rfl nofun
theorem takeStroke : Statement .takeStroke := of_event rfl nofun
theorem takeStrike : Statement .takeStrike := of_event rfl nofun
theorem expiry (first : Bool) : Statement (.expiry first) := of_event rfl nofun
theorem closeSettle : Statement .closeSettle := of_event rfl nofun
theorem closeEndAppended : Statement .closeEndAppended := of_event rfl nofun
theorem openStartAppended : Statement .openStartAppended := of_event rfl nofun
theorem retranslationStart : Statement .retranslationStart := of_event rfl nofun
theorem retranslationRebuild : Statement .retranslationRebuild := of_event rfl nofun
theorem sessionClockTick (periods : Nat) : Statement (.sessionClockTick periods) := of_event rfl nofun
theorem memoryGrant (asks : Asks) : Statement (.memoryGrant asks) := of_event rfl nofun
theorem sdramRefresh : Statement .sdramRefresh := of_event rfl nofun
theorem powerOn : Statement .powerOn := of_event rfl nofun
theorem resetLine (ns : Nat) (sets : Bool) : Statement (.resetLine ns sets) := of_event rfl nofun
theorem resetRelease : Statement .resetRelease := of_event rfl nofun
theorem startupHeaderRead : Statement .startupHeaderRead := of_event rfl nofun
theorem startupComplete : Statement .startupComplete := of_event rfl nofun
theorem memoryTransactionComplete : Statement .memoryTransactionComplete := of_event rfl nofun

end FrameForm

end Sys2Proof.Laws
end

