-- ==== Sys2Proof/Laws/Quad.lean ====
section
/-! SUPPORT. Reading and writing one of four. -/

namespace Sys2Proof.Machine

variable {α β : Type}

@[simp] theorem Quad.get_zero (q : Quad α) : q.get 0 = q.q0 := rfl
@[simp] theorem Quad.get_one (q : Quad α) : q.get 1 = q.q1 := rfl
@[simp] theorem Quad.get_two (q : Quad α) : q.get 2 = q.q2 := rfl
@[simp] theorem Quad.get_three (q : Quad α) : q.get 3 = q.q3 := rfl

@[simp] theorem Quad.get_set_same (q : Quad α) (i : Fin 4) (a : α) : (q.set i a).get i = a := by
  match i with
  | 0 => rfl
  | 1 => rfl
  | 2 => rfl
  | 3 => rfl

theorem Quad.get_set_other (q : Quad α) {i j : Fin 4} (a : α) (h : j ≠ i) : (q.set i a).get j = q.get j := by
  match i, j with
  | 0, 0 | 1, 1 | 2, 2 | 3, 3 => exact absurd rfl h
  | 0, 1 | 0, 2 | 0, 3 | 1, 0 | 1, 2 | 1, 3 | 2, 0 | 2, 1 | 2, 3 | 3, 0 | 3, 1 | 3, 2 => rfl

theorem Quad.get_set (q : Quad α) (i j : Fin 4) (a : α) : (q.set i a).get j = if j = i then a else q.get j := by
  split
  · next h => subst h; exact q.get_set_same j a
  · next h => exact q.get_set_other a h

@[simp] theorem Quad.set_set (q : Quad α) (i : Fin 4) (a b : α) : (q.set i a).set i b = q.set i b := by
  match i with
  | 0 => rfl
  | 1 => rfl
  | 2 => rfl
  | 3 => rfl

@[simp] theorem Quad.set_get (q : Quad α) (i : Fin 4) : q.set i (q.get i) = q := by
  match i with
  | 0 => rfl
  | 1 => rfl
  | 2 => rfl
  | 3 => rfl

@[simp] theorem Quad.get_map (f : α → β) (q : Quad α) (i : Fin 4) : (q.map f).get i = f (q.get i) := by
  match i with
  | 0 => rfl
  | 1 => rfl
  | 2 => rfl
  | 3 => rfl

@[simp] theorem Quad.get_tabulate (f : Fin 4 → α) (i : Fin 4) : (Quad.tabulate f).get i = f i := by
  match i with
  | 0 => rfl
  | 1 => rfl
  | 2 => rfl
  | 3 => rfl

@[simp] theorem Quad.get_modify_same (q : Quad α) (i : Fin 4) (f : α → α) : (q.modify i f).get i = f (q.get i) :=
  q.get_set_same i _

theorem Quad.get_modify_other (q : Quad α) {i j : Fin 4} (f : α → α) (h : j ≠ i) : (q.modify i f).get j = q.get j :=
  q.get_set_other _ h

@[simp] theorem Quad.modify_modify (q : Quad α) (i : Fin 4) (f g : α → α) :
    (q.modify i f).modify i g = q.modify i (fun a => g (f a)) := by
  simp [Quad.modify]

theorem Quad.modify_eq_set (q : Quad α) (i : Fin 4) (f : α → α) : q.modify i f = q.set i (f (q.get i)) := rfl

/-- Two quads that agree at every index are equal. -/
theorem Quad.ext_get {q r : Quad α} (h : ∀ i, q.get i = r.get i) : q = r := by
  cases q; cases r
  have h0 := h 0; have h1 := h 1; have h2 := h 2; have h3 := h 3
  simp only [Quad.get] at h0 h1 h2 h3
  simp [h0, h1, h2, h3]

end Sys2Proof.Machine
end

