-- ==== Sys2Proof/Laws/Ports.lean ====
section
/-! SUPPORT. Select periods: what a request that reaches its owner, an answer, a refusal and an acceptance come to. -/

namespace Sys2Proof.Machine

/-- A port or tier byte reads back. -/
theorem four?_ofNat (q : Fin 4) : four? (BitVec.ofNat 8 q.val).toNat = some q := by
  match q with
  | 0 => rfl
  | 1 => rfl
  | 2 => rfl
  | 3 => rfl

/-- Writing one port whole, with the rest of the state as it stands. -/
theorem beginExchange_eq (p : PortId) (n : Nat) (s : State) :
    beginExchange p n s =
      { s with ports := s.ports.set p ⟨.working, (s.ports.get p).slot, List.replicate n 0#8⟩ } := rfl

/-- A request whose port takes it and whose row and device state allow it comes to its owner's work (R159, R164). -/
theorem requestPeriod_taken {p : PortId} {k : Kind} {tag : Byte} {body : List Byte} {act : State → State} {s : State}
    (h : Taken p k s) (hb : body.length ≤ Config.bodyLimit) :
    requestPeriod p k tag body act s = act (working p body s) := by
  obtain ⟨hr, hi, hd⟩ := h
  have hh : ¬ s.device.state = .held := by rw [hr]; decide
  simp only [requestPeriod, if_neg hh, hi, Exchange.takesRequest, if_pos, hb, throughChecks]
  have e : denial k.need ((beginExchange p (4 + body.length) s).access.get p) = none := hd
  have e2 : (beginExchange p (4 + body.length) s).device.state = .ready := hr
  rw [e]
  simp only [e2, true_or, if_true]
  rfl

/-- A request that is not held back and not a response phase, in every case (R159, R161, R164, R170, R177). -/
theorem requestPeriod_idle {p : PortId} {k : Kind} {tag : Byte} {body : List Byte} {act : State → State} {s : State}
    (hh : s.device.state ≠ .held) (hi : (s.ports.get p).exchange = .idle) (hb : body.length ≤ Config.bodyLimit) :
    requestPeriod p k tag body act s = throughChecks p k tag act (working p body s) := by
  simp only [requestPeriod, if_neg hh, hi, Exchange.takesRequest, if_true, hb]
  rfl

@[simp] theorem working_get (p : PortId) (body : List Byte) (s : State) :
    (working p body s).ports.get p =
      { exchange := .working, slot := (s.ports.get p).slot, dataOut := List.replicate (4 + body.length) 0#8 } := by
  simp [working]

/-- An answer to a request just taken. -/
theorem answer_working (p : PortId) (k : Kind) (tag : Byte) (body : List Byte) (r : Reply) (s : State) :
    answer p k tag r (working p body s) = answered p k tag body r s := by
  simp only [answer, respond, working, answered, Quad.modify, Quad.get_set_same, Quad.set_set]

/-- A refusal of a request just taken. -/
theorem refuse_working (p : PortId) (k : Kind) (tag : Byte) (body : List Byte) (c : Cause) (d : Nat) (s : State) :
    refuse p k tag c d (working p body s) = answered p k tag body (refusedReply c d) s :=
  answer_working p k tag body _ s

/-- An acceptance of a request just taken. -/
theorem accept_working (p : PortId) (k : Kind) (tag : Byte) (body : List Byte) (s : State) :
    accept p k tag (working p body s) = acceptedBy p k tag body s := by
  simp only [accept, answer, respond, setSlot, working, acceptedBy, Quad.modify, Quad.get_set_same, Quad.set_set]

@[simp] theorem working_device (p : PortId) (b : List Byte) (s : State) : (working p b s).device = s.device := rfl
@[simp] theorem working_access (p : PortId) (b : List Byte) (s : State) : (working p b s).access = s.access := rfl
@[simp] theorem working_journal (p : PortId) (b : List Byte) (s : State) : (working p b s).journal = s.journal := rfl
@[simp] theorem working_dict (p : PortId) (b : List Byte) (s : State) : (working p b s).dict = s.dict := rfl
@[simp] theorem working_maint (p : PortId) (b : List Byte) (s : State) : (working p b s).maint = s.maint := rfl
@[simp] theorem working_engine (p : PortId) (b : List Byte) (s : State) : (working p b s).engine = s.engine := rfl
@[simp] theorem working_roster (p : PortId) (b : List Byte) (s : State) : (working p b s).roster = s.roster := rfl
@[simp] theorem working_log (p : PortId) (b : List Byte) (s : State) : (working p b s).log = s.log := rfl
@[simp] theorem working_feeds (p : PortId) (b : List Byte) (s : State) : (working p b s).feeds = s.feeds := rfl
@[simp] theorem working_session (p : PortId) (b : List Byte) (s : State) : (working p b s).session = s.session := rfl
@[simp] theorem working_reports (p : PortId) (b : List Byte) (s : State) : (working p b s).reports = s.reports := rfl
@[simp] theorem working_memory (p : PortId) (b : List Byte) (s : State) : (working p b s).memory = s.memory := rfl
@[simp] theorem working_pending (p : PortId) (b : List Byte) (s : State) : (working p b s).pending = s.pending := rfl

@[simp] theorem slotBusy_working (p : PortId) (b : List Byte) (s : State) :
    slotBusy p (working p b s) = slotBusy p s := by
  simp [slotBusy]

@[simp] theorem sessionTaking_working (p : PortId) (b : List Byte) (s : State) :
    sessionTaking (working p b s) = sessionTaking s := rfl

/-! ### A STATUS in reading (R179) -/

/-- A reading goes on in its own port's entry and its port alone. -/
theorem carryReport_shape (p : PortId) (r : StatusReading) (s : State) :
    ∃ f x, carryReport p r s = { s with ports := s.ports.modify p f, reports := s.reports.set p x } := by
  simp only [carryReport]
  split
  · exact ⟨fun q => { q with exchange := .answering (responseFrame (byteOf Kind.status.code) r.tag (doneReply r.got)) }, none, rfl⟩
  · exact ⟨fun q => { q with exchange := .working }, some r, rfl⟩

/-- With no STATUS in reading on the port nothing goes on. -/
theorem readOn_none {p : PortId} {s : State} (h : s.reports.get p = none) : readOn p s = s := by simp [readOn, h]

/-- What a STATUS in reading does at a later select period is in its port and its reading alone. -/
theorem readOn_shape (p : PortId) (s : State) :
    ∃ f x, readOn p s = { s with ports := s.ports.modify p f, reports := s.reports.set p x } := by
  simp only [readOn]
  split
  · exact carryReport_shape p _ s
  · refine ⟨id, s.reports.get p, ?_⟩
    simp [Quad.modify]

/-- A response phase writes its port and the STATUS in reading on it alone. -/
theorem responsePeriod_shape (p : PortId) (n : Nat) (s : State) :
    ∃ f x, responsePeriod p n s = { s with ports := s.ports.modify p f, reports := s.reports.set p x } := by
  obtain ⟨g, h⟩ : ∃ g, shiftOut p n s = { s with ports := s.ports.modify p g } := by
    simp only [shiftOut]
    split <;> exact ⟨_, rfl⟩
  obtain ⟨f, x, h2⟩ := readOn_shape p (shiftOut p n s)
  refine ⟨fun a => f (g a), x, ?_⟩
  rw [responsePeriod, h2, h]
  simp

/-! ### What no select period touches -/

/-- A reading of the state that looks at no port and at no STATUS in reading. -/
def PortFree {α : Type} (g : State → α) : Prop :=
  ∀ (q : Quad Port) (r : Quad (Option StatusReading)) (s : State), g { s with ports := q, reports := r } = g s

theorem PortFree.setExchange {α : Type} {g : State → α} (h : PortFree g) (p : PortId) (x : Exchange) (out : List Byte)
    (s : State) : g (setExchange p x out s) = g s := h _ s.reports s

theorem PortFree.respond {α : Type} {g : State → α} (h : PortFree g) (p : PortId) (k t : Byte) (r : Reply)
    (s : State) : g (respond p k t r s) = g s := h _ s.reports s

theorem PortFree.answer {α : Type} {g : State → α} (h : PortFree g) (p : PortId) (k : Kind) (t : Byte) (r : Reply)
    (s : State) : g (answer p k t r s) = g s := h _ s.reports s

theorem PortFree.refuse {α : Type} {g : State → α} (h : PortFree g) (p : PortId) (k : Kind) (t : Byte) (c : Cause)
    (d : Nat) (s : State) : g (refuse p k t c d s) = g s := h _ s.reports s

theorem PortFree.accept {α : Type} {g : State → α} (h : PortFree g) (p : PortId) (k : Kind) (t : Byte)
    (s : State) : g (accept p k t s) = g s := (h _ s.reports _).trans (h _ s.reports s)

theorem PortFree.complete {α : Type} {g : State → α} (h : PortFree g) (p : PortId) (r : Reply) (s : State) :
    g (complete p r s) = g s := h _ s.reports s

theorem PortFree.carryReport {α : Type} {g : State → α} (h : PortFree g) (p : PortId) (r : StatusReading) (s : State) :
    g (carryReport p r s) = g s := by
  obtain ⟨f, x, e⟩ := carryReport_shape p r s
  rw [e]; exact h _ _ s

theorem PortFree.responsePeriod {α : Type} {g : State → α} (h : PortFree g) (p : PortId) (n : Nat) (s : State) :
    g (responsePeriod p n s) = g s := by
  obtain ⟨f, x, e⟩ := responsePeriod_shape p n s
  rw [e]; exact h _ _ s

/-- A request brings to such a reading what its owner's work brings to it. -/
theorem requestPeriod_reads {α : Type} {g : State → α} (h : PortFree g) {p : PortId} {k : Kind} {tag : Byte}
    {body : List Byte} {act : State → State} {s : State} {P : α → Prop} (h0 : P (g s))
    (h1 : P (g (act (beginExchange p (4 + body.length) s)))) : P (g (requestPeriod p k tag body act s)) := by
  simp only [requestPeriod]
  split
  · rw [h.setExchange]; exact h0
  · split
    · split
      · simp only [throughChecks]
        split
        · rw [h.refuse, beginExchange, h.setExchange]; exact h0
        · split
          · exact h1
          · rw [h.refuse, beginExchange, h.setExchange]; exact h0
      · rw [h.respond, beginExchange, h.setExchange]; exact h0
    · rw [h.responsePeriod]; exact h0

/-- What a frame brings to such a reading is what its owner's work brings to it. -/
theorem selectPeriod_reads {α : Type} {g : State → α} (h : PortFree g) {p : PortId} {bytes : List Byte} {s : State}
    {P : α → Prop} (h0 : P (g s))
    (h1 : ∀ k tag body, checkFrame bytes = .good k tag body →
      P (g (serve k p tag body (beginExchange p bytes.length s)))) : P (g (selectPeriod p bytes s)) := by
  simp only [selectPeriod]
  split
  · rw [h.setExchange]; exact h0
  · split
    · split
      · rw [h.setExchange]; exact h0
      · simp only [takeFrame]
        split
        · next k tag body hc =>
          simp only [throughChecks]
          split
          · rw [h.refuse, beginExchange, h.setExchange]; exact h0
          · split
            · exact h1 k tag body hc
            · rw [h.refuse, beginExchange, h.setExchange]; exact h0
        · rw [h.respond, beginExchange, h.setExchange]; exact h0
    · rw [h.responsePeriod]; exact h0

end Sys2Proof.Machine
end

