-- ==== Sys2Proof/Laws/Shapes.lean ====
section
/-! SUPPORT. What each request's owner can do, said once: the fields it writes, everything else as it stands. -/

namespace Sys2Proof.Machine

/-- Every port but one is as it was. -/
def OnlyPort (p : PortId) (a b : Quad Port) : Prop := ∀ r : PortId, r ≠ p → b.get r = a.get r

theorem OnlyPort.refl (p : PortId) (a : Quad Port) : OnlyPort p a a := fun _ _ => rfl

theorem OnlyPort.modify (p : PortId) (a : Quad Port) (f : Port → Port) : OnlyPort p a (a.modify p f) :=
  fun _ h => Quad.get_modify_other a f h

theorem OnlyPort.modify2 (p : PortId) (a : Quad Port) (f g : Port → Port) :
    OnlyPort p a ((a.modify p f).modify p g) :=
  fun _ h => (Quad.get_modify_other _ g h).trans (Quad.get_modify_other a f h)

/-- A state that is s with other ports, of which only p's changed. -/
def PortsOnly (p : PortId) (s t : State) : Prop := ∃ q, t = { s with ports := q } ∧ OnlyPort p s.ports q

theorem refuse_portsOnly (p : PortId) (k : Kind) (t : Byte) (c : Cause) (d : Nat) (s : State) :
    PortsOnly p s (refuse p k t c d s) := ⟨_, rfl, .modify p _ _⟩

theorem accept_onlyPort (p : PortId) (k : Kind) (t : Byte) (s : State) : OnlyPort p s.ports (accept p k t s).ports := by
  intro r h
  have h1 : (accept p k t s).ports = (s.ports.modify p (fun q => { q with slot := .inProgress k t })).modify p
      (fun q => { q with exchange := .answering (responseFrame (byteOf k.code) t acceptedReply) }) := rfl
  rw [h1]
  exact OnlyPort.modify2 p _ _ _ r h

theorem answer_portsOnly (p : PortId) (k : Kind) (t : Byte) (r : Reply) (s : State) :
    PortsOnly p s (answer p k t r s) := ⟨_, rfl, .modify p _ _⟩

/-! ### Strokes, the journal and the feeds -/

/-- STROKE writes its port, the engine, the feeds, the log, the lock's turn, the appends that wait and the state changes
that the log is to write. -/
theorem serveStroke_shape (p : PortId) (tag : Byte) (body : List Byte) (s : State) :
    ∃ (t : State) (b : Bool) (w : List IntakeWork) (us : List ListedUnit) (q : Quad Port),
      EngineOnly s t ∧ OnlyPort p s.ports q ∧
      serveStroke p tag body s =
        { t with
          ports := q
          maint := { s.maint with lockTurn := b }
          memory := { s.memory with
            intakeWork := w
            logWork := s.memory.logWork ++ us.map (fun u => .change (segmentBlock u.segment)) } } := by
  have hr : ∀ c d, ∃ (t : State) (b : Bool) (w : List IntakeWork) (us : List ListedUnit) (q : Quad Port),
      EngineOnly s t ∧ OnlyPort p s.ports q ∧ refuse p .stroke tag c d s =
        { t with
          ports := q
          maint := { s.maint with lockTurn := b }
          memory := { s.memory with
            intakeWork := w
            logWork := s.memory.logWork ++ us.map (fun u => .change (segmentBlock u.segment)) } } := by
    intro c d
    obtain ⟨q, h, hq⟩ := refuse_portsOnly p .stroke tag c d s
    exact ⟨s, s.maint.lockTurn, s.memory.intakeWork, [], q, .refl s, hq, by simp [h]⟩
  simp only [serveStroke, withFields]
  split
  · exact hr _ _
  · rename_i c _
    simp only [serveChord]
    split
    · exact hr _ _
    · split
      · exact hr _ _
      · split
        · exact hr _ _
        · split
          · exact hr _ _
          · simp only [takeChord]
            split
            · obtain ⟨t, b, us, h1, h2⟩ := guardRelease_shape (victimSeq s) s
              obtain ⟨⟨e, f, l, rfl⟩, h3⟩ := h1
              rw [h2]
              exact ⟨_, b, _, us, s.ports, ⟨⟨e, f, l, rfl⟩, h3⟩, .refl p _, rfl⟩
            · exact ⟨s, s.maint.lockTurn, _, [], s.ports, .refl s, .refl p _, by simp; rfl⟩

/-- PULL writes its port, its pull cursor and the reads that wait. -/
theorem servePull_shape (p : PortId) (tag : Byte) (body : List Byte) (s : State) :
    ∃ q c w, OnlyPort p s.ports q ∧ (∀ r, (c.get r).isSome = (s.journal.pull.get r).isSome) ∧
      servePull p tag body s =
        { s with ports := q, journal := { s.journal with pull := c }, memory := { s.memory with pullWork := w } } := by
  simp only [servePull, withFields]
  split
  · exact ⟨_, s.journal.pull, s.memory.pullWork, .modify p _ _, fun _ => rfl, rfl⟩
  · rename_i n _
    simp only [servePullCount]
    split
    · next c hc =>
      have hs : ∀ x, (∀ r, ((s.journal.pull.set p (some x)).get r).isSome = (s.journal.pull.get r).isSome) := by
        intro x r
        rw [Quad.get_set]
        split
        · next h => rw [h, hc]; rfl
        · rfl
      simp only [pullFrom, pullReads]
      split
      · exact ⟨_, _, s.memory.pullWork, .modify p _ _, hs _, rfl⟩
      · refine ⟨_, _, _, ?_, ?_, rfl⟩
        · exact .modify p _ _
        · exact hs _
    · exact ⟨_, s.journal.pull, s.memory.pullWork, .modify p _ _, fun _ => rfl, rfl⟩

/-- SUBSCRIBE and UNSUBSCRIBE write their port and its feed. -/
theorem serveSubscribe_shape (p : PortId) (tag : Byte) (body : List Byte) (s : State) :
    ∃ q f, OnlyPort p s.ports q ∧ serveSubscribe p tag body s = { s with ports := q, feeds := f } := by
  simp only [serveSubscribe, withFields]
  split
  · exact ⟨_, s.feeds, .modify p _ _, rfl⟩
  · rename_i a _
    exact ⟨_, _, .modify p _ _, rfl⟩
theorem serveUnsubscribe_shape (p : PortId) (tag : Byte) (body : List Byte) (s : State) :
    ∃ q f, OnlyPort p s.ports q ∧ serveUnsubscribe p tag body s = { s with ports := q, feeds := f } := by
  simp only [serveUnsubscribe, withFields]
  split
  · exact ⟨_, s.feeds, .modify p _ _, rfl⟩
  · rename_i a _
    exact ⟨_, _, .modify p _ _, rfl⟩

/-- FETCH writes its port, its feed and the log's work that waits. -/
theorem serveFetch_shape (p : PortId) (tag : Byte) (body : List Byte) (s : State) :
    ∃ q f w, OnlyPort p s.ports q ∧
      serveFetch p tag body s = { s with ports := q, feeds := f, memory := { s.memory with logWork := w } } := by
  simp only [serveFetch, withFields]
  split
  · exact ⟨_, s.feeds, s.memory.logWork, .modify p _ _, rfl⟩
  · rename_i n _
    simp only [serveFetchCount]
    split
    · simp only [fetchFrom, answerReads]
      split
      · exact ⟨_, _, s.memory.logWork, .modify p _ _, rfl⟩
      · refine ⟨_, _, _, ?_, rfl⟩
        exact OnlyPort.modify p _ _
    · exact ⟨_, s.feeds, s.memory.logWork, .modify p _ _, rfl⟩

/-! ### Completions, STATUS and the settings -/

/-- COLLECT writes its port alone. -/
theorem serveCollect_shape (p : PortId) (tag : Byte) (body : List Byte) (s : State) :
    PortsOnly p s (serveCollect p tag body s) := by
  simp only [serveCollect, withFields]
  split
  · exact refuse_portsOnly ..
  · rename_i a _
    simp only [collectSlot]
    split
    · refine ⟨_, rfl, ?_⟩
      exact fun r h => (Quad.get_modify_other _ _ h).trans (Quad.get_modify_other _ _ h)
    · exact answer_portsOnly ..
    · exact answer_portsOnly ..

/-- STATUS writes its port and the reading on it. -/
theorem serveStatus_shape (p : PortId) (tag : Byte) (reads : List Nat) (body : List Byte) (s : State) :
    ∃ q x, OnlyPort p s.ports q ∧ serveStatus p tag reads body s = { s with ports := q, reports := x } := by
  simp only [serveStatus, withFields]
  split
  · exact ⟨_, s.reports, .modify p _ _, rfl⟩
  · rename_i a _
    simp only [beginStatus]
    obtain ⟨f, x, h⟩ := carryReport_shape p
      (StatusReading.advance s p { tag := tag, got := [], left := statusBlocks, plan := reads }) s
    rw [h]
    exact ⟨_, _, .modify p _ _, rfl⟩

/-- The fields of a SPEAKER name one of the sixteen slots. -/
theorem speakerBody_slot {body : List Byte} {a : Nat × List Byte} (h : speakerBody body = .ok a) : a.1 ≤ 15 := by
  cases body with
  | nil => cases h
  | cons b name =>
    simp only [speakerBody] at h
    split at h
    · cases h
    · next hb =>
      split at h
      · cases h; simpa using hb
      · cases h

/-- SPEAKER writes its port and one name, cut to 24 characters. -/
theorem serveSpeaker_shape (p : PortId) (tag : Byte) (body : List Byte) (s : State) :
    ∃ q x, OnlyPort p s.ports q ∧ serveSpeaker p tag body s = { s with ports := q, roster := x } ∧
      (x = s.roster ∨ ∃ n name, x = s.roster.set n (List.take Config.nameLimit name)) := by
  simp only [serveSpeaker, withFields]
  split
  · exact ⟨_, s.roster, .modify p _ _, rfl, .inl rfl⟩
  · rename_i a _
    exact ⟨_, _, .modify p _ _, rfl, .inr ⟨a.1, a.2, rfl⟩⟩

/-- SET TIERS writes its port, the enables and the engine. -/
theorem serveSetTiers_shape (p : PortId) (tag : Byte) (body : List Byte) (s : State) :
    ∃ q e l, OnlyPort p s.ports q ∧
      serveSetTiers p tag body s = { s with ports := q, engine := e, dict := { s.dict with tiers := l } } ∧
      ∀ t, (l.get t).locked = (s.dict.tiers.get t).locked ∧ (l.get t).clearing = (s.dict.tiers.get t).clearing := by
  simp only [serveSetTiers, withFields]
  split
  · exact ⟨_, s.engine, s.dict.tiers, .modify p _ _, rfl, fun _ => ⟨rfl, rfl⟩⟩
  · rename_i m _
    simp only [writeTiers]
    obtain ⟨a, h⟩ := refreshActivity_shape
      (handChange { s with dict := { s.dict with tiers := enablesOf m s.dict.tiers } })
    rw [h]
    refine ⟨_, _, _, .modify p _ _, rfl, fun t => ?_⟩
    simp [enablesOf]

/-- The hold time clamped is in its range. -/
theorem clampHold_range (n : Nat) : Config.holdLow ≤ clampHold n ∧ clampHold n ≤ Config.holdHigh := by
  simp only [clampHold]
  split
  · exact ⟨Nat.le_refl _, by decide⟩
  · next h =>
    split
    · exact ⟨by decide, Nat.le_refl _⟩
    · next h2 => exact ⟨Nat.le_of_not_lt h, Nat.le_of_not_lt h2⟩

/-- SET HOLD writes its port and the hold time, within its range. -/
theorem serveSetHold_shape (p : PortId) (tag : Byte) (body : List Byte) (s : State) :
    ∃ q n, OnlyPort p s.ports q ∧
      serveSetHold p tag body s = { s with ports := q, session := { s.session with hold := n } } ∧
      (n = s.session.hold ∨ (Config.holdLow ≤ n ∧ n ≤ Config.holdHigh)) := by
  simp only [serveSetHold, withFields]
  split
  · exact ⟨_, s.session.hold, .modify p _ _, rfl, .inl rfl⟩
  · rename_i n _
    exact ⟨_, _, .modify p _ _, rfl, .inr (clampHold_range n)⟩

/-- SET OFFSET writes its port and one offset. -/
theorem serveSetOffset_shape (p : PortId) (tag : Byte) (body : List Byte) (s : State) :
    ∃ q o, OnlyPort p s.ports q ∧
      serveSetOffset p tag body s = { s with ports := q, session := { s.session with offsets := o } } := by
  simp only [serveSetOffset, withFields]
  split
  · exact ⟨_, s.session.offsets, .modify p _ _, rfl⟩
  · rename_i a _
    exact ⟨_, _, .modify p _ _, rfl⟩

/-- SET ARBITER writes its port, the mode and, with the mode, the order. -/
theorem serveSetArbiter_shape (p : PortId) (tag : Byte) (body : List Byte) (s : State) :
    ∃ q m, OnlyPort p s.ports q ∧ serveSetArbiter p tag body s = { s with ports := q, memory := m } ∧
      (m = s.memory ∨ ∃ mode, m = { s.memory with mode := mode, order := fixedOrder }) := by
  simp only [serveSetArbiter, withFields]
  split
  · exact ⟨_, s.memory, .modify p _ _, rfl, .inl rfl⟩
  · rename_i m _
    refine ⟨_, arbiterWithMode m s.memory, .modify p _ _, rfl, ?_⟩
    simp only [arbiterWithMode]
    split
    · exact .inl rfl
    · exact .inr ⟨m, rfl⟩

/-! ### Access -/

/-- SET ACCESS writes its port, and in an unlocked row the class set, with the row's pull cursor and feed. -/
theorem serveSetAccess_shape (p : PortId) (tag : Byte) (body : List Byte) (s : State) :
    PortsOnly p s (serveSetAccess p tag body s) ∨
      ∃ q r c f, OnlyPort p s.ports q ∧ (s.access.get r).locked = false ∧
        serveSetAccess p tag body s =
          { s with ports := q, access := s.access.set r { s.access.get r with classes := c }
                   journal := s.journal.notice r c, feeds := f } := by
  simp only [serveSetAccess, withFields]
  split
  · exact .inl (refuse_portsOnly ..)
  · rename_i a _
    simp only [writeAccess]
    split
    · exact .inl (refuse_portsOnly ..)
    · next h => exact .inr ⟨_, a.1, a.2, _, .modify p _ _, by simpa using h, rfl⟩

/-- TRUST writes its port, and in an unlocked row the trust, which P0 keeps. -/
theorem serveTrust_shape (p : PortId) (tag : Byte) (body : List Byte) (s : State) :
    PortsOnly p s (serveTrust p tag body s) ∨
      ∃ q r v, OnlyPort p s.ports q ∧ (s.access.get r).locked = false ∧
        serveTrust p tag body s =
          { s with ports := q, access := s.access.set r { s.access.get r with trusted := trustGiven r v } } := by
  simp only [serveTrust, withFields]
  split
  · exact .inl (refuse_portsOnly ..)
  · rename_i a _
    simp only [writeTrust]
    split
    · exact .inl (refuse_portsOnly ..)
    · next h => exact .inr ⟨_, a.1, a.2, .modify p _ _, by simpa using h, rfl⟩

/-- LOCK PORT writes its port and one row's lock. -/
theorem serveLockPort_shape (p : PortId) (tag : Byte) (body : List Byte) (s : State) :
    PortsOnly p s (serveLockPort p tag body s) ∨
      ∃ q r, OnlyPort p s.ports q ∧
        serveLockPort p tag body s =
          { s with ports := q, access := s.access.set r { s.access.get r with locked := true } } := by
  simp only [serveLockPort, withFields]
  split
  · exact .inl (refuse_portsOnly ..)
  · rename_i a _
    exact .inr ⟨_, a, .modify p _ _, rfl⟩

/-- LOCK TIER writes its port and one tier's lock. -/
theorem serveLockTier_shape (p : PortId) (tag : Byte) (body : List Byte) (s : State) :
    PortsOnly p s (serveLockTier p tag body s) ∨
      ∃ q l, OnlyPort p s.ports q ∧
        serveLockTier p tag body s =
          { s with ports := q, dict := { s.dict with
            tiers := s.dict.tiers.set l { s.dict.tiers.get l with locked := true } } } := by
  simp only [serveLockTier, withFields]
  split
  · exact .inl (refuse_portsOnly ..)
  · rename_i a _
    exact .inr ⟨_, a, .modify p _ _, rfl⟩

/-! ### Maintenance and sessions -/

/-- The four maintenance requests write their port, and accepted ones join the tail of the queue. -/
theorem acceptMaint_shape (p : PortId) (k : Kind) (tag : Byte) (r : MaintRequest) (s : State) :
    PortsOnly p s (acceptMaint p k tag r s) ∨
      ∃ q, OnlyPort p s.ports q ∧ acceptMaint p k tag r s =
        { s with ports := q, maint := { s.maint with
          queue := s.maint.queue ++ [⟨p, r, joiningPhase s.maint.queue⟩] } } := by
  simp only [acceptMaint]
  split
  · exact .inl (refuse_portsOnly ..)
  · split
    · exact .inl (refuse_portsOnly ..)
    · split
      · exact .inl (refuse_portsOnly ..)
      · exact .inr ⟨_, accept_onlyPort p _ _ (enqueue p r s), rfl⟩

/-- RETRANSLATE writes its port and the engine. -/
theorem serveRetranslate_shape (p : PortId) (tag : Byte) (body : List Byte) (s : State) :
    ∃ q e, OnlyPort p s.ports q ∧ serveRetranslate p tag body s = { s with ports := q, engine := e } := by
  simp only [serveRetranslate, withFields]
  split
  · exact ⟨_, s.engine, .modify p _ _, rfl⟩
  · rename_i a _
    simp only [acceptRetranslate]
    split
    · exact ⟨_, s.engine, .modify p _ _, rfl⟩
    · split
      · exact ⟨_, s.engine, .modify p _ _, rfl⟩
      · split
        · exact ⟨_, s.engine, .modify p _ _, rfl⟩
        · obtain ⟨x, h⟩ := refreshActivity_shape
            { s with engine := { s.engine with request := some (newRetranslation p a) } }
          rw [h]
          exact ⟨_, _, accept_onlyPort p _ _ _, rfl⟩

/-- Every port keeps its slot and what it drove, and is as it was but where reads of a PULL or a FETCH waited. -/
def AnsweredAtOpen (s : State) (q : Quad Port) : Prop :=
  ∀ r : PortId, (q.get r).slot = (s.ports.get r).slot ∧ (q.get r).dataOut = (s.ports.get r).dataOut ∧
    (¬ReadsWait r s → q.get r = s.ports.get r)

/-- Answers to ports change their exchange alone. -/
theorem answered_ports (q : Quad Port) (p r : PortId) (e : Exchange) :
    ((q.modify p (fun x => { x with exchange := e })).get r).slot = (q.get r).slot ∧
      ((q.modify p (fun x => { x with exchange := e })).get r).dataOut = (q.get r).dataOut ∧
      (r ≠ p → (q.modify p (fun x => { x with exchange := e })).get r = q.get r) := by
  by_cases h : r = p
  · subst h
    rw [Quad.get_modify_same]
    exact ⟨rfl, rfl, fun h => absurd rfl h⟩
  · rw [Quad.get_modify_other _ _ h]
    exact ⟨rfl, rfl, fun _ => rfl⟩

/-- The answers of an OPEN's emptying write ports whose PULLs and FETCHes have reads still to make (R149). -/
theorem answerWaiting_shape (s : State) : ∃ q, answerWaiting s = { s with ports := q } ∧ AnsweredAtOpen s q := by
  have hp : ∀ (ws : List PullWork) (t : State), (∀ w ∈ ws, w ∈ s.memory.pullWork) →
      (∃ q, t = { s with ports := q } ∧ AnsweredAtOpen s q) →
      ∃ q, ws.foldl (fun t w =>
        answer w.port .pull w.tag (doneReply (w.items ++ w.left.flatMap (pullItem s w.port))) t) t = { s with ports := q } ∧
        AnsweredAtOpen s q := by
    intro ws
    induction ws with
    | nil => exact fun t _ h => h
    | cons w ws ih =>
      rintro t hw ⟨q, rfl, hq⟩
      refine ih _ (fun x hx => hw x (List.mem_cons_of_mem _ hx)) ⟨_, rfl, fun r => ?_⟩
      obtain ⟨h1, h2, h3⟩ := answered_ports q w.port r _
      refine ⟨h1.trans (hq r).1, h2.trans (hq r).2.1, fun hr => (h3 ?_).trans ((hq r).2.2 hr)⟩
      rintro rfl
      exact hr (.inl ⟨w, hw w (List.mem_cons_self ..), rfl⟩)
  have hf : ∀ (ws : List LogWork) (t : State), (∀ w ∈ ws, w ∈ s.memory.logWork) →
      (∃ q, t = { s with ports := q } ∧ AnsweredAtOpen s q) →
      ∃ q, ws.foldl (fun t w =>
        match w with
        | .fetch f => answer f.port .fetch f.tag (doneReply f.items) t
        | .startAppend => t
        | .endAppend => t
        | .change _ => t) t = { s with ports := q } ∧ AnsweredAtOpen s q := by
    intro ws
    induction ws with
    | nil => exact fun t _ h => h
    | cons w ws ih =>
      rintro t hw ⟨q, rfl, hq⟩
      refine ih _ (fun x hx => hw x (List.mem_cons_of_mem _ hx)) ?_
      cases w with
      | fetch f =>
        refine ⟨_, rfl, fun r => ?_⟩
        obtain ⟨h1, h2, h3⟩ := answered_ports q f.port r _
        refine ⟨h1.trans (hq r).1, h2.trans (hq r).2.1, fun hr => (h3 ?_).trans ((hq r).2.2 hr)⟩
        rintro rfl
        exact hr (.inr ⟨f, hw _ (List.mem_cons_self ..), rfl⟩)
      | startAppend => exact ⟨q, rfl, hq⟩
      | endAppend => exact ⟨q, rfl, hq⟩
      | change b => exact ⟨q, rfl, hq⟩
  exact hf _ _ (fun _ h => h) (hp _ _ (fun _ h => h) ⟨s.ports, rfl, fun _ => ⟨rfl, rfl, fun _ => rfl⟩⟩)

/-- OPEN writes its port; accepted, it answers what waits for reads, empties the session, the journal, the engine, the log and
the feeds, and has START appended (R147 to R149). -/
theorem serveOpenSession_shape (p : PortId) (tag : Byte) (body : List Byte) (s : State) :
    PortsOnly p s (serveOpenSession p tag body s) ∨
      ∃ q q' job n e f, AnsweredAtOpen s q ∧ OnlyPort p q q' ∧ serveOpenSession p tag body s =
        { s with
          ports := q'
          session := { s.session with job := job, clock := 0#32, clkin := 0, request := .openInProgress p n }
          journal := s.journal.emptied
          engine := e
          log := CaptionLog.reset
          feeds := f
          memory := { s.memory.atOpen with logWork := [.startAppend] } } := by
  simp only [serveOpenSession, withFields]
  split
  · exact .inl (refuse_portsOnly ..)
  · rename_i a _
    simp only [acceptOpen]
    split
    · exact .inl (refuse_portsOnly ..)
    · split
      · exact .inl (refuse_portsOnly ..)
      · split
        · exact .inl (refuse_portsOnly ..)
        · split
          · exact .inl (refuse_portsOnly ..)
          · obtain ⟨x, h⟩ := refreshActivity_shape (askStart p s.journal.unpulled (emptySession a.1 s))
            obtain ⟨q, hq, h2⟩ := answerWaiting_shape s
            rw [h]
            simp only [emptySession, hq, askStart]
            refine .inr ⟨q, _, a.1, _, _, _, h2, ?_, rfl⟩
            exact fun r h => (accept_onlyPort p _ _ _ r h).trans rfl

/-- CLOSE writes its port and the session request. -/
theorem serveCloseSession_shape (p : PortId) (tag : Byte) (body : List Byte) (s : State) :
    ∃ q r, OnlyPort p s.ports q ∧
      serveCloseSession p tag body s = { s with ports := q, session := { s.session with request := r } } := by
  simp only [serveCloseSession, withFields]
  split
  · exact ⟨_, s.session.request, .modify p _ _, rfl⟩
  · rename_i a _
    simp only [acceptClose]
    split
    · exact ⟨_, s.session.request, .modify p _ _, rfl⟩
    · split
      · exact ⟨_, s.session.request, .modify p _ _, rfl⟩
      · split
        · exact ⟨_, s.session.request, .modify p _ _, rfl⟩
        · split
          · exact ⟨_, s.session.request, .modify p _ _, rfl⟩
          · exact ⟨_, _, accept_onlyPort p _ _ _, rfl⟩

end Sys2Proof.Machine
end

