-- ==== Sys2Proof/Laws/Table.lean ====
section
/-! SUPPORT. The table's memory: a slot written reads back, every other slot reads as before, and every table operation
keeps the canonical form. -/

namespace Sys2Proof.Machine

/-! ### One slot -/

/-- Writing a slot leaves every other slot as it reads. -/
theorem slotAt_writeSlot_other (t : List (Nat × Slot)) {n m : Nat} (v : Slot) (h : m ≠ n) :
    slotAt (writeSlot t n v) m = slotAt t m := by
  induction t with
  | nil =>
    simp only [writeSlot]
    split
    · rfl
    · simp [slotAt, Ne.symm h]
  | cons e rest ih =>
    obtain ⟨k, w⟩ := e
    simp only [writeSlot]
    split
    · split
      · rfl
      · simp [slotAt, Ne.symm h]
    · split
      · next h2 =>
        subst h2
        split <;> simp [slotAt, Ne.symm h]
      · simp only [slotAt, ih]

/-- The canonical form read off the head: every number in the rest is larger. -/
theorem slotsWf_cons {k : Nat} {v : Slot} {rest : List (Nat × Slot)} (h : slotsWf ((k, v) :: rest) = true) :
    v ≠ .empty ∧ slotsWf rest = true ∧ k < Config.tableSlots ∧ ∀ e ∈ rest, k < e.1 := by
  induction rest generalizing k v with
  | nil => simp [slotsWf] at h; simp [slotsWf, h]
  | cons e rest ih =>
    obtain ⟨k', v'⟩ := e
    simp only [slotsWf, Bool.and_eq_true, decide_eq_true_eq] at h
    obtain ⟨⟨hk, hv⟩, hr⟩ := h
    have h2 := ih hr
    refine ⟨hv, hr, by omega, ?_⟩
    intro e he
    rcases List.mem_cons.1 he with rfl | he
    · exact hk
    · exact Nat.lt_trans hk (h2.2.2.2 e he)

/-- The canonical form put together. -/
theorem slotsWf_of {k : Nat} {v : Slot} {rest : List (Nat × Slot)} (hv : v ≠ .empty) (hr : slotsWf rest = true)
    (hk : k < Config.tableSlots) (hl : ∀ e ∈ rest, k < e.1) : slotsWf ((k, v) :: rest) = true := by
  cases rest with
  | nil => simp [slotsWf, hv]; exact hk
  | cons e rest =>
    obtain ⟨k', v'⟩ := e
    simp only [slotsWf, Bool.and_eq_true, decide_eq_true_eq]
    exact ⟨⟨hl (k', v') (by simp), hv⟩, hr⟩

/-- A number smaller than every listed one reads EMPTY. -/
theorem slotAt_of_lt {t : List (Nat × Slot)} {n : Nat} (h : ∀ e ∈ t, n < e.1) : slotAt t n = .empty := by
  induction t with
  | nil => rfl
  | cons e rest ih =>
    obtain ⟨k, v⟩ := e
    have hk : n < k := h (k, v) (by simp)
    simp only [slotAt]
    rw [if_neg (by omega)]
    exact ih (fun e he => h e (by simp [he]))

/-- A slot written reads as what was written. -/
theorem slotAt_writeSlot_same {t : List (Nat × Slot)} (n : Nat) (v : Slot) (h : slotsWf t = true) :
    slotAt (writeSlot t n v) n = v := by
  induction t with
  | nil =>
    simp only [writeSlot]
    split
    · next h => rw [h]; rfl
    · simp [slotAt]
  | cons e rest ih =>
    obtain ⟨k, w⟩ := e
    obtain ⟨-, hr, -, hl⟩ := slotsWf_cons h
    simp only [writeSlot]
    split
    · next hn =>
      split
      · next hv =>
        rw [hv]
        refine slotAt_of_lt fun e he => ?_
        rcases List.mem_cons.1 he with rfl | he
        · exact hn
        · exact Nat.lt_trans hn (hl e he)
      · simp [slotAt]
    · split
      · next hk =>
        subst hk
        split
        · next hv => rw [hv]; exact slotAt_of_lt hl
        · simp [slotAt]
      · next h1 h2 =>
        simp only [slotAt, ih hr]
        rw [if_neg (Ne.symm h2)]

/-- What a slot reads as after a write of any slot. -/
theorem slotAt_writeSlot {t : List (Nat × Slot)} (n m : Nat) (v : Slot) (h : slotsWf t = true) :
    slotAt (writeSlot t n v) m = if m = n then v else slotAt t m := by
  split
  · next hm => rw [hm]; exact slotAt_writeSlot_same n v h
  · next hm => exact slotAt_writeSlot_other t v hm

/-- The numbers listed after a write are those before it and the one written. -/
theorem mem_writeSlot {t : List (Nat × Slot)} {n : Nat} {v : Slot} {e : Nat × Slot} (h : e ∈ writeSlot t n v) :
    e ∈ t ∨ e.1 = n := by
  induction t with
  | nil =>
    simp only [writeSlot] at h
    split at h
    · simp at h
    · simp at h; simp [h]
  | cons x rest ih =>
    obtain ⟨k, w⟩ := x
    simp only [writeSlot] at h
    split at h
    · split at h
      · exact .inl h
      · rcases List.mem_cons.1 h with rfl | h
        · exact .inr rfl
        · exact .inl h
    · split at h
      · split at h
        · exact .inl (by simp [h])
        · rcases List.mem_cons.1 h with rfl | h
          · exact .inr rfl
          · exact .inl (by simp [h])
      · rcases List.mem_cons.1 h with rfl | h
        · exact .inl (by simp)
        · rcases ih h with h | h
          · exact .inl (by simp [h])
          · exact .inr h

/-- A write keeps the canonical form. -/
theorem slotsWf_writeSlot {t : List (Nat × Slot)} {n : Nat} (v : Slot) (h : slotsWf t = true)
    (hn : n < Config.tableSlots) : slotsWf (writeSlot t n v) = true := by
  induction t with
  | nil =>
    simp only [writeSlot]
    split
    · rfl
    · next hv => exact slotsWf_of hv rfl hn (by simp)
  | cons e rest ih =>
    obtain ⟨k, w⟩ := e
    obtain ⟨hw, hr, hk, hl⟩ := slotsWf_cons h
    simp only [writeSlot]
    split
    · next h1 =>
      split
      · exact h
      · next hv =>
        refine slotsWf_of hv h hn fun e he => ?_
        rcases List.mem_cons.1 he with rfl | he
        · exact h1
        · exact Nat.lt_trans h1 (hl e he)
    · split
      · next h2 =>
        split
        · exact hr
        · next hv => subst h2; exact slotsWf_of hv hr hn hl
      · next h1 h2 =>
        refine slotsWf_of hw (ih hr) hk fun e he => ?_
        rcases mem_writeSlot he with he | he
        · exact hl e he
        · rw [he]; omega

/-! ### The operations over slots -/

/-- A slot number as a Nat is below 262,144. -/
theorem slotNo_lt (n : SlotNo) : n.toNat < Config.tableSlots := n.isLt

theorem slotsWf_walkBack (fuel : Nat) {t : List (Nat × Slot)} (n : SlotNo) (h : slotsWf t = true) :
    slotsWf (walkBack fuel t n).1 = true := by
  induction fuel generalizing t n with
  | zero => exact h
  | succ fuel ih =>
    simp only [walkBack]
    split
    · exact ih _ (slotsWf_writeSlot _ h (slotNo_lt n))
    · exact h
    · exact h

/-- The vacating procedure keeps the canonical form. -/
theorem slotsWf_vacate {t : List (Nat × Slot)} (n : SlotNo) (h : slotsWf t = true) :
    slotsWf (vacate t n).1 = true := by
  simp only [vacate]
  split
  · exact slotsWf_walkBack _ _ (slotsWf_writeSlot _ h (slotNo_lt n))
  · exact slotsWf_writeSlot _ h (slotNo_lt n)

/-- The writes of a PUT keep the canonical form. -/
theorem slotsWf_applyWrites {t : List (Nat × Slot)} (ws : List (SlotNo × Record)) (h : slotsWf t = true) :
    slotsWf (applyWrites t ws) = true := by
  induction ws generalizing t with
  | nil => exact h
  | cons w ws ih => exact ih (slotsWf_writeSlot _ h (slotNo_lt w.1))

theorem slotsWf_lowerPrefix {d : DropTally} (n : SlotNo) (h : slotsWf d.slots = true) :
    slotsWf (lowerPrefix d n).slots = true := by
  simp only [lowerPrefix]
  split
  · split
    · exact slotsWf_vacate n h
    · exact slotsWf_writeSlot _ h (slotNo_lt n)
  · exact h
  · exact h

theorem slotsWf_dropRecord {t : List (Nat × Slot)} (n : SlotNo) (h : slotsWf t = true) :
    slotsWf (dropRecord t n).2.slots = true := by
  simp only [dropRecord]
  split
  · split
    · exact slotsWf_vacate n h
    · exact slotsWf_writeSlot _ h (slotNo_lt n)
  · exact h
  · exact h

/-- The writes of a DROP keep the canonical form. -/
theorem slotsWf_applyDrop {t : List (Nat × Slot)} (p : DropPlan) (h : slotsWf t = true) :
    slotsWf (applyDrop t p).2.slots = true := by
  simp only [applyDrop]
  generalize p.shorter = ns
  have h2 := slotsWf_dropRecord p.slot h
  revert h2
  generalize (dropRecord t p.slot).2 = d
  intro h2
  induction ns generalizing d with
  | nil => exact h2
  | cons n ns ih => exact ih _ (slotsWf_lowerPrefix n h2)

theorem slotsWf_sweepFold (tier : TierId) (ns : List Nat) {t : List (Nat × Slot) × Nat} (h : slotsWf t.1 = true) :
    slotsWf (ns.foldl (sweepSlot tier) t).1 = true := by
  induction ns generalizing t with
  | nil => exact h
  | cons n ns ih =>
    apply ih
    simp only [sweepSlot]
    split
    · exact slotsWf_vacate _ h
    · exact h

/-- The sweep of a tier keeps the canonical form. -/
theorem slotsWf_sweepTier {t : List (Nat × Slot)} (tier : TierId) (h : slotsWf t = true) :
    slotsWf (sweepTier t tier).1 = true := slotsWf_sweepFold tier _ h

/-! ### The transactions of the maintenance unit (R37, R183) -/

/-- Some of the slots listed, in their order, are in canonical form. -/
theorem slotsWf_filter (p : Nat × Slot → Bool) {t : List (Nat × Slot)} (h : slotsWf t = true) :
    slotsWf (t.filter p) = true := by
  induction t with
  | nil => rfl
  | cons e rest ih =>
    obtain ⟨k, w⟩ := e
    obtain ⟨hw, hr, hk, hl⟩ := slotsWf_cons h
    rw [List.filter_cons]
    split
    · exact slotsWf_of hw (ih hr) hk fun e he => hl e (List.mem_filter.1 he).1
    · exact ih hr

/-- A transaction writes the header and the slots, and keeps their canonical form. -/
theorem carry_spec (u : MaintUse) (d : Dictionary) : (u.carry d).tiers = d.tiers ∧
    (slotsWf d.slots = true → slotsWf (u.carry d).slots = true) := by
  cases u with
  | header h => exact ⟨rfl, id⟩
  | read n => exact ⟨rfl, id⟩
  | write n v => exact ⟨rfl, fun h => slotsWf_writeSlot v h (slotNo_lt n)⟩
  | sweep t n => exact ⟨rfl, id⟩
  | empty n => exact ⟨rfl, fun h => slotsWf_writeSlot _ h (slotNo_lt _)⟩

/-- Transactions with all that follow from them write the header and the slots, and keep their canonical form. -/
theorem carryAll_spec (us : List MaintUse) (x : Dictionary × Nat) : (us.foldl MaintUse.carryAll x).1.tiers = x.1.tiers ∧
    (slotsWf x.1.slots = true → slotsWf (us.foldl MaintUse.carryAll x).1.slots = true) := by
  induction us generalizing x with
  | nil => exact ⟨rfl, id⟩
  | cons u us ih =>
    obtain ⟨h1, h2⟩ := ih (MaintUse.carryAll x u)
    have h : (MaintUse.carryAll x u).1.tiers = x.1.tiers ∧
        (slotsWf x.1.slots = true → slotsWf (MaintUse.carryAll x u).1.slots = true) := by
      cases u with
      | header h => exact carry_spec (.header h) x.1
      | read n => exact carry_spec (.read n) x.1
      | write n v => exact carry_spec (.write n v) x.1
      | sweep t n => exact ⟨rfl, fun h => slotsWf_sweepFold t (t := (x.1.slots, 0)) _ h⟩
      | empty n => exact ⟨rfl, fun h => slotsWf_filter _ h⟩
    exact ⟨h1.trans h.1, fun hs => h2 (h.2 hs)⟩

/-- Reads and writes of single slots leave what their writes leave. -/
theorem carryAll_walkBack (fuel : Nat) (d : Dictionary) (n : SlotNo) (k : Nat) :
    (walkBackUses fuel d.slots n).foldl MaintUse.carryAll (d, k) =
      ({ d with slots := (walkBack fuel d.slots n).1 }, k) := by
  induction fuel generalizing d n with
  | zero => rfl
  | succ fuel ih =>
    simp only [walkBackUses, walkBack]
    split
    · simp only [List.foldl_cons]
      exact ih { d with slots := writeSlot d.slots n.toNat .empty } (n - 1#18)
    · rfl
    · rfl

/-- Two transactions of single slots made first. -/
theorem carryAll_write (d : Dictionary) (m n : SlotNo) (v : Slot) (us : List MaintUse) (k : Nat) :
    (MaintUse.read m :: .write n v :: us).foldl MaintUse.carryAll (d, k) =
      us.foldl MaintUse.carryAll ({ d with slots := writeSlot d.slots n.toNat v }, k) := rfl

/-- The transactions of the vacating procedure leave what the procedure leaves (R137). -/
theorem carryAll_vacate (d : Dictionary) (n : SlotNo) (k : Nat) :
    (vacateUses d.slots n).foldl MaintUse.carryAll (d, k) = ({ d with slots := (vacate d.slots n).1 }, k) := by
  unfold vacateUses vacate
  generalize Config.tableSlots = fuel
  split
  · rw [carryAll_write]
    exact carryAll_walkBack fuel { d with slots := writeSlot d.slots n.toNat .empty } _ _
  · rw [carryAll_write]; rfl

theorem carryAll_dropRecord (d : Dictionary) (n : SlotNo) (k : Nat) :
    (dropRecordUses d.slots n).foldl MaintUse.carryAll (d, k) = ({ d with slots := (dropRecord d.slots n).2.slots }, k) := by
  simp only [dropRecordUses, dropRecord]
  split
  · split
    · exact carryAll_vacate d n k
    · rfl
  · rfl
  · rfl

theorem carryAll_lower (d : Dictionary) (x : DropTally) (h : x.slots = d.slots) (n : SlotNo) (k : Nat) :
    (lowerUses d.slots n).foldl MaintUse.carryAll (d, k) = ({ d with slots := (lowerPrefix x n).slots }, k) := by
  simp only [lowerUses, lowerPrefix, h]
  split
  · split
    · exact carryAll_vacate d n k
    · rfl
  · simp only [h]; rfl
  · simp only [h]; rfl

theorem carryAll_prefixes (ns : List SlotNo) (d : Dictionary) (x : DropTally) (h : x.slots = d.slots) (k : Nat) :
    (prefixUses x ns).foldl MaintUse.carryAll (d, k) = ({ d with slots := (ns.foldl lowerPrefix x).slots }, k) := by
  induction ns generalizing d x with
  | nil => simp only [prefixUses, List.foldl_nil, h]
  | cons n ns ih =>
    simp only [prefixUses, List.foldl_append, List.foldl_cons]
    rw [h, carryAll_lower d x h n k]
    exact ih { d with slots := (lowerPrefix x n).slots } (lowerPrefix x n) rfl

/-- The transactions of a DROP in WRITING leave what the DROP leaves (R136, R138). -/
theorem carryAll_drop (d : Dictionary) (p : DropPlan) (k : Nat) :
    (dropUses d.slots p).foldl MaintUse.carryAll (d, k) = ({ d with slots := (applyDrop d.slots p).2.slots }, k) := by
  simp only [dropUses, applyDrop, List.foldl_append, carryAll_dropRecord]
  exact carryAll_prefixes p.shorter { d with slots := (dropRecord d.slots p.slot).2.slots } _ rfl k

/-- A whole sweep (R140). -/
theorem carryAll_sweep (d : Dictionary) (t : TierId) (k : Nat) :
    MaintUse.carryAll (d, k) (.sweep t 0) = ({ d with slots := (sweepTier d.slots t).1 }, k + (sweepTier d.slots t).2) := rfl

/-! ### What the vacating procedure leaves -/

/-- The backward walk turns VACATED slots EMPTY and leaves every other slot as it reads. -/
theorem slotAt_walkBack (fuel : Nat) {t : List (Nat × Slot)} (n : SlotNo) (m : Nat) (h : slotsWf t = true) :
    slotAt (walkBack fuel t n).1 m = slotAt t m ∨
      (slotAt t m = .vacated ∧ slotAt (walkBack fuel t n).1 m = .empty) := by
  induction fuel generalizing t n with
  | zero => exact .inl rfl
  | succ fuel ih =>
    simp only [walkBack]
    split
    · next hv =>
      have hw := slotsWf_writeSlot .empty h (slotNo_lt n)
      have e := slotAt_writeSlot n.toNat m .empty h
      by_cases hm : m = n.toNat
      · subst hm
        rw [if_pos rfl] at e
        rcases ih (n - 1#18) hw with h1 | ⟨h1, -⟩
        · exact .inr ⟨hv, by rw [h1, e]⟩
        · rw [e] at h1; cases h1
      · rw [if_neg hm] at e
        rcases ih (n - 1#18) hw with h1 | ⟨h1, h2⟩
        · exact .inl (by rw [h1, e])
        · exact .inr ⟨by rw [← e, h1], h2⟩
    · exact .inl rfl
    · exact .inl rfl

/-- Vacating a slot leaves every record in every other slot, and no record in that one; it puts no record anywhere. -/
theorem slotAt_vacate {t : List (Nat × Slot)} (n : SlotNo) (m : Nat) (r : Record) (h : slotsWf t = true) :
    slotAt (vacate t n).1 m = .occupied r ↔ (m ≠ n.toNat ∧ slotAt t m = .occupied r) := by
  simp only [vacate]
  split
  · have e := slotAt_writeSlot n.toNat m .empty h
    have hw := slotsWf_writeSlot .empty h (slotNo_lt n)
    have hb := slotAt_walkBack Config.tableSlots (n - 1#18) m hw
    rw [e] at hb
    by_cases hm : m = n.toNat
    · simp only [hm, if_true] at hb
      rcases hb with hb | ⟨hb, -⟩
      · simp [hm, hb]
      · cases hb
    · simp only [hm, if_false] at hb
      rcases hb with hb | ⟨hb, hb2⟩
      · rw [hb]; simp [hm]
      · rw [hb2, hb]; simp
  · rw [slotAt_writeSlot n.toNat m .vacated h]
    by_cases hm : m = n.toNat <;> simp [hm]

end Sys2Proof.Machine
end

