-- ==== Sys2Proof/Laws/Works.lean ====
section
/-! SUPPORT. What a work of the engine and a step of the maintenance unit can do: one transaction, one stage, the row that
ends it; what its transactions leave of the arbiter, everything it leaves as it stands, and that it keeps the log sound. -/

namespace Sys2Proof.Machine

/-- t is s with nothing changed but the engine, the ports, the feeds, the log, the lock's turn and the journal's records
and pointers; its ring is sound if that of s is. -/
structure Quiet (s t : State) : Prop where
  dict : t.dict = s.dict
  access : t.access = s.access
  session : t.session = s.session
  roster : t.roster = s.roster
  device : t.device = s.device
  queue : t.maint.queue = s.maint.queue
  lock : t.maint.lockHeld = s.maint.lockHeld
  memory : t.memory = s.memory
  pull : t.journal.pull = s.journal.pull
  pending : t.pending = s.pending
  log : LogSound s → LogSound t

theorem Quiet.refl (s : State) : Quiet s s := ⟨rfl, rfl, rfl, rfl, rfl, rfl, rfl, rfl, rfl, rfl, id⟩

theorem Quiet.trans {s t u : State} (a : Quiet s t) (b : Quiet t u) : Quiet s u :=
  ⟨b.dict.trans a.dict, b.access.trans a.access, b.session.trans a.session, b.roster.trans a.roster,
    b.device.trans a.device, b.queue.trans a.queue, b.lock.trans a.lock, b.memory.trans a.memory, b.pull.trans a.pull,
    b.pending.trans a.pending, fun h => b.log (a.log h)⟩

theorem Quiet.of {s t : State} (h : EngineOnly s t) : Quiet s t :=
  ⟨h.dict, h.access, h.session, h.roster, h.device, by rw [h.maint], by rw [h.maint], h.memory, by rw [h.journal],
    h.pending, h.2⟩

theorem endWork_quiet (s : State) : Quiet s (endWork s) := by
  obtain ⟨a, b, h⟩ := endWork_shape s; rw [h]; exact ⟨rfl, rfl, rfl, rfl, rfl, rfl, rfl, rfl, rfl, rfl, id⟩

theorem advanceCursor_quiet (s : State) : Quiet s (advanceCursor s) := ⟨rfl, rfl, rfl, rfl, rfl, rfl, rfl, rfl, rfl, rfl, id⟩

theorem noteTaken_quiet (st : Stamp) (s : State) : Quiet s (noteTaken st s) := ⟨rfl, rfl, rfl, rfl, rfl, rfl, rfl, rfl, rfl, rfl, id⟩

theorem Quiet.engine (s : State) (e : Engine) : Quiet s { s with engine := e } := ⟨rfl, rfl, rfl, rfl, rfl, rfl, rfl, rfl, rfl, rfl, id⟩

/-! ### The ends of the works -/

theorem finishRetranslation_quiet (a b c : Nat) (s : State) : Quiet s (finishRetranslation a b c s) := by
  obtain ⟨e, q, x, h⟩ := finishRetranslation_shape a b c s; rw [h]; exact ⟨rfl, rfl, rfl, rfl, rfl, rfl, rfl, rfl, rfl, rfl, id⟩

theorem beginRetranslation_quiet (tiers : List TierId) (r : RetransRequest) (s : State) :
    Quiet s (beginRetranslation tiers r s) := by
  simp only [beginRetranslation]
  split
  · exact finishRetranslation_quiet _ _ _ _
  · exact Quiet.engine _ _

/-- Every work but the settle of a CLOSE ends with the session and the memory controller as they stand. -/
theorem workEnds_quiet {w : EngineWork} (s : State) (h : w.kind ≠ .closeSettle) : Quiet (dropWork s) (workEnds w s) := by
  simp only [workEnds]
  split
  · exact endWork_quiet _
  · simp only [startEnds]; split
    · exact beginRetranslation_quiet _ _ _
    · exact .refl _
  · exact (advanceCursor_quiet _).trans (endWork_quiet _)
  · exact (advanceCursor_quiet _).trans (endWork_quiet _)
  · exact endWork_quiet _
  · next hk => exact absurd hk h
  · simp only [rebuildEnds]; split
    · exact finishRetranslation_quiet _ _ _ _
    · exact .refl _

/-- The settle of a CLOSE ends with END to be appended; without such a request it changes nothing (R62, R153). -/
theorem closeSettled_shape (s : State) :
    closeSettled s = s ∨ ∃ p b, s.session.request = .closeInProgress p b ∧ Quiet (askEnd p s) (closeSettled s) := by
  simp only [closeSettled]
  split
  · next p b h => exact .inr ⟨p, b, h, endWork_quiet _⟩
  · exact .inl rfl
  · exact .inl rfl

/-! ### Records rewritten in place -/

/-- Rewriting a record in place keeps the pointers and the numbers. -/
theorem modifyAt_ring (j : Journal) (n : Nat) (f : JournalRecord → JournalRecord) (hf : ∀ r, (f r).seq = r.seq) :
    (j.modifyAt n f).head = j.head ∧ (j.modifyAt n f).oldest = j.oldest ∧ (j.modifyAt n f).cursor = j.cursor ∧
      (j.modifyAt n f).records.map JournalRecord.seq = j.records.map JournalRecord.seq := by
  simp only [Journal.modifyAt]
  split
  · refine ⟨rfl, rfl, rfl, ?_⟩
    apply List.ext_getElem?
    intro i
    simp only [List.getElem?_map, List.getElem?_modify]
    cases j.records[i]? with
    | none => rfl
    | some r =>
      simp only [Option.map_some]
      split
      · simp [hf]
      · rfl
  · exact ⟨rfl, rfl, rfl, rfl⟩

@[simp] theorem strike_seq (r : JournalRecord) : r.strike.seq = r.seq := by
  simp only [JournalRecord.strike]
  split <;> rfl

@[simp] theorem aim_seq (target : List Nat) (r : JournalRecord) : (r.aim target).seq = r.seq := by
  simp only [JournalRecord.aim]
  split <;> rfl

/-- A journal write keeps everything of the journal but what its records say. -/
theorem journalWrite_shape (j : Journal) (w : JournalWrite) :
    ∃ rs, j.write w = { j with records := rs } ∧ rs.map JournalRecord.seq = j.records.map JournalRecord.seq := by
  cases w with
  | mark n =>
    have h := (modifyAt_ring j n JournalRecord.strike strike_seq).2.2.2
    simp only [Journal.write, Journal.modifyAt] at h ⊢
    split at h
    · exact ⟨_, by simp [*], h⟩
    · exact ⟨j.records, by simp [*], rfl⟩
  | target n ns =>
    have h := (modifyAt_ring j n (JournalRecord.aim ns) (aim_seq ns)).2.2.2
    simp only [Journal.write, Journal.modifyAt] at h ⊢
    split at h
    · exact ⟨_, by simp [*], h⟩
    · exact ⟨j.records, by simp [*], rfl⟩

/-! ### One transaction and one stage of a work -/

/-- t is s but for the engine, the feeds, the log and what the journal's records say: the engine's activity, request and change
pending are as they were, the records' numbers too, and the log's ring is sound if that of s is. -/
structure WorkOnly (s t : State) : Prop where
  form : ∃ e f l rs, t = { s with engine := e, feeds := f, log := l, journal := { s.journal with records := rs } }
  activity : t.engine.activity = s.engine.activity
  request : t.engine.request = s.engine.request
  change : t.engine.changePending = s.engine.changePending
  seqs : t.journal.records.map JournalRecord.seq = s.journal.records.map JournalRecord.seq
  log : LogSound s → LogSound t

theorem WorkOnly.refl (s : State) : WorkOnly s s :=
  ⟨⟨s.engine, s.feeds, s.log, s.journal.records, rfl⟩, rfl, rfl, rfl, rfl, id⟩

theorem WorkOnly.trans {s t u : State} (h : WorkOnly s t) (k : WorkOnly t u) : WorkOnly s u := by
  refine ⟨?_, k.activity.trans h.activity, k.request.trans h.request, k.change.trans h.change, k.seqs.trans h.seqs,
    fun x => k.log (h.log x)⟩
  obtain ⟨_, _, _, _, rfl⟩ := h.form
  obtain ⟨e, f, l, rs, rfl⟩ := k.form
  exact ⟨e, f, l, rs, rfl⟩

/-- The memory controller may be any other. -/
theorem WorkOnly.memory {s t : State} (h : WorkOnly s t) (m : Memory) :
    WorkOnly { s with memory := m } { t with memory := m } := by
  obtain ⟨⟨e, f, l, rs, rfl⟩, h1, h2, h3, h4, h5⟩ := h
  exact ⟨⟨e, f, l, rs, rfl⟩, h1, h2, h3, h4, h5⟩

theorem WorkOnly.of {s t : State} (h : EngineOnly s t) (h1 : t.engine.activity = s.engine.activity)
    (h2 : t.engine.request = s.engine.request) (h3 : t.engine.changePending = s.engine.changePending) : WorkOnly s t := by
  obtain ⟨⟨e, f, l, rfl⟩, h4⟩ := h
  exact ⟨⟨e, f, l, s.journal.records, rfl⟩, h1, h2, h3, rfl, h4⟩

/-- What an append leaves of the engine. -/
theorem makeRoom_engine (s : State) : ∃ us, (makeRoom s).engine = { s.engine with units := us } := by
  simp only [makeRoom]; split <;> exact ⟨_, rfl⟩

/-- One transaction of a work writes the engine, the feeds, the log and the journal's records alone (R51, R108). -/
theorem carryUse_only (u : Use) (s : State) : WorkOnly s (carryUse u s) := by
  cases u with
  | record n => exact .refl s
  | slot n => exact .refl s
  | turn g => exact .refl s
  | write w =>
    obtain ⟨rs, h, h2⟩ := journalWrite_shape s.journal w
    refine ⟨⟨s.engine, s.feeds, s.log, rs, ?_⟩, rfl, rfl, rfl, ?_, id⟩
    · simp only [carryUse, h]
    · simp only [carryUse, h]; exact h2
  | promote g => exact .of (promoteSegment_only g s) rfl rfl rfl
  | withdraw k =>
    obtain ⟨us, h⟩ := makeRoom_engine s
    have e : (appendWithdraw k s).engine = { s.engine with units := us } := h
    exact .of (appendWithdraw_only k s) (by simp [carryUse, e]) (by simp [carryUse, e]) (by simp [carryUse, e])
  | text q =>
    obtain ⟨us, h⟩ := makeRoom_engine { s with engine := { s.engine with units := evictForRoom s.engine.units } }
    exact .of (joinUnit_only s q) (by simp [carryUse, joinUnit, appendSegment, h]) (by simp [carryUse, joinUnit, appendSegment, h])
      (by simp [carryUse, joinUnit, appendSegment, h])

theorem carryUses_only (us : List Use) (s : State) : WorkOnly s (carryUses us s) := by
  induction us generalizing s with
  | nil => exact .refl s
  | cons u us ih => exact (carryUse_only u s).trans (ih _)

/-- t is s but for the engine's run, list, format state and last taken stamp. -/
def EngineMoved (s t : State) : Prop :=
  ∃ r u f l, t = { s with engine := { s.engine with run := r, units := u, format := f, lastTaken := l } }

theorem EngineMoved.refl (s : State) : EngineMoved s s := ⟨s.engine.run, s.engine.units, s.engine.format, s.engine.lastTaken, rfl⟩

theorem EngineMoved.trans {s t u : State} (h : EngineMoved s t) (k : EngineMoved t u) : EngineMoved s u := by
  obtain ⟨_, _, _, _, rfl⟩ := h
  obtain ⟨a, b, c, d, rfl⟩ := k
  exact ⟨a, b, c, d, rfl⟩

theorem EngineMoved.only {s t : State} (h : EngineMoved s t) : WorkOnly s t := by
  obtain ⟨_, _, _, _, rfl⟩ := h
  exact ⟨⟨_, s.feeds, s.log, s.journal.records, rfl⟩, rfl, rfl, rfl, rfl, id⟩

/-- A work at another stage is the same work: its kind, its tiers and what it has left to be shown. -/
def SameWork (w x : EngineWork) : Prop := x.kind = w.kind ∧ x.tiers = w.tiers ∧ x.shown = w.shown

theorem SameWork.refl (w : EngineWork) : SameWork w w := ⟨rfl, rfl, rfl⟩

theorem SameWork.trans {w x y : EngineWork} (h : SameWork w x) (k : SameWork x y) : SameWork w y :=
  ⟨k.1.trans h.1, k.2.1.trans h.2.1, k.2.2.trans h.2.2⟩

theorem toForming_spec (run : List RunEntry) (w : EngineWork) (s : State) :
    EngineMoved s (toForming run w s).2 ∧ SameWork w (toForming run w s).1 := ⟨⟨_, _, _, _, rfl⟩, .refl w⟩

theorem toSettling_spec (w : EngineWork) (s : State) :
    EngineMoved s (toSettling w s).2 ∧ SameWork w (toSettling w s).1 := by
  simp only [toSettling]; split
  · exact ⟨⟨_, _, _, _, rfl⟩, .refl w⟩
  · exact ⟨.refl s, .refl w⟩

/-- A stage left writes the engine's run, list, format state and last taken stamp alone. -/
theorem leaveStage_spec (w : EngineWork) (s : State) :
    EngineMoved s (leaveStage w s).2 ∧ SameWork w (leaveStage w s).1 := by
  simp only [leaveStage]
  split
  · exact toSettling_spec w s
  · simp only [afterSettle]
    split
    · simp only [takeForms]
      exact ⟨EngineMoved.trans ⟨_, _, _, _, rfl⟩ (toForming_spec _ _ _).1, (toForming_spec _ _ _).2⟩
    · exact ⟨.refl s, .refl w⟩
    · exact toForming_spec _ _ _
    · exact ⟨.refl s, .refl w⟩
  · have h : EngineMoved s (noteRecord s) := by
      simp only [noteRecord]; split
      · exact ⟨_, _, _, _, rfl⟩
      · exact .refl s
    simp only [strikeGoesOn]
    split
    · split
      · exact ⟨h.trans ⟨_, _, _, _, rfl⟩, .refl w⟩
      · exact ⟨h, .refl w⟩
    · exact ⟨h.trans (toForming_spec _ _ _).1, (toForming_spec _ _ _).2⟩
  · exact ⟨⟨_, _, _, _, rfl⟩, .refl w⟩
  · simp only [replayEnds]
    split
    · exact ⟨⟨_, _, _, _, rfl⟩, .refl w⟩
    · exact ⟨.refl s, .refl w⟩
  · simp only [replayReads]
    split
    · exact ⟨.refl s, .refl w⟩
    · exact ⟨.refl s, .refl w⟩
  · exact ⟨.refl s, .refl w⟩
  · exact ⟨.refl s, .refl w⟩

/-- So does a work that goes on through several stages. -/
theorem goOn_spec (n : Nat) (x : EngineWork × State) :
    EngineMoved x.2 (goOn n x).2 ∧ SameWork x.1 (goOn n x).1 := by
  induction n generalizing x with
  | zero => exact ⟨.refl _, .refl _⟩
  | succ n ih =>
    simp only [goOn]
    split
    · exact ⟨.refl _, .refl _⟩
    · split
      · obtain ⟨h1, h2⟩ := leaveStage_spec x.1 x.2
        obtain ⟨k1, k2⟩ := ih (leaveStage x.1 x.2)
        exact ⟨h1.trans k1, h2.trans k2⟩
      · exact ⟨.refl _, .refl _⟩

/-- One transaction of the engine's work ends: beyond the work held it writes the engine, the feeds, the log and the journal's
records alone. -/
theorem engineUseEnds_shape (s : State) : ∃ t w, WorkOnly s t ∧
    engineUseEnds s = { t with memory := { s.memory with engineWork := w } } := by
  simp only [engineUseEnds]
  split
  · next w hw =>
    split
    · next u rest _ =>
      have h1 := carryUse_only u s
      have h2 := (goOn_spec 5 ({ w with stage := w.stage.saw s.dict.slots u, left := turnUses s u ++ rest }, carryUse u s)).1
      have h3 := h1.trans h2.only
      refine ⟨_, some (useMade w u rest s).1, h3, ?_⟩
      obtain ⟨_, _, _, _, hf⟩ := h3.form
      have hm : (useMade w u rest s).2.memory = s.memory := by
        show (goOn 5 _).2.memory = _
        rw [hf]
      show setWork (useMade w u rest s) = _
      simp only [setWork, hm]
      rfl
    · exact ⟨s, s.memory.engineWork, .refl s, rfl⟩
  · exact ⟨s, s.memory.engineWork, .refl s, rfl⟩

/-- Of the transactions of a work only a journal write writes the journal (R108). -/
theorem carryUse_journal (u : Use) (s : State) :
    (carryUse u s).journal = match u with
      | .write x => s.journal.write x
      | _ => s.journal := by
  cases u with
  | write x => rfl
  | record _ => rfl
  | slot _ => rfl
  | turn _ => rfl
  | promote _ => rfl
  | withdraw k =>
    show (appendWithdraw k s).journal = _
    simp only [appendWithdraw, makeRoom]; split <;> rfl
  | text q =>
    show (joinUnit s q).journal = _
    simp only [joinUnit, appendSegment, makeRoom]; split <;> rfl

/-- So it is where the work goes on after it. -/
theorem engineUseEnds_journal (s : State) :
    (engineUseEnds s).journal = match s.memory.engineWork.bind (fun w => w.left.head?) with
      | some (.write x) => s.journal.write x
      | _ => s.journal := by
  simp only [engineUseEnds]
  cases h : s.memory.engineWork with
  | none => rfl
  | some w =>
    cases hl : w.left with
    | nil => simp [hl]
    | cons u rest =>
      obtain ⟨_, _, _, _, hf⟩ :=
        (goOn_spec 5 ({ w with stage := w.stage.saw s.dict.slots u, left := turnUses s u ++ rest }, carryUse u s)).1
      have hj : (setWork (useMade w u rest s)).journal = (carryUse u s).journal := by
        show (goOn 5 _).2.journal = _
        rw [hf]
      simp only [Option.bind, hl, List.head?]
      rw [hj, carryUse_journal]
      cases u <;> rfl

theorem engineUseEnds_dict (s : State) : (engineUseEnds s).dict = s.dict := by
  obtain ⟨t, w, h, e⟩ := engineUseEnds_shape s
  obtain ⟨_, _, _, _, hf⟩ := h.form
  rw [e, hf]

/-- One transaction of the maintenance unit ends: beyond the step held it writes the header and the slots, which stay in
canonical form. -/
theorem maintUseEnds_shape (s : State) : ∃ h sl w,
    maintUseEnds s = { s with dict := { s.dict with header := h, slots := sl }, memory := { s.memory with maintWork := w } } ∧
    (slotsWf s.dict.slots = true → slotsWf sl = true) := by
  simp only [maintUseEnds]
  split
  · next w hw =>
    split
    · next u rest _ =>
      obtain ⟨h1, h2⟩ := carry_spec u s.dict
      refine ⟨(u.carry s.dict).header, (u.carry s.dict).slots, some { w with
        removed := w.removed + u.found s.dict.slots, left := u.goesOn s.dict.slots ++ rest }, ?_, h2⟩
      rw [← h1]
    · exact ⟨s.dict.header, s.dict.slots, s.memory.maintWork, rfl, id⟩
  · exact ⟨s.dict.header, s.dict.slots, s.memory.maintWork, rfl, id⟩

/-! ### A work made to its end, and its row -/

/-- The transactions of a stage made alone. -/
theorem stageMade_spec (w : EngineWork) (s : State) : ∃ t rs, WorkOnly s t ∧ (∀ r ∈ rs, r = .xlate ∨ r = .log) ∧
    (stageMade w s).2 = { t with memory := servedAlone s.memory rs } ∧ SameWork w (stageMade w s).1 := by
  have h := carryUses_only w.left s
  obtain ⟨_, _, _, _, hf⟩ := h.form
  have hm : (carryUses w.left s).memory = s.memory := by rw [hf]
  by_cases hl : w.left = []
  · refine ⟨_, [], h, by simp, ?_, .refl w⟩
    simp only [stageMade, hl, if_true]
    show carryUses [] s = _
    rfl
  · refine ⟨_, [w.stage.requester], h, ?_, ?_, .refl w⟩
    · intro r hr
      rw [List.mem_singleton.1 hr]
      cases w.stage <;> simp [Stage.requester]
    · simp only [stageMade, hl, if_false, hm]
      rfl

/-- A work made to its end leaves, beyond what its transactions write, the arbiter after them. -/
theorem finishWork_spec (n : Nat) (x : EngineWork × State) : ∃ t rs, WorkOnly x.2 t ∧ (∀ r ∈ rs, r = .xlate ∨ r = .log) ∧
    (finishWork n x).2 = { t with memory := servedAlone x.2.memory rs } ∧ SameWork x.1 (finishWork n x).1 := by
  induction n generalizing x with
  | zero => exact ⟨x.2, [], .refl _, by simp, rfl, .refl _⟩
  | succ n ih =>
    obtain ⟨t, rs, h1, h2, h3, h4⟩ := stageMade_spec x.1 x.2
    simp only [finishWork]
    split
    · exact ⟨t, rs, h1, h2, h3, h4⟩
    · obtain ⟨k1, k2⟩ := leaveStage_spec (stageMade x.1 x.2).1 (stageMade x.1 x.2).2
      obtain ⟨t2, rs2, l1, l2, l3, l4⟩ := ih (leaveStage (stageMade x.1 x.2).1 (stageMade x.1 x.2).2)
      have hw := (h1.memory (servedAlone x.2.memory rs)).trans (h3 ▸ k1.only.trans l1 :
        WorkOnly { t with memory := servedAlone x.2.memory rs } t2)
      have hm : (leaveStage (stageMade x.1 x.2).1 (stageMade x.1 x.2).2).2.memory = servedAlone x.2.memory rs := by
        obtain ⟨_, _, _, _, hk⟩ := k1
        rw [hk, h3]
      refine ⟨{ t2 with memory := x.2.memory }, rs ++ rs2, ?_, ?_, ?_, (h4.trans k2).trans l4⟩
      · exact hw.memory x.2.memory
      · intro r hr
        rcases List.mem_append.1 hr with hr | hr
        · exact h2 r hr
        · exact l2 r hr
      · rw [l3, hm]
        simp only [servedAlone, List.foldl_append]

/-- A work as it begins, beyond the engine's own fields and change pending. -/
theorem opened_spec (k : WorkKind) (s : State) :
    EngineMoved (startedWork s k) (opened k s).2 ∧ SameWork (newWork k (startedWork s k)) (opened k s).1 := by
  have ht : ∀ w x, EngineMoved x (beginTake w x).2 ∧ SameWork w (beginTake w x).1 := fun w x => ⟨.refl x, .refl w⟩
  have hr : ∀ w x, EngineMoved x (beginReplay w x).2 ∧ SameWork w (beginReplay w x).1 := by
    intro w x; simp only [beginReplay]; split
    · exact ⟨.refl x, .refl w⟩
    · exact ⟨.refl x, .refl w⟩
  cases k
  · exact toSettling_spec _ _
  · exact toSettling_spec _ _
  · exact ht _ _
  · exact ht _ _
  · exact toSettling_spec _ _
  · exact toSettling_spec _ _
  · exact hr _ _

theorem begun_spec (k : WorkKind) (s : State) :
    EngineMoved (startedWork s k) (begun k s).2 ∧ SameWork (newWork k (startedWork s k)) (begun k s).1 := by
  obtain ⟨h1, h2⟩ := opened_spec k s
  obtain ⟨k1, k2⟩ := goOn_spec 5 (opened k s)
  exact ⟨h1.trans k1, h2.trans k2⟩

theorem startedWork_shape (k : WorkKind) (s : State) :
    ∃ b, startedWork s k = { s with engine := { s.engine with changePending := b } } := by
  cases k
  · exact ⟨false, rfl⟩
  all_goals exact ⟨s.engine.changePending, rfl⟩

/-- A work as it begins changes the engine, which keeps its request, and the work held. -/
theorem beginWork_shape (k : WorkKind) (s : State) : ∃ e w, e.request = s.engine.request ∧ e.activity = workActivity k ∧
    w.kind = k ∧ beginWork k s = { s with engine := e, memory := { s.memory with engineWork := some w } } := by
  obtain ⟨h1, h2⟩ := begun_spec k s
  obtain ⟨b, hb⟩ := startedWork_shape k s
  rw [hb] at h1
  obtain ⟨_, _, _, _, hf⟩ := h1
  refine ⟨(beginWork k s).engine, (begun k s).1, ?_, rfl, h2.1, ?_⟩
  · show (begun k s).2.engine.request = _
    rw [hf]
  · simp only [beginWork, setWork, hf]

/-- The row of a work ends it, with its transactions made, or changes nothing. -/
theorem engineRow_cases (k : WorkKind) (s : State) :
    engineRow k s = s ∨ ∃ (b : Bool) (w : EngineWork) (t : State) (rs : List MemRequester),
      w.kind = k ∧ WorkOnly { s with engine := { s.engine with changePending := b } } t ∧
      (∀ r ∈ rs, r = .xlate ∨ r = .log) ∧
      engineRow k s = workEnds w { t with memory := servedAlone s.memory rs } := by
  have he : ∀ x : EngineWork × State, ∀ u, endsWork x = some u → ∃ w t rs, SameWork x.1 w ∧ WorkOnly x.2 t ∧
      (∀ r ∈ rs, r = .xlate ∨ r = .log) ∧ u = workEnds w { t with memory := servedAlone x.2.memory rs } := by
    intro x u hu
    simp only [endsWork] at hu
    split at hu
    · obtain ⟨t, rs, h1, h2, h3, h4⟩ := finishWork_spec 5 x
      exact ⟨_, t, rs, h4, h1, h2, by rw [← h3]; exact (Option.some.inj hu).symm⟩
    · split at hu
      · exact ⟨x.1, x.2, [], .refl _, .refl _, by simp, (Option.some.inj hu).symm⟩
      · cases hu
  simp only [engineRow]
  split
  · next w hw =>
    split
    · next hk =>
      cases hx : endsWork (w, s) with
      | none => exact .inl rfl
      | some u =>
        obtain ⟨w2, t, rs, h1, h2, h3, h4⟩ := he _ u hx
        exact .inr ⟨s.engine.changePending, w2, t, rs, h1.1.trans hk, h2, h3, h4⟩
    · exact .inl rfl
  · split
    · cases hx : endsWork (if engineAlone s = true then opened k s else begun k s) with
      | none => exact .inl rfl
      | some u =>
        obtain ⟨w, t, rs, h1, h2, h3, h4⟩ := he _ u hx
        obtain ⟨b, hb⟩ := startedWork_shape k s
        have ho : EngineMoved (startedWork s k) (if engineAlone s = true then opened k s else begun k s).2 ∧
            SameWork (newWork k (startedWork s k)) (if engineAlone s = true then opened k s else begun k s).1 := by
          split
          · exact opened_spec k s
          · exact begun_spec k s
        refine .inr ⟨b, w, t, rs, (ho.2.trans h1).1, ?_, h3, ?_⟩
        · rw [← hb]; exact ho.1.only.trans h2
        · obtain ⟨_, _, _, _, hf⟩ := ho.1
          rw [hf, hb] at h4
          exact h4
    · exact .inl rfl

/-- A work that may not begin, with none begun, changes nothing. -/
theorem engineRow_idle {k : WorkKind} {s : State} (h1 : s.memory.engineWork = none) (h2 : mayBegin s k = false) :
    engineRow k s = s := by
  simp [engineRow, h2, h1]

/-! ### A step of the maintenance unit -/

/-- A step of the maintenance unit ends after its last transactions, or its row changes nothing. -/
theorem maintStep_cases (act : MaintWork → State → State) (s : State) :
    maintStep act s = s ∨ ∃ w, w = s.memory.maintWork.getD (begunStep s) ∧ (w.left = [] ∨ maintAlone s = true) ∧
      maintStep act s = act (stepDone w s) (stepServed w s) := by
  simp only [maintStep]
  split
  · next h => exact .inr ⟨_, rfl, h, rfl⟩
  · exact .inl rfl

/-- The transactions of a step made alone write the header, the slots, which stay in canonical form, and the arbiter. -/
theorem stepServed_shape (w : MaintWork) (s : State) : ∃ h sl m,
    stepServed w s = { s with dict := { s.dict with header := h, slots := sl }, memory := { m with maintWork := none } } ∧
    (m = s.memory ∨ m = grantAlone s.memory .maint) ∧ (slotsWf s.dict.slots = true → slotsWf sl = true) := by
  obtain ⟨h1, h2⟩ := carryAll_spec w.left (s.dict, w.removed)
  refine ⟨(stepWrites w s.dict).1.header, (stepWrites w s.dict).1.slots,
    (if w.left = [] then s.memory else grantAlone s.memory .maint), ?_, ?_, h2⟩
  · simp only [stepServed]
    rw [show s.dict.tiers = (stepWrites w s.dict).1.tiers from h1.symm]
  · split
    · exact .inl rfl
    · exact .inr rfl

/-- The writes of a PUT or a DROP begin: the head, the lock and its turn, the header and the engine's activity. -/
theorem takeLock_shape (plan : Plan) (s : State) : ∃ a, takeLock plan s = { s with
    dict := { s.dict with header := .writing }
    maint := { (setHeadPhase (.writing plan) s).maint with lockHeld := true, lockTurn := false }
    engine := { s.engine with activity := a } } := by
  obtain ⟨a, h⟩ := refreshActivity_shape
    (let s1 := setHeader .writing (setHeadPhase (.writing plan) s)
     { s1 with maint := { s1.maint with lockHeld := true, lockTurn := false } })
  exact ⟨a, h⟩

/-- A sweep starts: the head, the header, the tier, and the engine's event and activity. -/
theorem startSweep_shape (t : TierId) (s : State) : ∃ a, startSweep t s = { s with
    dict := { s.dict with header := .writing, tiers := (setClearing t true s).dict.tiers }
    maint := (setHeadPhase .sweeping s).maint
    engine := { s.engine with changePending := true, activity := a } } := by
  obtain ⟨a, h⟩ := refreshActivity_shape (setHeadPhase .sweeping (handChange (setClearing t true (setHeader .writing s))))
  exact ⟨a, h⟩

/-! ### The arbiter after transactions made alone -/

/-- Transactions made alone write the order and the counts alone (R184, R185). -/
theorem servedAlone_shape (rs : List MemRequester) (m : Memory) :
    ∃ o c, servedAlone m rs = { m with order := o, counts := c } := by
  induction rs generalizing m with
  | nil => exact ⟨m.order, m.counts, rfl⟩
  | cons r rs ih =>
    obtain ⟨o, c, h⟩ := ih (grantAlone m r)
    exact ⟨o, c, h⟩

/-- In FIXED mode the order never moves (R185). -/
theorem servedAlone_fixed (rs : List MemRequester) (m : Memory) (h : m.mode = .fixed) :
    (servedAlone m rs).order = m.order := by
  induction rs generalizing m with
  | nil => rfl
  | cons r rs ih => exact (ih (grantAlone m r) h).trans (by simp [grantAlone, orderAfter, h])

end Sys2Proof.Machine
end

