-- ==== Sys2Proof/Laws/Rings.lean ====
section
/-! SUPPORT. The journal's ring and the arbiter's order: what each of their operations keeps. -/

namespace Sys2Proof.Machine

/-! ### The journal -/

/-- The journal's part of `JournalSound`, of a journal by itself. -/
def RingSound (j : Journal) : Prop :=
  1 ≤ j.oldest ∧ j.oldest ≤ j.head + 1 ∧ j.cursor ≤ j.head + 1 ∧ j.held ≤ Config.journalRing ∧
    j.records.map JournalRecord.seq = List.range' j.oldest j.held

theorem journalSound_iff (s : State) : JournalSound s ↔ RingSound s.journal := Iff.rfl

/-- A journal write of a strike keeps the ring. -/
theorem RingSound.write {j : Journal} (h : RingSound j) (w : JournalWrite) : RingSound (j.write w) := by
  obtain ⟨a, b, c, d, e⟩ := h
  cases w with
  | mark n =>
    obtain ⟨h1, h2, h3, h4⟩ := modifyAt_ring j n JournalRecord.strike strike_seq
    simp only [RingSound, Journal.write, Journal.held, h1, h2, h3, h4]
    exact ⟨a, b, c, d, e⟩
  | target n ns =>
    obtain ⟨h1, h2, h3, h4⟩ := modifyAt_ring j n (JournalRecord.aim ns) (aim_seq ns)
    simp only [RingSound, Journal.write, Journal.held, h1, h2, h3, h4]
    exact ⟨a, b, c, d, e⟩

/-- The translate cursor and the head do not move at a strike's writes. -/
theorem journalWrite_pointers (j : Journal) (w : JournalWrite) :
    (j.write w).head = j.head ∧ (j.write w).oldest = j.oldest ∧ (j.write w).cursor = j.cursor := by
  cases w with
  | mark n => have h := modifyAt_ring j n JournalRecord.strike strike_seq; exact ⟨h.1, h.2.1, h.2.2.1⟩
  | target n ns => have h := modifyAt_ring j n (JournalRecord.aim ns) (aim_seq ns); exact ⟨h.1, h.2.1, h.2.2.1⟩

theorem RingSound.writes {j : Journal} (h : RingSound j) (ws : List JournalWrite) :
    RingSound (ws.foldl Journal.write j) := by
  induction ws generalizing j with
  | nil => exact h
  | cons w ws ih => exact ih (h.write w)

/-- An append of the next number keeps the ring, full or not (R9, R15). -/
theorem RingSound.append {j : Journal} (h : RingSound j) (r : JournalRecord) (hr : r.seq = j.head + 1) :
    RingSound (j.append r) := by
  obtain ⟨a, b, c, d, e⟩ := h
  simp only [Journal.append]
  split
  · next hl =>
    have hh : j.held = j.head + 1 - j.oldest := rfl
    refine ⟨a, Nat.le_succ_of_le b, Nat.le_succ_of_le c, ?_, ?_⟩
    · show j.head + 1 + 1 - j.oldest ≤ 65536
      have : j.held < 65536 := hl
      omega
    · simp only [Journal.held, List.map_append, e, List.map_cons, List.map_nil, hr]
      have : j.head + 1 + 1 - j.oldest = (j.head + 1 - j.oldest) + 1 := by omega
      rw [this, List.range'_concat]
      simp only [Nat.one_mul]
      congr 2
      omega
  · next hl =>
    have h0 : 65536 ≤ j.head + 1 - j.oldest := Nat.le_of_not_lt hl
    refine ⟨Nat.le_succ_of_le a, Nat.succ_le_succ b, Nat.le_succ_of_le c, ?_, ?_⟩
    · show j.head + 1 + 1 - (j.oldest + 1) ≤ 65536
      have : j.head + 1 - j.oldest ≤ 65536 := d
      omega
    · simp only [Journal.held] at e ⊢
      rw [List.map_append, List.map_drop, e, List.map_cons, List.map_nil, hr]
      obtain ⟨m, hm⟩ : ∃ m, j.head + 1 - j.oldest = m + 1 := ⟨j.head - j.oldest, by omega⟩
      rw [hm, List.range'_succ, List.drop_succ_cons, List.drop_zero]
      have : j.head + 1 + 1 - (j.oldest + 1) = m + 1 := by omega
      rw [this, List.range'_concat]
      simp only [Nat.one_mul]
      congr 2
      omega

/-- The translate cursor moves past a record held. -/
theorem RingSound.advance {j : Journal} (h : RingSound j) (hc : j.cursor ≤ j.head) :
    RingSound { j with cursor := j.cursor + 1 } := by
  obtain ⟨a, b, c, d, e⟩ := h
  exact ⟨a, b, Nat.succ_le_succ hc, d, e⟩

/-- A journal with other pull cursors is as sound. -/
theorem RingSound.pull {j : Journal} (h : RingSound j) (q : Quad (Option PullCursor)) :
    RingSound { j with pull := q } := h

/-- The journal emptied by OPEN. -/
theorem RingSound.emptied (j : Journal) : RingSound j.emptied := by
  refine ⟨Nat.le_refl 1, Nat.le_refl 1, Nat.le_refl 1, ?_, rfl⟩
  show 0 ≤ Config.journalRing
  exact Nat.zero_le _

/-- The journal at a reset (R19). -/
theorem RingSound.atReset {j : Journal} (h : RingSound j) : RingSound j.atReset := by
  obtain ⟨a, b, c, d, e⟩ := h
  exact ⟨a, b, Nat.le_refl _, d, e⟩

/-- A work keeps the journal's ring (R108). -/
theorem WorkOnly.ring {s t : State} (h : WorkOnly s t) (hr : RingSound s.journal) : RingSound t.journal := by
  have hs := h.seqs
  obtain ⟨e, f, l, rs, rfl⟩ := h.form
  obtain ⟨a, b, c, d, e⟩ := hr
  exact ⟨a, b, c, d, hs.trans e⟩

/-- What a reset carries to its end keeps the ring (R19, R187). -/
theorem appendInFlight_ring {s : State} (h : RingSound s.journal) : RingSound (appendInFlight s).journal := by
  simp only [appendInFlight]
  split
  · exact h
  · split
    · exact h.append _ rfl
    · obtain ⟨t, w, h1, h2⟩ := engineUseEnds_shape s
      rw [h2]; exact h1.ring h
    · obtain ⟨hd, sl, w, h1, -⟩ := maintUseEnds_shape s
      rw [h1]; exact h
    · exact h

/-! ### The arbiter -/

/-- The arbiter's part of `ArbiterSound`, of the memory controller by itself. -/
def ArbSound (m : Memory) : Prop :=
  m.order.Perm fixedOrder ∧ (m.mode = .fixed → m.order = fixedOrder) ∧ m.counts.xlate ≤ Config.passLimit ∧
    m.counts.log ≤ Config.passLimit ∧ m.counts.maint ≤ Config.passLimit ∧ m.counts.pull ≤ Config.passLimit

theorem arbiterSound_iff (s : State) : ArbiterSound s ↔ ArbSound s.memory := Iff.rfl

/-- A requester granted is INTAKE or stands in the order. -/
theorem arbitrate_mem {s : State} {r : MemRequester} (h : arbitrate s = some r) : r = .intake ∨ r ∈ s.memory.order := by
  simp only [arbitrate] at h
  split at h
  · exact .inl (Option.some.inj h).symm
  · split at h
    · next h2 =>
      cases h
      exact .inr (List.mem_filter.1 (List.mem_of_find?_eq_some h2)).1
    · exact .inr (List.mem_filter.1 (List.mem_of_head? h)).1

theorem countAfter_le (s : State) (r q : MemRequester) (h : s.memory.counts.get q ≤ Config.passLimit) :
    countAfter s r q ≤ Config.passLimit := by
  simp only [countAfter]
  split
  · exact Nat.zero_le _
  · split
    · exact Nat.min_le_right _ _
    · exact h

/-- A grant keeps the order an order of the four, and the counts within 8 (R184, R185). -/
theorem ArbSound.grant {s : State} (h : ArbSound s.memory) : ArbSound (grant s).memory := by
  obtain ⟨a, b, c1, c2, c3, c4⟩ := h
  simp only [Machine.grant]
  split
  · exact ⟨a, b, c1, c2, c3, c4⟩
  · split
    · exact ⟨a, b, c1, c2, c3, c4⟩
    · next r hr =>
      split
      · refine ⟨?_, ?_, countAfter_le s r _ c1, countAfter_le s r _ c2, countAfter_le s r _ c3, countAfter_le s r _ c4⟩
        · show (orderAfter s.memory.mode s.memory.order r).Perm fixedOrder
          simp only [orderAfter]
          split
          · exact a
          · split
            · exact a
            · next hi =>
              rcases arbitrate_mem hr with h1 | h1
              · exact absurd h1 hi
              · refine List.Perm.trans ?_ a
                exact (List.perm_append_comm.trans (List.perm_cons_erase h1).symm)
        · intro hm
          show orderAfter s.memory.mode s.memory.order r = fixedOrder
          have hm2 : s.memory.mode = .fixed := hm
          rw [hm2]
          exact b hm2
      · exact ⟨a, b, c1, c2, c3, c4⟩

/-- The order after a grant is an order of the four again (R185). -/
theorem orderAfter_perm (mode : ArbiterMode) {order : List MemRequester} (r : MemRequester) (h : order.Perm fixedOrder) :
    (orderAfter mode order r).Perm fixedOrder := by
  simp only [orderAfter]
  split
  · exact h
  · split
    · exact h
    · next hi =>
      have hm : r ∈ order := h.symm.subset (by cases r <;> first | exact absurd rfl hi | decide)
      exact (List.perm_append_comm.trans (List.perm_cons_erase hm).symm).trans h

/-- A grant with nobody else asking keeps the arbiter (R184, R185). -/
theorem ArbSound.alone {m : Memory} (h : ArbSound m) (r : MemRequester) : ArbSound (grantAlone m r) := by
  obtain ⟨a, b, c1, c2, c3, c4⟩ := h
  refine ⟨orderAfter_perm m.mode r a, ?_, ?_⟩
  · intro hm
    have hm2 : m.mode = .fixed := hm
    show orderAfter m.mode m.order r = fixedOrder
    rw [hm2]; exact b hm2
  · cases r
    · exact ⟨c1, c2, c3, c4⟩
    · exact ⟨Nat.zero_le _, c2, c3, c4⟩
    · exact ⟨c1, Nat.zero_le _, c3, c4⟩
    · exact ⟨c1, c2, Nat.zero_le _, c4⟩
    · exact ⟨c1, c2, c3, Nat.zero_le _⟩

/-- Transactions made alone keep the arbiter. -/
theorem ArbSound.served {m : Memory} (h : ArbSound m) (rs : List MemRequester) : ArbSound (servedAlone m rs) := by
  induction rs generalizing m with
  | nil => exact h
  | cons r rs ih => exact ih (h.alone r)

end Sys2Proof.Machine
end

