-- ==== Sys2Proof/Laws/Words.lean ====
section
/-! SUPPORT. The words of Safety that statements use are what the operations do: rooms, appends, settles, activity, and the
rows of the engine and of the maintenance unit while entry memory is quiet. -/

namespace Sys2Proof.Machine

/-! ### Grants one after another (R184, R185) -/

theorem afterGrants_alone {r : MemRequester} (m : Memory) (h : r ≠ .intake) : afterGrants r m = grantAlone m r := by
  have ho : (if m.mode = .fixed ∨ r = .intake then m.order else m.order.erase r ++ [r]) = orderAfter m.mode m.order r := by
    cases hm : m.mode <;> simp [orderAfter, h]
  simp only [afterGrants, grantAlone, ho]
  cases r <;> rfl

/-- A second grant to the same requester changes nothing more. -/
theorem grantAlone_twice {m : Memory} (h : m.order.Perm fixedOrder) (r : MemRequester) :
    grantAlone (grantAlone m r) r = grantAlone m r := by
  have hn : m.order.Nodup := h.nodup_iff.mpr (by decide)
  have ho : orderAfter m.mode (orderAfter m.mode m.order r) r = orderAfter m.mode m.order r := by
    cases hm : m.mode
    · rfl
    · by_cases hr : r = .intake
      · simp [orderAfter, hr]
      · have : r ∉ m.order.erase r := hn.not_mem_erase
        simp only [orderAfter, hr, if_false]
        rw [List.erase_append_right _ this]
        simp
  have hc : (m.counts.clear r).clear r = m.counts.clear r := by cases r <;> rfl
  simp only [grantAlone, hc, ho]

/-- Any number of transactions of one requester, one after another, are what one of them is to the arbiter. -/
theorem servedAlone_same {m : Memory} (h : m.order.Perm fixedOrder) (r : MemRequester) :
    ∀ rs : List MemRequester, rs ≠ [] → (∀ q ∈ rs, q = r) → servedAlone m rs = grantAlone m r
  | [], h0, _ => absurd rfl h0
  | [q], _, hq => by rw [hq q (by simp)]; rfl
  | q :: q' :: rs, _, hq => by
    have e : q = r := hq q (by simp)
    have ih := servedAlone_same (m := grantAlone m r) (orderAfter_perm m.mode r h) r (q' :: rs) (by simp)
      (fun x hx => hq x (List.mem_cons_of_mem _ hx))
    rw [e]
    exact ih.trans (grantAlone_twice h r)

theorem servedAlone_append (m : Memory) (a b : List MemRequester) :
    servedAlone m (a ++ b) = servedAlone (servedAlone m a) b := List.foldl_append

/-- Transactions of XLATE and then of LOG, at least one of each, with nobody else asking. -/
theorem servedAlone_xlate_log {m : Memory} (h : m.order.Perm fixedOrder) {a b : List MemRequester} (ha : a ≠ [])
    (hx : ∀ q ∈ a, q = .xlate) (hb : b ≠ []) (hl : ∀ q ∈ b, q = .log) :
    servedAlone m (a ++ b) = afterGrants .log (afterGrants .xlate m) := by
  rw [servedAlone_append, servedAlone_same h .xlate a ha hx,
    servedAlone_same (orderAfter_perm m.mode _ h) .log b hb hl, afterGrants_alone _ (by decide), afterGrants_alone _ (by decide)]

/-- Any transactions of blocks other than intake, in the words of Safety. -/
theorem madeBy_eq {rs : List MemRequester} (h : ∀ r ∈ rs, r ≠ .intake) (m : Memory) : madeBy rs m = servedAlone m rs := by
  induction rs generalizing m with
  | nil => rfl
  | cons r rs ih =>
    simp only [madeBy, servedAlone, List.foldl_cons, afterGrants_alone m (h r (by simp))]
    exact ih (fun q hq => h q (List.mem_cons_of_mem _ hq)) _


/-! ### Activity (R39, R41) -/

theorem retransWaits_iff (s : State) :
    retransWaits s = true ↔ ∃ r, s.engine.request = some r ∧ r.phase = .pending := by
  simp only [retransWaits]
  cases s.engine.request <;> simp

theorem heldBack_iff (s : State) :
    heldBack s = true ↔ s.maint.lockHeld = true ∧ (s.engine.changePending = true ∨
      (∃ r, s.engine.request = some r ∧ r.phase = .pending) ∨ s.journal.cursor ≤ s.journal.head) := by
  rw [← retransWaits_iff]
  simp [heldBack, takeReady]
  tauto

theorem refreshActivity_eq (s : State) : refreshActivity s = refreshed s := by
  simp only [refreshActivity, refreshed]
  have hb := heldBack_iff s
  split <;> rename_i h
  · simp only [h, true_or, if_true, hb]
  · simp only [h, or_true, if_true, hb]
  · simp only [h, reduceCtorEq, or_self, if_false]; simp only [← h]
  · simp only [h, reduceCtorEq, or_self, if_false]; simp only [← h]

/-- With the lock FREE a work of an engine that is at no work ends IDLE. -/
theorem endWork_free {s : State} (h1 : s.engine.activity = .idle) (h2 : s.maint.lockHeld = false) :
    endWork s = workEnded s := by
  rw [endWork, refreshActivity_eq]
  simp only [refreshed, workEnded, h1, h2]
  simp [← h1]

/-! ### The guards of a STROKE (R9, R12 to R14) -/

theorem ringFull_iff (s : State) : ringFull s = true ↔ 65536 ≤ s.journal.held + s.memory.intakeWork.length := by
  simp [ringFull, Config.journalRing]

theorem guardBusy_iff (s : State) : guardBusy s = true ↔
    65536 ≤ s.journal.held + s.memory.intakeWork.length ∧ victimSeq s < s.journal.cursor ∧
      ((∃ u ∈ (asOfLast s).units, victimSeq s ∈ u.strokes) ∨ ∃ e ∈ (asOfLast s).run, e.seq = victimSeq s) ∧
      (s.engine.activity = .resolving ∨ s.engine.activity = .retranslating) := by
  simp [guardBusy, ringFull_iff, recordNamed, engineWorking, and_assoc]

theorem journalExhausted_iff (s : State) : journalExhausted s = true ↔
    4294967294 ≤ s.journal.head + s.memory.intakeWork.length ∨
      (65536 ≤ s.journal.held + s.memory.intakeWork.length ∧ s.journal.cursor ≤ victimSeq s) := by
  simp [journalExhausted, ringFull_iff, Config.lastSequence]

theorem runHolds_iff (n : Nat) (s : State) : runHolds n s = true ↔ ∃ e ∈ s.engine.run, e.seq = n := by simp [runHolds]

theorem changesWait_iff (s : State) : changesWait s = true ↔ ∃ b, .change b ∈ s.memory.logWork := by
  simp only [changesWait, List.any_eq_true]
  constructor
  · rintro ⟨w, h, e⟩
    cases w with
    | change b => exact ⟨b, h⟩
    | _ => cases e
  · rintro ⟨b, h⟩
    exact ⟨_, h, rfl⟩

/-! ### A reset that meets a transaction (R19, R108, R187) -/

/-- A reset depends on the device, the ports, the journal, the table and the queue of commands alone. -/
theorem resetBlocks_congr {c : ResetCause} {d : DeviceState} {s t : State} (h1 : t.device = s.device) (h2 : t.ports = s.ports)
    (h3 : t.pending = s.pending) : resetBlocks c d t = resetBlocks c d { s with journal := t.journal, dict := t.dict } := by
  simp only [resetBlocks, h1, h2, h3]

/-- What a reset carries to its end leaves the device, the ports and the queue of commands as they are. -/
theorem appendInFlight_keeps (s : State) : (appendInFlight s).device = s.device ∧ (appendInFlight s).ports = s.ports ∧
    (appendInFlight s).pending = s.pending := by
  simp only [appendInFlight]
  split
  · exact ⟨rfl, rfl, rfl⟩
  · split
    · exact ⟨rfl, rfl, rfl⟩
    · obtain ⟨t, w, h, e⟩ := engineUseEnds_shape s
      obtain ⟨_, _, _, _, hf⟩ := h.form
      rw [e, hf]; exact ⟨rfl, rfl, rfl⟩
    · obtain ⟨_, _, _, e, _⟩ := maintUseEnds_shape s
      rw [e]; exact ⟨rfl, rfl, rfl⟩
    · exact ⟨rfl, rfl, rfl⟩

/-- A reset gives the reset values over the journal and the table that the transaction in progress leaves. -/
theorem resetPart_eq (c : ResetCause) (d : DeviceState) (s : State) : resetPart c d s =
    resetBlocks c d { s with journal := (appendInFlight s).journal, dict := (appendInFlight s).dict } :=
  resetBlocks_congr (appendInFlight_keeps s).1 (appendInFlight_keeps s).2.1 (appendInFlight_keeps s).2.2

/-! ### The log (R81 to R86, R97) -/

theorem makeRoom_eq (s : State) : makeRoom s = roomMade s := rfl

theorem appendSegment_eq (body : SegmentBody) (s : State) : appendSegment body s = segmentAppended body s := rfl

theorem isTarget_eq (l : CaptionLog) (k : SegNo) (g : Segment) : l.isTarget k g = isTargetOf l k g := by
  have h : l.after k g.number = true ↔
      (l.segments.length ≤ (k - l.oldest).toNat ∨ (k - l.oldest).toNat < (g.number - l.oldest).toNat) := by
    rw [CaptionLog.after, Bool.or_eq_true, Bool.not_eq_true', CaptionLog.holds, decide_eq_false_iff_not, decide_eq_true_iff,
      Nat.not_lt]
    exact Iff.rfl
  rw [Bool.eq_iff_iff, CaptionLog.isTarget, isTargetOf, Bool.and_eq_true, h]
  simp [and_comm]

theorem eraseCount_eq (l : CaptionLog) (k : SegNo) (f : Option Feed) : eraseCount l k f = erasedFor l k f := by
  cases f with
  | none => rfl
  | some f =>
    simp only [eraseCount, erasedFor]
    congr 2
    apply List.filter_congr
    intro g _
    rw [isTarget_eq]
    simp only [CaptionLog.counted, CaptionLog.refRank, CaptionLog.rank]
    rw [Bool.eq_iff_iff]
    by_cases h1 : f.floor.lapsed = true <;> by_cases h2 : f.cursor.lapsed = true <;> simp_all [and_assoc]

theorem appendWithdraw_eq (k : SegNo) (s : State) : appendWithdraw k s = withdrawAppended k s := by
  simp only [appendWithdraw, withdrawAppended, makeRoom_eq, isTarget_eq, eraseCount_eq]
  rfl

/-! ### Settles (R54, R60) -/

theorem settled_not_provisional (g : Segment) : (g.withState .settled).textState ≠ some .provisional := by
  obtain ⟨n, b⟩ := g
  cases b <;> simp [Segment.withState, Segment.textState]

/-- Promotions one after another settle the segments given, and the units that show them, as all at once (R48, R54, R84). -/
theorem carryUses_promotes (gs : List SegNo) (s : State) : carryUses (gs.map .promote) s =
    { s with
      log := { s.log with segments := s.log.segments.map (fun g =>
        if g.textState = some .provisional ∧ g.number ∈ gs then g.withState .settled else g) }
      engine := { s.engine with
        units := s.engine.units.map (fun u => { u with settled := u.settled || decide (u.segment ∈ gs) }) } } := by
  induction gs generalizing s with
  | nil => simp [carryUses]
  | cons n gs ih =>
    show carryUses (gs.map .promote) (promoteSegment n s) = _
    rw [ih]
    have h1 : (promoteSegment n s).log.segments.map (fun g =>
        if g.textState = some .provisional ∧ g.number ∈ gs then g.withState .settled else g) =
        s.log.segments.map (fun g =>
          if g.textState = some .provisional ∧ g.number ∈ n :: gs then g.withState .settled else g) := by
      simp only [promoteSegment, CaptionLog.promote, List.map_map]
      apply List.map_congr_left
      intro g _
      simp only [Function.comp, List.mem_cons]
      by_cases hp : g.textState = some .provisional
      · by_cases hn : g.number = n
        · simp [hn, hp, settled_not_provisional]
        · simp [hn]
      · simp [hp]
    have h2 : (promoteSegment n s).engine.units.map (fun u => { u with settled := u.settled || decide (u.segment ∈ gs) }) =
        s.engine.units.map (fun u => { u with settled := u.settled || decide (u.segment ∈ n :: gs) }) := by
      simp only [promoteSegment, List.map_map]
      apply List.map_congr_left
      intro u _
      simp only [Function.comp, List.mem_cons]
      by_cases hn : u.segment = n
      · simp [hn]
      · simp [hn]
    rw [h1, h2]
    rfl

theorem settleRun_eq (s : State) : settleRun s = settledRun s := by
  have e : settleUses s = ((provisionalListed s).map ListedUnit.segment).map .promote := by simp [settleUses]
  have h1 : s.log.segments.map (fun g =>
      if g.textState = some .provisional ∧ g.number ∈ (provisionalListed s).map ListedUnit.segment then g.withState .settled
      else g) = (settledRun s).log.segments := by
    apply List.map_congr_left
    intro g _
    have : (g.number ∈ (provisionalListed s).map ListedUnit.segment) ↔
        s.engine.units.any (fun u => !u.settled && u.segment == g.number) = true := by
      simp [provisionalListed, and_assoc]
    simp only [this]
  have h2 : s.engine.units.map (fun u =>
      { u with settled := u.settled || decide (u.segment ∈ (provisionalListed s).map ListedUnit.segment) }) =
      (settledRun s).engine.units := by
    apply List.map_congr_left
    intro u hu
    cases hs : u.settled with
    | true => simp
    | false =>
      have : u.segment ∈ (provisionalListed s).map ListedUnit.segment :=
        List.mem_map.2 ⟨u, List.mem_filter.2 ⟨hu, by simp [hs]⟩, rfl⟩
      simp [this]
  rw [settleRun, e, carryUses_promotes]
  simp only [emptyRun, h1, h2]
  rfl

theorem headroomed_eq (bound : Nat) (s : State) : headroomed bound s = if headroomDue bound s then settleRun s else s := by
  simp only [headroomed, headroomDue, settleRun_eq, provisionalListed]
  cases (s.engine.units.filter (fun u => !u.settled)).head? <;> simp

theorem expiredBy_eq (stamp : Stamp) (s : State) :
    expiredBy s.session.hold stamp s = if expiryDue stamp s then settleRun s else s := by
  simp only [expiredBy, expiryDue, expired, settleRun_eq]
  cases s.engine.lastTaken <;> simp

/-- The checks of a take settle the run once or not at all, in the words of Safety (R53, R60). -/
theorem takeSettles_eq {r : JournalRecord} {s : State} (h : recordToTake s = some r) :
    (if takeSettles s then settleRun s else s) = expiredBy s.session.hold r.stamp (headroomed 4089 s) := by
  have e : headroomed 4089 s = if headroomDue Config.takeHeadroom s then settleRun s else s := headroomed_eq _ _
  simp only [takeSettles, h, e]
  cases hd : headroomDue Config.takeHeadroom s with
  | false => simp only [Bool.false_or, Bool.false_eq_true, if_false, expiredBy_eq]
  | true =>
    have hn : expiredBy s.session.hold r.stamp (settleRun s) = settleRun s := by
      simp only [expiredBy, settleRun_eq, settledRun]
      split
      · simp
      · rfl
    simp [hn]

/-! ### Resolution (R43 to R51) -/

/-- The longest bearing reading is that of some number of strokes, and every longer one has none (R44). -/
theorem longestReading_spec (slots : List (Nat × Slot)) (tiers : List TierId) (run : List RunEntry) (n : Nat) :
    match longestReading slots tiers run n with
    | some (m, x) => 1 ≤ m ∧ m ≤ n ∧ bestLookup slots tiers ((run.take m).map RunEntry.chord) = some x ∧
        ∀ k, m < k → k ≤ n → bestLookup slots tiers ((run.take k).map RunEntry.chord) = none
    | none => ∀ k, 1 ≤ k → k ≤ n → bestLookup slots tiers ((run.take k).map RunEntry.chord) = none := by
  induction n with
  | zero => intro k h1 h2; omega
  | succ n ih =>
    rw [longestReading]
    cases hb : bestLookup slots tiers ((run.take (n + 1)).map RunEntry.chord) with
    | some x => exact ⟨by omega, le_rfl, hb, fun k h1 h2 => by omega⟩
    | none =>
      show match longestReading slots tiers run n with
        | some (m, x) => _
        | none => _
      cases hl : longestReading slots tiers run n with
      | some y =>
        rw [hl] at ih
        obtain ⟨h1, h2, h3, h4⟩ := ih
        refine ⟨h1, by omega, h3, fun k hk1 hk2 => ?_⟩
        rcases Nat.lt_or_ge n k with h | h
        · rw [show k = n + 1 by omega]; exact hb
        · exact h4 k hk1 h
      | none =>
        rw [hl] at ih
        intro k hk1 hk2
        rcases Nat.lt_or_ge n k with h | h
        · rw [show k = n + 1 by omega]; exact hb
        · exact ih k hk1 h

/-- The head unit formed is the head unit of R44, and the strokes left are those after it. -/
theorem formHead_spec (slots : List (Nat × Slot)) (tiers : List TierId) (settled : Bool) {run : List RunEntry}
    (h : run ≠ []) :
    HeadUnit slots tiers run settled (formHead slots tiers settled run).1 ∧
      (formHead slots tiers settled run).2 = run.drop (formHead slots tiers settled run).1.strokes.length := by
  have hlen : 1 ≤ run.length := List.length_pos_iff.mpr h
  have hs := longestReading_spec slots tiers run run.length
  simp only [formHead, headFrom]
  split
  · next n l m r hl =>
    rw [hl] at hs
    obtain ⟨h1, h2, h3, h4⟩ := hs
    refine ⟨⟨n, some (l, m, r), h1, h2, rfl, h4, h3.symm, by simp⟩, ?_⟩
    simp [Nat.min_eq_left h2]
  · next hl =>
    rw [hl] at hs
    refine ⟨⟨1, none, le_rfl, hlen, rfl, fun k h1 h2 => hs k (by omega) h2, (hs 1 le_rfl hlen).symm, fun _ => rfl⟩, ?_⟩
    simp [Nat.min_eq_left hlen]

theorem runClosed_iff (slots : List (Nat × Slot)) (tiers : List TierId) (run : List RunEntry) :
    runClosed slots tiers run = true ↔ ClosedRun slots tiers run := by
  have h : continues slots tiers (run.map RunEntry.chord) = false ↔
      ∀ l ∈ tiers, ∀ n q, lookup slots l (run.map RunEntry.chord) = some (n, q) → q.extensions = 0 := by
    rw [continues, List.any_eq_false]
    refine forall₂_congr fun l _ => ?_
    cases hl : lookup slots l (run.map RunEntry.chord) with
    | none => simp [hasExtensions]
    | some x => obtain ⟨n, q⟩ := x; simp [hasExtensions]
  rw [runClosed, ClosedRun, Bool.or_eq_true, decide_eq_true_iff, Bool.not_eq_true', h]

theorem headUnit_length {slots : List (Nat × Slot)} {tiers : List TierId} {run : List RunEntry} {settled : Bool}
    {u : Formed} (h : HeadUnit slots tiers run settled u) : 1 ≤ u.strokes.length := by
  obtain ⟨n, found, h1, h2, rfl, _⟩ := h
  simp; omega

theorem provisionalUnits_spec (slots : List (Nat × Slot)) (tiers : List TierId) :
    ∀ (n : Nat) (run : List RunEntry), run.length ≤ n → CoversRun slots tiers run (provisionalUnits slots tiers n run)
  | 0, run, h => by
    have : run = [] := List.length_eq_zero_iff.mp (by omega)
    subst this; exact .done
  | n + 1, [], _ => .done
  | n + 1, e :: rest, h => by
    obtain ⟨h1, h2⟩ := formHead_spec slots tiers false (run := e :: rest) (by simp)
    have hl := headUnit_length h1
    refine .unit h1 ?_
    have := provisionalUnits_spec slots tiers n ((e :: rest).drop (formHead slots tiers false (e :: rest)).1.strokes.length)
      (by simp at h ⊢; omega)
    rwa [← h2] at this ⊢

theorem settleHeads_spec (slots : List (Nat × Slot)) (tiers : List TierId) :
    ∀ (n : Nat) (run : List RunEntry), run.length ≤ n →
      FormsRun slots tiers run ((settleHeads slots tiers n run).1 ++
        provisionalUnits slots tiers (settleHeads slots tiers n run).2.length (settleHeads slots tiers n run).2)
        (settleHeads slots tiers n run).2
  | 0, run, h => by
    have : run = [] := List.length_eq_zero_iff.mp (by omega)
    subst this; exact .empty
  | n + 1, [], _ => .empty
  | n + 1, e :: rest, h => by
    rw [settleHeads]
    by_cases hc : runClosed slots tiers (e :: rest) = true
    · obtain ⟨h1, h2⟩ := formHead_spec slots tiers true (run := e :: rest) (by simp)
      have hl := headUnit_length h1
      have ih := settleHeads_spec slots tiers n ((e :: rest).drop (formHead slots tiers true (e :: rest)).1.strokes.length)
        (by simp at h ⊢; omega)
      simp only [hc, if_true]
      refine .head (by simp) ((runClosed_iff _ _ _).mp hc) h1 ?_
      rwa [← h2] at ih ⊢
    · simp only [Bool.not_eq_true] at hc
      simp only [hc, Bool.false_eq_true, if_false, List.nil_append]
      exact .openRun (by simp) (fun hcl => by rw [(runClosed_iff _ _ _).mpr hcl] at hc; cases hc)
        (provisionalUnits_spec slots tiers _ _ le_rfl)

theorem formSequence_forms (slots : List (Nat × Slot)) (tiers : List TierId) (run : List RunEntry) :
    FormsRun slots tiers run (formSequence slots tiers run).1 (formSequence slots tiers run).2 :=
  settleHeads_spec slots tiers run.length run le_rfl

theorem renderSequence_renders (roster : List (List Byte)) (us : List Formed) (f : FormatState) :
    RendersRun roster f us (renderSequence roster f us) := by
  induction us generalizing f with
  | nil => trivial
  | cons u us ih =>
    refine ⟨rfl, rfl, rfl, rfl, ?_, ?_, ?_, ih _⟩
    · have : u.firstChord = (u.strokes.head?.map RunEntry.chord).getD 0#23 := by
        rw [Formed.firstChord]; cases u.strokes <;> rfl
      rw [← this]
    · show isCommandContent u.content = true ↔ _
      cases hc : u.content with
      | none => simp [isCommandContent]
      | some c => cases c <;> simp [isCommandContent]
    · show u.newestStamp = _
      rw [Formed.newestStamp]; cases u.strokes.getLast? <;> rfl

theorem leadingMatches_spec (l : CaptionLog) (old : List ListedUnit) (news : List NewUnit) :
    MatchesUpTo l old news (leadingMatches l old news) := by
  induction old generalizing news with
  | nil => simp [leadingMatches, MatchesUpTo]
  | cons o os ih =>
    cases news with
    | nil => simp [leadingMatches, MatchesUpTo]
    | cons q qs =>
      have hm : unitsMatch l o q = true ↔ (o.strokes = q.strokes ∧ o.reading = q.reading ∧
          l.textOf o.segment = some q.text ∧ (o.settled = true → q.settled = true)) := by
        simp [unitsMatch, and_assoc]
        cases o.settled <;> cases q.settled <;> simp
      rw [leadingMatches]
      by_cases h : unitsMatch l o q = true
      · obtain ⟨h1, h2, h3, h4⟩ := ih qs
        rw [if_pos h]
        refine ⟨by simp; omega, by simp; omega, ?_, fun o' q' => by simpa using h4 o' q'⟩
        intro i o' q' hi ho hq
        cases i with
        | zero =>
          simp at ho hq
          subst ho hq
          exact hm.mp h
        | succ i => exact h3 i o' q' (by omega) (by simpa using ho) (by simpa using hq)
      · rw [if_neg h]
        refine ⟨by simp, by simp, by simp, ?_⟩
        intro o' q' ho hq
        simp at ho hq
        subst ho hq
        exact fun hc => h (hm.mpr hc)

theorem joinUnit_eq (s : State) (q : NewUnit) : joinUnit s q = unitJoined s q := rfl

theorem settledAfter_eq (f : FormatState) (news : List NewUnit) : settledAfter f news = formatAfter f news := rfl

theorem diffUses_log (old : List ListedUnit) (news : List NewUnit) (j : Nat) :
    ∀ u ∈ diffUses old news j, u.requester = .log := by
  intro u hu
  simp only [diffUses, List.mem_append, List.mem_map, Option.mem_toList, Option.map_eq_some_iff] at hu
  rcases hu with (⟨_, _, rfl⟩ | ⟨_, _, rfl⟩) | ⟨_, _, rfl⟩ <;> rfl

theorem settleUses_log (s : State) : ∀ u ∈ settleUses s, u.requester = .log := by
  intro u hu
  obtain ⟨_, _, rfl⟩ := List.mem_map.1 hu
  rfl

/-- The transactions of the diff leave the list and the log as the diff is in the words of Safety (R47 to R51, R119). -/
theorem carryUses_diff (rebuilt : Bool) (stay old : List ListedUnit) (news : List NewUnit) (j : Nat) (s : State) :
    carryUses (diffUses old news j) (keepUnits rebuilt stay old news j s) = diffed rebuilt stay old news j s := by
  have hz : (old.take j).zip (news.take j) = (old.zip news).take j := (List.take_zipWith ..).symm
  have hp : ∀ n : SegNo, n ∈ keptPromotions ((old.zip news).take j) ↔
      ((old.zip news).take j).any (fun k => k.1.segment == n && !k.1.settled && k.2.settled) = true := by
    intro n
    simp only [keptPromotions, List.mem_map, List.mem_filter, List.any_eq_true, Bool.and_eq_true, beq_iff_eq]
    constructor
    · rintro ⟨k, ⟨h1, h2, h3⟩, h4⟩; exact ⟨k, h1, ⟨h4, h2⟩, h3⟩
    · rintro ⟨k, h1, ⟨h4, h2⟩, h3⟩; exact ⟨k, ⟨h1, h2, h3⟩, h4⟩
  have ha : ∀ (xs ys : List Use) (x : State), carryUses (xs ++ ys) x = carryUses ys (carryUses xs x) :=
    fun xs ys x => List.foldl_append
  have ht : ∀ (qs : List NewUnit) (x : State), carryUses (qs.map .text) x = qs.foldl unitJoined x := by
    intro qs
    induction qs with
    | nil => intro x; rfl
    | cons q qs ih => intro x; exact ih _
  have hk : carryUses ((keptPromotions ((old.zip news).take j)).map .promote) (keepUnits rebuilt stay old news j s) =
      { s with
        log := { s.log with segments := s.log.segments.map (fun g =>
          if g.textState = some .provisional ∧ ((old.zip news).take j).any (fun k =>
            k.1.segment == g.number && !k.1.settled && k.2.settled) = true then g.withState .settled else g) }
        engine := { s.engine with units := (stay ++ ((old.zip news).take j).map (fun k : ListedUnit × NewUnit =>
          { k.1 with after := k.2.after, before := if rebuilt then k.2.before else k.1.before })).map (fun u : ListedUnit =>
            { u with settled := u.settled || ((old.zip news).take j).any (fun k =>
              k.1.segment == u.segment && !k.1.settled && k.2.settled) }) } } := by
    rw [carryUses_promotes]
    simp only [hp, Bool.decide_coe, keepUnits, hz]
    rfl
  simp only [diffUses, hz, ha, hk, ht, diffed]
  cases h : (old.drop j).head? with
  | none =>
    have h2 : old[j]? = none := by rw [← List.head?_drop]; exact h
    simp only [h2, Option.map_none, Option.toList]
    rfl
  | some o =>
    have h2 : old[j]? = some o := by rw [← List.head?_drop]; exact h
    simp only [h2, Option.map_some, Option.toList]
    show List.foldl unitJoined (appendWithdraw _ _) _ = _
    rw [appendWithdraw_eq]

/-! ### What the log's transactions do not read

They read neither the journal nor the memory controller, neither the run nor the settled format state, so these may be written
before or after. -/

/-- A state with another journal, memory controller, run and settled format state. -/
def State.besides (s : State) (j : Journal) (m : Memory) (r : List RunEntry) (f : FormatState) : State :=
  { s with journal := j, memory := m, engine := { s.engine with run := r, format := f } }

theorem makeRoom_apart (s : State) (j : Journal) (m : Memory) (r : List RunEntry) (f : FormatState) :
    makeRoom (s.besides j m r f) = (makeRoom s).besides j m r f := by
  by_cases h : s.log.segments.length < Config.logRing <;> simp only [makeRoom, State.besides, h, if_true, if_false] <;> rfl

theorem appendWithdraw_apart (k : SegNo) (s : State) (j : Journal) (m : Memory) (r : List RunEntry) (f : FormatState) :
    appendWithdraw k (s.besides j m r f) = (appendWithdraw k s).besides j m r f := by
  simp only [appendWithdraw, makeRoom_apart]; rfl

theorem joinUnit_apart (s : State) (q : NewUnit) (j : Journal) (m : Memory) (r : List RunEntry) (f : FormatState) :
    joinUnit (s.besides j m r f) q = (joinUnit s q).besides j m r f := by
  have h := makeRoom_apart { s with engine := { s.engine with units := evictForRoom s.engine.units } } j m r f
  have e : makeRoom { s.besides j m r f with
      engine := { (s.besides j m r f).engine with units := evictForRoom (s.besides j m r f).engine.units } } =
      (makeRoom { s with engine := { s.engine with units := evictForRoom s.engine.units } }).besides j m r f := h
  simp only [joinUnit, appendSegment, e]; rfl

theorem carryUse_apart {u : Use} (h : u.requester = .log) (s : State) (j : Journal) (m : Memory) (r : List RunEntry)
    (f : FormatState) : carryUse u (s.besides j m r f) = (carryUse u s).besides j m r f := by
  cases u with
  | record n => cases h
  | slot n => cases h
  | write w => cases h
  | promote g => rfl
  | withdraw k => exact appendWithdraw_apart k s j m r f
  | turn g => rfl
  | text q => exact joinUnit_apart s q j m r f

theorem carryUses_apart {us : List Use} (h : ∀ u ∈ us, u.requester = .log) (s : State) (j : Journal) (m : Memory)
    (r : List RunEntry) (f : FormatState) : carryUses us (s.besides j m r f) = (carryUses us s).besides j m r f := by
  induction us generalizing s with
  | nil => rfl
  | cons u us ih =>
    show carryUses us (carryUse u _) = _
    rw [carryUse_apart (h u (by simp))]
    exact ih (fun v hv => h v (List.mem_cons_of_mem _ hv)) _

/-- What they leave of the run, the settled format state, the activity and the last taken stamp. -/
theorem carryUses_keep {us : List Use} (h : ∀ u ∈ us, u.requester = .log) (s : State) :
    (carryUses us s).journal = s.journal ∧ (carryUses us s).memory = s.memory ∧
      (carryUses us s).engine.run = s.engine.run ∧ (carryUses us s).engine.format = s.engine.format ∧
      (carryUses us s).engine.lastTaken = s.engine.lastTaken := by
  have e := carryUses_apart h s s.journal s.memory s.engine.run s.engine.format
  have hs : s.besides s.journal s.memory s.engine.run s.engine.format = s := rfl
  rw [hs] at e
  refine ⟨by rw [e]; rfl, by rw [e]; rfl, by rw [e]; rfl, by rw [e]; rfl, ?_⟩
  clear e hs
  induction us generalizing s with
  | nil => rfl
  | cons u us ih =>
    refine (ih (fun v hv => h v (List.mem_cons_of_mem _ hv)) (carryUse u s)).trans ?_
    have hr : ∀ x : State, (makeRoom x).engine.lastTaken = x.engine.lastTaken := fun x => by
      obtain ⟨_, hx⟩ := makeRoom_engine x
      rw [hx]
    cases u with
    | record n => rfl
    | slot n => rfl
    | write w => rfl
    | promote g => rfl
    | withdraw k => exact hr s
    | turn g => rfl
    | text q => exact hr { s with engine := { s.engine with units := evictForRoom s.engine.units } }

/-- A settle changes nothing of the journal and the memory controller. -/
theorem settleRun_apart (s : State) (j : Journal) (m : Memory) :
    settleRun { s with journal := j, memory := m } = { settleRun s with journal := j, memory := m } := by
  have e := carryUses_apart (settleUses_log s) (emptyRun s) j m (emptyRun s).engine.run (emptyRun s).engine.format
  have k := carryUses_keep (settleUses_log s) (emptyRun s)
  have h1 : settleRun { s with journal := j, memory := m } =
      carryUses (settleUses s) ((emptyRun s).besides j m (emptyRun s).engine.run (emptyRun s).engine.format) := rfl
  rw [h1, e, State.besides, ← k.2.2.1, ← k.2.2.2.1]
  rfl

/-! ### Units formed read by read, on a table that stays as it is -/

theorem walkBy_table (slots : List (Nat × Slot)) (t : TierId) (cs : List Chord) (n : Nat) (m : SlotNo) (reads : List SlotNo) :
    (walkBy (fun _ k => slotAt slots k.toNat) t cs n m reads).1 = walk slots t cs n m := by
  induction n generalizing m reads with
  | zero => rfl
  | succ n ih =>
    simp only [walkBy, walk]
    cases slotAt slots m.toNat with
    | empty => rfl
    | vacated => exact ih _ _
    | occupied r =>
      simp only
      split
      · rfl
      · exact ih _ _

theorem lookupBy_table (slots : List (Nat × Slot)) (t : TierId) (cs : List Chord) (reads : List SlotNo) :
    (lookupBy (fun _ k => slotAt slots k.toNat) t cs reads).1 = lookup slots t cs := walkBy_table ..

theorem bestBy_table (slots : List (Nat × Slot)) (tiers : List TierId) (cs : List Chord) (reads : List SlotNo) :
    (bestBy (fun _ k => slotAt slots k.toNat) tiers cs reads).1 = bestLookup slots tiers cs := by
  induction tiers generalizing reads with
  | nil => rfl
  | cons l rest ih =>
    have h := lookupBy_table slots l cs reads
    rcases hx : lookupBy (fun _ k => slotAt slots k.toNat) l cs reads with ⟨_ | ⟨n, r⟩, after⟩
    · rw [hx] at h
      simp only [bestBy, bestLookup, hx, ← h]
      exact ih _
    · rw [hx] at h
      simp only [bestBy, bestLookup, hx, ← h]
      split
      · rfl
      · exact ih _

theorem continuesBy_table (slots : List (Nat × Slot)) (tiers : List TierId) (cs : List Chord) (reads : List SlotNo) :
    (continuesBy (fun _ k => slotAt slots k.toNat) tiers cs reads).1 = continues slots tiers cs := by
  induction tiers generalizing reads with
  | nil => rfl
  | cons l rest ih => simp only [continuesBy, continues, List.any_cons, lookupBy_table, ih]

theorem longestBy_table (slots : List (Nat × Slot)) (tiers : List TierId) (run : List RunEntry) (n : Nat)
    (reads : List SlotNo) :
    (longestBy (fun _ k => slotAt slots k.toNat) tiers run n reads).1 = longestReading slots tiers run n := by
  induction n generalizing reads with
  | zero => rfl
  | succ n ih =>
    have h := bestBy_table slots tiers ((run.take (n + 1)).map RunEntry.chord) reads
    rcases hx : bestBy (fun _ k => slotAt slots k.toNat) tiers ((run.take (n + 1)).map RunEntry.chord) reads with
      ⟨_ | ⟨l, m, r⟩, after⟩
    · rw [hx] at h
      simp only [longestBy, longestReading, hx, ← h]
      exact ih _
    · rw [hx] at h
      simp only [longestBy, longestReading, hx, ← h]

theorem closedBy_table (slots : List (Nat × Slot)) (tiers : List TierId) (run : List RunEntry) (reads : List SlotNo) :
    (closedBy (fun _ k => slotAt slots k.toNat) tiers run reads).1 = runClosed slots tiers run := by
  simp only [closedBy, runClosed]
  split
  · next h => simp [h]
  · next h => simp [h, continuesBy_table]

theorem settleBy_table (slots : List (Nat × Slot)) (tiers : List TierId) (n : Nat) (run : List RunEntry)
    (reads : List SlotNo) :
    (settleBy (fun _ k => slotAt slots k.toNat) tiers n run reads).1 = settleHeads slots tiers n run := by
  induction n generalizing run reads with
  | zero => rfl
  | succ n ih =>
    cases run with
    | nil => rfl
    | cons e rest =>
      simp only [settleBy, settleHeads, closedBy_table, longestBy_table, ih, formHead]
      split <;> rfl

theorem provisionalBy_table (slots : List (Nat × Slot)) (tiers : List TierId) (n : Nat) (run : List RunEntry)
    (reads : List SlotNo) :
    (provisionalBy (fun _ k => slotAt slots k.toNat) tiers n run reads).1 = provisionalUnits slots tiers n run := by
  induction n generalizing run reads with
  | zero => rfl
  | succ n ih =>
    cases run with
    | nil => rfl
    | cons e rest => simp only [provisionalBy, provisionalUnits, longestBy_table, ih, formHead]

/-- With no read made yet, units formed read by read are those of the table as it stands (R43 to R45). -/
theorem formedBy_table (slots : List (Nat × Slot)) (tiers : List TierId) (run : List RunEntry) :
    formedBy slots [] tiers run = formSequence slots tiers run := by
  have h : readSlot slots [] = fun _ k => slotAt slots k.toNat := rfl
  simp only [formedBy, formBy, h, formSequence, settleBy_table, provisionalBy_table]

/-! ### Works with entry memory quiet -/

theorem visibleTiers_eq (s : State) : visibleTiers s.dict.tiers = tiersRead s := rfl

theorem served_engineWork (rs : List MemRequester) (m : Memory) : (servedAlone m rs).engineWork = m.engineWork := by
  obtain ⟨o, c, h⟩ := servedAlone_shape rs m
  rw [h]

/-- The grants of a stage made alone: one more of its requester, if it has a transaction. -/
def stageGrants (w : EngineWork) : List MemRequester := if w.left = [] then [] else [w.stage.requester]

/-- A stage made alone: its transactions carried out, and its grants (R183 to R185). -/
theorem stageMade_eq (w : EngineWork) (s : State) : stageMade w s =
    ({ w with stage := w.stage.allRead w.tiers s, left := [] },
     { carryUses w.left s with memory := servedAlone s.memory (stageGrants w) }) := by
  obtain ⟨_, _, _, _, hf⟩ := (carryUses_only w.left s).form
  have hm : (carryUses w.left s).memory = s.memory := by rw [hf]
  by_cases h : w.left = []
  · simp only [stageMade, stageGrants, h, if_true]; rfl
  · simp only [stageMade, stageGrants, h, if_false, hm]; rfl

theorem finishWork_last {n : Nat} {w : EngineWork} {s : State} (h : w.stage.last = true) :
    finishWork (n + 1) (w, s) = stageMade w s := by simp only [finishWork, h, if_true]

theorem finishWork_next {n : Nat} {w : EngineWork} {s : State} (h : w.stage.last = false) :
    finishWork (n + 1) (w, s) = finishWork n (leaveStage (stageMade w s).1 (stageMade w s).2) := by
  simp only [finishWork, h, Bool.false_eq_true, if_false]

/-- The engine begins a work while the part is READY (R40). -/
theorem mayBegin_ready {k : WorkKind} {s : State} (h : mayBegin s k = true) : s.device.state = .ready := by
  have hf : engineFree s = true → s.device.state = .ready := by
    intro h
    simp only [engineFree, Bool.and_eq_true, decide_eq_true_eq] at h
    exact h.1.1.1.1
  have ht : mayTake s = true → s.device.state = .ready := by
    intro h
    simp only [mayTake, Bool.and_eq_true] at h
    exact hf h.1.1.1
  have hs : maySettle s = true → s.device.state = .ready := by
    intro h
    simp only [maySettle, Bool.and_eq_true] at h
    exact hf h.1.1.1
  cases k <;> simp only [mayBegin, Bool.and_eq_true] at h
  · simp only [mayReResolve, Bool.and_eq_true] at h
    exact hf h.1
  · simp only [mayRetranslate, Bool.and_eq_true] at h
    exact hf h.1.1
  · by_cases hm : mayTake s = true
    · exact ht hm
    · simp [strokeAtCursor, hm] at h
  · by_cases hm : mayTake s = true
    · exact ht hm
    · simp [strikeAtCursor, hm] at h
  · exact hs h.1
  · exact hs h.1
  · simp only [replaying, Bool.and_eq_true, decide_eq_true_eq] at h
    exact h.1.2

/-- A row that may begin its work, with nobody else asking, makes it to its end. -/
theorem engineRow_quiet {k : WorkKind} {s : State} (hm : MemoryQuiet s) (hb : mayBegin s k = true) :
    engineRow k s = workEnds (finishWork 5 (opened k s)).1 (finishWork 5 (opened k s)).2 := by
  obtain ⟨h1, h2, h3, h4, h5, h6⟩ := hm
  have hd : s.device.state = .ready := mayBegin_ready hb
  have ha : ∀ t : State, t.memory = s.memory → t.device = s.device → engineAlone t = true := by
    intro t ht he
    simp [engineAlone, memoryFree, requesting, requestOf, maintTransaction, he, hd, ht, h1, h2, h3, h4, h6]
  have ho : (opened k s).2.memory = s.memory := by
    obtain ⟨b, hs⟩ := startedWork_shape k s
    obtain ⟨_, _, _, _, hf⟩ := (opened_spec k s).1
    rw [hf, hs]
  have hv : (opened k s).2.device = s.device := by
    obtain ⟨b, hs⟩ := startedWork_shape k s
    obtain ⟨_, _, _, _, hf⟩ := (opened_spec k s).1
    rw [hf, hs]
  simp only [engineRow, h5, hb, if_true, ha s rfl rfl, endsWork, ha _ ho hv, Option.getD_some]

/-- With no work held and the engine at none, a work that ends drops nothing. -/
theorem dropWork_quiet {s : State} (h1 : s.memory.engineWork = none) (h2 : s.engine.activity ≠ .resolving) :
    dropWork s = s := by
  simp only [dropWork, if_neg h2, ← h1]

/-- The grants of a resolution made with nobody else asking: XLATE's for its reads, LOG's for what the diff asks (R183). -/
def resolutionGrants (tiers : List TierId) (run : List RunEntry) (s : State) : List MemRequester :=
  let news := renderSequence s.roster s.engine.format (formSequence s.dict.slots tiers run).1
  (if nextRead s.dict.slots [] tiers run = [] then [] else [.xlate]) ++
    (if diffUses (provisionalListed s) news (leadingMatches s.log (provisionalListed s) news) = [] then [] else [.log])

/-- A resolution made with nobody else asking is the one of R43 to R51. -/
theorem forming_made (n : Nat) (run : List RunEntry) (w : EngineWork) (s : State) :
    ∃ t w', Resolved w.tiers { s with engine := { s.engine with run := run } } t ∧ SameWork w w' ∧
      finishWork (n + 2) (toForming run w s) =
        (w', { t with memory := servedAlone s.memory (resolutionGrants w.tiers run s) }) := by
  let x : State := { s with engine := { s.engine with run := run } }
  let seq := formSequence s.dict.slots w.tiers run
  let news := renderSequence s.roster s.engine.format seq.1
  let j := leadingMatches s.log (provisionalListed s) news
  let us := diffUses (provisionalListed s) news j
  let w1 : EngineWork := { w with stage := .ending 0 0, left := us }
  let m1 := servedAlone s.memory (if nextRead s.dict.slots [] w.tiers run = [] then [] else [.xlate])
  let m2 := servedAlone s.memory (resolutionGrants w.tiers run s)
  let d := diffed false (settledUnits s) (provisionalListed s) news j x
  have hr : ∀ (us : List Use), us = nextRead s.dict.slots [] w.tiers run → ∀ y, carryUses us y = y := by
    rintro _ rfl y
    simp only [nextRead]
    cases (formBy (readSlot s.dict.slots []) w.tiers run).2[([] : List Slot).length]? <;> rfl
  have h1 : stageMade (toForming run w s).1 (toForming run w s).2 =
      ({ w with stage := .forming [], left := [] }, { x with memory := m1 }) := by
    rw [stageMade_eq, show carryUses (toForming run w s).1.left (toForming run w s).2 = x from hr _ rfl x]
    rfl
  have h2 : leaveStage { w with stage := .forming [], left := [] } { x with memory := m1 } =
      (w1, (keepUnits false (settledUnits s) (provisionalListed s) news j x).besides s.journal m1 seq.2
        (settledAfter s.engine.format news)) := by
    show afterForming (formedBy s.dict.slots [] w.tiers run) _ _ = _
    rw [formedBy_table]
    rfl
  have h3 : stageMade w1 ((keepUnits false (settledUnits s) (provisionalListed s) news j x).besides s.journal m1 seq.2
        (settledAfter s.engine.format news)) =
      ({ w1 with left := [] }, d.besides s.journal m2 seq.2 (settledAfter s.engine.format news)) := by
    rw [stageMade_eq, show w1.left = us from rfl, carryUses_apart (diffUses_log _ _ _), carryUses_diff]
    have hm : servedAlone m1 (stageGrants w1) = m2 := (servedAlone_append _ _ _).symm
    show ({ w1 with left := [] }, { d.besides s.journal m1 seq.2 (settledAfter s.engine.format news) with
      memory := servedAlone m1 (stageGrants w1) }) = _
    rw [hm]
    rfl
  refine ⟨{ d with engine := { d.engine with run := seq.2, format := formatAfter s.engine.format news } },
    { w1 with left := [] }, ⟨_, _, news, j, d, formSequence_forms s.dict.slots w.tiers run,
    renderSequence_renders s.roster _ s.engine.format, leadingMatches_spec s.log _ _, rfl, rfl⟩, ⟨rfl, rfl, rfl⟩, ?_⟩
  rw [show toForming run w s = ((toForming run w s).1, (toForming run w s).2) from rfl, finishWork_next rfl, h1, h2,
    finishWork_last rfl, h3]
  have hj : d.journal = s.journal := by
    have e : d = carryUses us (keepUnits false (settledUnits s) (provisionalListed s) news j x) :=
      (carryUses_diff _ _ _ _ _ _).symm
    rw [e]
    exact (carryUses_keep (diffUses_log _ _ _) _).1
  show _ = ({ w1 with left := [] }, { d with
    engine := { d.engine with run := seq.2, format := formatAfter s.engine.format news }, memory := m2 })
  rw [State.besides, ← hj]
  rfl

/-- A settle made with nobody else asking is that of R54, and its grants are LOG's. -/
theorem settling_made (n : Nat) (w : EngineWork) (s : State) : finishWork (n + 1) (toSettling w s) =
    finishWork n (leaveStage { w with stage := .settling, left := [] }
      { (if settleDue s w.kind then settleRun s else s) with
        memory := servedAlone s.memory (if settleDue s w.kind = true ∧ settleUses s ≠ [] then [.log] else []) }) := by
  by_cases h : settleDue s w.kind = true
  · have e : toSettling w s = ({ w with stage := .settling, left := settleUses s }, emptyRun s) := by
      simp only [toSettling, h, if_true]
    rw [e, finishWork_next rfl, stageMade_eq]
    by_cases hl : settleUses s = []
    · simp only [stageGrants, hl, h, if_true, ne_eq, not_true_eq_false, and_false, if_false]
      simp only [settleRun, hl]; rfl
    · simp only [stageGrants, hl, h, if_true, ne_eq, not_false_eq_true, and_self, if_false]
      rfl
  · have e : toSettling w s = ({ w with stage := .settling, left := [] }, s) := by
      simp only [toSettling, h, Bool.false_eq_true, if_false]
    rw [e, finishWork_next rfl, stageMade_eq]
    simp only [stageGrants, h, if_true, false_and, Bool.false_eq_true, if_false]
    rfl

/-- A take's record read with nobody else asking. -/
theorem taking_made (n : Nat) (w : EngineWork) (s : State) : finishWork (n + 1) (beginTake w s) =
    finishWork n (toSettling { w with stage := .taking, left := [] } { s with memory := grantAlone s.memory .xlate }) := by
  rw [show beginTake w s = ({ w with stage := .taking, left := [.record s.journal.cursor] }, s) from rfl, finishWork_next rfl,
    stageMade_eq]
  rfl

/-- A step of the maintenance unit, with nobody else asking for entry memory, ends with its transactions made. -/
theorem maintStep_quiet {act : MaintWork → State → State} {s : State} (hm : MemoryQuiet s) :
    maintStep act s = act (stepDone (begunStep s) s)
      { s with
        dict := (stepWrites (begunStep s) s.dict).1
        memory := if maintUses s = [] then s.memory else afterGrants .maint s.memory } := by
  obtain ⟨h1, h2, h3, h4, h5, h6⟩ := hm
  have hal : maintAlone s = true := by simp [maintAlone, memoryFree, h1, h2, h3, h4, h5]
  simp only [maintStep, h6, Option.getD_none, hal, or_true, if_true, stepServed]
  by_cases he : maintUses s = []
  · simp only [begunStep, he, if_true]
    rw [← h6]
  · simp only [begunStep, he, if_false, afterGrants_alone _ (show MemRequester.maint ≠ .intake by decide), grantAlone]
    rw [← h6]

/-- A head that stands before its writes begins them in its row, with nobody else asking for entry memory (R37, R183). -/
theorem headerMade_quiet {s t : State} (hm : MemoryQuiet s) (h : t.memory = s.memory) :
    headerMade t = { t with memory := afterGrants .maint s.memory } := by
  obtain ⟨h1, h2, h3, h4, h5, h6⟩ := hm
  simp only [headerMade, h, afterGrants_alone _ (show MemRequester.maint ≠ .intake by decide), grantAlone]
  rw [← h6]

/-- A lookup reads at least its home slot (R29). -/
theorem lookupReads_ne (slots : List (Nat × Slot)) (t : TierId) (cs : List Chord) : lookupReads slots t cs ≠ [] := by
  show walkReads slots t cs (31 + 1) (homeSlot t cs) ≠ []
  rw [walkReads]
  split
  · simp
  · simp
  · split <;> simp

/-- A completion handed to a port whose request is IN PROGRESS is held there (R168). -/
theorem complete_eq {p : PortId} {k : Kind} {tag : Byte} (r : Reply) {s : State}
    (h : (s.ports.get p).slot = .inProgress k tag) : complete p r s = completedBy p k tag r s := by
  simp only [complete, completedBy, Quad.modify, h, TimedSlot.complete]

/-! ### The prefixes of a PLACED PUT (R133) -/

theorem planPrefixes_planned {t : TierId} {qs : List (List Chord)} {slots after : List (Nat × Slot)}
    {ws : List (SlotNo × Record)} {p r : Nat} (h : PrefixesPlanned t qs slots ws p r after) :
    ∀ ws0 p0 r0, planPrefixes t qs slots ws0 p0 r0 = .ok (after, ws0 ++ ws, p0 + p, r0 + r) := by
  induction h with
  | done slots => intro ws0 p0 r0; simp [planPrefixes]
  | raised h1 _ ih => intro ws0 p0 r0; simp only [planPrefixes, h1, ih]; simp; omega
  | placed h1 h2 _ ih => intro ws0 p0 r0; simp only [planPrefixes, h1, h2, ih]; simp; omega

theorem planPrefixes_crowded {t : TierId} {qs : List (List Chord)} {slots : List (Nat × Slot)} {len : Nat}
    (h : PrefixesCrowded t qs slots len) : ∀ ws0 p0 r0, planPrefixes t qs slots ws0 p0 r0 = .error len := by
  induction h with
  | here h1 h2 => intro ws0 p0 r0; simp [planPrefixes, h1, h2]
  | @raised q rest slots len h1 _ ih =>
    intro ws0 p0 r0
    cases hl : lookup slots t q with
    | none => exact absurd hl h1
    | some x => simp only [planPrefixes, hl, ih]
  | placed h1 h2 _ ih => intro ws0 p0 r0; simp only [planPrefixes, h1, h2, ih]

/-- Every prefix is planned, or the first that finds no slot is CROWDED. -/
theorem prefixes_total (t : TierId) : ∀ (qs : List (List Chord)) (slots : List (Nat × Slot)),
    (∃ ws p r after, PrefixesPlanned t qs slots ws p r after) ∨ ∃ len, PrefixesCrowded t qs slots len
  | [], slots => .inl ⟨_, _, _, _, .done slots⟩
  | q :: rest, slots => by
    cases hl : lookup slots t q with
    | some x =>
      rcases prefixes_total t rest slots with ⟨_, _, _, _, h⟩ | ⟨_, h⟩
      · exact .inl ⟨_, _, _, _, .raised hl h⟩
      · exact .inr ⟨_, .raised (by simp [hl]) h⟩
    | none =>
      cases hp : placement slots t q with
      | none => exact .inr ⟨_, .here hl hp⟩
      | some n =>
        rcases prefixes_total t rest (writeSlot slots n.toNat (.occupied ⟨t, q, .stem, 1⟩)) with ⟨_, _, _, _, h⟩ | ⟨_, h⟩
        · exact .inl ⟨_, _, _, _, .placed hl hp h⟩
        · exact .inr ⟨_, .placed hl hp h⟩

end Sys2Proof.Machine
end

