-- ==== Sys2Proof/Laws/Stages.lean ====
section
/-! SUPPORT. A work of the engine said in the words of the rules: what one transaction brings about, what each stage comes to, how
a work goes on between its transactions, how it is made to its end, when it may begin, and what its end does. -/

namespace Sys2Proof.Machine

/-! ### One transaction (R48 to R51, R85, R108) -/

theorem carryUse_brought (u : Use) (s : State) : carryUse u s = brought u s := by
  cases u with
  | withdraw k => exact appendWithdraw_eq k s
  | promote g =>
    simp only [carryUse, brought, promoteSegment, CaptionLog.promote]
  | record n => rfl
  | slot n => rfl
  | write w => rfl
  | turn g => rfl
  | text q => rfl

theorem carryUses_brought (us : List Use) (s : State) : carryUses us s = us.foldl (fun s u => brought u s) s := by
  induction us generalizing s with
  | nil => rfl
  | cons u us ih =>
    show carryUses us (carryUse u s) = _
    rw [ih, carryUse_brought, List.foldl_cons]

theorem turnUses_following (s : State) (u : Use) : turnUses s u = following u s := by
  cases u with
  | withdraw k =>
    simp only [turnUses, following, makeRoom_eq]
    rw [List.map_map]
    have h : (roomMade s).log.isTarget k = isTargetOf (roomMade s).log k := funext (isTarget_eq _ k)
    rw [h]
    rfl
  | _ => rfl

theorem saw_eq (slots : List (Nat × Slot)) (u : Use) (st : Stage) : st.saw slots u = stageSaw slots u st := rfl

/-! ### The settle that a work's checks ask for (R52 to R55, R60, R62, R113) -/

theorem headroomDue_iff (bound : Nat) (s : State) : headroomDue bound s = true ↔ HeadroomGone bound s := by
  simp only [headroomDue, HeadroomGone, provisionalListed]
  cases (s.engine.units.filter (fun u => !u.settled)).head? <;> simp

theorem expiryDue_iff (stamp : Stamp) (s : State) : expiryDue stamp s = true ↔
    ∃ t, s.engine.lastTaken = some t ∧ s.engine.run ≠ [] ∧ s.session.hold ≤ (stamp - t).toNat := by
  simp only [expiryDue, expired]
  cases s.engine.lastTaken <;> simp

theorem takeSettles_iff (s : State) : takeSettles s = true ↔ HeadroomGone 4089 s ∨
    ∃ r t, s.journal.recordAt s.journal.cursor = some r ∧ s.engine.lastTaken = some t ∧ s.engine.run ≠ [] ∧
      s.session.hold ≤ (r.stamp - t).toNat := by
  simp only [takeSettles, Bool.or_eq_true, headroomDue_iff, recordToTake]
  refine or_congr Iff.rfl ?_
  cases h : s.journal.recordAt s.journal.cursor with
  | none => simp
  | some r => simp only [expiryDue_iff, Option.some.injEq, exists_and_left, exists_eq_left']

theorem settleDue_iff (s : State) (k : WorkKind) : settleDue s k = true ↔ SettleAsked s k := by
  cases k with
  | reResolution => exact headroomDue_iff _ s
  | retranslationStart => exact headroomDue_iff _ s
  | takeStroke => exact takeSettles_iff s
  | takeStrike => exact takeSettles_iff s
  | expiry => simp [settleDue, SettleAsked]
  | closeSettle => simp [settleDue, SettleAsked]
  | rebuild => simp [settleDue, SettleAsked]

theorem toSettling_begun (w : EngineWork) (s : State) : SettleBegun w s (toSettling w s) := by
  refine ⟨fun h => ?_, fun h => ?_⟩
  · simp only [toSettling, (settleDue_iff s w.kind).2 h, if_true]; rfl
  · simp only [toSettling, mt (settleDue_iff s w.kind).1 h]; rfl

/-! ### The stages -/

theorem expire_expired (hold : Nat) (stamp : Stamp) (r : Replay) : ReplayExpired hold stamp r (r.expire hold stamp) := by
  simp only [ReplayExpired, Replay.expire]
  cases hl : r.lastFed with
  | none => exact ⟨(by rintro ⟨t, h, _⟩; cases h), fun _ => rfl⟩
  | some t =>
    refine ⟨?_, ?_⟩
    · rintro ⟨t', h, h1, h2⟩
      cases h
      simp only [h1, expired, ne_eq, not_false_eq_true, h2, decide_true, and_self, if_true, Replay.settle, ← hl]
      cases r.provisional.getLast? <;> rfl
    · intro h
      have hn : ¬(r.run ≠ [] ∧ expired hold t stamp = true) := by
        rintro ⟨h1, h2⟩
        rcases h t rfl with h3 | h3
        · exact h1 h3
        · simp only [expired, decide_eq_true_eq] at h2; omega
      simp only [hn, if_false]

theorem diffUses_asked (old : List ListedUnit) (news : List NewUnit) (j : Nat) :
    diffUses old news j = diffAsked old news j := by
  have hz : (old.take j).zip (news.take j) = (old.zip news).take j := (List.take_zipWith ..).symm
  have hd : (old.drop j).head? = old[j]? := by simp [List.head?_drop]
  have hp : ∀ kept : List (ListedUnit × NewUnit), (keptPromotions kept).map Use.promote =
      kept.filterMap (fun k => if !k.1.settled && k.2.settled then some (.promote k.1.segment) else none) := by
    intro kept
    induction kept with
    | nil => rfl
    | cons k kept ih =>
      simp only [keptPromotions] at ih ⊢
      by_cases h : (!k.1.settled && k.2.settled) = true
      · simp only [List.filter_cons, h, if_true, List.map_cons, List.filterMap_cons, ih]
      · simp only [List.filter_cons, h, List.filterMap_cons, ← ih]; rfl
  simp only [diffUses, diffAsked, hz, hp, hd]
  cases old[j]? <;> rfl

theorem keepUnits_kept (rebuilt : Bool) (stay old : List ListedUnit) (news : List NewUnit) (j : Nat) (s : State) :
    keepUnits rebuilt stay old news j s =
      { s with engine := { s.engine with units := stay ++ keptWith rebuilt old news j } } := by
  have hz : (old.take j).zip (news.take j) = (old.zip news).take j := (List.take_zipWith ..).symm
  simp only [keepUnits, keptWith, hz]; rfl

theorem toReading_begun (rep : Replay) (span : List JournalRecord) (w : EngineWork) (s : State) :
    toReading rep span w s = readingBegun rep span w s := by
  cases span <;> rfl

theorem fed_iff (j : JournalRecord) : j.fed = true ↔ j.kind = .stroke false := by
  simp only [JournalRecord.fed]
  cases j.kind <;> simp

theorem noteRecord_noted (s : State) : noteRecord s = takenNoted s := by
  simp only [noteRecord, takenNoted, recordToTake]
  cases s.journal.recordAt s.journal.cursor <;> rfl

theorem replayHeld_some {s : State} {p : ReplayStart} :
    replayHeld s = some p ↔ ∃ r, s.engine.request = some r ∧ r.phase = .inProgress p := by
  simp only [replayHeld]
  cases h : s.engine.request with
  | none => simp
  | some r => cases hp : r.phase <;> simp [hp]

/-- What a stage comes to, in the words of the rules. -/
theorem leaveStage_left {w : EngineWork} (s : State) (h : w.stage.last = false) : StageLeft w s (leaveStage w s) := by
  obtain ⟨kind, tiers, shown, stage, left⟩ := w
  cases stage with
  | taking => exact toSettling_begun _ s
  | settling =>
    refine ⟨fun r hk hr => ?_, fun r hk hr => ?_, fun hk => ?_, fun hk hr => ?_⟩
    · have hk2 : kind = .takeStroke := hk
      simp only [leaveStage, afterSettle, hk2, recordToTake, hr, takenNoted]; rfl
    · have hk2 : kind = .takeStrike := hk
      simp only [leaveStage, afterSettle, hk2, recordToTake, hr, strikeJournalWrites, strikeTarget]
      cases s.engine.run.getLast? with
      | some e => rfl
      | none =>
        cases s.engine.units.getLast? with
        | none => rfl
        | some u =>
          simp only []
          cases hu : u.strokes with
          | nil => rfl
          | cons n ns => simp [strikeWrites]
    · have hk2 : kind = .reResolution := hk
      simp only [leaveStage, afterSettle, hk2]; rfl
    · have hk2 : kind ≠ .reResolution := hk
      have hr2 : (kind ≠ .takeStroke ∧ kind ≠ .takeStrike) ∨ s.journal.recordAt s.journal.cursor = none := hr
      cases kind <;> first | exact absurd rfl hk2 | rfl | skip
      · have hn := hr2.resolve_left (fun h => h.1 rfl)
        simp only [leaveStage, afterSettle, recordToTake, hn]
      · have hn := hr2.resolve_left (fun h => h.2 rfl)
        simp only [leaveStage, afterSettle, recordToTake, hn]
  | striking =>
    simp only [leaveStage, StageLeft, noteRecord_noted]
    refine ⟨fun hr => ?_, fun us u hr hu => ?_, fun hr hu => ?_⟩
    · have : (takenNoted s).engine.run ≠ [] := hr
      simp only [strikeGoesOn, this, if_false]; rfl
    · have : (takenNoted s).engine.run = [] := hr
      have h2 : (takenNoted s).engine.units = us ++ [u] := hu
      simp only [strikeGoesOn, this, if_true, h2, List.getLast?_append, List.getLast?_singleton, Option.some_or,
        strikeUnit, List.dropLast_concat]
    · have : (takenNoted s).engine.run = [] := hr
      have h2 : (takenNoted s).engine.units = [] := hu
      simp only [strikeGoesOn, this, if_true, h2, List.getLast?_nil]
  | forming seen =>
    refine ⟨_, _, _, _, rfl, renderSequence_renders _ _ _, leadingMatches_spec _ _ _, ?_⟩
    simp only [leaveStage, afterForming, diffUses_asked, keepUnits_kept]; rfl
  | reading rep span =>
    cases span with
    | nil =>
      refine ⟨fun r p hr hp => ?_, fun hn => ?_⟩
      · have hh : replayHeld s = some p := replayHeld_some.2 ⟨r, hr, hp⟩
        refine ⟨_, _, expire_expired _ _ _, leadingMatches_spec _ _ _, ?_⟩
        simp only [leaveStage, replayEnds, hh, afterReplay, diffUses_asked, keepUnits_kept]; rfl
      · have hh : replayHeld s = none := by
          cases hx : replayHeld s with
          | none => rfl
          | some p => obtain ⟨r, h1, h2⟩ := replayHeld_some.1 hx; exact absurd h2 (hn r p h1)
        simp only [leaveStage, replayEnds, hh]
    | cons j rest =>
      refine ⟨fun hj => ⟨_, expire_expired _ _ _, ?_⟩, fun hj => ?_⟩
      · simp only [leaveStage, replayReads, (fed_iff j).2 hj, if_true]; rfl
      · simp only [leaveStage, replayReads, mt (fed_iff j).1 hj]; exact toReading_begun ..
  | feeding rep seen rest =>
    refine ⟨_, _, _, rfl, renderSequence_renders _ _ _, ?_⟩
    simp only [leaveStage, toReading_begun]; rfl
  | ending a b => cases h

/-! ### Going on between transactions (R183) -/

/-- How many stages a work with nothing to ask for may still leave. -/
def Stage.rank : Stage → Nat
  | .taking => 4
  | .settling => 3
  | .striking => 2
  | .forming _ => 1
  | .reading _ [] => 1
  | .reading _ (_ :: _) => 3
  | .feeding _ _ _ => 2
  | .ending _ _ => 0

theorem rank_zero {st : Stage} (h : st.last = true) : ∃ a b, st = .ending a b := by
  cases st <;> first | exact ⟨_, _, rfl⟩ | cases h

/-- A stage left asks for something, or fewer stages are to be left. -/
theorem leaveStage_rank (w : EngineWork) (s : State) (h : w.stage.last = false) :
    (leaveStage w s).1.left ≠ [] ∨ (leaveStage w s).1.stage.rank < w.stage.rank := by
  have hr : ∀ (rep : Replay) (rest : List JournalRecord) (w : EngineWork) (s : State),
      (toReading rep rest w s).1.left ≠ [] ∨ (toReading rep rest w s).1.stage.rank = 1 := by
    intro rep rest w s
    cases rest with
    | nil => exact .inr rfl
    | cons j rest => exact .inl (by simp [toReading])
  simp only [leaveStage]
  split
  · next hs =>
    right; rw [hs]; simp only [toSettling]; split <;> simp [Stage.rank]
  · next hs =>
    right; rw [hs]; simp only [afterSettle]
    split <;> simp [takeForms, toForming, Stage.rank]
  · next hs =>
    right; rw [hs]; simp only [strikeGoesOn]
    split
    · split <;> simp [strikeUnit, Stage.rank]
    · simp [toForming, Stage.rank]
  · next seen hs => right; rw [hs]; simp [afterForming, Stage.rank]
  · next rep hs =>
    right; rw [hs]; simp only [replayEnds]; split <;> simp [afterReplay, Stage.rank]
  · next rep j rest hs =>
    rw [hs]
    simp only [replayReads]
    split
    · right; simp [Stage.rank]
    · rcases hr rep rest w s with h1 | h1
      · exact .inl h1
      · right; rw [h1]; simp [Stage.rank]
  · next rep seen rest hs =>
    rw [hs]
    rcases hr (rep.resolved s.roster (formedBy s.dict.slots seen w.tiers rep.run)) rest w s with h1 | h1
    · exact .inl h1
    · right; rw [h1]; simp [Stage.rank]
  · next hs => rw [hs] at h; cases h

/-- A work goes on as `GoesOn` says, given stages enough. -/
theorem goOn_goesOn (n : Nat) (x : EngineWork × State) (hn : 0 < n) (h : x.1.left ≠ [] ∨ x.1.stage.rank < n) :
    GoesOn x (goOn n x) := by
  induction n generalizing x with
  | zero => cases hn
  | succ n ih =>
    obtain ⟨w, s⟩ := x
    simp only [goOn]
    by_cases hl : w.left = []
    · cases hs : w.stage.last with
      | true =>
        obtain ⟨a, b, h1⟩ := rank_zero hs
        simp only [Bool.true_or, if_true]
        exact .waits hl h1
      | false =>
        simp only [hl, List.isEmpty_nil, Bool.not_true, Bool.or_self, Bool.false_eq_true, if_false]
        split
        · next hm =>
          have hr : w.stage.rank < n + 1 := h.resolve_left (fun h1 => h1 hl)
          have hp : 0 < w.stage.rank := by
            cases hst : w.stage with
            | ending a b => rw [hst] at hs; cases hs
            | reading rep span => cases span <;> simp [Stage.rank]
            | _ => simp [Stage.rank]
          refine .stage hl hm (leaveStage_left s hs) (ih _ (by omega) ?_)
          rcases leaveStage_rank w s hs with h2 | h2
          · exact .inl h2
          · exact .inr (by omega)
        · next u us hm =>
          have h3 := GoesOn.reads (w := w) (s := s) hl (by rw [hm]; exact List.cons_ne_nil _ _)
          rw [hm] at h3
          exact h3
    · have : w.left.isEmpty = false := by cases hx : w.left with
        | nil => exact absurd hx hl
        | cons _ _ => rfl
      simp only [this, Bool.not_false, Bool.or_true, if_true]
      exact .asks hl

theorem rank_le (st : Stage) : st.rank < 5 := by
  cases st with
  | reading rep span => cases span <;> simp [Stage.rank]
  | _ => simp [Stage.rank]

/-- A transaction made: the work goes on from what it brought about (R183). -/
theorem useMade_goesOn (w : EngineWork) (u : Use) (rest : List Use) (s : State) :
    GoesOn ({ w with stage := stageSaw s.dict.slots u w.stage, left := following u s ++ rest }, brought u s)
      (useMade w u rest s) := by
  simp only [useMade, saw_eq, turnUses_following, carryUse_brought]
  exact goOn_goesOn 5 _ (by decide) (.inr (rank_le _))

/-! ### A work made to its end alone (R183 to R185) -/

theorem stage_requester_ne (st : Stage) : st.requester ≠ .intake := by cases st <;> simp [Stage.requester]

theorem stageMade_brought (w : EngineWork) (s : State) : stageMade w s =
    ({ w with stage := w.stage.allRead w.tiers s, left := [] }, { w.left.foldl (fun s u => brought u s) s with
      memory := if w.left = [] then s.memory else afterGrants w.stage.requester s.memory }) := by
  rw [stageMade_eq, carryUses_brought]
  by_cases h : w.left = []
  · simp [stageGrants, h, servedAlone]
  · simp [stageGrants, h, servedAlone, afterGrants_alone _ (stage_requester_ne _)]

theorem allRead_last (st : Stage) (tiers : List TierId) (s : State) : (st.allRead tiers s).last = st.last := by
  cases st <;> rfl

/-- A stage that has all its reads made leaves fewer stages to be left. -/
theorem leaveStage_lower (w : EngineWork) (v : Stage) (tiers : List TierId) (x s : State) (h : w.stage.last = false)
    (hv : w.stage = v.allRead tiers x) : (leaveStage w s).1.stage.rank < w.stage.rank := by
  have hr : ∀ rep, (replayEnds rep w s).1.stage.rank < 1 := by
    intro rep
    simp only [replayEnds]; split <;> simp [afterReplay, Stage.rank]
  cases v with
  | taking =>
    rw [Stage.allRead] at hv
    simp only [leaveStage, hv, toSettling]; split <;> simp [Stage.rank]
  | settling =>
    rw [Stage.allRead] at hv
    simp only [leaveStage, hv, afterSettle]
    split <;> simp [takeForms, toForming, Stage.rank]
  | striking =>
    rw [Stage.allRead] at hv
    simp only [leaveStage, hv, strikeGoesOn]
    split
    · split <;> simp [strikeUnit, Stage.rank]
    · simp [toForming, Stage.rank]
  | forming seen =>
    rw [Stage.allRead] at hv
    simp [leaveStage, hv, afterForming, Stage.rank]
  | reading rep span =>
    rw [Stage.allRead] at hv
    simp only [leaveStage, hv]; exact hr _
  | feeding rep seen rest =>
    rw [Stage.allRead] at hv
    simp only [leaveStage, hv]; exact hr _
  | ending a b =>
    rw [Stage.allRead] at hv
    rw [hv] at h; cases h

theorem allRead_rank (st : Stage) (tiers : List TierId) (s : State) : (st.allRead tiers s).rank ≤ st.rank := by
  cases st with
  | reading rep span => cases span <;> simp [Stage.allRead, Stage.rank]
  | _ => simp [Stage.allRead, Stage.rank]

/-- A work is made to its end as `MadeAlone` says, given stages enough. -/
theorem finishWork_made (n : Nat) (x : EngineWork × State) (h : x.1.stage.rank < n) : MadeAlone x (finishWork n x) := by
  induction n generalizing x with
  | zero => cases h
  | succ n ih =>
    obtain ⟨w, s⟩ := x
    simp only [finishWork]
    cases hs : w.stage.last with
    | true =>
      obtain ⟨a, b, h1⟩ := rank_zero hs
      simp only [if_true]
      rw [stageMade_brought]
      have h2 : w.stage.allRead w.tiers s = w.stage := by rw [h1]; rfl
      have h4 : w.stage.requester = .log := by rw [h1]; rfl
      rw [h2, h4]
      exact .last h1
    | false =>
      simp only [Bool.false_eq_true, if_false]
      have hn : ∀ a b, w.stage ≠ .ending a b := by intro a b h1; rw [h1] at hs; cases hs
      refine .stage hn ?_ (ih _ ?_)
      · rw [stageMade_brought]
        exact leaveStage_left _ (by rw [allRead_last]; exact hs)
      · rw [stageMade_brought]
        have h1 := leaveStage_lower { w with stage := w.stage.allRead w.tiers s, left := [] } w.stage w.tiers s
          { w.left.foldl (fun s u => brought u s) s with
            memory := if w.left = [] then s.memory else afterGrants w.stage.requester s.memory }
          (by rw [allRead_last]; exact hs) rfl
        have h2 := allRead_rank w.stage w.tiers s
        exact Nat.lt_of_lt_of_le h1 (Nat.le_trans h2 (Nat.le_of_lt_succ h))

/-! ### The choice of a work (R40) -/

theorem retransWaits_false (s : State) :
    retransWaits s = false ↔ ∀ r, s.engine.request = some r → r.phase ≠ .pending := by
  rw [← Bool.not_eq_true, retransWaits_iff]
  simp

theorem changesWait_false (s : State) : changesWait s = false ↔ ∀ b, .change b ∉ s.memory.logWork := by
  simp only [changesWait, List.any_eq_false]
  refine ⟨fun h b hb => by simpa using h _ hb, fun h w hw => ?_⟩
  cases w with
  | change b => exact absurd hw (h b)
  | _ => simp

theorem engineFree_iff (s : State) : engineFree s = true ↔ WorkAllowed s := by
  have hb : heldBack s = false ↔ (s.maint.lockHeld = true → s.engine.changePending = false ∧
      (∀ r, s.engine.request = some r → r.phase ≠ .pending) ∧ s.journal.head < s.journal.cursor) := by
    rw [← retransWaits_false]
    simp only [heldBack, takeReady]
    cases s.maint.lockHeld <;> simp [and_assoc]
  simp only [engineFree, Bool.and_eq_true, decide_eq_true_eq, Bool.not_eq_true', hb, changesWait_false, WorkAllowed]
  tauto

theorem mayBegin_iff (s : State) (k : WorkKind) : mayBegin s k = true ↔ WorkReady s k := by
  have ht : mayTake s = true ↔ WorkAllowed s ∧ s.engine.changePending = false ∧
      (∀ r, s.engine.request = some r → r.phase ≠ .pending) ∧ s.journal.cursor ≤ s.journal.head := by
    simp only [mayTake, takeReady, Bool.and_eq_true, Bool.not_eq_true', decide_eq_true_eq, engineFree_iff, retransWaits_false,
      and_assoc]
  have hs : maySettle s = true ↔ WorkAllowed s ∧ s.engine.changePending = false ∧
      (∀ r, s.engine.request = some r → r.phase ≠ .pending) ∧ s.journal.cursor = s.journal.head + 1 := by
    simp only [maySettle, Bool.and_eq_true, Bool.not_eq_true', decide_eq_true_eq, engineFree_iff, retransWaits_false,
      and_assoc]
  cases k with
  | reResolution => simp only [mayBegin, mayReResolve, WorkReady, Bool.and_eq_true, engineFree_iff]
  | retranslationStart =>
    simp only [mayBegin, mayRetranslate, WorkReady, Bool.and_eq_true, Bool.not_eq_true', engineFree_iff, retransWaits_iff,
      and_assoc]
  | takeStroke =>
    simp only [mayBegin, strokeAtCursor, WorkReady]
    rw [show (WorkAllowed s ∧ s.engine.changePending = false ∧ (∀ r, s.engine.request = some r → r.phase ≠ .pending) ∧
        s.journal.cursor ≤ s.journal.head ∧ ∃ r b, s.journal.recordAt s.journal.cursor = some r ∧ r.kind = .stroke b) ↔
        mayTake s = true ∧ ∃ r b, s.journal.recordAt s.journal.cursor = some r ∧ r.kind = .stroke b by
      rw [ht]; simp only [and_assoc]]
    cases mayTake s with
    | false => simp
    | true =>
      cases s.journal.recordAt s.journal.cursor with
      | none => simp
      | some r => cases hk : r.kind <;> simp [hk]
  | takeStrike =>
    simp only [mayBegin, strikeAtCursor, WorkReady]
    rw [show (WorkAllowed s ∧ s.engine.changePending = false ∧ (∀ r, s.engine.request = some r → r.phase ≠ .pending) ∧
        s.journal.cursor ≤ s.journal.head ∧ ∃ r b, s.journal.recordAt s.journal.cursor = some r ∧ r.kind = .strike b) ↔
        mayTake s = true ∧ ∃ r b, s.journal.recordAt s.journal.cursor = some r ∧ r.kind = .strike b by
      rw [ht]; simp only [and_assoc]]
    cases mayTake s with
    | false => simp
    | true =>
      cases s.journal.recordAt s.journal.cursor with
      | none => simp
      | some r => cases hk : r.kind <;> simp [hk]
  | expiry =>
    have hc : clockExpired s = true ↔ s.engine.run ≠ [] ∧ ∃ t, s.engine.lastTaken = some t ∧
        s.session.hold ≤ (s.session.clock - t).toNat := by
      simp only [clockExpired, expired]
      cases s.engine.lastTaken <;> simp
    simp only [mayBegin, WorkReady, Bool.and_eq_true, hs, hc, and_assoc]
  | closeSettle =>
    have hc : closeWaits s = true ↔ s.memory.intakeWork = [] ∧ ∃ p, s.session.request = .closeInProgress p false := by
      simp only [closeWaits]
      cases s.session.request with
      | none => simp
      | openInProgress _ _ => simp
      | closeInProgress p b => cases b <;> simp
    simp only [mayBegin, WorkReady, Bool.and_eq_true, hs, hc, and_assoc]
  | rebuild =>
    have hr : (replayHeld s).isSome = true ↔ ∃ r p, s.engine.request = some r ∧ r.phase = .inProgress p := by
      rw [Option.isSome_iff_exists]
      constructor
      · rintro ⟨p, h⟩; obtain ⟨r, h1, h2⟩ := replayHeld_some.1 h; exact ⟨r, p, h1, h2⟩
      · rintro ⟨r, p, h1, h2⟩; exact ⟨p, replayHeld_some.2 ⟨r, h1, h2⟩⟩
    simp only [mayBegin, replaying, WorkReady, Bool.and_eq_true, decide_eq_true_eq, hr]
    exact ⟨fun h => ⟨h.1.2, h.2, h.1.1⟩, fun h => ⟨⟨h.2.2, h.1⟩, h.2.1⟩⟩

/-! ### The beginning of a work (R33, R40, R183) -/

/-- A work other than a replay reads the tiers in force (R33). -/
theorem newWork_eq {k : WorkKind} (hk : k ≠ .rebuild) (s : State) : newWork k s =
    { kind := k, tiers := tiersRead s, shown := ⟨s.engine.run, s.engine.units⟩, stage := .taking, left := [] } := by
  have h : workTiers s k = tiersRead s := by
    cases k <;> first | exact absurd rfl hk | exact visibleTiers_eq s
  simp only [newWork, h]

/-- What a work begins with, in the words of the rules. -/
theorem opened_begun (k : WorkKind) (s : State) : WorkBegun k s (opened k s) := by
  cases k with
  | takeStroke =>
    simp only [WorkBegun, opened, startedWork, beginTake, newWork_eq (show WorkKind.takeStroke ≠ .rebuild by decide)]
  | takeStrike =>
    simp only [WorkBegun, opened, startedWork, beginTake, newWork_eq (show WorkKind.takeStrike ≠ .rebuild by decide)]
  | reResolution =>
    have h := toSettling_begun (newWork .reResolution (clearChange s)) (clearChange s)
    rw [newWork_eq (by decide)] at h
    exact h
  | retranslationStart =>
    have h := toSettling_begun (newWork .retranslationStart s) s
    rw [newWork_eq (by decide)] at h
    simp only [WorkBegun, opened, startedWork, newWork_eq (show WorkKind.retranslationStart ≠ .rebuild by decide)]
    exact h
  | expiry =>
    have h := toSettling_begun (newWork .expiry s) s
    rw [newWork_eq (by decide)] at h
    simp only [WorkBegun, opened, startedWork, newWork_eq (show WorkKind.expiry ≠ .rebuild by decide)]
    exact h
  | closeSettle =>
    have h := toSettling_begun (newWork .closeSettle s) s
    rw [newWork_eq (by decide)] at h
    simp only [WorkBegun, opened, startedWork, newWork_eq (show WorkKind.closeSettle ≠ .rebuild by decide)]
    exact h
  | rebuild =>
    intro r p hr hp
    have hh : replayHeld s = some p := replayHeld_some.2 ⟨r, hr, hp⟩
    have hb : replayBefore p s.engine = ((s.engine.units.drop p.first).head?.map ListedUnit.before).getD s.engine.format := by
      simp only [replayBefore]
      cases (s.engine.units.drop p.first).head? <;> rfl
    have ht : workTiers s .rebuild = p.tiers := by simp only [workTiers, hh]
    have hn : beginReplay (newWork .rebuild s) s =
        toReading (Replay.start p s.engine) (replaySpan s.journal p.startUsed) (newWork .rebuild s) s := by
      simp only [beginReplay, hh]
    show beginReplay (newWork .rebuild s) s = _
    rw [hn, toReading_begun]
    simp only [Replay.start, hb, newWork, ht, replaySpan]

theorem begun_goesOn (k : WorkKind) (s : State) : GoesOn (opened k s) (begun k s) :=
  goOn_goesOn 5 _ (by decide) (.inr (rank_le _))

/-! ### The end of a work (R10, R113, R114, R120, R153) -/

theorem endWork_eq (s : State) : endWork s = refreshed (workEnded s) := refreshActivity_eq _

/-- Completions reach each requester once, and no other port (R120). -/
theorem giveCompletions_completed (values : List Byte) (rs : List Requester) (s : State)
    (h : (rs.map Requester.port).Nodup) : portsCompleted rs values s.ports (giveCompletions values rs s).ports := by
  induction rs generalizing s with
  | nil => exact fun p => ⟨fun r hr => absurd hr List.not_mem_nil, fun _ => rfl⟩
  | cons r rs ih =>
    simp only [List.map_cons, List.nodup_cons] at h
    have k := ih (complete r.port (doneReply (r.report ++ values)) s) h.2
    intro p
    obtain ⟨k1, k2⟩ := k p
    have hg : (giveCompletions values (r :: rs) s).ports =
        (giveCompletions values rs (complete r.port (doneReply (r.report ++ values)) s)).ports := rfl
    rw [hg]
    have hp : ∀ q : PortId, q ≠ r.port →
        (complete r.port (doneReply (r.report ++ values)) s).ports.get q = s.ports.get q :=
      fun q hq => Quad.get_modify_other _ _ hq
    have hn : ∀ x ∈ rs, x.port ≠ r.port := fun x hx e => h.1 (e ▸ List.mem_map_of_mem hx)
    refine ⟨fun x hx hxp k tag hs => ?_, fun hx => ?_⟩
    · rcases List.mem_cons.1 hx with rfl | hx
      · have h2 := k2 (fun y hy e => hn y hy (e.trans hxp.symm))
        rw [h2, ← hxp]
        rw [← hxp] at hs
        simp only [complete, Quad.get_modify_same, hs, TimedSlot.complete]
      · have hq : p ≠ r.port := hxp ▸ hn x hx
        have h1 := k1 x hx hxp k tag (by rw [hp p hq]; exact hs)
        rw [h1, hp p hq]
    · have hq : p ≠ r.port := (hx r List.mem_cons_self).symm
      rw [k2 (fun y hy => hx y (List.mem_cons_of_mem _ hy)), hp p hq]

/-- A request released, with the values its requesters have (R120). -/
theorem finishRetranslation_ends (a b c : Nat) {r : RetransRequest} {s : State} (hr : s.engine.request = some r)
    (h : (r.requesters.map Requester.port).Nodup) :
    ∃ ports, portsCompleted r.requesters (leBytes 4 a ++ leBytes 1 b ++ leBytes 2 c) s.ports ports ∧
      finishRetranslation a b c s = refreshed (workEnded
        { s with ports := ports, engine := { s.engine with request := none, activity := .idle } }) := by
  have hh : heldRequesters s = r.requesters := by simp only [heldRequesters, hr]
  refine ⟨(giveCompletions (retransValues a b c) r.requesters
      { s with engine := { s.engine with request := none, activity := .idle } }).ports,
    giveCompletions_completed _ r.requesters { s with engine := { s.engine with request := none, activity := .idle } } h, ?_⟩
  obtain ⟨q, hq⟩ := giveCompletions_shape (retransValues a b c) r.requesters
    { s with engine := { s.engine with request := none, activity := .idle } }
  simp only [finishRetranslation, hh, endWork_eq, hq]

/-- The start unit is the oldest whose newest stroke is at or after the start asked, else the newest (R114). -/
theorem startIndex_spec (start : Nat) {us : List ListedUnit} (h : us ≠ []) (hs : ∀ u ∈ us, u.strokes ≠ []) :
    ∃ u, us[startIndex start us]? = some u ∧
      ((start ≤ u.strokes.getLastD 0 ∧ ∀ v ∈ us.take (startIndex start us), v.strokes.getLastD 0 < start) ∨
        (startIndex start us = us.length - 1 ∧ ∀ v ∈ us, v.strokes.getLastD 0 < start)) := by
  have hl : 0 < us.length := List.length_pos_iff.mpr h
  let f : ListedUnit → Bool := fun u =>
    match u.strokes.getLast? with
    | some n => decide (start ≤ n)
    | none => false
  have hf : ∀ v ∈ us, (f v = true ↔ start ≤ v.strokes.getLastD 0) := by
    intro v hv
    have hne := hs v hv
    simp only [f, List.getLastD_eq_getLast?]
    cases hx : v.strokes.getLast? with
    | none => exact absurd (List.getLast?_eq_none_iff.1 hx) hne
    | some n => simp
  cases hi : us.findIdx? f with
  | some i =>
    have e : startIndex start us = i := by
      show (match us.findIdx? f with | some i => i | none => us.length - 1) = i
      rw [hi]
    obtain ⟨h1, h2, h3⟩ := List.findIdx?_eq_some_iff_getElem.1 hi
    rw [e]
    refine ⟨us[i], List.getElem?_eq_getElem h1, .inl ⟨(hf _ (List.getElem_mem h1)).1 h2, fun v hv => ?_⟩⟩
    obtain ⟨j, hj, rfl⟩ := List.mem_take_iff_getElem.1 hv
    have hji : j < i := by omega
    have hju : j < us.length := by omega
    have h4 := mt (hf us[j] (List.getElem_mem hju)).2 (by simpa using h3 j hji)
    omega
  | none =>
    have e : startIndex start us = us.length - 1 := by
      show (match us.findIdx? f with | some i => i | none => us.length - 1) = us.length - 1
      rw [hi]
    rw [e]
    refine ⟨us[us.length - 1], List.getElem?_eq_getElem (by omega), .inr ⟨rfl, fun v hv => ?_⟩⟩
    have h1 := List.findIdx?_eq_none_iff.1 hi v hv
    have h2 := mt (hf v hv).2 (by simp [h1])
    omega

/-- What the end of a work does, in the words of the rules. -/
theorem workEnds_ends (w : EngineWork) (s : State) : WorkEnds w s (workEnds w s) := by
  obtain ⟨kind, tiers, shown, stage, left⟩ := w
  cases kind with
  | reResolution => exact endWork_eq _
  | expiry => exact endWork_eq _
  | takeStroke => exact endWork_eq _
  | takeStrike => exact endWork_eq _
  | closeSettle =>
    refine ⟨fun p b h => ?_, fun h => ?_⟩
    · have h2 : (dropWork s).session.request = .closeInProgress p b := h
      simp only [workEnds, closeSettled, h2, endWork_eq]; rfl
    · show closeSettled (dropWork s) = dropWork s
      have h2 : (dropWork s).session.request = s.session.request := rfl
      simp only [closeSettled, h2]
      cases hr : s.session.request with
      | closeInProgress p b => exact absurd hr (h p b)
      | none => rfl
      | openInProgress _ _ => rfl
  | retranslationStart =>
    intro r hr
    have h2 : (dropWork s).engine.request = some r := hr
    refine ⟨fun hu hn => ?_, fun hu hs => ?_⟩
    · obtain ⟨ports, h3, h4⟩ := finishRetranslation_ends (dropWork s).journal.cursor 0 0 h2 hn
      refine ⟨ports, h3, ?_⟩
      have h5 : (dropWork s).engine.units[startIndex r.start.toNat (dropWork s).engine.units]? = none := by
        rw [show (dropWork s).engine.units = [] from hu]; rfl
      simp only [workEnds, startEnds, h2, beginRetranslation, h5, h4]
      rfl
    · obtain ⟨u, h3, h4⟩ := startIndex_spec r.start.toNat hu hs
      refine ⟨_, u, h3, h4, ?_⟩
      have h5 : (dropWork s).engine.units = s.engine.units := rfl
      simp only [workEnds, startEnds, h2, beginRetranslation, h5, h3, replayStartOf, ListedUnit.firstStroke]
      rfl
  | rebuild =>
    intro r p a b hr hp hst hn
    have hh : replayHeld (dropWork s) = some p := replayHeld_some.2 ⟨r, hr, hp⟩
    have h2 : (dropWork s).engine.request = some r := hr
    obtain ⟨ports, h3, h4⟩ := finishRetranslation_ends p.startUsed a b h2 hn
    refine ⟨ports, h3, ?_⟩
    have h5 : stage = .ending a b := hst
    simp only [workEnds, rebuildEnds, hh, h5, Stage.counts, h4]
    rfl

/-! ### A resolution whose reads found what one table holds (R34, R43) -/

/-- Each read of a trace found what the table holds. -/
def Found (ask : List SlotNo → SlotNo → Slot) (table : List (Nat × Slot)) (reads : List SlotNo) : Prop :=
  ∀ (pre : List SlotNo) (n : SlotNo), pre ++ [n] <+: reads → ask pre n = slotAt table n.toNat

theorem Found.of_prefix {ask : List SlotNo → SlotNo → Slot} {table : List (Nat × Slot)} {a b : List SlotNo}
    (h : Found ask table b) (hp : a <+: b) : Found ask table a := fun pre n hn => h pre n (hn.trans hp)

variable {ask : List SlotNo → SlotNo → Slot} {table : List (Nat × Slot)}

/-- A procedure that goes on from some reads keeps them, and comes out as on the table where its reads found what that holds. -/
def Agrees {α : Type} (table : List (Nat × Slot)) (ask : List SlotNo → SlotNo → Slot) (reads : List SlotNo)
    (f : (List SlotNo → SlotNo → Slot) → α × List SlotNo) : Prop :=
  reads <+: (f ask).2 ∧ (Found ask table (f ask).2 → f ask = f (fun _ k => slotAt table k.toNat))

theorem walkBy_agrees (t : TierId) (cs : List Chord) (n : Nat) (m : SlotNo) (reads : List SlotNo) :
    Agrees table ask reads (fun ask => walkBy ask t cs n m reads) := by
  induction n generalizing m reads with
  | zero => exact ⟨List.prefix_refl _, fun _ => rfl⟩
  | succ n ih =>
    have hp := ih (m + 1#18) (reads ++ [m])
    have he : reads <+: reads ++ [m] := List.prefix_append _ _
    refine ⟨?_, fun hf => ?_⟩
    · simp only [walkBy]
      split
      · exact he
      · exact he.trans hp.1
      · split
        · exact he
        · exact he.trans hp.1
    · have hm : ask reads m = slotAt table m.toNat := by
        refine hf reads m ?_
        simp only [walkBy]
        split
        · exact List.prefix_refl _
        · exact hp.1
        · split
          · exact List.prefix_refl _
          · exact hp.1
      simp only [walkBy, hm] at hf ⊢
      split
      · rfl
      · next h => rw [h] at hf; exact hp.2 hf
      · next r h =>
        rw [h] at hf
        split
        · rfl
        · next h2 => simp only [h2, if_false] at hf; exact hp.2 hf

theorem lookupBy_agrees (t : TierId) (cs : List Chord) (reads : List SlotNo) :
    Agrees table ask reads (fun ask => lookupBy ask t cs reads) := walkBy_agrees ..

theorem bestBy_agrees (tiers : List TierId) (cs : List Chord) (reads : List SlotNo) :
    Agrees table ask reads (fun ask => bestBy ask tiers cs reads) := by
  induction tiers generalizing reads with
  | nil => exact ⟨List.prefix_refl _, fun _ => rfl⟩
  | cons l rest ih =>
    obtain ⟨h1, h2⟩ := lookupBy_agrees (table := table) (ask := ask) l cs reads
    obtain ⟨k1, k2⟩ := ih (lookupBy ask l cs reads).2
    have hsub : (lookupBy ask l cs reads).2 <+: (bestBy ask (l :: rest) cs reads).2 := by
      simp only [bestBy]
      split
      · next x h => rw [h]; split
                    · exact List.prefix_refl _
                    · rw [h] at k1; exact k1
      · next x h => rw [h] at k1 ⊢; exact k1
    refine ⟨h1.trans hsub, fun hf => ?_⟩
    have e := h2 (hf.of_prefix hsub)
    simp only [bestBy] at hf ⊢
    simp only at e
    rw [← e]
    cases hx : lookupBy ask l cs reads with
    | mk o after =>
      rw [hx] at k2 hf
      cases o with
      | none => exact k2 hf
      | some x =>
        simp only at hf ⊢
        split
        · rfl
        · next hb => simp only [hb] at hf; exact k2 hf

theorem continuesBy_agrees (tiers : List TierId) (cs : List Chord) (reads : List SlotNo) :
    Agrees table ask reads (fun ask => continuesBy ask tiers cs reads) := by
  induction tiers generalizing reads with
  | nil => exact ⟨List.prefix_refl _, fun _ => rfl⟩
  | cons l rest ih =>
    obtain ⟨h1, h2⟩ := lookupBy_agrees (table := table) (ask := ask) l cs reads
    obtain ⟨k1, k2⟩ := ih (lookupBy ask l cs reads).2
    refine ⟨h1.trans k1, fun hf => ?_⟩
    have e := h2 (hf.of_prefix k1)
    have e2 := k2 hf
    simp only at e e2
    simp only [continuesBy]
    rw [← e, ← e2]

theorem longestBy_agrees (tiers : List TierId) (run : List RunEntry) (n : Nat) (reads : List SlotNo) :
    Agrees table ask reads (fun ask => longestBy ask tiers run n reads) := by
  induction n generalizing reads with
  | zero => exact ⟨List.prefix_refl _, fun _ => rfl⟩
  | succ n ih =>
    obtain ⟨h1, h2⟩ := bestBy_agrees (table := table) (ask := ask) tiers ((run.take (n + 1)).map RunEntry.chord) reads
    obtain ⟨k1, k2⟩ := ih (bestBy ask tiers ((run.take (n + 1)).map RunEntry.chord) reads).2
    have hsub : (bestBy ask tiers ((run.take (n + 1)).map RunEntry.chord) reads).2 <+:
        (longestBy ask tiers run (n + 1) reads).2 := by
      simp only [longestBy]
      split
      · next h => rw [h]
      · next h => rw [h] at k1 ⊢; exact k1
    refine ⟨h1.trans hsub, fun hf => ?_⟩
    have e := h2 (hf.of_prefix hsub)
    simp only [longestBy] at hf ⊢
    simp only at e
    rw [← e]
    cases hx : bestBy ask tiers ((run.take (n + 1)).map RunEntry.chord) reads with
    | mk o after =>
      rw [hx] at k2 hf
      cases o with
      | none => exact k2 hf
      | some x => rfl

theorem closedBy_agrees (tiers : List TierId) (run : List RunEntry) (reads : List SlotNo) :
    Agrees table ask reads (fun ask => closedBy ask tiers run reads) := by
  obtain ⟨h1, h2⟩ := continuesBy_agrees (table := table) (ask := ask) tiers (run.map RunEntry.chord) reads
  by_cases hl : Config.longestKey ≤ run.length
  · refine ⟨?_, fun _ => ?_⟩
    · simp only [closedBy, hl, if_true]; exact List.prefix_refl _
    · simp only [closedBy, hl, if_true]
  · refine ⟨?_, fun hf => ?_⟩
    · simp only [closedBy, hl, if_false]; exact h1
    · simp only [closedBy, hl, if_false] at hf ⊢
      have e := h2 hf
      simp only at e
      rw [← e]

theorem settleBy_agrees (tiers : List TierId) (n : Nat) (run : List RunEntry) (reads : List SlotNo) :
    Agrees table ask reads (fun ask => settleBy ask tiers n run reads) := by
  induction n generalizing run reads with
  | zero => exact ⟨List.prefix_refl _, fun _ => rfl⟩
  | succ n ih =>
    cases run with
    | nil => exact ⟨List.prefix_refl _, fun _ => rfl⟩
    | cons e rest =>
      obtain ⟨h1, h2⟩ := closedBy_agrees (table := table) (ask := ask) tiers (e :: rest) reads
      obtain ⟨l1, l2⟩ := longestBy_agrees (table := table) (ask := ask) tiers (e :: rest) (e :: rest).length
        (closedBy ask tiers (e :: rest) reads).2
      obtain ⟨k1, k2⟩ := ih
        (headFrom true (e :: rest) (longestBy ask tiers (e :: rest) (e :: rest).length
          (closedBy ask tiers (e :: rest) reads).2).1).2
        (longestBy ask tiers (e :: rest) (e :: rest).length (closedBy ask tiers (e :: rest) reads).2).2
      by_cases hc : (closedBy ask tiers (e :: rest) reads).1 = true
      · refine ⟨?_, fun hf => ?_⟩
        · simp only [settleBy, hc, if_true]; exact h1.trans (l1.trans k1)
        · simp only [settleBy, hc, if_true] at hf ⊢
          have e1 := h2 (hf.of_prefix (l1.trans k1))
          have e2 := l2 (hf.of_prefix k1)
          have e3 := k2 hf
          simp only at e1 e2 e3
          simp only [← e1, hc, if_true, ← e2, ← e3]
      · refine ⟨?_, fun hf => ?_⟩
        · simp only [settleBy, Bool.eq_false_iff.2 hc, Bool.false_eq_true, if_false]; exact h1
        · simp only [settleBy, Bool.eq_false_iff.2 hc, Bool.false_eq_true, if_false] at hf ⊢
          have e1 := h2 hf
          simp only at e1
          simp only [← e1, Bool.eq_false_iff.2 hc, Bool.false_eq_true, if_false]

theorem provisionalBy_agrees (tiers : List TierId) (n : Nat) (run : List RunEntry) (reads : List SlotNo) :
    Agrees table ask reads (fun ask => provisionalBy ask tiers n run reads) := by
  induction n generalizing run reads with
  | zero => exact ⟨List.prefix_refl _, fun _ => rfl⟩
  | succ n ih =>
    cases run with
    | nil => exact ⟨List.prefix_refl _, fun _ => rfl⟩
    | cons e rest =>
      obtain ⟨l1, l2⟩ := longestBy_agrees (table := table) (ask := ask) tiers (e :: rest) (e :: rest).length reads
      obtain ⟨k1, k2⟩ := ih (headFrom false (e :: rest) (longestBy ask tiers (e :: rest) (e :: rest).length reads).1).2
        (longestBy ask tiers (e :: rest) (e :: rest).length reads).2
      refine ⟨l1.trans k1, fun hf => ?_⟩
      have e2 := l2 (hf.of_prefix k1)
      have e3 := k2 hf
      simp only at e2 e3
      simp only [provisionalBy, ← e2, ← e3]

theorem formBy_agrees (tiers : List TierId) (run : List RunEntry) :
    Agrees table ask [] (fun ask => formBy ask tiers run) := by
  obtain ⟨h1, h2⟩ := settleBy_agrees (table := table) (ask := ask) tiers run.length run []
  obtain ⟨k1, k2⟩ := provisionalBy_agrees (table := table) (ask := ask) tiers
    (settleBy ask tiers run.length run []).1.2.length (settleBy ask tiers run.length run []).1.2
    (settleBy ask tiers run.length run []).2
  refine ⟨List.nil_prefix, fun hf => ?_⟩
  have e1 := h2 (hf.of_prefix k1)
  have e2 := k2 hf
  simp only at e1 e2
  simp only [formBy, ← e1, ← e2]

/-- A resolution forms the run as on any one table that holds what each of its reads found (R34, R43 to R45). -/
theorem formedBy_forms {slots table : List (Nat × Slot)} {seen : List Slot} {tiers : List TierId} {run : List RunEntry}
    (h : ∀ (i : Nat) (n : SlotNo), (formBy (readSlot slots seen) tiers run).2[i]? = some n →
      (seen[i]?).getD (slotAt slots n.toNat) = slotAt table n.toNat) :
    FormsRun table tiers run (formedBy slots seen tiers run).1 (formedBy slots seen tiers run).2 := by
  have hf : Found (readSlot slots seen) table (formBy (readSlot slots seen) tiers run).2 := by
    rintro pre n ⟨post, hp⟩
    refine h pre.length n ?_
    rw [← hp]; simp
  have e := (formBy_agrees (table := table) (ask := readSlot slots seen) tiers run).2 hf
  simp only at e
  have e2 : formedBy slots seen tiers run = formSequence table tiers run := by
    rw [← formedBy_table]
    simp only [formedBy, e]
    rfl
  rw [e2]
  exact formSequence_forms table tiers run

end Sys2Proof.Machine
end

