-- ==== Sys2Proof/Tests/Slice0.lean ====
section
/-! SUPPORT. The model's own tests: ill-formed commands refused, figures of the spec's worked examples, and for each
statement with hypotheses a state and operands that meet them. -/

namespace Sys2Proof.Tests

open Sys2Proof.Machine

/-! ### States to start from -/

/-- READY, at the values after power-on. -/
def ready : State := { State.reset with device := ⟨.ready, .done, .powerOn, .emptied⟩ }

/-- READY with a session OPEN. -/
def opened : State := { ready with session := { ready.session with opened := true, job := 211#16 } }

/-- The same state with other journal pointers and records. -/
def withJournal (head oldest cursor : Nat) (rs : List JournalRecord) (s : State) : State :=
  { s with journal := { s.journal with head := head, oldest := oldest, cursor := cursor, records := rs } }

/-- The same state with one entry of the maintenance queue, its port's slot IN PROGRESS. -/
def withHead (e : MaintEntry) (k : Kind) (s : State) : State :=
  { s with
    maint := { s.maint with queue := [e], lockHeld := e.isWriting }
    ports := s.ports.set e.port ⟨.idle, .inProgress k 9#8, []⟩ }

/-- The same state with a transaction in progress. -/
def withTx (r : MemRequester) (b : Block) (w : TxWork) (s : State) : State :=
  { s with memory := { s.memory with inProgress := some ⟨r, b, w⟩ } }

def kat : Chord := 524552#23
def dashS : Chord := 1048576#23
def stroke1 : JournalRecord := ⟨1, .stroke false, kat, 5#32, 0⟩
def strike1 : JournalRecord := ⟨1, .strike none, 1024#23, 5#32, 0⟩
def cat : Record := ⟨2, [kat], .text [0x63, 0x61, 0x74] ⟨false, false, false, false, false, false⟩, 0⟩
def stem : Record := ⟨0, [kat], .stem, 1⟩
def cats : Record := ⟨0, [kat, dashS], .text [0x63, 0x61, 0x74, 0x73] ⟨false, false, false, false, false, false⟩, 0⟩

/-- The slots of "KAT across the tiers" (chapter 02). -/
def katSlots : List (Nat × Slot) :=
  [(265, .occupied ⟨1, [227#23], .command .capsOn, 0⟩), (266, .vacated), (267, .occupied stem), (339, .occupied cat),
    (9806, .occupied cats)]

/-- The same state with other slots. -/
def withSlots (m : List (Nat × Slot)) (s : State) : State := { s with dict := { s.dict with slots := m } }

/-- A unit of one stroke listed for " cat" as segment 1. -/
def unitOf (settled : Bool) : ListedUnit :=
  ⟨1#32, [1], .dictionary 2 339#18, .sessionOpen, ⟨false, false, .none, false, false⟩, 1#32, settled⟩

/-- A log of one TEXT segment "Cat". -/
def catLog (st : TextState) : CaptionLog := ⟨1#32, 1#32, false, [⟨1#32, .text 1#32 [0x43, 0x61, 0x74] false false 5#32 st⟩]⟩

/-- The same state with other work of the caption log. -/
def withWork (ws : List LogWork) (s : State) : State := { s with memory := { s.memory with logWork := ws } }

/-- A work of the engine under way: its kind, its stage and its transactions to make. -/
def workOf (k : WorkKind) (st : Stage) (left : List Use) : EngineWork := ⟨k, [0, 1, 2, 3], ⟨[], []⟩, st, left⟩

/-- The same state with a work of the engine. -/
def withEngine (w : EngineWork) (s : State) : State := { s with memory := { s.memory with engineWork := some w } }

/-- The same state with a step of the maintenance unit. -/
def withStep (left : List MaintUse) (s : State) : State :=
  { s with memory := { s.memory with maintWork := some ⟨[], [], 0, left⟩ } }

theorem arbiter_ready : ArbiterSound ready := ⟨.refl _, fun _ => rfl, by decide⟩

/-! ### Ill-formed commands are refused by the checks of WellFormed -/

theorem test_wf_body : (Instr.put 0 1#8 (List.replicate 257 0#8)).wf = false ∧
    (Instr.put 0 1#8 (List.replicate 256 0#8)).wf = true := by
  simp only [Instr.wf, bodyFits, List.length_replicate]
  decide

theorem test_wf_frame : (Instr.frameRefused 0 []).wf = false ∧
    (Instr.frameRefused 0 (requestFrame .status 1#8 [])).wf = false ∧ (Instr.frameRefused 0 [7#8, 1#8, 0#8]).wf = true := by
  decide

theorem test_wf_reads : (Instr.status 0 1#8 [] [1, 1, 1, 1, 1, 1, 1, 0]).wf = false ∧ (Instr.status 0 1#8 [] [8]).wf = false ∧
    (Instr.status 0 1#8 [] [7, 0, 0, 0, 0, 0, 0]).wf = true := by decide

theorem test_wf_clock : (Instr.sessionClockTick 50001).wf = false ∧ (Instr.sessionClockTick 50000).wf = true := by decide

/-! ### Figures of the spec -/

/-- The worked figures of R26. -/
theorem test_hash_of_kat : keyHash 0 [kat] = 524553#32 ∧ homeSlot 0 [kat] = 265#18 ∧ homeSlot 3 [kat] = 376#18 ∧
    homeSlot 0 [kat, dashS] = 9806#18 ∧ homeSlot 3 [kat, dashS] = 13913#18 := by decide

theorem test_hash_reduces : keyHash 0 [kat, dashS, kat, dashS] = 2256338284#32 ∧
    homeSlot 0 [kat, dashS, kat, dashS] = 64876#18 := by decide

/-- The example of R27: a probe sequence that wraps. -/
theorem test_probe_wraps : 262140#18 + BitVec.ofNat 18 3 = 262143#18 ∧ 262140#18 + BitVec.ofNat 18 4 = 0#18 ∧
    262140#18 + BitVec.ofNat 18 31 = 27#18 := by decide

/-- "KAT across the tiers": the tier-0 STEM does not hide the tier-2 record. -/
theorem test_kat_across_tiers : (lookup katSlots 0 [kat]).map Prod.fst = some 267#18 ∧
    (bestLookup katSlots [0, 1, 2, 3] [kat]).map (fun x => (x.1, x.2.1)) = some (2, 339#18) ∧
    (bestLookup katSlots [0, 1, 2, 3] [kat, dashS]).map (fun x => (x.1, x.2.1)) = some (0, 9806#18) := by decide

/-- The table of raw steno under R77. -/
theorem test_raw_steno : rawSteno kat = [0x4B, 0x41, 0x54] ∧ rawSteno dashS = [0x2D, 0x53] ∧
    rawSteno 524292#23 = [0x54, 0x2D, 0x54] ∧ rawSteno 1#23 = [0x23] ∧ rawSteno 131075#23 = [0x31, 0x2D, 0x38] ∧
    rawSteno 8449#23 = [0x35, 0x36] ∧ (rawSteno 8388607#23).length = 22 := by decide

/-- The key kinds: bit 23 is cleared, and the strike chord is 1,024 (R1, R2). -/
theorem test_chord_masked : maskChord 0x08#8 0x01#8 0x88#8 = kat ∧ kindOfChord 1024#23 = .strike none := by decide

/-- "one faulty request, three refusals" (chapter 09): detail 7, then STARTING, then field 0. -/
theorem test_three_refusals :
    (∃ t, exec (.setHold 3 1#8 [1, 2, 3]) State.reset = .next t ∧
      (t.ports.get 3).exchange = .answering [10, 1, 3, 2, 7, 0, 0, 0]) ∧
    (∃ t, exec (.setHold 0 1#8 [1, 2, 3]) State.reset = .next t ∧
      (t.ports.get 0).exchange = .answering [10, 1, 3, 3, 0, 0, 0, 0]) ∧
    (∃ t, exec (.setHold 0 1#8 [1, 2, 3]) ready = .next t ∧
      (t.ports.get 0).exchange = .answering [10, 1, 3, 1, 0, 0, 0, 0]) :=
  ⟨⟨_, rfl, by decide⟩, ⟨_, rfl, by decide⟩, ⟨_, rfl, by decide⟩⟩

/-- The first grant of "a replay beside two readers" (chapter 10). -/
theorem test_first_grant : ∃ t, exec (.memoryGrant ⟨true, true, false⟩) { ready with memory := { ready.memory with
        mode := .fixed
        engineWork := some (workOf .rebuild (.forming []) [.slot 5#18])
        logWork := [.fetch ⟨2, 1#8, [.segment 1#12], []⟩]
        pullWork := [⟨1, 1#8, [stroke1], []⟩] } } = .next t ∧
      t.memory.counts = ⟨0, 1, 0, 1⟩ ∧ t.memory.order = fixedOrder := ⟨_, rfl, by decide⟩

/-- A DROP in LOCK WAIT takes the lock with the grant of its header's write, and the header reads WRITING from then on; while a
transaction is in progress TABLE_LOCK_TAKE takes nothing (R37, R129). -/
theorem test_lock_with_the_header :
    let s := withHead ⟨1, .drop 2 false [kat], .lockWait (.drop ⟨339#18, []⟩)⟩ .drop ready
    (∃ t, exec (.memoryGrant ⟨false, true, false⟩) s = .next t ∧ t.maint.lockHeld = true ∧ t.dict.header = .writing ∧
      t.memory.inProgress = some ⟨.maint, .header, .maint⟩) ∧
    exec .tableLockTake (withTx .pull (.record 1#16) .pullRead s) = .next (withTx .pull (.record 1#16) .pullRead s) :=
  ⟨⟨_, rfl, by decide⟩, rfl⟩

/-- The settle that the guard demanded gives a DROP in LOCK WAIT the turn at the lock with its last change of the log, and not
before (R62, R129). -/
theorem test_guard_settle_ends :
    let s := fun (more : List LogWork) => withTx .log (.segment 1#12) .change (withWork (.change (.segment 1#12) :: more)
      (withHead ⟨1, .drop 2 false [kat], .lockWait (.drop ⟨339#18, []⟩)⟩ .drop ready))
    (∃ t, exec .memoryTransactionComplete (s []) = .next t ∧ t.maint.lockTurn = true) ∧
    ∃ t, exec .memoryTransactionComplete (s [.change (.segment 2#12)]) = .next t ∧ t.maint.lockTurn = false :=
  ⟨⟨_, rfl, by decide⟩, _, rfl, by decide⟩

/-- A sweep's write between two reads of one slot shows in the second read alone (R34). -/
theorem test_sweep_between_reads : readSlot [] [.occupied cat] [] 339#18 = .occupied cat ∧
    readSlot [] [.occupied cat] [339#18] 339#18 = .empty := by decide

/-- An OPEN answers a PULL whose read is still to make, and no read is left (R149; log entry 39). -/
theorem test_open_answers_a_pull :
    let s := { ready with
      ports := ready.ports.set 2 ⟨.working, .clear, []⟩
      memory := { ready.memory with
        inProgress := some ⟨.pull, .record 1#16, .pullRead⟩
        pullWork := [⟨2, 7#8, [stroke1], []⟩] } }
    ∃ t, exec (.openSession 1 1#8 [0xD3, 0, 1]) s = .next t ∧ t.memory.pullWork = [] ∧
      t.memory.inProgress = some ⟨.pull, .record 1#16, .dropped⟩ ∧
      (t.ports.get 2).exchange = .answering [2, 7, 1, 0, 0, 0, 15, 0, 2, 1, 0, 0, 0, 0, 0x08, 0x01, 0x08, 5, 0, 0, 0, 0, 0] :=
  ⟨_, rfl, by decide⟩

/-- A WITHDRAW is written first, and its targets' transactions follow; the segment stands in the log at once (R85). -/
theorem test_withdraw_then_targets :
    let s := withTx .log (.segment 1#12) .engine
      (withEngine (workOf .takeStrike (.ending 0 0) [.withdraw 0#32]) { opened with log := catLog .settled })
    ∃ t, exec .memoryTransactionComplete s = .next t ∧ t.log.newest = 2#32 ∧
      t.memory.engineWork.map EngineWork.left = some [.turn 1#32] := ⟨_, rfl, by decide⟩

/-- A PUT whose reads are made goes on to LOCK WAIT although its tier has been locked since (R142). -/
theorem test_lock_after_reads :
    let put : MaintEntry := ⟨1, .put 0 false [kat] cat.content, .checking false⟩
    let s := withStep [] (withHead put .put { ready with
      dict := { ready.dict with tiers := ready.dict.tiers.set 0 ⟨true, true, false⟩ } })
    ∃ t, exec .maintHeadCheck s = .next t ∧ t.maint.queue.map MaintEntry.phase =
      [.lockWait (.put ⟨.placed, 265#18, 0, 0, [(265#18, { cat with tier := 0 })]⟩)] := ⟨_, rfl, by decide⟩

/-- The label and the first text of "a speaker, capitals and a new paragraph" (chapter 04): CAPS_ON, then "see". -/
theorem test_caps : render rosterReset ⟨false, false, .none, true, false⟩ kat
      (some (.text [0x73, 0x65, 0x65] ⟨false, false, false, false, false, false⟩)) =
    ([0x20, 0x53, 0x45, 0x45], ⟨false, false, .none, true, false⟩) := by decide

/-- An empty slot 2 prints SPEAKER 2 (R71). -/
theorem test_speaker_label : (render rosterReset ⟨true, false, .nextCap, false, false⟩ kat (some (.command (.speaker 2)))).1 =
    [0x53, 0x50, 0x45, 0x41, 0x4B, 0x45, 0x52, 0x20, 0x32, 0x3A, 0x20] := by decide

/-- The canonical form of the slots refuses an entry out of order, an EMPTY entry and a slot beyond the table. -/
theorem test_slots_form : slotsWf katSlots = true ∧ slotsWf [(266, .vacated), (265, .vacated)] = false ∧
    slotsWf [(265, .empty)] = false ∧ slotsWf [(262144, .vacated)] = false := by decide

/-! ### Witnesses: the whole machine and the checks before the owner -/

theorem witness_StepTakesTheFront : { ready with pending := [.expiry, .powerOn] }.pending = .expiry :: [.powerOn] ∧
    ready.pending = [] := by decide

/-- A frame at the greatest body length, a STATUS that reads all its blocks at once, and a RESTART that came alone. -/
theorem witness_RequestIsItsFrame :
    ((Instr.setHold 0 7#8 (List.replicate 256 0#8)).wf = true ∧
      (Instr.setHold 0 7#8 (List.replicate 256 0#8)).requestForm = some (.setHold, 0, 7#8, List.replicate 256 0#8) ∧
      (∀ reads, Instr.setHold 0 7#8 (List.replicate 256 0#8) = .status 0 7#8 (List.replicate 256 0#8) reads → reads = []) ∧
      ∀ b, Instr.setHold 0 7#8 (List.replicate 256 0#8) = .restart 0 7#8 (List.replicate 256 0#8) b → b = false) ∧
    ((Instr.status 0 7#8 [] []).requestForm = some (.status, 0, 7#8, []) ∧
      ∀ reads, Instr.status 0 7#8 [] [] = .status 0 7#8 [] reads → reads = []) ∧
    ((Instr.restart 0 7#8 [] false).requestForm = some (.restart, 0, 7#8, []) ∧
      ∀ b, Instr.restart 0 7#8 [] false = .restart 0 7#8 [] b → b = false) := by
  refine ⟨⟨?_, rfl, nofun, nofun⟩, ⟨rfl, fun r h => ?_⟩, rfl, fun b h => ?_⟩
  · simp only [Instr.wf, bodyFits, List.length_replicate]
    decide
  · cases h; rfl
  · cases h; rfl

/-- A PUT in WRITING on the table of chapter 02, and the command that ends its writes. -/
def writingPut : State :=
  { withHead ⟨1, .put 0 false [dashS] cat.content, .writing (.put ⟨.placed, 0#18, 0, 0, []⟩)⟩ .put (withSlots katSlots ready)
    with pending := [.putWriteEnd] }

theorem witness_TableAndLockKept : TableSound writingPut ∧ MaintSound writingPut ∧ StepSound writingPut ∧
    ∃ t, step writingPut = .next t :=
  ⟨rfl, ⟨rfl, by decide⟩, nofun, _, rfl⟩

/-- One record and one segment held, and a command that takes the record. -/
def oneRecord : State :=
  { withJournal 1 1 1 [stroke1] opened with log := catLog .settled, pending := [.takeStroke] }

theorem oneRecord_pointers : PointerSound oneRecord := by
  refine ⟨by decide, fun p c h => ?_⟩
  match p with
  | 0 => cases h; decide
  | 1 => cases h; decide
  | 2 => cases h
  | 3 => cases h

/-- The record stands at the cursor with no work begun, and with its take begun. -/
theorem witness_RingsKept : LogSound oneRecord ∧ JournalSound oneRecord ∧ TakeSound oneRecord ∧ PointerSound oneRecord ∧
    PortSound oneRecord ∧ TakeSound (withEngine (workOf .takeStroke (.ending 0 0) []) oneRecord) ∧
    ∃ t, step oneRecord = .next t :=
  ⟨by refine ⟨?_, ?_, ?_⟩ <;> decide, by refine ⟨?_, ?_, ?_, ?_, ?_⟩ <;> decide, nofun, oneRecord_pointers,
    by unfold PortSound; decide, fun _ _ _ => show 1 ≤ 1 by decide, _, rfl⟩

theorem witness_SettingsAndAccessKept : AccessSound oneRecord ∧ SettingsSound oneRecord ∧ ArbiterSound oneRecord ∧
    ∃ t, step oneRecord = .next t :=
  ⟨⟨rfl, by decide⟩, by refine ⟨?_, ?_, ?_, ?_, ?_⟩ <;> decide, by refine ⟨?_, ?_, ?_, ?_, ?_, ?_⟩ <;> decide, _, rfl⟩

/-- P3 lacks SETTINGS, and its SET HOLD is answered REFUSED. -/
theorem witness_RefusalChangesNothing : (Instr.setHold 3 1#8 [0, 1]).wf = true ∧
    (Instr.setHold 3 1#8 [0, 1]).requestForm = some (.setHold, 3, 1#8, [0, 1]) ∧ ready.device.state ≠ .held ∧
    (ready.ports.get 3).exchange = .idle ∧
    ∃ t f, exec (.setHold 3 1#8 [0, 1]) ready = .next t ∧ (t.ports.get 3).exchange = .answering f ∧ f[2]? = some 3#8 :=
  ⟨by decide, rfl, by decide, rfl, _, [10, 1, 3, 2, 7, 0, 0, 0], rfl, by decide, rfl⟩

theorem witness_PortsKeptApart : (Instr.setHold 0 1#8 [0, 1]).requestForm = some (.setHold, 0, 1#8, [0, 1]) ∧
    Kind.setHold ≠ .restart ∧ (3 : PortId) ≠ 0 ∧ (∃ t, exec (.setHold 0 1#8 [0, 1]) ready = .next t) ∧
    (Instr.openSession 0 1#8 [1, 0, 0]).requestForm = some (.openSession, 0, 1#8, [1, 0, 0]) ∧ ¬ReadsWait 3 ready ∧
    ∃ t, exec (.openSession 0 1#8 [1, 0, 0]) ready = .next t :=
  ⟨rfl, by decide, by decide, ⟨_, rfl⟩, rfl, by simp [ReadsWait, ready, State.reset, Memory.reset], _, rfl⟩

/-- For AccessWrittenByItsRequests, SlotsWrittenByMaintenance and SessionStateTurnsAtItsAppends: SET HOLD is outside
each list; and a RESTART that meets no transaction. -/
theorem witness_frames : (Instr.setHold 0 1#8 [0, 1]).wf = true ∧
    (match (Instr.setHold 0 1#8 [0, 1]) with
      | .setAccess .. | .trust .. | .lockPort .. | .restart .. | .resetLine .. | .powerOn | .responsePhase .. => False
      | _ => True) ∧ (∃ t, exec (.setHold 0 1#8 [0, 1]) ready = .next t) ∧
    (Instr.restart 0 1#8 [] false).wf = true ∧ ready.memory.inProgress = none ∧ StepSound ready ∧
      ∃ t, exec (.restart 0 1#8 [] false) ready = .next t := ⟨by decide, trivial, ⟨_, rfl⟩, by decide, rfl, nofun, _, rfl⟩

/-- An OPEN whose START is in its transaction, a CLOSE whose END is, and a RESTART taken. -/
theorem witness_SessionStateTurnsAtItsAppends :
    let start := withTx .log (.segment 1#12) .startAppend
      { ready with session := { ready.session with request := .openInProgress 1 0 } }
    let fin := withTx .log (.segment 1#12) .endAppend
      { opened with session := { opened.session with request := .closeInProgress 1 true } }
    start.session.request = .openInProgress 1 0 ∧ start.memory.inProgress = some ⟨.log, .segment 1#12, .startAppend⟩ ∧
      fin.session.request = .closeInProgress 1 true ∧ fin.memory.inProgress = some ⟨.log, .segment 1#12, .endAppend⟩ ∧
      1000 ≤ 1000 ∧ Taken 0 .restart opened := by decide

/-- A locked row and a locked tier, and a SET ACCESS of that row. -/
theorem witness_LocksLastToTheReset :
    let s := { ready with
      access := ready.access.set 3 { ready.access.get 3 with locked := true }
      dict := { ready.dict with tiers := ready.dict.tiers.set 1 ⟨true, true, false⟩ } }
    (Instr.setAccess 0 1#8 [3, 1]).wf = true ∧ (s.access.get 3).locked = true ∧ (s.dict.tiers.get 1).locked = true ∧
      ∃ t, exec (.setAccess 0 1#8 [3, 1]) s = .next t := ⟨by decide, rfl, rfl, _, rfl⟩

/-- A port without its class, one without trust, and one with both while the part is STARTING. -/
theorem witness_DeniedThenStarting :
    (State.reset.device.state ≠ .held ∧ (State.reset.ports.get 3).exchange = .idle ∧
      denial Kind.setHold.need (State.reset.access.get 3) = some 7) ∧
    denial Kind.restart.need (State.reset.access.get 1) = some 8 ∧
    (denial Kind.setHold.need (State.reset.access.get 0) = none ∧ State.reset.device.state = .starting ∧
      Kind.setHold ≠ .status ∧ Kind.setHold ≠ .collect) ∧
    (Instr.setHold 3 1#8 [0, 1]).wf = true ∧
    (Instr.setHold 3 1#8 [0, 1]).requestForm = some (.setHold, 3, 1#8, [0, 1]) := by decide

/-- Codes 0 and 25, lengths 257 and one above the bytes that came. -/
theorem witness_FrameFaultsAnswered : ready.device.state ≠ .held ∧ (ready.ports.get 0).exchange = .idle ∧
    ((0#8).toNat = 0 ∨ 24 < (0#8).toNat) ∧ ((25#8).toNat = 0 ∨ 24 < (25#8).toNat) ∧
    (1 ≤ (1#8).toNat ∧ (24#8).toNat ≤ 24) ∧
    256 < (1#8).toNat + 256 * (1#8).toNat ∧ (1#8).toNat + 256 * (0#8).toNat ≠ ([] : List Byte).length := by decide

/-- A WORKING port; an ANSWERING port read one byte short and read whole; neither with a STATUS in reading. -/
theorem witness_ResponsePhaseShifts :
    let f : List Byte := responseFrame 1#8 2#8 acceptedReply
    let s := { ready with ports := ⟨⟨.working, .clear, []⟩, ⟨.answering f, .clear, []⟩, Port.reset, Port.reset⟩ }
    s.device.state ≠ .held ∧ s.reports.get 0 = none ∧ s.reports.get 1 = none ∧ (s.ports.get 0).exchange = .working ∧
      (s.ports.get 1).exchange = .answering f ∧ ¬f.length ≤ (List.replicate 7 0#8).length ∧
      f.length ≤ (List.replicate 8 0#8).length := by decide

/-! ### Witnesses: strokes and the journal -/

/-- A ring of 65,536 records whose oldest is number 1, with the translate cursor given. -/
def fullRing (cursor : Nat) : State := withJournal 65536 1 cursor [] opened

/-- The same state with one append accepted and not made. -/
def appendWaits (s : State) : State := { s with memory := { s.memory with intakeWork := [⟨1, 2#8, kat, false⟩] } }

/-- The last number but one to be given out with room for one more; a full ring whose oldest record nothing needs, is
named by a unit, or is held by the run, with a change of the log to write and with none; and a ring that is full once the append
that waits is made, whose second record nothing needs, is named by a unit, or is held by the run. -/
theorem witness_StrokeAsksForItsAppend :
    let s := withJournal 4294967293 4294901759 4294967294 [] opened
    let named := { fullRing 2 with engine := { opened.engine with units := [unitOf true] } }
    let held := { fullRing 2 with
      engine := { opened.engine with run := [⟨1, kat, 5#32⟩], units := [unitOf false] }, log := catLog .provisional }
    let brim := appendWaits (withJournal 65535 1 2 [] opened)
    let beyond := appendWaits (fullRing 3)
    let second : ListedUnit := { unitOf true with strokes := [2] }
    (kat = BitVec.ofNat 23 ((0x08#8).toNat + 256 * (0x01#8).toNat + 65536 * ((0x88#8).toNat % 128)) ∧ kat ≠ 0#23 ∧
      Taken 0 .stroke s ∧ s.session.opened = true ∧ s.session.request = .none ∧
      s.journal.head + s.memory.intakeWork.length < 4294967294 ∧ s.journal.held + s.memory.intakeWork.length < 65536) ∧
    ((fullRing 2).journal.held = 65536 ∧ (fullRing 2).memory.intakeWork = [] ∧
      (fullRing 2).journal.oldest < (fullRing 2).journal.cursor ∧ Taken 0 .stroke (fullRing 2) ∧
      (fullRing 2).engine.run = [] ∧ (fullRing 2).engine.units = []) ∧
    (named.engine.run = [] ∧ (∃ u ∈ named.engine.units, named.journal.oldest ∈ u.strokes) ∧
      named.engine.activity = .idle) ∧
    ((∃ e ∈ held.engine.run, e.seq = held.journal.oldest) ∧ held.engine.activity = .idle ∧
      held.engine.units.filter (fun u => !u.settled) = [unitOf false] ∧ held.memory.logWork = [] ∧
      named.engine.units.filter (fun u => !u.settled) = []) ∧
    ((asOfLast (fullRing 2)).run = [] ∧ (asOfLast (fullRing 2)).units = []) ∧
    (brim.journal.held + brim.memory.intakeWork.length = 65536 ∧ brim.journal.oldest < brim.journal.cursor) ∧
    (Taken 0 .stroke beyond ∧ beyond.journal.held + beyond.memory.intakeWork.length = 65537 ∧
      beyond.journal.oldest + (65537 - 65536) < beyond.journal.cursor ∧ beyond.engine.run = [] ∧ beyond.engine.units = [] ∧
      (∃ u ∈ ({ beyond.engine with units := [second] } : Engine).units, 2 ∈ u.strokes) ∧
      ∃ e ∈ ({ beyond.engine with run := [⟨2, kat, 5#32⟩] } : Engine).run, e.seq = 2) := by decide

/-- A full ring at the last number: its oldest record taken and needed by nothing, then needed while a replay is going on;
an oldest record not taken yet; and the same with one append waiting, at the last number but one, at a second record that is
needed, and at one that is not taken yet. -/
theorem witness_StrokeRefusals :
    let last := withJournal 4294967294 4294901759 4294901760 [] opened
    let closing := { opened with session := { opened.session with request := .closeInProgress 1 false } }
    let busy := { fullRing 2 with engine := { ready.engine with activity := .retranslating, units := [unitOf true] } }
    let near := appendWaits (withJournal 4294967293 4294901759 4294901761 [] opened)
    let late := appendWaits (fullRing 2)
    let beyond := appendWaits { fullRing 3 with
      engine := { ready.engine with activity := .retranslating, units := [{ unitOf true with strokes := [2] }] } }
    0#23 = BitVec.ofNat 23 ((0#8).toNat + 256 * (0#8).toNat + 65536 * ((128#8).toNat % 128)) ∧
    Taken 0 .stroke opened ∧ Taken 0 .stroke ready ∧ ready.session.opened = false ∧
    (Taken 0 .stroke closing ∧ closing.session.opened = true ∧ closing.session.request = .closeInProgress 1 false) ∧
    (Taken 0 .stroke last ∧ last.session.opened = true ∧ last.session.request = .none ∧ last.journal.held = 65536 ∧
      last.journal.oldest < last.journal.cursor ∧ last.journal.head = 4294967294 ∧ last.engine.units = [] ∧
      last.engine.run = [] ∧ last.engine.activity = .idle) ∧
    (Taken 0 .stroke (fullRing 1) ∧ (fullRing 1).journal.held = 65536 ∧
      (fullRing 1).journal.cursor = (fullRing 1).journal.oldest) ∧
    (Taken 0 .stroke busy ∧ busy.journal.held = 65536 ∧ busy.journal.oldest < busy.journal.cursor ∧
      busy.engine.activity = .retranslating ∧ ∃ u ∈ (asOfLast busy).units, busy.journal.oldest ∈ u.strokes) ∧
    (Taken 0 .stroke near ∧ near.journal.head + near.memory.intakeWork.length = 4294967294 ∧
      near.journal.held + near.memory.intakeWork.length = 65536 ∧ near.engine.units = [] ∧ near.engine.run = []) ∧
    (late.journal.held + late.memory.intakeWork.length = 65537 ∧ late.journal.cursor = late.journal.oldest + (65537 - 65536)) ∧
    (Taken 0 .stroke beyond ∧ beyond.journal.oldest + (65537 - 65536) < beyond.journal.cursor ∧
      ∃ u ∈ (asOfLast beyond).units, beyond.journal.oldest + (65537 - 65536) ∈ u.strokes) := by decide

/-- A strike waits to be appended. -/
def appending (s : State) : State :=
  withTx .intake (.record 0#16) .journalAppend { s with memory := { s.memory with intakeWork := [⟨0, 3#8, 1024#23, false⟩] } }

theorem witness_AppendJoinsTheJournal :
    let s := appending (withJournal 65535 1 1 [] opened)
    s.memory.intakeWork = ⟨0, 3#8, 1024#23, false⟩ :: [] ∧
      s.memory.inProgress = some ⟨.intake, .record 0#16, .journalAppend⟩ ∧ s.journal.held < 65536 := by decide

/-- A full ring of 65,536 records, a pull cursor at its oldest and another past it. -/
def fullRecords : State :=
  withJournal 65536 1 2 ((List.range' 1 65536).map (fun n => ⟨n, .stroke false, kat, 5#32, 0⟩)) opened

theorem fullRecords_seq : fullRecords.journal.records.map JournalRecord.seq = List.range' 1 65536 := by
  unfold fullRecords withJournal
  rw [List.map_map]
  exact List.map_id _

theorem witness_AppendOverwritesTheOldest :
    let s := appending { fullRecords with journal := { fullRecords.journal with
      pull := ⟨some ⟨1, 4294967295⟩, some ⟨2, 0⟩, none, none⟩ } }
    s.memory.intakeWork = ⟨0, 3#8, 1024#23, false⟩ :: [] ∧
      s.memory.inProgress = some ⟨.intake, .record 0#16, .journalAppend⟩ ∧ s.journal.held = 65536 ∧ JournalSound s ∧
      s.journal.pull.get 0 = some ⟨s.journal.oldest, 4294967295⟩ ∧ s.journal.pull.get 2 = none := by
  exact ⟨rfl, rfl, rfl, ⟨by decide, by decide, by decide, by decide, fullRecords_seq⟩, rfl, rfl⟩

/-- One record to deliver behind a GAP at the greatest count, a cursor with nothing before the translate cursor, a body of no
byte and of two; and a PULL with its last read in progress, and with one more to make. -/
theorem witness_PullDelivers :
    let s := withJournal 1 1 2 [stroke1] opened
    let t := { s with journal := { s.journal with pull := s.journal.pull.set 0 (some ⟨1, 4294967295⟩) } }
    let u := { s with journal := { s.journal with pull := s.journal.pull.set 0 (some ⟨2, 0⟩) } }
    let reading := fun (more : List JournalRecord) => withTx .pull (.record 0#16) .pullRead { s with memory :=
      { s.memory with pullWork := [⟨1, 3#8, stroke1 :: more, []⟩] } }
    ((Taken 0 .pull t ∧ t.journal.pull.get 0 = some ⟨1, 4294967295⟩ ∧ t.journal.oldest ≤ 1 ∧ 1 ≤ t.journal.cursor ∧
      1 = min (if 255#8 = 0#8 then 1 else min (255#8).toNat 16) (t.journal.cursor - 1)) ∧ JournalSound t ∧
    (Taken 0 .pull u ∧ u.journal.pull.get 0 = some ⟨2, 0⟩ ∧ u.journal.oldest ≤ 2 ∧ 2 ≤ u.journal.cursor ∧
      0 = min (if 0#8 = 0#8 then 1 else min (0#8).toNat 16) (u.journal.cursor - 2)) ∧ JournalSound u) ∧
    (([] : List Byte).length ≠ 1 ∧ [0#8, 0#8].length ≠ 1) ∧
    ((reading []).memory.inProgress = some ⟨.pull, .record 0#16, .pullRead⟩ ∧
      (reading []).memory.pullWork = ⟨1, 3#8, stroke1 :: [], []⟩ :: [] ∧
      (reading [stroke1]).memory.pullWork = ⟨1, 3#8, stroke1 :: [stroke1], []⟩ :: [] ∧ [stroke1] ≠ []) := by
  refine ⟨⟨by decide, ?_, by decide, ?_⟩, by decide, by decide⟩ <;> (refine ⟨?_, ?_, ?_, ?_, ?_⟩ <;> decide)

/-! ### Witnesses: the feeds -/

/-- Segments 5 to 7 held: a START, a WITHDRAW that counts 4 for P3, a settled TEXT. -/
def threeLog : CaptionLog :=
  ⟨7#32, 5#32, true, [⟨5#32, .start 211#16 0#32⟩, ⟨6#32, .withdraw 4#32 ⟨0#16, 0#16, 0#16, 4#16⟩⟩,
    ⟨7#32, .text 9#32 [0x2E] false false 5#32 .settled⟩]⟩

def watching : State :=
  { opened with log := threeLog, feeds := ⟨none, none, some ⟨.settled, ⟨5#32, false⟩, ⟨5#32, false⟩, none⟩,
    some ⟨.live, ⟨4#32, true⟩, ⟨4#32, true⟩, none⟩⟩ }

/-- The numbers at both ends of the ring, one outside it, and one beyond newest + 1 before the first wrap. -/
theorem witness_SubscribeGivesAFeed :
    let unwrapped := { threeLog with wrapped := false }
    let at' := fun (l : CaptionLog) (n : SegNo) => if (n - l.oldest).toNat < l.segments.length ∨ n = l.newest + 1#32 then n
      else if l.wrapped = false ∧ (l.newest + 1#32).toNat < n.toNat then l.newest + 1#32 else l.oldest
    Taken 3 .subscribe watching ∧ at' threeLog 5#32 = 5#32 ∧ at' threeLog 7#32 = 7#32 ∧ at' threeLog 8#32 = 8#32 ∧
      at' threeLog 4#32 = 5#32 ∧ at' threeLog 9#32 = 5#32 ∧ at' unwrapped 9#32 = 8#32 := by decide

theorem witness_UnsubscribeEndsTheFeed : Taken 2 .unsubscribe watching ∧ Taken 2 .unsubscribe ready ∧
    ready.feeds.get 2 = none ∧ [1#8] ≠ [] ∧ [1#8].length ≤ 256 := by decide

/-- A feed with reads to make, a lapsed one, and one at newest + 1 with none. -/
theorem witness_FetchDelivers :
    let w := fun (p : PortId) (f : Feed) => fetchWalk watching.log p f 16
      (watching.log.segments.drop (f.cursor.number - watching.log.oldest).toNat)
    let behind : Feed := ⟨.settled, ⟨5#32, false⟩, ⟨5#32, false⟩, none⟩
    let level : Feed := ⟨.settled, ⟨8#32, false⟩, ⟨5#32, false⟩, none⟩
    Taken 2 .fetch watching ∧ watching.feeds.get 2 = some behind ∧ (w 2 behind).reads ≠ [] ∧ (w 2 level).reads = [] ∧
      Taken 3 .fetch watching ∧ (watching.feeds.get 3).any (fun f => f.cursor.lapsed) = true ∧
      ([] : List Byte).length ≠ 1 := by decide

/-- The two conditions of a WITHDRAW: a count above 0 behind a mark, and a mark at the WITHDRAW itself. -/
theorem witness_WalkDeliversInOrder :
    (⟨0#16, 0#16, 0#16, 4#16⟩ : Quad (BitVec 16)).get 3 ≠ 0#16 ∧ (⟨0#16, 0#16, 0#16, 4#16⟩ : Quad (BitVec 16)).get 2 = 0#16 ∧
    (5#32 - threeLog.oldest).toNat < (6#32 - threeLog.oldest).toNat ∧
    (6#32 - threeLog.oldest).toNat ≤ (6#32 - threeLog.oldest).toNat := by decide

/-! ### Witnesses: completions, STATUS and the settings -/

theorem witness_CollectReturnsTheCompletion :
    let s := { ready with ports := ⟨⟨.idle, .held .get 9#8 (doneReply [1#8]), []⟩, ⟨.idle, .inProgress .get 9#8, []⟩,
      Port.reset, Port.reset⟩ }
    s.device.state ≠ .held ∧ (s.ports.get 0).exchange = .idle ∧
      (s.ports.get 0).slot = .held .get 9#8 (doneReply [1#8]) ∧ (s.ports.get 1).slot = .inProgress .get 9#8 ∧
      (s.ports.get 2).slot = .clear ∧ [1#8] ≠ [] := by decide

/-- A STATUS on an IDLE port, split after no block and after six; and one in reading with its last block left, at the
period that reads it and at one that reads nothing. -/
theorem witness_StatusReports :
    let s := { ready with
      ports := ready.ports.set 0 ⟨.working, .clear, []⟩
      reports := ready.reports.set 0 (some ⟨3#8, [], [.row], [0]⟩) }
    let t := { s with reports := ready.reports.set 0 (some ⟨3#8, [], [.row], []⟩) }
    (State.reset.device.state ≠ .held ∧ (State.reset.ports.get 0).exchange = .idle ∧ State.reset.reports.get 0 = none) ∧
    (0 < 7 ∧ 6 < 7 ∧ [1#8] ≠ []) ∧
    (s.device.state ≠ .held ∧ (s.ports.get 0).exchange = .working ∧ s.reports.get 0 = some ⟨3#8, [], [.row], [0]⟩ ∧
      0 = [0].headD [StatusBlock.row].length ∧ 0 < [StatusBlock.row].length) ∧
    (t.reports.get 0 = some ⟨3#8, [], [.row], []⟩ ∧ 1 = ([] : List Nat).headD [StatusBlock.row].length ∧
      [StatusBlock.row].length ≤ 1) := by decide

/-- Each side of "asserted" is met: P3 is asked for, P1 is not; and the part is not READY after power-on. -/
theorem witness_AttentionFollowsItsConditions : watching.device.state = .ready ∧ attention watching 3 = true ∧
    attention watching 1 = false ∧ State.reset.device.state ≠ .ready := by decide

theorem witness_SpeakerWritesTheRoster : Taken 0 .speaker ready ∧ (List.replicate 255 0x41#8).length ≤ 255 ∧
    (15#8).toNat ≤ 15 ∧ 15 < (16#8).toNat ∧ (∀ b ∈ [0x20#8, 0x7E#8], 0x20 ≤ b.toNat ∧ b.toNat ≤ 0x7E) ∧
    ∃ b ∈ [0x1F#8, 0x7F#8], b.toNat < 0x20 ∨ 0x7E < b.toNat := by
  refine ⟨by decide, ?_, by decide⟩
  rw [List.length_replicate]

theorem witness_TierEnablesWritten : Taken 0 .setTiers ready ∧ (15#8).toNat < 16 ∧ 16 ≤ (16#8).toNat ∧
    ([] : List Byte).length ≠ 1 ∧ [0#8, 0#8].length ≠ 1 := by decide

/-- Below the low bound, at it, and above the high one (R155); a port of 4, and offsets of three bytes and of five. -/
theorem witness_HoldAndOffsetsWritten : Taken 0 .setHold ready ∧ Taken 0 .setOffset ready ∧
    200 = max 200 (min 4000 ((199#8).toNat + 256 * (0#8).toNat)) ∧
    4000 = max 200 (min 4000 ((161#8).toNat + 256 * (15#8).toNat)) ∧ [0#8].length ≠ 2 ∧ 3 < (4#8).toNat ∧ (3#8).toNat ≤ 3 ∧
    (List.replicate 3 0#8).length ≠ 4 ∧ (List.replicate 5 0#8).length ≠ 4 := by decide

/-- Both values, wrong bodies, and an OPEN on a port that may not send a SET ARBITER. -/
theorem witness_ArbiterModeSet : (∃ t, exec (.openSession 1 1#8 [211, 0, 0]) ready = .next t) ∧ ¬Taken 1 .setArbiter ready ∧
    Taken 0 .setArbiter ready ∧ (0#8 = 0#8 ∧ ArbiterMode.fixed = .fixed) ∧
    [2#8].length ≤ 256 ∧ [2#8] ≠ [0#8] ∧ [2#8] ≠ [1#8] ∧ ([] : List Byte) ≠ [0#8] ∧ ([] : List Byte) ≠ [1#8] :=
  ⟨⟨_, rfl⟩, by decide⟩

/-- The same state with row 3 locked. -/
def lockedRow : State := { ready with access := ready.access.set 3 { ready.access.get 3 with locked := true } }

theorem witness_AccessRowReplaced : Taken 0 .setAccess ready ∧ (0x7F#8).getLsbD 7 = false ∧
    (ready.access.get 3).locked = false ∧ Taken 0 .setAccess lockedRow ∧ (lockedRow.access.get 3).locked = true ∧
    3 < (4#8).toNat ∧ (3#8).toNat ≤ 3 ∧ ([] : List Byte).length ≠ 1 ∧ (0x80#8).getLsbD 7 = true := by decide

theorem witness_TrustWritten : Taken 0 .trust ready ∧ (ready.access.get 3).locked = false ∧ Taken 0 .trust lockedRow ∧
    (lockedRow.access.get 3).locked = true ∧ 3 < (4#8).toNat ∧ [2#8] ≠ [0#8] ∧ [2#8] ≠ [1#8] ∧ [2#8].length ≤ 255 := by decide

theorem witness_LocksSet : Taken 0 .lockPort ready ∧ Taken 0 .lockTier ready ∧ ([] : List Byte).length ≠ 1 ∧
    3 < (4#8).toNat := by decide

/-! ### Witnesses: maintenance -/

/-- A slot that is taken, a tier that is CLEARING, one that is locked, and none of them; and faults in each field of a PUT:
a tier of 4, no options, options of 2, a key of no stroke, a kind of 2, flags of 64 and of both cases, a command of 4, an
argument of 16, a text shorter than its length. -/
theorem witness_MaintenanceAccepted :
    let req : MaintRequest := .put 1 false [kat] cat.content
    let tiers := fun (t : Tier) => { ready with dict := { ready.dict with tiers := ready.dict.tiers.set 1 t } }
    let busy := { ready with ports := ready.ports.set 0 ⟨.idle, .inProgress .get 1#8, []⟩ }
    (req.legal ∧ Taken 0 req.kind ready ∧ (ready.ports.get 0).slot = .clear ∧
      ((ready.dict.tiers.get 1).clearing = false ∧ (ready.dict.tiers.get 1).locked = false) ∧
      Taken 0 req.kind busy ∧ (busy.ports.get 0).slot ≠ .clear ∧
      ((tiers ⟨true, false, true⟩).dict.tiers.get 1).clearing = true ∧
      ((tiers ⟨true, true, false⟩).dict.tiers.get 1).clearing = false ∧
      ((tiers ⟨true, true, false⟩).dict.tiers.get 1).locked = true) ∧
    ((Taken 0 .put ready ∧ Taken 0 .drop ready ∧ Taken 0 .get ready ∧ Taken 0 .clearTier ready) ∧ 3 < (4#8).toNat ∧
      (4#8).toNat < 255 ∧ (3#8).toNat ≤ 3 ∧ 1 < (2#8).toNat ∧ 64 ≤ (64#8).toNat ∧
      ((12#8).getLsbD 2 = true ∧ (12#8).getLsbD 3 = true) ∧ (3#8).toNat ≠ 1) ∧ keyLegal [kat] ∧
    (∀ cs more, keyLegal cs → [0#8] ≠ strokesLayout cs ++ more) ∧ (∀ l : TierId, [4#8] ≠ [BitVec.ofNat 8 l.val]) ∧
    (∀ a : Fin 16, [16#8] ≠ [BitVec.ofNat 8 a.val]) ∧
    ∀ text : List Byte, text.length ≤ 40 → [1#8] ≠ BitVec.ofNat 8 text.length :: text := by
  have hk : keyLegal [kat] := ⟨by decide, by decide, by simp [kat]⟩
  refine ⟨⟨⟨hk, by decide, by decide, by decide, by decide⟩, by decide⟩, by decide, hk, fun cs more h e => ?_, by decide,
    by decide, fun text _ e => ?_⟩
  · have e1 : BitVec.ofNat 8 cs.length = 0#8 := by simpa [strokesLayout] using (List.cons.inj e).1.symm
    have e2 := congrArg BitVec.toNat e1
    obtain ⟨h1, h2, -⟩ := h
    simp at e2
    omega
  · obtain ⟨h1, h2⟩ := List.cons.inj e
    subst h2
    exact absurd h1 (by decide)

/-- A slot of the table given a record for each of 32 slots from 265 on: KAT in tier 0 is CROWDED there. -/
def crowded : List (Nat × Slot) := (List.range 32).map (fun i => (265 + i, .occupied ⟨1, [227#23], .command .capsOn, 0⟩))

/-- Every way the checks of a head go, and a head whose reads are made when its tier is locked. -/
theorem witness_HeadChecked :
    let put : MaintEntry := ⟨1, .put 0 false [kat] cat.content, .checking false⟩
    let s := withHead put .put ready
    let locked := { ready with dict := { ready.dict with tiers := ready.dict.tiers.set 0 ⟨true, true, false⟩ } }
    (s.device.state = .ready ∧ s.maint.queue = put :: [] ∧ put.phase = .checking false ∧
      (s.ports.get put.port).slot = .inProgress .put 9#8) ∧ MemoryQuiet s ∧
    (∃ w, (withStep [] (withHead put .put locked)).memory.maintWork = some w ∧ w.left = []) ∧
    ((withHead put .put locked).dict.tiers.get 0).locked = true ∧ (s.dict.tiers.get 0).locked = false ∧
    planPut [] 0 [kat] cat.content = .ok ⟨.placed, 265#18, 0, 0, [(265#18, { cat with tier := 0 })]⟩ ∧
    planPut crowded 0 [kat] cat.content = .error 1 ∧
    lookup [] 0 [kat] = none ∧ lookup katSlots 2 [kat] = some (339#18, cat) ∧ cat.content ≠ .stem ∧
    lookup katSlots 0 [kat] = some (267#18, stem) ∧ stem.content = .stem :=
  ⟨by decide, by decide, ⟨_, rfl, rfl⟩, by decide, by decide, by decide, by decide, by decide, by decide, by decide,
    by decide, rfl⟩

/-- A bearing record, a STEM, and no record, with and without a place; a prefix that is raised, one that is placed, and one
that finds no slot. -/
theorem witness_PutPlanned :
    (lookup katSlots 2 [kat] = some (339#18, cat) ∧ cat.content ≠ .stem) ∧
    (lookup katSlots 0 [kat] = some (267#18, stem) ∧ stem.content = .stem ∧
      ∀ i, i + 1 < [kat].length → (lookup katSlots 0 ([kat].take (i + 1))).isSome = true) ∧
    (lookup katSlots 1 [kat] = none ∧ placement katSlots 1 [kat] = some 302#18) ∧
    (lookup crowded 0 [kat] = none ∧ placement crowded 0 [kat] = none) ∧
    (lookup katSlots 0 [kat, kat] = none ∧ PrefixesPlanned 0 (prefixesOf [kat, kat]) katSlots
      [(267#18, { stem with extensions := 2 })] 0 1 katSlots) ∧
    (lookup katSlots 1 [kat, dashS] = none ∧ PrefixesPlanned 1 (prefixesOf [kat, dashS]) katSlots
      [(302#18, ⟨1, [kat], .stem, 1⟩)] 1 0 (writeSlot katSlots 302 (.occupied ⟨1, [kat], .stem, 1⟩))) ∧
    (lookup crowded 0 [kat, dashS] = none ∧ PrefixesCrowded 0 (prefixesOf [kat, dashS]) crowded 1) :=
  ⟨by decide, ⟨by decide, rfl, fun i h => absurd h (by simp)⟩, by decide, by decide,
    ⟨by decide, .raised (q := [kat]) (rest := []) (by decide) (.done _)⟩,
    ⟨by decide, .placed (q := [kat]) (rest := []) (by decide) (by decide) (.done _)⟩,
    ⟨by decide, .here (q := [kat]) (rest := []) (by decide) (by decide)⟩⟩

/-- Each of the three, with entry memory quiet and with a transaction in progress; a settle still to be written; and a GET whose
reads are made, and one with a read left. -/
theorem witness_HeadMovesOn :
    let lockWait : MaintEntry := ⟨1, .drop 2 false [kat], .lockWait (.drop ⟨339#18, []⟩)⟩
    let clear : MaintEntry := ⟨1, .clearTier 2, .checking true⟩
    let get : MaintEntry := ⟨1, .get none [kat], .checking true⟩
    let busy := { ready with engine := { ready.engine with activity := .retranslating } }
    ((withHead lockWait .drop ready).device.state = .ready ∧ (withHead lockWait .drop ready).maint.queue = lockWait :: [] ∧
      ((withHead lockWait .drop ready).ports.get 1).slot = .inProgress .drop 9#8 ∧
      MemoryQuiet (withHead lockWait .drop ready) ∧ (withHead lockWait .drop ready).engine.activity = .idle ∧
      (withHead lockWait .drop busy).engine.activity = .retranslating) ∧
    ArbiterSound (withHead lockWait .drop ready) ∧
    ((withTx .log (.segment 0#12) .fetchRead (withHead lockWait .drop ready)).memory.inProgress ≠ none ∧
      ∃ b, .change b ∈ (withWork [.change (.segment 0#12)] ready).memory.logWork) ∧
    ((withHead clear .clearTier ready).engine.activity ≠ .retranslating ∧
      (withHead clear .clearTier busy).engine.activity = .retranslating ∧ clear.phase = .checking true) ∧
    (get.request = .get none [kat] ∧ (bestLookup katSlots [0, 1, 2, 3] [kat]).isSome = true ∧
      (bestLookup [] [0, 1, 2, 3] [kat]).isSome = false) ∧
    ((withStep [] (withHead get .get ready)).memory.maintWork = some ⟨[], [], 0, []⟩ ∧
      (withTx .maint (.slot 339#18) .maint (withStep [.read 339#18] (withHead get .get ready))).memory.maintWork =
        some ⟨[], [], 0, [.read 339#18]⟩ ∧
      (withTx .maint (.slot 339#18) .maint (withStep [.read 339#18] (withHead get .get ready))).memory.inProgress ≠ none) :=
  ⟨by decide, arbiter_ready, ⟨by decide, _, List.mem_singleton.2 rfl⟩, by decide, by decide, by decide⟩

/-- A PUT and a DROP in WRITING, with their transactions to make, made, and one left; no session,
one closing and one open; a record outside the plan's slots; and DROPs of a record without
extensions, with a prefix, and of one with them. -/
theorem witness_WritesEnd :
    let put : MaintEntry := ⟨1, .put 0 true [dashS] cat.content, .writing (.put ⟨.placed, 0#18, 0, 0, []⟩)⟩
    let drop : MaintEntry := ⟨1, .drop 2 false [kat], .writing (.drop ⟨339#18, []⟩)⟩
    let longer : Slot := .occupied { cat with extensions := 1 }
    ((withHead put .put ready).device.state = .ready ∧ (withHead put .put ready).maint.queue = put :: [] ∧
      ((withHead put .put ready).ports.get 1).slot = .inProgress .put 9#8 ∧ MemoryQuiet (withHead put .put ready) ∧
      (withHead put .put ready).session.opened = false ∧ (withHead put .put opened).session.opened = true ∧
      (withHead put .put opened).session.request = .none ∧
      (withHead put .put { opened with session := { opened.session with request := .closeInProgress 0 false } }).session.request =
        .closeInProgress 0 false) ∧
    ((withStep [] (withHead put .put ready)).memory.maintWork = some ⟨[], [], 0, []⟩ ∧
      (withTx .maint .header .maint (withStep [.header .consistent] (withHead put .put ready))).memory.maintWork =
        some ⟨[], [], 0, [.header .consistent]⟩ ∧
      (withTx .maint .header .maint (withStep [.header .consistent] (withHead put .put ready))).memory.inProgress ≠ none) ∧
    (drop.request = .drop 2 false [kat] ∧ drop.phase = .writing (.drop ⟨339#18, []⟩)) ∧
    ((339#18).toNat ≠ 9806 ∧ slotAt katSlots 9806 = .occupied cats) ∧
    (slotsWf katSlots = true ∧ [9806#18, 267#18].Nodup ∧ cats.extensions = 0 ∧ slotAt katSlots 267 = .occupied stem) ∧
    (slotsWf [(339, longer)] = true ∧ [339#18].Nodup ∧ slotAt [(339, longer)] 339 = longer ∧ 1 ≠ 0) :=
  ⟨by decide, by decide, by decide, by decide, by decide, by decide⟩

/-- A sweep with its transactions to make, made, and one left. -/
theorem witness_SweepRemovesTheTier :
    let e : MaintEntry := ⟨1, .clearTier 0, .sweeping⟩
    let s := withHead e .clearTier (withSlots katSlots ready)
    s.device.state = .ready ∧ s.maint.queue = e :: [] ∧ (s.ports.get e.port).slot = .inProgress .clearTier 9#8 ∧
      TableSound s ∧ MemoryQuiet s ∧ (s.dict.slots.filter (fun x => x.2.ofTier 0)).length = 2 ∧
      (withStep [] s).memory.maintWork = some ⟨[], [], 0, []⟩ ∧
      (withTx .maint .header .maint (withStep [.header .consistent] s)).memory.maintWork =
        some ⟨[], [], 0, [.header .consistent]⟩ ∧
      (withTx .maint .header .maint (withStep [.header .consistent] s)).memory.inProgress ≠ none :=
  ⟨rfl, rfl, rfl, by show slotsWf katSlots = true; decide, by decide, by decide, by decide⟩

/-! ### Witnesses: the table -/

theorem witness_HashOfKey : 524553 = [kat].foldl (fun h c => (h * 37 + c.toNat + 1) % 4294967296) (0 : TierId).val ∧
    1 ≤ [kat].length ∧ [kat, dashS].length ≤ 2 := by decide

/-- A table of one record at its home, with a slot to take beside it. -/
theorem witness_ProbesKept : slotsWf [(339, .occupied cat)] = true ∧ ProbeSound [(339, .occupied cat)] ∧
    placement [(339, .occupied cat)] 1 [kat] = some 302#18 := by
  refine ⟨by decide, fun n r h => ?_, by decide⟩
  simp only [slotAt] at h
  split at h
  · next e =>
    cases h
    exact ⟨0, by decide, BitVec.eq_of_toNat_eq e.symm, fun j hj => absurd hj (Nat.not_lt_zero j)⟩
  · cases h

/-! ### Witnesses: sessions -/

/-- The same state with another session request. -/
def withRequest (r : SessionRequest) (s : State) : State := { s with session := { s.session with request := r } }

def withRetrans (r : Option RetransRequest) (s : State) : State := { s with engine := { s.engine with request := r } }

theorem witness_RetranslateAndCloseTaken :
    (Taken 1 .retranslate opened ∧ (opened.ports.get 1).slot = .clear ∧ opened.engine.request = none ∧
      opened.session.opened = true ∧ opened.session.request = .none) ∧
    (Taken 1 .retranslate ready ∧ ready.session.opened = false) ∧
    (withRetrans (some ⟨0#32, [], .pending⟩) opened).engine.request ≠ none ∧
    (Taken 1 .closeSession opened ∧ Taken 1 .closeSession ready ∧
      (withRequest (.closeInProgress 0 false) opened).session.request ≠ .none) ∧
    ([0#8, 0#8, 0#8].length ≠ 4 ∧ [0#8] ≠ []) := by decide

/-- With nothing before the translate cursor, and with a record that P0 and P1 have not pulled; a slot taken, a session
request held, a session open; and a discard flag of 2. -/
theorem witness_OpenEmptiesTheSession :
    let lagging := withJournal 1 1 2 [stroke1] ready
    let reading : PullWork := ⟨2, 7#8, [stroke1], []⟩
    let fetching : ReadWork := ⟨3, 8#8, [.segment 1#12], []⟩
    let waits := { withWork [.fetch fetching] ready with memory := { (withWork [.fetch fetching] ready).memory with
      pullWork := [reading] } }
    [0xD3#8, 0#8, 0#8] = leBytes 2 (211#16).toNat ++ [if false then 1#8 else 0#8] ∧ 211#16 ≠ 0#16 ∧
    (Taken 1 .openSession ready ∧ (ready.ports.get 1).slot = .clear ∧ ready.session.request = .none ∧
      ready.session.opened = false ∧ ∀ q c, ready.journal.pull.get q = some c → ¬c.cursor < ready.journal.cursor) ∧
    (Taken 1 .openSession lagging ∧ lagging.session.opened = false ∧
      ∃ c, lagging.journal.pull.get 0 = some c ∧ c.cursor < lagging.journal.cursor) ∧
    (Taken 1 .openSession opened ∧ (opened.ports.get 1).slot = .clear ∧ opened.session.request = .none ∧
      opened.session.opened = true) ∧
    ((withRequest (.openInProgress 0 0) ready).session.request ≠ .none ∧
      Taken 1 .openSession (withRequest (.openInProgress 0 0) ready)) ∧
    (Taken 1 .openSession waits ∧ waits.memory.pullWork = [reading] ∧ reading.port = 2 ∧
      waits.memory.logWork = [.fetch fetching] ∧ fetching.port = 3) ∧
    ([2#8] ≠ [0#8] ∧ [2#8] ≠ [1#8] ∧ ([] : List Byte) ≠ [0#8] ∧ [2#8].length ≤ 254) := by
  refine ⟨by decide, by decide, ⟨by decide, by decide, by decide, by decide, ?_⟩, ⟨by decide, by decide, _, rfl, by decide⟩,
    by decide, by decide, by decide, by decide⟩
  intro q c h
  match q with
  | 0 => cases h; decide
  | 1 => cases h; decide
  | 2 => cases h
  | 3 => cases h

theorem witness_StartAndEndAppended :
    let start := withWork [.startAppend]
      (withTx .log (.segment 1#12) .startAppend (withRequest (.openInProgress 1 0) ready))
    let fin := withWork [.endAppend]
      (withTx .log (.segment 1#12) .endAppend (withRequest (.closeInProgress 1 true) opened))
    let taking := fun (s : State) => { s with ports := s.ports.set 1 ⟨.idle, .inProgress .openSession 3#8, []⟩ }
    ((taking start).ports.get 1).slot = .inProgress .openSession 3#8 ∧
      (taking start).session.request = .openInProgress 1 0 ∧ (taking start).memory.logWork = .startAppend :: [] ∧
      (taking start).memory.inProgress = some ⟨.log, .segment 1#12, .startAppend⟩ ∧
      (taking fin).session.request = .closeInProgress 1 true ∧ (taking fin).memory.logWork = .endAppend :: [] ∧
      (taking fin).memory.inProgress = some ⟨.log, .segment 1#12, .endAppend⟩ := by decide

theorem witness_ClockTicks : ready.session.opened = false ∧ opened.session.opened = true := by decide

/-! ### Witnesses: translation -/

/-- One STROKE record waits, in a session with the slots given. -/
def oneWaits (m : List (Nat × Slot)) (r : JournalRecord) : State := withSlots m (withJournal 1 1 1 [r] opened)

/-- The run of one stroke that take left open: its unit, its segment and its last taken stamp. -/
def openRun (m : List (Nat × Slot)) : State :=
  let s := withSlots m (withJournal 1 1 2 [stroke1] opened)
  { s with
    engine := { s.engine with run := [⟨1, kat, 5#32⟩], units := [unitOf false], lastTaken := some 5#32, nextUnit := 2#32 }
    log := catLog .provisional }

/-- KAT with the STEM of chapter 02 keeps the run open; without it the run closes; and a second KAT on the run
that stayed open. -/
theorem witness_SingleStrokeTaken :
    let held := oneWaits katSlots stroke1
    let shut := oneWaits [(339, .occupied cat)] stroke1
    let second := { openRun katSlots with journal := { opened.journal with
      head := 2, cursor := 2, records := [stroke1, { stroke1 with seq := 2, stamp := 9#32 }] } }
    (EngineFree held ∧ NothingBefore held ∧ MemoryQuiet held ∧ held.journal.cursor ≤ held.journal.head ∧
      held.journal.recordAt held.journal.cursor = some stroke1 ∧ held.engine.run = [] ∧ held.engine.units = [] ∧
      some (2, 339#18, cat) = bestLookup held.dict.slots (tiersRead held) [stroke1.chord]) ∧
    ArbiterSound held ∧
    (false = true ↔ closesAt held [stroke1.chord]) ∧
    some (2, 339#18, cat) = bestLookup shut.dict.slots (tiersRead shut) [stroke1.chord] ∧
    (true = true ↔ closesAt shut [stroke1.chord]) ∧
    (EngineFree second ∧ NothingBefore second ∧ MemoryQuiet second ∧ second.journal.cursor ≤ second.journal.head ∧
      second.journal.recordAt second.journal.cursor = some { stroke1 with seq := 2, stamp := 9#32 }) := by
  refine ⟨by decide, arbiter_ready, ⟨nofun, fun h => ?_⟩, by decide,
    ⟨fun _ l _ n q e => ?_, fun _ => rfl⟩, by decide⟩
  · exact absurd (h 0 (by decide) 267#18 stem (by decide)) (by decide)
  · have h1 : ∀ l : TierId, l ≠ 2 → lookup [(339, .occupied cat)] l [kat] = none := by decide
    have h2 : lookup [(339, .occupied cat)] 2 [kat] = some (339#18, cat) := by decide
    have e2 : lookup [(339, .occupied cat)] l [kat] = some (n, q) := e
    by_cases hl : l = 2
    · rw [hl, h2] at e2
      cases e2
      rfl
    · rw [h1 l hl] at e2
      cases e2

/-- A change event on the same table, and one after the longer entries went. -/
theorem witness_ReResolutionKeepsAUnit :
    let changed := fun (s : State) => { s with engine := { s.engine with changePending := true } }
    let s := changed (openRun katSlots)
    let out := render s.roster s.engine.format kat (some cat.content)
    (EngineFree (changed opened) ∧ (changed opened).engine.changePending = true ∧ (changed opened).engine.run = [] ∧
      (changed opened).engine.units = [] ∧ MemoryQuiet (changed opened)) ∧
    (EngineFree s ∧ MemoryQuiet s ∧ s.engine.run = [⟨1, kat, 5#32⟩] ∧ s.engine.units = [] ++ [unitOf false] ∧
      (unitOf false).settled = false ∧ (unitOf false).strokes = [1] ∧
      (s.log.newest - (unitOf false).segment).toNat < 4089 ∧
      some (2, 339#18, cat) = bestLookup s.dict.slots (tiersRead s) [kat] ∧
      (unitOf false).reading = readingOf (some (2, 339#18, cat)) ∧
      s.log.textOf (unitOf false).segment = some out.1) ∧
    (false = true ↔ closesAt s [kat]) := by
  refine ⟨by decide, by decide, ⟨nofun, fun h => ?_⟩⟩
  exact absurd (h 0 (by decide) 267#18 stem (by decide)) (by decide)

/-- The clock one millisecond short of the hold time and at it; a CLOSE with every record taken. -/
theorem witness_ExpiryAndCloseSettle :
    let at' := fun (ms : Stamp) => { openRun katSlots with session := { opened.session with clock := ms } }
    let closing := withRequest (.closeInProgress 1 false) (openRun katSlots)
    (EngineFree (at' 1005#32) ∧ NothingBefore (at' 1005#32) ∧ MemoryQuiet (at' 1005#32) ∧
      (at' 1005#32).journal.cursor = (at' 1005#32).journal.head + 1 ∧ (at' 1005#32).engine.run ≠ [] ∧
      (at' 1005#32).engine.lastTaken = some 5#32 ∧
      (at' 1005#32).session.hold ≤ ((at' 1005#32).session.clock - 5#32).toNat ∧ (at' 1005#32).session.request = .none) ∧
    opened.engine.run = [] ∧
    ((at' 1004#32).session.clock - 5#32).toNat < (at' 1004#32).session.hold ∧
    (EngineFree closing ∧ NothingBefore closing ∧ MemoryQuiet closing ∧
      closing.journal.cursor = closing.journal.head + 1 ∧ closing.session.request = .closeInProgress 1 false) := by decide

/-! ### Witnesses: strikes and retranslation -/

theorem witness_StrikeWithoutTarget : (EngineFree (oneWaits [] strike1) ∧ NothingBefore (oneWaits [] strike1) ∧
    MemoryQuiet (oneWaits [] strike1) ∧ (oneWaits [] strike1).journal.cursor ≤ (oneWaits [] strike1).journal.head ∧
    (oneWaits [] strike1).journal.recordAt (oneWaits [] strike1).journal.cursor = some strike1 ∧
    strike1.kind = .strike none ∧ (oneWaits [] strike1).engine.run = [] ∧ (oneWaits [] strike1).engine.units = []) := by decide

/-- The stroke of `openRun` and a strike after it, at the stamp given. -/
def struck (run : Bool) (ms : Stamp) : State :=
  let s := withJournal 2 1 2 [stroke1, { strike1 with seq := 2, stamp := ms }] opened
  { s with
    engine := { s.engine with
      run := if run then [⟨1, kat, 5#32⟩] else [], units := [unitOf !run], lastTaken := some 5#32, nextUnit := 2#32 }
    log := catLog (if run then .provisional else .settled) }

theorem struck_sound (run : Bool) (ms : Stamp) : JournalSound (struck run ms) :=
  ⟨show 1 ≤ 1 by decide, show 1 ≤ 3 by decide, show 2 ≤ 3 by decide, show 2 ≤ 65536 by decide, rfl⟩

/-- The unit as the list's only one. -/
theorem witness_StrikeAgainstUnit :
    let s := struck false 9#32
    (EngineFree s ∧ NothingBefore s ∧ MemoryQuiet s ∧ s.journal.cursor ≤ s.journal.head ∧
      s.journal.recordAt s.journal.cursor = some { strike1 with seq := 2, stamp := 9#32 } ∧ s.engine.run = [] ∧
      s.engine.units = [] ++ [unitOf true] ∧ (unitOf true).settled = true ∧ (unitOf true).strokes ≠ []) ∧
    ArbiterSound s ∧ JournalSound s := ⟨by decide, arbiter_ready, struck_sound _ _⟩

/-- The last stamp before the run expires; and a strike against a run of two strokes. -/
theorem witness_StrikeAgainstTheRun :
    let s := struck true 1004#32
    let two := { s with engine := { s.engine with run := [⟨1, kat, 5#32⟩, ⟨1, kat, 5#32⟩] } }
    (EngineFree s ∧ NothingBefore s ∧ MemoryQuiet s ∧ s.journal.cursor ≤ s.journal.head ∧
      s.journal.recordAt s.journal.cursor = some { strike1 with seq := 2, stamp := 1004#32 } ∧
      s.engine.run = [⟨1, kat, 5#32⟩] ∧ s.engine.units = [] ++ [unitOf false] ∧ (unitOf false).settled = false ∧
      s.engine.lastTaken = some 5#32 ∧ (1004#32 - 5#32).toNat < s.session.hold ∧
      (s.log.newest - (unitOf false).segment).toNat < 4089) ∧
    (JournalSound s ∧ ArbiterSound s) ∧
    (expiredBy two.session.hold 1004#32 (headroomed 4089 two)).engine.run = [⟨1, kat, 5#32⟩] ++ [⟨1, kat, 5#32⟩] :=
  ⟨by decide, ⟨struck_sound _ _, arbiter_ready⟩, by decide⟩

/-- An empty list, a start within the list's strokes, and one beyond them. -/
theorem witness_RetranslationStarts :
    let r := fun (n : Word32) => (⟨n, [⟨1, .retranslate, []⟩], .pending⟩ : RetransRequest)
    let s := withRetrans (some (r 0#32)) opened
    let t := fun (n : Word32) => withRetrans (some (r n)) { opened with
      engine := { opened.engine with units := [unitOf true] }, log := catLog .settled }
    (EngineFree s ∧ s.engine.changePending = false ∧ s.engine.request = some (r 0#32) ∧ (r 0#32).phase = .pending ∧
      MemoryQuiet s ∧ s.engine.units = [] ∧ ((r 0#32).requesters.map Requester.port).Nodup) ∧
    (EngineFree (t 1#32) ∧ MemoryQuiet (t 1#32) ∧ (t 1#32).engine.units ≠ [] ∧
      (∀ u ∈ (t 1#32).engine.units, u.strokes ≠ []) ∧ (1#32).toNat ≤ (unitOf true).strokes.getLastD 0) ∧
    (unitOf true).strokes.getLastD 0 < (2#32).toNat := by decide

/-- One unit to replay; and a private run at its expiry and just before. -/
theorem witness_RebuildReleases :
    let p : ReplayStart := ⟨0, 1, [0, 1, 2, 3]⟩
    let r : RetransRequest := ⟨0#32, [⟨1, .retranslate, []⟩], .inProgress p⟩
    let s := { withJournal 1 1 2 [stroke1] opened with
      engine := { opened.engine with units := [unitOf true], request := some r, activity := .retranslating }
      log := catLog .settled }
    let rep : Replay := ⟨[⟨1, kat, 5#32⟩], .sessionOpen, [], [], some 5#32⟩
    (s.device.state = .ready ∧ s.engine.activity = .retranslating ∧ s.engine.request = some r ∧
      r.phase = .inProgress p ∧ (r.requesters.map Requester.port).Nodup ∧ MemoryQuiet s ∧
      [unitOf true] = s.engine.units.drop p.first) ∧
    (rep.lastFed = some 5#32 ∧ rep.run ≠ [] ∧ 1000 ≤ (1005#32 - 5#32).toNat ∧ (1004#32 - 5#32).toNat < 1000) := by decide

/-! ### Witnesses: rendering -/

/-- "cat" with the capital that the session opens with, a name held and an empty one. -/
theorem witness_UnitsRendered :
    [0x63#8, 0x61, 0x74] ≠ [] ∧ lettered .sessionOpen [0x63, 0x61, 0x74] [0x43, 0x61, 0x74] ∧
    (match [[0x41#8]][(0 : Fin 16).val]? with
      | some (x :: more) => x :: more
      | _ => []) = [0x41#8] ∧
    (match rosterReset[(15 : Fin 16).val]? with
      | some (_ :: _) => false
      | _ => true) = true := by
  refine ⟨by decide, .inr (.inr ⟨rfl, [], 0x63, [0x61, 0x74], rfl, by simp, .inr (by decide), .inl ⟨rfl, rfl⟩⟩), by decide, by decide⟩

/-! ### Witnesses: entry memory, power and reset -/

/-- A state in which the engine may begin a work of that kind. -/
def readyFor : WorkKind → State
  | .rebuild => { opened with engine := { opened.engine with
      request := some ⟨0#32, [⟨1, .retranslate, []⟩], .inProgress ⟨0, 1, [0]⟩⟩, activity := .retranslating } }
  | .reResolution => { opened with engine := { opened.engine with changePending := true } }
  | .retranslationStart => withRetrans (some ⟨0#32, [⟨1, .retranslate, []⟩], .pending⟩) opened
  | .takeStroke => oneWaits katSlots stroke1
  | .takeStrike => oneWaits katSlots strike1
  | .expiry => { openRun katSlots with session := { opened.session with clock := 1005#32 } }
  | .closeSettle => withRequest (.closeInProgress 1 false)
      { openRun katSlots with session := { opened.session with clock := 5#32 } }

/-- The same state with a PULL's read to make. -/
def pulling (s : State) : State := { s with memory := { s.memory with pullWork := [⟨1, 1#8, [stroke1], []⟩] } }

theorem readyFor_begins (k : WorkKind) : WorkReady (readyFor k) k ∧ WorkReady (pulling (readyFor k)) k := by
  rw [← mayBegin_iff, ← mayBegin_iff]; cases k <;> decide

/-- Each work is ready in its own state alone, and none while the part has nothing to do. -/
theorem readyFor_alone : ¬WorkReady (readyFor .expiry) .closeSettle ∧ ¬WorkReady (readyFor .closeSettle) .expiry ∧
    ∀ k, ¬WorkReady opened k := by
  refine ⟨by rw [← mayBegin_iff]; decide, by rw [← mayBegin_iff]; decide, fun k => ?_⟩
  rw [← mayBegin_iff]; cases k <;> decide

/-- Nobody asks; INTAKE asks, with an append whose own guard's settle is still to be written and without; a requester at count 8
behind one below it; the highest with none at 8; a step of the maintenance unit begun; each work of the engine ready, and none;
the phases of a head, and start-up's sweep and header read; a piece of the log's work, and a PULL's read. -/
theorem witness_GrantChooses :
    let next := fun (s : State) => presentMaint (presentEngine false s)
    let busy := withEngine (workOf .rebuild (.forming []) [.slot 5#18])
      (withWork [.fetch ⟨2, 1#8, [.segment 1#12], []⟩] ready)
    let s := { busy with memory := { busy.memory with counts := ⟨7, 8, 0, 0⟩ } }
    let t := fun (g : Bool) => { ready with memory := { ready.memory with intakeWork := [⟨0, 1#8, kat, g⟩] } }
    (ready.memory.inProgress = none ∧
      ∀ q ∈ [MemRequester.intake, .xlate, .log, .maint, .pull], requestOf (next ready) q = none) ∧
    ((t false).memory.inProgress = none ∧ (requestOf (next (t false)) .intake).isSome = true ∧
      (t false).memory.intakeWork = ⟨0, 1#8, kat, false⟩ :: [] ∧ ready.memory.intakeWork = []) ∧
    ((withWork [.change (.segment 0#12)] (t true)).memory.intakeWork = ⟨0, 1#8, kat, true⟩ :: [] ∧
      (withWork [.change (.segment 0#12)] (t true)).memory.logWork = [.change (.segment 0#12)]) ∧
    (requestOf (next s) .intake = none ∧ (next s).memory.order = [.xlate] ++ .log :: [.maint, .pull] ∧
      (requestOf (next s) .log).isSome = true ∧ (next s).memory.counts.get .log = 8 ∧
      (next s).memory.counts.get .xlate ≠ 8) ∧
    ((next busy).memory.order = [] ++ .xlate :: [.log, .maint, .pull] ∧
      (requestOf (next busy) .xlate).isSome = true ∧
      ∀ q ∈ (next busy).memory.order, (next busy).memory.counts.get q ≠ 8) ∧
    ((withStep [.header .writing] ready).device.state = .ready ∧
      (withStep [.header .writing] ready).memory.maintWork = some ⟨[], [], 0, .header .writing :: []⟩ ∧
      ready.memory.maintWork = none) ∧
    (let e : MaintEntry := ⟨1, .drop 2 false [kat], .lockWait (.drop ⟨339#18, []⟩)⟩
     let kept := withHead e .drop (withStep [.header .writing] { ready with
       engine := { ready.engine with activity := .resolving } })
     kept.maint.queue.head? = some e ∧ e.phase = .lockWait (.drop ⟨339#18, []⟩) ∧ kept.engine.activity = .resolving ∧
      kept.memory.maintWork = some ⟨[], [], 0, [.header .writing]⟩ ∧ ready.maint.queue.head? = none) ∧
    ((∀ k, WorkReady (readyFor k) k) ∧ (∀ k, (readyFor k).memory.engineWork = none) ∧
      ¬WorkReady (readyFor .expiry) .closeSettle ∧ ¬WorkReady (readyFor .closeSettle) .expiry ∧ ∀ k, ¬WorkReady opened k) ∧
    (let head := fun (r : MaintRequest) (ph : Phase) => (withHead ⟨1, r, ph⟩ .put ready)
     (∀ ph ∈ [Phase.checking false, .lockWait (.put ⟨.placed, 0#18, 0, 0, []⟩), .writing (.put ⟨.placed, 0#18, 0, 0, []⟩)],
        (head (.put 0 false [kat] cat.content) ph).memory.maintWork = none ∧
        (head (.put 0 false [kat] cat.content) ph).device.state = .ready ∧
        (head (.put 0 false [kat] cat.content) ph).maint.queue = ⟨1, .put 0 false [kat] cat.content, ph⟩ :: []) ∧
      (head (.clearTier 0) .sweeping).maint.queue = ⟨1, .clearTier 0, .sweeping⟩ :: []) ∧
    (let at' := fun (u : Startup) => { ready with device := ⟨.starting, u, .powerOn, .emptied⟩ }
     (at' .sweep).memory.maintWork = none ∧ (at' .sweep).maint.queue = [] ∧ (at' .readHeader).device.startup = .readHeader ∧
      (withStep [.empty 0] (at' .sweep)).memory.maintWork = some ⟨[], [], 0, .empty 0 :: []⟩) ∧
    ((withWork [.startAppend] ready).memory.logWork = .startAppend :: [] ∧
      (pulling ready).memory.pullWork = ⟨1, 1#8, [stroke1], []⟩ :: [] ∧ ready.memory.pullWork = []) := by
  refine ⟨by decide, by decide, by decide, by decide, by decide, by decide, by decide,
    ⟨fun k => (readyFor_begins k).1, fun k => by cases k <;> rfl, readyFor_alone.1, readyFor_alone.2.1, readyFor_alone.2.2⟩,
    by decide, by decide, by decide⟩

/-- A FETCH with its last read in progress, and with one more to make; a strike's write; each transaction of the maintenance
unit, a sweep at its last slot on a record of its tier and on none; a state change of the log, the last and not; a work with
transactions left, with somebody else asking and nobody, and one with none; each work ready to begin, so too; and a resolution
whose reads found what one table holds. -/
theorem witness_TransactionsEnd :
    let w : ReadWork := ⟨1, 3#8, [.segment 0#12], [1#8]⟩
    let t := withTx .log (.segment 0#12) .fetchRead
      (withWork [.fetch { w with reads := [.segment 0#12, .segment 1#12] }] ready)
    let ew := workOf .takeStrike .striking [.write (.mark 1)]
    let e := withTx .xlate (.record 1#16) .engine (withEngine ew ready)
    let m := fun (u : MaintUse) => withTx .maint .header .maint (withStep [u] (withSlots katSlots ready))
    let c := withTx .log (.segment 1#12) .change (withWork [.change (.segment 1#12)] ready)
    ready.memory.inProgress = none ∧
    (withTx .pull (.record 1#16) .dropped ready).memory.inProgress = some ⟨.pull, .record 1#16, .dropped⟩ ∧
    (e.memory.inProgress = some ⟨.xlate, .record 1#16, .engine⟩ ∧ e.memory.engineWork = some ew ∧
      ew.left = .write (.mark 1) :: []) ∧
    ((workOf .takeStrike (.ending 0 0) []).kind = .takeStrike ∧ (workOf .takeStrike (.ending 0 0) []).left = [] ∧
      (workOf .takeStrike (.ending 0 0) []).stage = .ending 0 0) ∧
    (∀ u ∈ [MaintUse.header .consistent, .read 5#18, .write 5#18 .empty, .sweep 0 262143, .sweep 0 267, .empty 262143],
      (m u).memory.inProgress = some ⟨.maint, .header, .maint⟩ ∧ (m u).memory.maintWork = some ⟨[], [], 0, u :: []⟩) ∧
    (slotAt katSlots 262143 = .empty ∧ 262143 < 262144 ∧ slotAt katSlots 267 = .occupied stem ∧ stem.tier = 0) ∧
    (c.memory.inProgress = some ⟨.log, .segment 1#12, .change⟩ ∧ c.memory.logWork = .change (.segment 1#12) :: [] ∧
      (withWork [.change (.segment 1#12), .change (.segment 2#12)] c).memory.logWork =
        .change (.segment 1#12) :: [.change (.segment 2#12)]) ∧
    (EngineAlone (withEngine ew ready) ∧ ¬EngineAlone (pulling (withEngine ew ready)) ∧ ew.left ≠ [] ∧
      ew.kind = .takeStrike) ∧
    ((∀ k, EngineAlone (readyFor k) ∧ ¬EngineAlone (pulling (readyFor k)) ∧ (readyFor k).memory.engineWork = none) ∧
      ∀ k, WorkReady (readyFor k) k ∧ WorkReady (pulling (readyFor k)) k) ∧
    (∀ (i : Nat) (n : SlotNo), (formBy (readSlot katSlots [.occupied cat]) [2] [⟨1, kat, 5#32⟩]).2[i]? = some n →
      ([Slot.occupied cat][i]?).getD (slotAt katSlots n.toNat) = slotAt [(339, .occupied cat)] n.toNat) ∧
    (t.memory.inProgress = some ⟨.log, .segment 0#12, .fetchRead⟩ ∧
      t.memory.logWork = .fetch { w with reads := [.segment 0#12, .segment 1#12] } :: [] ∧
      [Block.segment 1#12] ≠ []) := by
  refine ⟨by decide, by decide, by decide, by decide, by decide, by decide, by decide, by decide,
    ⟨fun k => by cases k <;> decide, readyFor_begins⟩, fun i n h => ?_, by decide⟩
  rw [show (formBy (readSlot katSlots [.occupied cat]) [2] [⟨1, kat, 5#32⟩]).2 = [339#18, 339#18] by decide] at h
  match i with
  | 0 => cases h; decide
  | 1 => cases h; decide
  | i + 2 => cases h

/-- Assertions of 999 ns and of 1 µs, and a RESTART; a read and a change of the log of the engine's work in flight; an append in
flight, in a ring with room and in a full one; a strike's mark in flight; a slot write and a header write in flight; and a header
read in flight. -/
theorem witness_ResetsAndTheirValues :
    let ew := workOf .takeStrike .striking [.write (.mark 1)]
    let e := withTx .xlate (.record 1#16) .engine (withEngine ew ready)
    let m := fun (u : MaintUse) => withTx .maint .header .maint (withStep [u] ready)
    (ready.memory.inProgress = none ∧ Taken 0 .restart ready ∧ [0#8] ≠ []) ∧ 1000 ≤ 1000 ∧ 999 < 1000 ∧
    (∀ u ∈ [Use.record 1, .slot 5#18, .promote 1#32, .withdraw 0#32],
      let r := withTx .log (.segment 1#12) .engine (withEngine (workOf .takeStroke (.ending 0 0) [u]) opened)
      Taken 0 .restart r ∧ r.memory.inProgress = some ⟨.log, .segment 1#12, .engine⟩ ∧
        r.memory.engineWork.map EngineWork.left = some [u] ∧ u ≠ .write (.mark 1)) ∧
    ((appending ready).memory.inProgress = some ⟨.intake, .record 0#16, .journalAppend⟩ ∧ Taken 0 .restart (appending ready) ∧
      (appending ready).memory.intakeWork = ⟨0, 3#8, 1024#23, false⟩ :: [] ∧ (appending ready).journal.held ≤ 65536 ∧
      (appending (fullRing 2)).journal.held = 65536) ∧
    (e.memory.inProgress = some ⟨.xlate, .record 1#16, .engine⟩ ∧ e.memory.engineWork = some ew ∧ Taken 0 .restart e ∧
      ew.left = .write (.mark 1) :: []) ∧
    (∀ u ∈ [MaintUse.header .consistent, .write 5#18 .empty], Taken 0 .restart (m u) ∧
      (m u).memory.inProgress = some ⟨.maint, .header, .maint⟩ ∧ (m u).memory.maintWork = some ⟨[], [], 0, u :: []⟩) ∧
    (withTx .maint .header .headerRead ready).memory.inProgress = some ⟨.maint, .header, .headerRead⟩ := by decide

/-- A part held, one at its header read, granted and not, one at its sweep, with its transactions to make, made, and one left,
and one with its start-up done. -/
theorem witness_PowerOnAndStartUp :
    let at' := fun (d : DeviceState) (u : Startup) => { ready with device := ⟨d, u, .resetLine, .kept⟩ }
    ((at' .held .readHeader).device.state = .held ∧
    ((withTx .maint .header .headerRead (at' .starting .readHeader)).device.startup = .readHeader ∧
      (withTx .maint .header .headerRead (at' .starting .readHeader)).memory.inProgress =
        some ⟨.maint, .header, .headerRead⟩) ∧ MemoryQuiet (at' .starting .readHeader) ∧
    ((at' .starting .sweep).device.state = .starting ∧ (at' .starting .sweep).device.startup = .sweep ∧
      MemoryQuiet (at' .starting .sweep) ∧
      (withStep [] (at' .starting .sweep)).memory.maintWork = some ⟨[], [], 0, []⟩ ∧
      (withTx .maint .header .maint (withStep [.header .consistent] (at' .starting .sweep))).memory.maintWork =
        some ⟨[], [], 0, [.header .consistent]⟩ ∧
      (withTx .maint .header .maint (withStep [.header .consistent] (at' .starting .sweep))).memory.inProgress ≠ none) ∧
    (at' .starting .done).device.startup = .done) ∧ ArbiterSound (at' .starting .readHeader) := ⟨by decide, arbiter_ready⟩

end Sys2Proof.Tests
end

section
/-! PROOFS. The hash of a key over the natural numbers (R26): the model's 32-bit hash is the exact hash, the one that is
never reduced, modulo 2^32, wherever the reductions stand; the exact hash grows with each chord, and that of at most two
chords fits in 32 bits. -/

namespace Sys2Proof.Proofs

open Sys2Proof.Machine

/-- The hash with no reduction, from a seed. -/
def exactHash (seed : Nat) (cs : List Chord) : Nat := cs.foldl (fun h c => h * 37 + c.toNat + 1) seed

/-- The hash reduced modulo 2^32 after each chord, from a seed. -/
def reducedHash (seed : Nat) (cs : List Chord) : Nat := cs.foldl (fun h c => (h * 37 + c.toNat + 1) % 4294967296) seed

@[simp] theorem exactHash_nil (seed : Nat) : exactHash seed [] = seed := rfl

@[simp] theorem exactHash_cons (seed : Nat) (c : Chord) (cs : List Chord) :
    exactHash seed (c :: cs) = exactHash (seed * 37 + c.toNat + 1) cs := rfl

theorem hashStep_toNat (h : Word32) (c : Chord) : (hashStep h c).toNat = (h.toNat * 37 + c.toNat + 1) % 4294967296 := by
  simp [hashStep, BitVec.toNat_add, BitVec.toNat_mul]

/-- The model's hash and the reduced one go together, chord by chord. -/
theorem keyHash_toNat (t : TierId) (cs : List Chord) : (keyHash t cs).toNat = reducedHash t.val cs := by
  have seed : (BitVec.ofNat 32 t.val).toNat = t.val := by
    rw [BitVec.toNat_ofNat]
    omega
  calc (keyHash t cs).toNat
      = reducedHash (BitVec.ofNat 32 t.val).toNat cs :=
        (List.foldl_hom BitVec.toNat fun h c => (hashStep_toNat h c).symm).symm
    _ = reducedHash t.val cs := by rw [seed]

/-- The home slot is the low 18 bits of the hash. -/
theorem homeSlot_toNat (t : TierId) (cs : List Chord) : (homeSlot t cs).toNat = (keyHash t cs).toNat % 262144 :=
  BitVec.toNat_setWidth ..

/-- Reducing after each chord is the same as reducing once, at the end. -/
theorem reducedHash_mod (seed : Nat) (cs : List Chord) :
    reducedHash (seed % 4294967296) cs = exactHash seed cs % 4294967296 :=
  List.foldl_hom (· % 4294967296) fun h c => by omega

theorem reducedHash_eq_exactHash {seed : Nat} {cs : List Chord} (hseed : seed < 4294967296)
    (hfits : exactHash seed cs < 4294967296) : reducedHash seed cs = exactHash seed cs := by
  have h := reducedHash_mod seed cs
  rwa [Nat.mod_eq_of_lt hseed, Nat.mod_eq_of_lt hfits] at h

/-- Each chord adds at least 1, its increment. -/
theorem add_length_le_exactHash (seed : Nat) (cs : List Chord) : seed + cs.length ≤ exactHash seed cs := by
  induction cs generalizing seed with
  | nil => simp
  | cons c cs ih =>
    have rest := ih (seed * 37 + c.toNat + 1)
    rw [exactHash_cons, List.length_cons]
    omega

/-- At most two chords: the seed is taken times 37 twice at most, and a chord's summand is at most 2^23. -/
theorem exactHash_le {seed : Nat} {cs : List Chord} (hseed : seed ≤ 3) (hlen : cs.length ≤ 2) :
    exactHash seed cs ≤ 3 * 37 * 37 + 38 * 8388608 := by
  match cs with
  | [] =>
    rw [exactHash_nil]
    omega
  | [c] =>
    have hc := c.isLt
    rw [exactHash_cons, exactHash_nil]
    omega
  | [c, d] =>
    have hc := c.isLt
    have hd := d.isLt
    rw [exactHash_cons, exactHash_cons, exactHash_nil]
    omega
  | _ :: _ :: _ :: _ => simp at hlen

/-- Settles O41: the 32-bit hash is the reduced one, and that is the exact one as far as two chords, which fits. -/
theorem hashOfKey : Obligations.HashOfKey := by
  unfold Obligations.HashOfKey
  intro t cs h hh
  have hash : (keyHash t cs).toNat = h := (keyHash_toNat t cs).trans hh.symm
  have exact_of_short (hlen : cs.length ≤ 2) :
      h = exactHash t.val cs ∧ exactHash t.val cs ≤ 3 * 37 * 37 + 38 * 8388608 := by
    have hle : exactHash t.val cs ≤ 3 * 37 * 37 + 38 * 8388608 := exactHash_le (by omega) hlen
    exact ⟨hh.trans (reducedHash_eq_exactHash (by omega) (by omega)), hle⟩
  refine ⟨hash, hash ▸ (keyHash t cs).isLt, hash ▸ homeSlot_toNat t cs, fun hlen => ?_, fun hpos hlen => ?_⟩
  · obtain ⟨heq, hle⟩ := exact_of_short hlen
    exact ⟨heq, heq ▸ hle⟩
  · obtain ⟨heq, -⟩ := exact_of_short hlen
    have grows := add_length_le_exactHash t.val cs
    omega

end Sys2Proof.Proofs
end

section
/-! PROOFS. Requests that reach their owner and fail or pass a check there (R164), and the end of a feed (R90): an
UNSUBSCRIBE clears the port's feed, and a port without one erases nothing, has no feed condition and is refused a FETCH. -/

namespace Sys2Proof.Proofs

open Sys2Proof.Machine

/-! ### A request in its owner's hands -/

theorem exec_unsubscribe (p : PortId) (tag : Byte) (body : List Byte) (s : State) :
    exec (.unsubscribe p tag body) s = .next (requestPeriod p .unsubscribe tag body (serveUnsubscribe p tag body) s) := rfl

theorem exec_fetch (p : PortId) (tag : Byte) (body : List Byte) (s : State) :
    exec (.fetch p tag body) s = .next (requestPeriod p .fetch tag body (serveFetch p tag body) s) := rfl

theorem withFields_ok {α : Type} {p : PortId} {k : Kind} {tag : Byte} {fields : Except Nat α} {a : α}
    (h : fields = .ok a) (act : α → State → State) (s : State) : withFields p k tag fields act s = act a s := by
  rw [h]
  rfl

/-- A request whose body fails a field check is refused MALFORMED with the field's number (R161, R164). -/
theorem withFields_error_working {α : Type} {p : PortId} {k : Kind} {tag : Byte} {fields : Except Nat α} {d : Nat}
    (h : fields = .error d) (act : α → State → State) (body : List Byte) (s : State) :
    withFields p k tag fields act (working p body s) = answered p k tag body (refusedReply .malformed d) s := by
  rw [h]
  exact refuse_working p k tag body .malformed d s

@[simp] theorem noBody_nil : noBody [] = .ok () := rfl

@[simp] theorem oneByte_singleton (b : Byte) : oneByte [b] = .ok b := rfl

theorem noBody_eq_error {body : List Byte} (h : body ≠ []) : noBody body = .error 0 := by
  cases body with
  | nil => exact absurd rfl h
  | cons b rest => rfl

/-- UNSUBSCRIBE and FETCH need the same class of the port's row (R170). -/
theorem taken_fetch_of_taken_unsubscribe {p : PortId} {s : State} (h : Taken p .unsubscribe s) : Taken p .fetch s := h

/-! ### UNSUBSCRIBE (R90) -/

/-- The feed written and the answer given touch different parts of the state. -/
theorem answer_setFeed (p : PortId) (k : Kind) (tag : Byte) (r : Reply) (f : Option Feed) (s : State) :
    answer p k tag r (setFeed p f s) = setFeed p f (answer p k tag r s) := rfl

theorem serveUnsubscribe_nil_working (p : PortId) (tag : Byte) (s : State) :
    serveUnsubscribe p tag [] (working p [] s) = setFeed p none (answered p .unsubscribe tag [] (doneReply []) s) := by
  rw [serveUnsubscribe, withFields_ok noBody_nil, answer_setFeed, answer_working]

/-! ### A port without a feed (R86, R90, R92, R102) -/

theorem feedCondition_of_none {p : PortId} {s : State} (h : s.feeds.get p = none) : feedCondition s p = false := by
  rw [feedCondition, h]

theorem serveFetchCount_of_none {p : PortId} {s : State} (h : s.feeds.get p = none) (tag n : Byte) :
    serveFetchCount p tag n s = refuse p .fetch tag .notSubscribed 0 s := by
  rw [serveFetchCount, h]

theorem serveFetch_working_of_none {p : PortId} {s : State} (h : s.feeds.get p = none) (tag n : Byte) :
    serveFetch p tag [n] (working p [n] s) = answered p .fetch tag [n] (refusedReply .notSubscribed 0) s := by
  have hw : (working p [n] s).feeds.get p = none := by rw [working_feeds, h]
  rw [serveFetch, withFields_ok (oneByte_singleton n), serveFetchCount_of_none hw, refuse_working]

/-- Settles O22: UNSUBSCRIBE reaches its owner, which clears the feed or refuses the body; a FETCH that reaches it finds
no feed. -/
theorem unsubscribeEndsTheFeed : Obligations.UnsubscribeEndsTheFeed := by
  unfold Obligations.UnsubscribeEndsTheFeed
  intro p tag n body s htaken
  refine ⟨?_, fun hne hfits => ?_, fun hnone => ⟨fun l k => ?_, feedCondition_of_none hnone, ?_⟩⟩
  · rw [exec_unsubscribe, requestPeriod_taken htaken (by simp), serveUnsubscribe_nil_working]
    rfl
  · rw [exec_unsubscribe, requestPeriod_taken htaken hfits, serveUnsubscribe,
      withFields_error_working (noBody_eq_error hne)]
  · rw [hnone, eraseCount]
  · rw [exec_fetch, requestPeriod_taken (taken_fetch_of_taken_unsubscribe htaken) (by simp [Config.bodyLimit]),
      serveFetch_working_of_none hnone]

end Sys2Proof.Proofs
end

section
/-! PROOFS. The attention line and its three conditions, each said as what it asks of the port's slot, of its feed and of
its pull cursor (R101 to R103). -/

namespace Sys2Proof.Proofs

open Sys2Proof.Machine

theorem completionCondition_iff (s : State) (p : PortId) :
    completionCondition s p = true ↔ ∃ k t r, (s.ports.get p).slot = .held k t r := by
  rw [completionCondition]
  cases (s.ports.get p).slot <;> simp

/-- A lapsed cursor brings a GAP; otherwise the walk must deliver a segment (R93, R102). -/
theorem feedWouldDeliver_iff (l : CaptionLog) (p : PortId) (f : Feed) :
    feedWouldDeliver l p f = true ↔
      f.cursor.lapsed = true ∨ (fetchWalk l p f 1 (l.fromCursor f)).delivered ≠ [] := by
  simp [feedWouldDeliver]

theorem feedCondition_iff (s : State) (p : PortId) :
    feedCondition s p = true ↔ ∃ f, s.feeds.get p = some f ∧
      (f.cursor.lapsed = true ∨ (fetchWalk s.log p f 1 (s.log.fromCursor f)).delivered ≠ []) := by
  cases hf : s.feeds.get p with
  | none => simp [feedCondition_of_none hf]
  | some f => simp [feedCondition, hf, feedWouldDeliver_iff]

/-- PULL is the class of code 5, bit 4 of a class set (R162). -/
theorem holdsClass_pull (classes : BitVec 7) : holdsClass classes .pull = classes.getLsbD 4 := rfl

theorem pullCondition_iff (s : State) (p : PortId) :
    pullCondition s p = true ↔ ∃ c, s.journal.pull.get p = some c ∧ (s.access.get p).classes.getLsbD 4 = true ∧
      (c.cursor < s.journal.cursor ∨ 0 < c.gap) := by
  rw [pullCondition, holdsClass_pull]
  cases s.journal.pull.get p with
  | none => simp
  | some c => simp

theorem attention_of_not_ready {s : State} (h : s.device.state ≠ .ready) (p : PortId) : attention s p = false := by
  simp [attention, h]

theorem attention_of_ready {s : State} (h : s.device.state = .ready) (p : PortId) :
    attention s p = true ↔
      completionCondition s p = true ∨ feedCondition s p = true ∨ pullCondition s p = true := by
  simp [attention, h, or_assoc]

/-- Settles O27: while READY the line is the disjunction of its conditions, each rewritten as what it asks of the port. -/
theorem attentionFollowsItsConditions : Obligations.AttentionFollowsItsConditions := by
  unfold Obligations.AttentionFollowsItsConditions
  intro s p
  refine ⟨fun hnot => attention_of_not_ready hnot p, fun hready => ?_⟩
  rw [attention_of_ready hready, completionCondition_iff, feedCondition_iff, pullCondition_iff]

end Sys2Proof.Proofs
end

section
/-! PROOFS. COLLECT (R169) and the response frame (R162 to R164): a kind that needs no class and is served while STARTING
passes the checks in every device state but a held reset, what its owner does follows the port's slot, and the frame's
fields are its bytes. -/

namespace Sys2Proof.Proofs

open Sys2Proof.Machine

/-! ### A kind that every check passes (R170, R177) -/

/-- Only STATUS and COLLECT meet both conditions. -/
theorem throughChecks_of_need_nothing {k : Kind} (hneed : k.need = .nothing) (hserved : k.servedWhileStarting = true)
    (p : PortId) (tag : Byte) (act : State → State) (s : State) : throughChecks p k tag act s = act s := by
  have granted : denial k.need (s.access.get p) = none := by rw [hneed, denial]
  rw [throughChecks, granted]
  exact if_pos (Or.inr hserved)

theorem exec_collect (p : PortId) (tag : Byte) (body : List Byte) (s : State) :
    exec (.collect p tag body) s = .next (requestPeriod p .collect tag body (serveCollect p tag body) s) := rfl

/-- A COLLECT whose body fits reaches its owner, STARTING or READY. -/
theorem exec_collect_of_idle {p : PortId} {body : List Byte} {s : State} (hheld : s.device.state ≠ .held)
    (hidle : (s.ports.get p).exchange = .idle) (hfits : body.length ≤ Config.bodyLimit) (tag : Byte) :
    exec (.collect p tag body) s = .next (serveCollect p tag body (working p body s)) := by
  rw [exec_collect, requestPeriod_idle hheld hidle hfits, throughChecks_of_need_nothing rfl rfl]

/-! ### What the slot answers (R169) -/

/-- The state after a held completion was returned: its port is ANSWERING with it, and its slot is CLEAR. -/
def collected (p : PortId) (tag : Byte) (k : Kind) (t : Byte) (r : Reply) (s : State) : State :=
  { s with
    ports := s.ports.set p
      ⟨.answering (responseFrame (byteOf Kind.collect.code) tag (doneReply (collectBody k t r))), .clear,
        List.replicate 4 0#8⟩ }

theorem completionCondition_collected (p : PortId) (tag : Byte) (k : Kind) (t : Byte) (r : Reply) (s : State) :
    completionCondition (collected p tag k t r s) p = false := by
  rw [completionCondition, collected, Quad.get_set_same]

theorem serveCollect_nil (p : PortId) (tag : Byte) (s : State) : serveCollect p tag [] s = collectSlot p tag s :=
  withFields_ok noBody_nil _ s

theorem collectSlot_working_of_held {p : PortId} {k : Kind} {t : Byte} {r : Reply} {s : State}
    (hslot : (s.ports.get p).slot = .held k t r) (tag : Byte) :
    collectSlot p tag (working p [] s) = collected p tag k t r s := by
  have hw : ((working p [] s).ports.get p).slot = .held k t r := by rw [working_get, hslot]
  rw [collectSlot, hw]
  simp only [answer, respond, setSlot, working, collected, Quad.modify, Quad.get_set_same, Quad.set_set]
  rfl

theorem collectSlot_working_of_not_held {p : PortId} {s : State}
    (hslot : ∀ k t r, (s.ports.get p).slot ≠ .held k t r) (tag : Byte) :
    collectSlot p tag (working p [] s) = answered p .collect tag [] noneReply s := by
  have hw : ((working p [] s).ports.get p).slot = (s.ports.get p).slot := by rw [working_get]
  rw [collectSlot, hw]
  cases h : (s.ports.get p).slot with
  | clear => exact answer_working ..
  | inProgress k t => exact answer_working ..
  | held k t r => exact absurd h (hslot k t r)

/-! ### The response frame (R162 to R164) -/

/-- The two bytes of a 16-bit field, low byte first. -/
theorem leBytes_two_toNat (w : BitVec 16) : leBytes 2 w.toNat = [w.setWidth 8, (w >>> 8).setWidth 8] := by
  have low : BitVec.ofNat 8 w.toNat = w.setWidth 8 := BitVec.ofNat_toNat 8 w
  have high : BitVec.ofNat 8 (w.toNat / 256) = (w >>> 8).setWidth 8 := by
    rw [← BitVec.ofNat_toNat, BitVec.toNat_ushiftRight, Nat.shiftRight_eq_div_pow]
  rw [leBytes_two, low, high]

/-- The frame from the bytes that its kind, outcome and cause stand for. -/
theorem responseFrame_of_bytes {kind kindByte outcome cause : Byte} {r : Reply} (hkind : kind = kindByte)
    (houtcome : byteOf r.outcome.code = outcome) (hcause : causeByte r.cause = cause) (tag : Byte) :
    responseFrame kind tag r =
      [kindByte, tag, outcome, cause, r.detail.setWidth 8, (r.detail >>> 8).setWidth 8, BitVec.ofNat 8 r.body.length,
        BitVec.ofNat 8 (r.body.length / 256)] ++ r.body := by
  rw [responseFrame, leBytes_two_toNat, leBytes_two, hkind, houtcome, hcause]
  rfl

/-- Settles O25: COLLECT reaches its owner, which answers as the slot says or refuses the body; the frame's bytes are read
off kind by kind, outcome by outcome and cause by cause. -/
theorem collectReturnsTheCompletion : Obligations.CollectReturnsTheCompletion := by
  unfold Obligations.CollectReturnsTheCompletion
  intro p tag kt k r body s hheld hidle
  have reached : exec (.collect p tag []) s = .next (collectSlot p tag (working p [] s)) := by
    rw [exec_collect_of_idle hheld hidle (by simp), serveCollect_nil]
  refine ⟨fun hslot => ?_, fun hslot => ?_, fun hne hfits => ?_, responseFrame_of_bytes ?_ ?_ ?_ kt⟩
  · rw [reached, collectSlot_working_of_held hslot]
    exact ⟨_, rfl, completionCondition_collected p tag k kt r s, rfl⟩
  · have not_held : ∀ k t r, (s.ports.get p).slot ≠ .held k t r := by
      rcases hslot with h | h <;> simp [h]
    rw [reached, collectSlot_working_of_not_held not_held]
  · rw [exec_collect_of_idle hheld hidle hfits, serveCollect, withFields_error_working (noBody_eq_error hne)]
  · cases k <;> rfl
  · cases r.outcome <;> rfl
  · cases r.cause with
    | none => rfl
    | some c => cases c <;> rfl

end Sys2Proof.Proofs
end

section
/-! PROOFS. SET ARBITER (R186): the mode and its starting order, and that the steps of OPEN and CLOSE, up to the appends of
START and END, neither change the mode nor let STATUS show it. -/

namespace Sys2Proof.Proofs

open Sys2Proof.Machine

/-! ### SET ARBITER -/

theorem exec_setArbiter (p : PortId) (tag : Byte) (body : List Byte) (s : State) :
    exec (.setArbiter p tag body) s = .next (requestPeriod p .setArbiter tag body (serveSetArbiter p tag body) s) := rfl

theorem arbiterBody_code (m : ArbiterMode) : arbiterBody [byteOf m.code] = .ok m := by
  cases m <;> rfl

theorem arbiterBody_eq_error {body : List Byte} (hfixed : body ≠ [0#8]) (hrotating : body ≠ [1#8]) :
    arbiterBody body = .error 0 := by
  match body with
  | [] => rfl
  | [b] =>
    have h0 : b ≠ 0#8 := fun h => hfixed (by rw [h])
    have h1 : b ≠ 1#8 := fun h => hrotating (by rw [h])
    rw [arbiterBody, if_neg h0, if_neg h1]
  | _ :: _ :: _ => rfl

/-- The answer writes the port alone, and the mode the arbiter alone. -/
theorem writeArbiter_working (p : PortId) (tag : Byte) (body : List Byte) (m : ArbiterMode) (s : State) :
    writeArbiter p tag m (working p body s) =
      { answered p .setArbiter tag body (doneReply [byteOf m.code]) s with memory := arbiterWithMode m s.memory } := by
  rw [← answer_working]
  rfl

theorem exec_setArbiter_code {p : PortId} {s : State} (h : Taken p .setArbiter s) (tag : Byte) (m : ArbiterMode) :
    exec (.setArbiter p tag [byteOf m.code]) s =
      .next { answered p .setArbiter tag [byteOf m.code] (doneReply [byteOf m.code]) s with
        memory := arbiterWithMode m s.memory } := by
  rw [exec_setArbiter, requestPeriod_taken h (by simp [Config.bodyLimit]), serveSetArbiter,
    withFields_ok (arbiterBody_code m), writeArbiter_working]

/-! ### What keeps the mode -/

/-- The mode is no part of a port. -/
theorem portFree_mode : PortFree (fun s => s.memory.mode) := fun _ _ _ => rfl

theorem servedAlone_mode (rs : List MemRequester) (m : Memory) : (servedAlone m rs).mode = m.mode := by
  obtain ⟨o, c, h⟩ := servedAlone_shape rs m
  rw [h]

theorem granted_mode {w : TxWork} {s t : State} (h : granted w s = some t) : t.memory.mode = s.memory.mode := by
  obtain ⟨o, c, i, hgrant⟩ := grant_shape s
  rw [granted_shape h, hgrant]

theorem closeSettled_mode (s : State) : (closeSettled s).memory.mode = s.memory.mode := by
  rcases closeSettled_shape s with h | ⟨p, b, -, hquiet⟩
  · rw [h]
  · rw [hquiet.memory]
    rfl

theorem workEnds_mode (w : EngineWork) (s : State) : (workEnds w s).memory.mode = s.memory.mode := by
  by_cases h : w.kind = .closeSettle
  · have ends : workEnds w s = closeSettled (dropWork s) := by rw [workEnds, h]
    rw [ends, closeSettled_mode]
    rfl
  · rw [(workEnds_quiet s h).memory]
    rfl

/-- No row of the engine writes the mode: its transactions made alone move the order and the counts (R185). -/
theorem engineRow_mode (k : WorkKind) (s : State) : (engineRow k s).memory.mode = s.memory.mode := by
  rcases engineRow_cases k s with h | ⟨b, w, t, rs, -, -, -, h⟩
  · rw [h]
  · rw [h, workEnds_mode, servedAlone_mode]

/-! ### OPEN and CLOSE -/

theorem serveOpenSession_mode (p : PortId) (tag : Byte) (body : List Byte) (s : State) :
    (serveOpenSession p tag body s).memory.mode = s.memory.mode := by
  rcases serveOpenSession_shape p tag body s with ⟨q, h, -⟩ | ⟨q, q', job, n, e, f, -, -, h⟩
  · rw [h]
  · rw [h]
    rfl

theorem serveCloseSession_mode (p : PortId) (tag : Byte) (body : List Byte) (s : State) :
    (serveCloseSession p tag body s).memory.mode = s.memory.mode := by
  obtain ⟨q, r, -, h⟩ := serveCloseSession_shape p tag body s
  rw [h]

/-- A request keeps the mode if its owner does. -/
theorem requestPeriod_mode {act : State → State} (hact : ∀ s, (act s).memory.mode = s.memory.mode) (p : PortId) (k : Kind)
    (tag : Byte) (body : List Byte) (s : State) :
    (requestPeriod p k tag body act s).memory.mode = s.memory.mode :=
  requestPeriod_reads (P := (· = s.memory.mode)) portFree_mode rfl (hact _)

/-- START and END are appended beside the arbiter. -/
theorem appendSegment_mode (b : SegmentBody) (s : State) : (appendSegment b s).memory.mode = s.memory.mode := by
  rw [(appendSegment_only b s).memory]

theorem openStartAppends_mode (s : State) : (openStartAppends s).memory.mode = s.memory.mode := by
  rw [openStartAppends]
  split
  · split
    · next h => exact (appendSegment_mode _ _).trans (granted_mode h)
    · rfl
  · rfl
  · rfl

theorem closeEndAppends_mode (s : State) : (closeEndAppends s).memory.mode = s.memory.mode := by
  rw [closeEndAppends]
  split
  · split
    · next h => exact (appendSegment_mode _ _).trans (granted_mode h)
    · rfl
  · rfl
  · rfl
  · rfl

/-! ### STATUS -/

/-- Of the memory controller STATUS reads the engine's work alone (R51, R178). -/
theorem blockReport_of_mode (m : ArbiterMode) (s : State) (q : PortId) (b : StatusBlock) :
    blockReport { s with memory := { s.memory with mode := m } } q b = blockReport s q b := by
  cases b <;> rfl

/-- Settles O31: a SET ARBITER that names a mode reaches the arbiter and any other body is refused; each step of OPEN and of
CLOSE keeps the mode by the lemma about its work. -/
theorem arbiterModeSet : Obligations.ArbiterModeSet := by
  unfold Obligations.ArbiterModeSet
  intro p tag b body m s
  refine ⟨fun htaken hmode => ?_, fun htaken hfits hfixed hrotating => ?_, fun c t hstep hexec => ?_, blockReport_of_mode m s⟩
  · have code : byteOf m.code = b := by
      rcases hmode with ⟨rfl, rfl⟩ | ⟨rfl, rfl⟩ <;> rfl
    subst code
    exact exec_setArbiter_code htaken tag m
  · rw [exec_setArbiter, requestPeriod_taken htaken hfits, serveSetArbiter,
      withFields_error_working (arbiterBody_eq_error hfixed hrotating)]
  · cases c with
    | openSession q tag body => cases hexec; exact requestPeriod_mode (serveOpenSession_mode q tag body) ..
    | openStartAppended => cases hexec; exact openStartAppends_mode s
    | closeSession q tag body => cases hexec; exact requestPeriod_mode (serveCloseSession_mode q tag body) ..
    | closeSettle => cases hexec; exact engineRow_mode .closeSettle s
    | closeEndAppended => cases hexec; exact closeEndAppends_mode s
    | _ => exact False.elim hstep

end Sys2Proof.Proofs
end

section
/-! PROOFS. Commands as the select periods and the steps that they are: a request command hands its body to the owner of its
kind, and what no select period touches is kept by every request if each owner keeps it. -/

namespace Sys2Proof.Proofs

open Sys2Proof.Machine

/-! ### Request commands (R159, R164) -/

/-- The work of the owner of a kind; a STATUS has the list of its reads with it. -/
def servedBy (reads : List Nat) (k : Kind) (p : PortId) (tag : Byte) (body : List Byte) : State → State :=
  match k with
  | .status => serveStatus p tag reads body
  | k => serve k p tag body

theorem servedBy_nil (k : Kind) (p : PortId) (tag : Byte) (body : List Byte) :
    servedBy [] k p tag body = serve k p tag body := by
  cases k <;> rfl

/-- A request command is the select period of its owner's work, but for a RESTART that its reset discards (R180). -/
theorem exec_request {c : Instr} {k : Kind} {p : PortId} {tag : Byte} {body : List Byte}
    (h : c.requestForm = some (k, p, tag, body)) (s : State) :
    (∃ reads, (k = .status → c = .status p tag body reads) ∧
      exec c s = .next (requestPeriod p k tag body (servedBy reads k p tag body) s)) ∨
    (c = .restart p tag body true ∧ justRestarted s = true ∧
      exec c s = .next (setExchange p .idle (zeros (4 + body.length)) s)) := by
  cases c with
  | status p tag body reads => cases h; exact .inl ⟨reads, fun _ => rfl, rfl⟩
  | restart p tag body together =>
    cases h
    by_cases hj : together = true ∧ justRestarted s = true
    · obtain ⟨rfl, hj⟩ := hj
      exact .inr ⟨rfl, hj, by simp [exec, execRestart, restarts, hj]⟩
    · refine .inl ⟨[], nofun, ?_⟩
      simp [exec, execRestart, restarts, hj, servedBy, serve]
  | _ => cases h <;> exact .inl ⟨[], nofun, rfl⟩

/-- A well-formed request has a body that fits a frame. -/
theorem requestForm_fits {c : Instr} {k : Kind} {p : PortId} {tag : Byte} {body : List Byte} (hwf : c.wf = true)
    (h : c.requestForm = some (k, p, tag, body)) : body.length ≤ Config.bodyLimit := by
  cases c with
  | status p tag body reads => cases h; exact Laws.bodyFits_le (Bool.and_eq_true_iff.mp hwf).1
  | _ => cases h <;> exact Laws.bodyFits_le hwf

/-- A request that no RESTART before it discards, on an IDLE port: the checks and then its owner. -/
theorem exec_request_idle {c : Instr} {k : Kind} {p : PortId} {tag : Byte} {body : List Byte} {s : State}
    (hwf : c.wf = true) (h : c.requestForm = some (k, p, tag, body))
    (halone : ∀ together, c = .restart p tag body together → together = false) (hheld : s.device.state ≠ .held)
    (hidle : (s.ports.get p).exchange = .idle) :
    ∃ reads, (k = .status → c = .status p tag body reads) ∧
      exec c s = .next (throughChecks p k tag (servedBy reads k p tag body) (working p body s)) := by
  obtain ⟨reads, hreads, hexec⟩ | ⟨hc, -, -⟩ := exec_request h s
  · exact ⟨reads, hreads, by rw [hexec, requestPeriod_idle hheld hidle (requestForm_fits hwf h)]⟩
  · exact absurd (halone true hc) (by decide)

/-! ### What every select period keeps -/

/-- A property that no change of a port or of a STATUS in reading can end reads none of them. -/
theorem portFree_of_keeps {P : State → Prop} (h : ∀ q r s, P s → P { s with ports := q, reports := r }) : PortFree P :=
  fun q r s => propext ⟨h s.ports s.reports _, h q r s⟩

/-- A request keeps what its owner keeps, where ports do not matter. -/
theorem requestPeriod_keeps {P : State → Prop} (hfree : PortFree P) {act : State → State} (hact : ∀ s, P s → P (act s))
    (p : PortId) (k : Kind) (tag : Byte) (body : List Byte) {s : State} (h : P s) :
    P (requestPeriod p k tag body act s) :=
  requestPeriod_reads (g := P) (P := id) hfree h (hact _ ((hfree.setExchange p .working _ s).mpr h))

/-- So does a select period given by its bytes. -/
theorem selectPeriod_keeps {P : State → Prop} (hfree : PortFree P)
    (hserve : ∀ k p tag body s, P s → P (serve k p tag body s)) (p : PortId) (bytes : List Byte) {s : State} (h : P s) :
    P (selectPeriod p bytes s) :=
  selectPeriod_reads (g := P) (P := id) hfree h
    (fun k tag body _ => hserve k p tag body _ ((hfree.setExchange p .working _ s).mpr h))

/-- A command of a master keeps what the owners of the kinds keep, where ports do not matter. -/
theorem exec_request_keeps {P : State → Prop} (hfree : PortFree P) {c : Instr} {k : Kind} {p : PortId} {tag : Byte}
    {body : List Byte} (hform : c.requestForm = some (k, p, tag, body))
    (hserve : ∀ reads s, P s → P (servedBy reads k p tag body s)) {s t : State} (h : P s) (hexec : exec c s = .next t) :
    P t := by
  obtain ⟨reads, -, hx⟩ | ⟨-, -, hx⟩ := exec_request hform s
  · rw [hx] at hexec
    cases hexec
    exact requestPeriod_keeps hfree (hserve reads) p k tag body h
  · rw [hx] at hexec
    cases hexec
    rw [hfree.setExchange]
    exact h

/-- A step keeps what every command keeps. -/
theorem step_keeps {P : State → Prop} (hpending : ∀ s rest, P s → P { s with pending := rest })
    (hexec : ∀ c s t, P s → exec c s = .next t → P t) {s t : State} (h : P s) (hstep : step s = .next t) : P t := by
  rw [step] at hstep
  split at hstep
  · cases hstep
    exact h
  · exact hexec _ _ _ (hpending _ _ h) hstep

end Sys2Proof.Proofs
end

section
/-! PROOFS. What the maintenance unit's steps leave alone, said once for all of its rows: the ports' exchanges, the tiers'
locks, the canonical form of the slots, and of the memory controller everything but the arbiter and the unit's own step. -/

namespace Sys2Proof.Proofs

open Sys2Proof.Machine

/-- t is s but for the timed slots, the table, the maintenance unit, the engine, and of the memory controller the arbiter and
the maintenance unit's step. -/
structure MaintOnly (s t : State) : Prop where
  form : ∃ q d m e mem, t = { s with ports := q, dict := d, maint := m, engine := e, memory := mem }
  exchange : ∀ p, (t.ports.get p).exchange = (s.ports.get p).exchange
  locked : ∀ l, (t.dict.tiers.get l).locked = (s.dict.tiers.get l).locked
  table : TableSound s → TableSound t
  memory : ∃ o c w, t.memory = { s.memory with order := o, counts := c, maintWork := w }
  arbiter : ArbSound s.memory → ArbSound t.memory

namespace MaintOnly

theorem refl (s : State) : MaintOnly s s :=
  ⟨⟨s.ports, s.dict, s.maint, s.engine, s.memory, rfl⟩, fun _ => rfl, fun _ => rfl, id,
    ⟨s.memory.order, s.memory.counts, s.memory.maintWork, rfl⟩, id⟩

theorem trans {s t u : State} (h : MaintOnly s t) (k : MaintOnly t u) : MaintOnly s u where
  form := by
    obtain ⟨_, _, _, _, _, rfl⟩ := h.form
    obtain ⟨q, d, m, e, mem, rfl⟩ := k.form
    exact ⟨q, d, m, e, mem, rfl⟩
  exchange p := (k.exchange p).trans (h.exchange p)
  locked l := (k.locked l).trans (h.locked l)
  table x := k.table (h.table x)
  memory := by
    obtain ⟨_, _, _, h⟩ := h.memory
    obtain ⟨o, c, w, k⟩ := k.memory
    exact ⟨o, c, w, by rw [k, h]⟩
  arbiter x := k.arbiter (h.arbiter x)

/-- The unit and the engine may be any others. -/
theorem units (s : State) (m : Maintenance) (e : Engine) : MaintOnly s { s with maint := m, engine := e } :=
  ⟨⟨s.ports, s.dict, m, e, s.memory, rfl⟩, fun _ => rfl, fun _ => rfl, id,
    ⟨s.memory.order, s.memory.counts, s.memory.maintWork, rfl⟩, id⟩

/-- So may the unit's step. -/
theorem step (s : State) (w : Option MaintWork) : MaintOnly s { s with memory := { s.memory with maintWork := w } } :=
  ⟨⟨s.ports, s.dict, s.maint, s.engine, _, rfl⟩, fun _ => rfl, fun _ => rfl, id, ⟨s.memory.order, s.memory.counts, w, rfl⟩,
    id⟩

theorem complete (p : PortId) (r : Reply) (s : State) : MaintOnly s (complete p r s) where
  form := ⟨_, s.dict, s.maint, s.engine, s.memory, rfl⟩
  exchange q := by
    by_cases h : q = p
    · subst h
      simp [Machine.complete]
    · simp [Machine.complete, Quad.get_modify_other _ _ h]
  locked _ := rfl
  table := id
  memory := ⟨s.memory.order, s.memory.counts, s.memory.maintWork, rfl⟩
  arbiter := id

theorem refreshActivity (s : State) : MaintOnly s (refreshActivity s) := by
  obtain ⟨a, h⟩ := refreshActivity_shape s
  rw [h]
  exact units s s.maint _

theorem setHeader (h : Header) (s : State) : MaintOnly s (setHeader h s) :=
  ⟨⟨s.ports, _, s.maint, s.engine, s.memory, rfl⟩, fun _ => rfl, fun _ => rfl, id,
    ⟨s.memory.order, s.memory.counts, s.memory.maintWork, rfl⟩, id⟩

theorem setClearing (l : TierId) (c : Bool) (s : State) : MaintOnly s (setClearing l c s) where
  form := ⟨s.ports, _, s.maint, s.engine, s.memory, rfl⟩
  exchange _ := rfl
  locked m := by
    by_cases h : m = l
    · subst h
      simp [Machine.setClearing]
    · simp [Machine.setClearing, Quad.get_modify_other _ _ h]
  table := id
  memory := ⟨s.memory.order, s.memory.counts, s.memory.maintWork, rfl⟩
  arbiter := id

theorem finishHead (e : MaintEntry) (r : Reply) (s : State) : MaintOnly s (finishHead e r s) :=
  (units s _ s.engine).trans (complete e.port r _)

theorem stepServed (w : MaintWork) (s : State) : MaintOnly s (stepServed w s) := by
  obtain ⟨h, sl, m, he, hm, hs⟩ := stepServed_shape w s
  rw [he]
  refine ⟨⟨s.ports, _, s.maint, s.engine, _, rfl⟩, fun _ => rfl, fun _ => rfl, hs, ?_, fun ha => ?_⟩
  · rcases hm with rfl | rfl
    · exact ⟨_, _, none, rfl⟩
    · exact ⟨_, _, none, rfl⟩
  · rcases hm with rfl | rfl
    · exact ha
    · exact ha.alone .maint

/-- A row of the unit that makes its step's last transactions. -/
theorem maintStep {act : MaintWork → State → State} (hact : ∀ w s, MaintOnly s (act w s)) (s : State) :
    MaintOnly s (maintStep act s) := by
  rcases maintStep_cases act s with h | ⟨w, -, -, h⟩
  · rw [h]
    exact refl s
  · rw [h]
    exact (stepServed w s).trans (hact _ _)

theorem headerMade (s : State) : MaintOnly s (headerMade s) :=
  ⟨⟨s.ports, s.dict, s.maint, s.engine, _, rfl⟩, fun _ => rfl, fun _ => rfl, id, ⟨_, _, none, rfl⟩, fun h => h.alone .maint⟩

theorem takeLock (plan : Plan) (s : State) : MaintOnly s (takeLock plan s) :=
  (units s _ s.engine).trans ((setHeader _ _).trans ((units _ _ _).trans (refreshActivity _)))

theorem startSweep (t : TierId) (s : State) : MaintOnly s (startSweep t s) :=
  (setHeader .writing s).trans ((setClearing t true _).trans ((units _ _ _).trans (refreshActivity _)))

/-! ### The rows of the maintenance unit -/

theorem resourceCheck (e : MaintEntry) (s : State) : MaintOnly s (resourceCheck e s) := by
  rw [Machine.resourceCheck]
  split
  · split
    · exact finishHead ..
    · exact units s _ s.engine
  · split
    · exact finishHead ..
    · exact units s _ s.engine
  · exact units s _ s.engine
  · exact units s _ s.engine

theorem maintHeadChecks (s : State) : MaintOnly s (maintHeadChecks s) := by
  rw [Machine.maintHeadChecks]
  split
  · split
    · rw [headCheck]
      split
      · exact finishHead ..
      · split
        · exact maintStep (fun _ => resourceCheck _) s
        · exact resourceCheck ..
    · exact refl s
  · exact refl s

theorem tableLockTakes (s : State) : MaintOnly s (tableLockTakes s) := by
  rw [Machine.tableLockTakes]
  repeat' split
  all_goals first
    | exact (takeLock _ s).trans (headerMade _)
    | exact refl s

theorem writesEnd (e : MaintEntry) (k : Kind) (flag : Bool) (report : List Byte) (s : State) :
    MaintOnly s (writesEnd e k flag report s) := by
  have left := units s { s.maint with queue := promoteHead (s.maint.queue.drop 1), lockHeld := false }
    { s.engine with changePending := true }
  refine left.trans (.trans ?_ (refreshActivity _))
  split
  · exact units _ _ _
  · exact complete ..

theorem putWritesEnd (s : State) : MaintOnly s (putWritesEnd s) := by
  rw [Machine.putWritesEnd]
  repeat' split
  all_goals first
    | exact maintStep (fun _ => writesEnd _ _ _ _) s
    | exact refl s

theorem dropWritesEnd (s : State) : MaintOnly s (dropWritesEnd s) := by
  rw [Machine.dropWritesEnd]
  repeat' split
  all_goals first
    | exact maintStep (fun _ => writesEnd _ _ _ _) s
    | exact refl s

theorem clearTierStarts (s : State) : MaintOnly s (clearTierStarts s) := by
  rw [Machine.clearTierStarts]
  repeat' split
  all_goals first
    | exact (startSweep _ s).trans (headerMade _)
    | exact refl s

theorem clearTierSweepEnds (s : State) : MaintOnly s (clearTierSweepEnds s) := by
  rw [Machine.clearTierSweepEnds]
  repeat' split
  all_goals first
    | exact maintStep (fun _ s => (setClearing _ false s).trans (finishHead ..)) s
    | exact refl s

theorem getAnswers (s : State) : MaintOnly s (getAnswers s) := by
  rw [Machine.getAnswers]
  repeat' split
  all_goals first
    | exact maintStep (fun _ s => finishHead _ _ s) s
    | exact refl s

/-! ### The unit at the memory controller -/

theorem presentMaint (s : State) : MaintOnly s (presentMaint s) := by
  rw [Machine.presentMaint]
  split
  · exact refl s
  · exact step s _

theorem writesBegin (s : State) : MaintOnly s (writesBegin s) := by
  rw [Machine.writesBegin]
  repeat' split
  all_goals first
    | exact (takeLock _ s).trans (step _ _)
    | exact (startSweep _ s).trans (step _ _)
    | exact refl s

theorem maintUseEnds (s : State) : MaintOnly s (maintUseEnds s) := by
  obtain ⟨h, sl, w, he, hs⟩ := maintUseEnds_shape s
  rw [he]
  exact ⟨⟨s.ports, _, s.maint, s.engine, _, rfl⟩, fun _ => rfl, fun _ => rfl, hs, ⟨_, _, w, rfl⟩, id⟩

/-! ### What follows from the form -/

variable {s t : State} (h : MaintOnly s t)
include h

theorem access : t.access = s.access := by obtain ⟨_, _, _, _, _, rfl⟩ := h.form; rfl
theorem journal : t.journal = s.journal := by obtain ⟨_, _, _, _, _, rfl⟩ := h.form; rfl
theorem roster : t.roster = s.roster := by obtain ⟨_, _, _, _, _, rfl⟩ := h.form; rfl
theorem log : t.log = s.log := by obtain ⟨_, _, _, _, _, rfl⟩ := h.form; rfl
theorem session : t.session = s.session := by obtain ⟨_, _, _, _, _, rfl⟩ := h.form; rfl
theorem device : t.device = s.device := by obtain ⟨_, _, _, _, _, rfl⟩ := h.form; rfl
theorem reports : t.reports = s.reports := by obtain ⟨_, _, _, _, _, rfl⟩ := h.form; rfl

end MaintOnly

end Sys2Proof.Proofs
end

section
/-! PROOFS. P0 trusted, the pull cursors, the settings and the arbiter through every step (R11, R172, R146, R184, R185). -/

namespace Sys2Proof.Proofs

open Sys2Proof.Machine

/-- The three invariants together. -/
def Regular (s : State) : Prop := AccessSound s ∧ SettingsSound s ∧ ArbiterSound s

theorem portFree_regular : PortFree Regular := fun _ _ _ => rfl

/-- A pull cursor exactly for the ports that hold PULL reads of the cursors only whether they are there. -/
theorem accessSound_congr {s t : State} (h : AccessSound s) (haccess : t.access = s.access)
    (hpull : ∀ p, (t.journal.pull.get p).isSome = (s.journal.pull.get p).isSome) : AccessSound t := by
  refine ⟨by rw [haccess]; exact h.1, fun p => ?_⟩
  rw [haccess, hpull]
  exact h.2 p

theorem settingsSound_congr {s t : State} (h : SettingsSound s) (hhold : t.session.hold = s.session.hold)
    (hclkin : t.session.clkin = s.session.clkin) (hroster : t.roster = s.roster) : SettingsSound t := by
  rw [SettingsSound, hhold, hclkin, hroster]
  exact h

/-- What keeps the rows, the cursors' owners, the settings and, if it was sound, the arbiter. -/
theorem Regular.congr {s t : State} (h : Regular s) (haccess : t.access = s.access)
    (hpull : ∀ p, (t.journal.pull.get p).isSome = (s.journal.pull.get p).isSome) (hsession : t.session = s.session)
    (hroster : t.roster = s.roster) (harbiter : ArbSound s.memory → ArbSound t.memory) : Regular t := by
  obtain ⟨haccessible, hsettings, harb⟩ := h
  exact ⟨accessSound_congr haccessible haccess hpull, settingsSound_congr hsettings (by rw [hsession]) (by rw [hsession]) hroster, harbiter harb⟩

/-- The clock's parts at the start of a session, with the hold time kept. -/
theorem settingsSound_restarted {s t : State} (h : SettingsSound s) (hhold : t.session.hold = s.session.hold)
    (hclkin : t.session.clkin = 0) (hroster : t.roster = s.roster) : SettingsSound t := by
  obtain ⟨hlow, hhigh, -, hnames⟩ := h
  exact ⟨by rw [hhold]; exact hlow, by rw [hhold]; exact hhigh, by rw [hclkin]; decide, by rw [hroster]; exact hnames⟩

theorem regular_of_eq {t u : State} (he : t = u) (h : Regular u) : Regular t := he ▸ h

theorem regular_of_maintOnly {s t : State} (h : MaintOnly s t) (hs : Regular s) : Regular t :=
  hs.congr h.access (fun _ => by rw [h.journal]) h.session h.roster h.arbiter

theorem regular_of_quiet {s t : State} (h : Quiet s t) (hs : Regular s) : Regular t :=
  hs.congr h.access (fun _ => by rw [h.pull]) h.session h.roster (by rw [h.memory]; exact id)

/-! ### The resets -/

/-- Power-on values of the blocks (R171, R146, R187), with any journal whose cursors are the defaults'. -/
theorem regular_defaults {s : State} (haccess : s.access = defaultAccess)
    (hpull : ∀ p, (s.journal.pull.get p).isSome = holdsClass (defaultAccess.get p).classes .pull)
    (hsession : s.session = Session.reset) (hroster : s.roster = rosterReset) (hmemory : s.memory = Memory.reset) :
    Regular s := by
  refine ⟨⟨by rw [haccess]; rfl, fun p => by rw [haccess, hpull]⟩, ?_, ?_⟩
  · rw [SettingsSound, hsession, hroster]
    decide
  · rw [ArbiterSound, hmemory]
    exact ⟨.refl _, nofun, by decide, by decide, by decide, by decide⟩

theorem notice_pull_get (j : Journal) (p q : PortId) (c : BitVec 7) :
    ((j.notice p c).pull.get q).isSome = if q = p then holdsClass c .pull else (j.pull.get q).isSome := by
  by_cases h : q = p
  · subst h
    cases hc : holdsClass c .pull <;> simp [Journal.notice, hc]
  · simp [Journal.notice, Quad.get_modify_other _ _ h, h]

theorem noticeDefaults_pull (j : Journal) (q : PortId) :
    ((noticeDefaults j).pull.get q).isSome = holdsClass (defaultAccess.get q).classes .pull := by
  simp only [noticeDefaults, allFour, List.foldl_cons, List.foldl_nil, notice_pull_get]
  match q with
  | 0 => rfl
  | 1 => rfl
  | 2 => rfl
  | 3 => rfl

theorem regular_resetPart (c : ResetCause) (d : DeviceState) (s : State) : Regular (resetPart c d s) :=
  regular_defaults rfl (noticeDefaults_pull _) rfl rfl rfl

/-! ### The requests -/

/-- SET ACCESS notices the journal of what it does to a row (R11). -/
theorem regular_setAccess {s : State} (h : Regular s) (q : Quad Port) (r : PortId) (c : BitVec 7) (f : Quad (Option Feed)) :
    Regular { s with ports := q, access := s.access.set r { s.access.get r with classes := c },
                     journal := s.journal.notice r c, feeds := f } := by
  obtain ⟨⟨htrusted, hcursors⟩, hrest⟩ := h
  refine ⟨⟨?_, fun p => ?_⟩, hrest⟩
  · show ((s.access.set r { s.access.get r with classes := c }).get 0).trusted = true
    rw [Quad.get_set]
    split
    · next h0 => rw [← h0]; exact htrusted
    · exact htrusted
  · show ((s.journal.notice r c).pull.get p).isSome = holdsClass ((s.access.set r _).get p).classes .pull
    rw [notice_pull_get, Quad.get_set]
    split
    · rfl
    · exact hcursors p

/-- What leaves a row its classes and P0 its trust. -/
theorem regular_setRow {s : State} (h : Regular s) (q : Quad Port) (r : PortId) {row : AccessRow}
    (hclasses : row.classes = (s.access.get r).classes) (htrust : r = 0 → row.trusted = true) :
    Regular { s with ports := q, access := s.access.set r row } := by
  obtain ⟨⟨htrusted, hcursors⟩, hrest⟩ := h
  refine ⟨⟨?_, fun p => ?_⟩, hrest⟩
  · show ((s.access.set r row).get 0).trusted = true
    rw [Quad.get_set]
    split
    · next h0 => exact htrust h0.symm
    · exact htrusted
  · show (s.journal.pull.get p).isSome = holdsClass ((s.access.set r row).get p).classes .pull
    rw [Quad.get_set]
    split
    · next h0 => rw [hclasses, ← h0]; exact hcursors p
    · exact hcursors p

theorem regular_ports {s : State} (h : Regular s) {t : State} {p : PortId} (ht : PortsOnly p s t) : Regular t := by
  obtain ⟨q, rfl, -⟩ := ht
  exact h

/-- Every owner keeps them. -/
theorem regular_servedBy (reads : List Nat) (k : Kind) (p : PortId) (tag : Byte) (body : List Byte) (s : State)
    (h : Regular s) : Regular (servedBy reads k p tag body s) := by
  cases k with
  | stroke =>
    obtain ⟨_, _, _, _, _, ⟨⟨_, _, _, rfl⟩, -⟩, -, he⟩ := serveStroke_shape p tag body s
    exact regular_of_eq he h
  | pull =>
    obtain ⟨_, _, _, -, hsome, he⟩ := servePull_shape p tag body s
    exact regular_of_eq he (h.congr rfl hsome rfl rfl id)
  | subscribe => obtain ⟨_, _, -, he⟩ := serveSubscribe_shape p tag body s; exact regular_of_eq he h
  | unsubscribe => obtain ⟨_, _, -, he⟩ := serveUnsubscribe_shape p tag body s; exact regular_of_eq he h
  | fetch => obtain ⟨_, _, _, -, he⟩ := serveFetch_shape p tag body s; exact regular_of_eq he h
  | collect => exact regular_ports h (serveCollect_shape p tag body s)
  | status => obtain ⟨_, _, -, he⟩ := serveStatus_shape p tag reads body s; exact regular_of_eq he h
  | speaker =>
    obtain ⟨_, x, -, he, hx⟩ := serveSpeaker_shape p tag body s
    obtain ⟨haccess, ⟨hlow, hhigh, hclkin, hlen, hnames⟩, harb⟩ := h
    have named : x.length = 16 ∧ ∀ n ∈ x, n.length ≤ Config.nameLimit := by
      rcases hx with rfl | ⟨i, name, rfl⟩
      · exact ⟨hlen, hnames⟩
      · refine ⟨by rw [List.length_set, hlen], fun n hn => ?_⟩
        rcases List.mem_or_eq_of_mem_set hn with hn | rfl
        · exact hnames n hn
        · exact List.length_take_le ..
    exact regular_of_eq he ⟨haccess, ⟨hlow, hhigh, hclkin, named⟩, harb⟩
  | setTiers => obtain ⟨_, _, _, -, he, -⟩ := serveSetTiers_shape p tag body s; exact regular_of_eq he h
  | setHold =>
    obtain ⟨_, n, -, he, hn⟩ := serveSetHold_shape p tag body s
    obtain ⟨haccess, ⟨hlow, hhigh, hrest⟩, harb⟩ := h
    have range : Config.holdLow ≤ n ∧ n ≤ Config.holdHigh := by
      rcases hn with rfl | hn
      · exact ⟨hlow, hhigh⟩
      · exact hn
    exact regular_of_eq he ⟨haccess, ⟨range.1, range.2, hrest⟩, harb⟩
  | setOffset => obtain ⟨_, _, -, he⟩ := serveSetOffset_shape p tag body s; exact regular_of_eq he h
  | setArbiter =>
    obtain ⟨_, m, -, he, hm⟩ := serveSetArbiter_shape p tag body s
    obtain ⟨haccess, hsettings, harb⟩ := h
    rcases hm with rfl | ⟨mode, rfl⟩
    · exact regular_of_eq he ⟨haccess, hsettings, harb⟩
    · exact regular_of_eq he ⟨haccess, hsettings, .refl _, fun _ => rfl, harb.2.2⟩
  | setAccess =>
    rcases serveSetAccess_shape p tag body s with hports | ⟨_, _, _, _, -, -, he⟩
    · exact regular_ports h hports
    · exact regular_of_eq he (regular_setAccess h ..)
  | trust =>
    rcases serveTrust_shape p tag body s with hports | ⟨_, r, _, -, -, he⟩
    · exact regular_ports h hports
    · exact regular_of_eq he (regular_setRow h _ r rfl (fun h0 => by simp [trustGiven, h0]))
  | lockPort =>
    rcases serveLockPort_shape p tag body s with hports | ⟨_, r, -, he⟩
    · exact regular_ports h hports
    · exact regular_of_eq he (regular_setRow h _ r rfl (fun h0 => by rw [h0]; exact h.1.1))
  | lockTier =>
    rcases serveLockTier_shape p tag body s with hports | ⟨_, _, -, he⟩
    · exact regular_ports h hports
    · exact regular_of_eq he h
  | restart =>
    show Regular (serveRestart p tag body s)
    cases hb : noBody body with
    | error d =>
      rw [serveRestart, hb]
      exact h
    | ok u =>
      rw [serveRestart, hb]
      exact regular_resetPart ..
  | put | drop | clearTier | get =>
    show Regular (serve _ p tag body s)
    simp only [serve, servePut, serveDrop, serveClearTier, serveGet, withFields]
    split
    · exact h
    · rcases acceptMaint_shape p _ tag _ s with hports | ⟨_, -, he⟩
      · exact regular_ports h hports
      · exact regular_of_eq he h
  | retranslate => obtain ⟨_, _, -, he⟩ := serveRetranslate_shape p tag body s; exact regular_of_eq he h
  | openSession =>
    rcases serveOpenSession_shape p tag body s with hports | ⟨_, _, _, _, _, _, -, -, he⟩
    · exact regular_ports h hports
    · obtain ⟨haccess, hsettings, harb⟩ := h
      refine regular_of_eq he ⟨accessSound_congr haccess rfl (fun p => ?_), settingsSound_restarted hsettings rfl rfl rfl, harb⟩
      simp [Journal.emptied]
  | closeSession => obtain ⟨_, _, -, he⟩ := serveCloseSession_shape p tag body s; exact regular_of_eq he h

/-! ### The engine's rows and the memory controller -/

theorem regular_engineRow (k : WorkKind) {s : State} (h : Regular s) : Regular (engineRow k s) := by
  rcases engineRow_cases k s with he | ⟨b, w, t, rs, -, ht, -, he⟩
  · rw [he]
    exact h
  · have made : Regular (dropWork { t with memory := servedAlone s.memory rs }) := by
      obtain ⟨_, _, _, _, rfl⟩ := ht.form
      exact h.congr rfl (fun _ => rfl) rfl rfl (fun ha => ha.served rs)
    rw [he]
    by_cases hk : w.kind = .closeSettle
    · rw [workEnds, hk]
      rcases closeSettled_shape (dropWork _) with hs | ⟨_, _, -, hq⟩
      · rw [hs]
        exact made
      · refine regular_of_quiet hq ?_
        exact ⟨accessSound_congr made.1 rfl (fun _ => rfl), settingsSound_congr made.2.1 rfl rfl rfl, made.2.2⟩
    · exact regular_of_quiet (workEnds_quiet _ hk) made

theorem regular_grant {s : State} (h : Regular s) : Regular (grant s) := by
  have arb := fun ha : ArbSound s.memory => ha.grant
  obtain ⟨_, _, _, he⟩ := grant_shape s
  rw [he] at arb ⊢
  exact h.congr rfl (fun _ => rfl) rfl rfl arb

theorem regular_granted {w : TxWork} {s t : State} (h : Regular s) (hg : granted w s = some t) : Regular t :=
  granted_shape hg ▸ regular_grant h

theorem regular_presentEngine (first : Bool) {s : State} (h : Regular s) : Regular (presentEngine first s) := by
  rw [presentEngine]
  split
  · split
    · exact h
    · obtain ⟨_, _, -, -, -, he⟩ := beginWork_shape _ s
      rw [he]
      exact h
  · exact h

theorem regular_memoryGrants (asks : Asks) {s : State} (h : Regular s) : Regular (memoryGrants asks s) := by
  have asked : Regular (presented asks s) := by
    rw [presented]
    have engine : Regular (if asks.engine then presentEngine asks.expiryFirst s else s) := by
      split
      · exact regular_presentEngine _ h
      · exact h
    split
    · exact regular_of_maintOnly (.presentMaint _) engine
    · exact engine
  rw [memoryGrants]
  split
  · exact h
  · rw [begunWith]
    split
    · split
      · exact regular_of_maintOnly (.writesBegin _) (regular_grant asked)
      · exact regular_grant asked
    · exact regular_grant asked

theorem regular_transactionEnds {s : State} (h : Regular s) : Regular (transactionEnds s) := by
  have ended : Regular (endTransaction s) := h
  rw [transactionEnds]
  split
  · exact h
  · split
    · rw [pullReadEnds]
      repeat' split
      all_goals exact h
    · rw [fetchReadEnds]
      repeat' split
      all_goals exact h
    · obtain ⟨t, w, ht, he⟩ := engineUseEnds_shape (endTransaction s)
      obtain ⟨_, _, _, _, rfl⟩ := ht.form
      exact regular_of_eq he h
    · exact regular_of_maintOnly (.maintUseEnds _) ended
    · obtain ⟨_, _, he⟩ := changeEnds_shape (endTransaction s)
      exact regular_of_eq he h
    · exact h
    · exact ended
    · exact h
    · exact h
    · exact h

/-! ### The journal's append, the session's segments and the clock -/

theorem append_pull_isSome (j : Journal) (r : JournalRecord) (p : PortId) :
    ((j.append r).pull.get p).isSome = (j.pull.get p).isSome := by
  rw [Journal.append]
  split
  · rfl
  · simp

theorem regular_journalAppends {s : State} (h : Regular s) : Regular (journalAppends s) := by
  rw [journalAppends]
  split
  · exact h
  · next s1 hg =>
    have h1 := regular_granted h hg
    split
    · exact h
    · refine regular_of_maintOnly (.refreshActivity _) (h1.congr rfl (fun p => ?_) rfl rfl id)
      exact append_pull_isSome ..

/-- START's or END's segment, whatever it makes of the session but its hold time. -/
theorem regular_segmentAppended {s t : State} (h : Regular s) (body : SegmentBody)
    (haccess : t.access = (appendSegment body s).access) (hpull : t.journal = (appendSegment body s).journal)
    (hroster : t.roster = (appendSegment body s).roster) (hhold : t.session.hold = (appendSegment body s).session.hold)
    (hclkin : t.session.clkin = 0) (harb : ArbSound (appendSegment body s).memory → ArbSound t.memory) : Regular t := by
  have only := appendSegment_only body s
  obtain ⟨hs, hsettings, ha⟩ := h
  rw [only.access] at haccess
  rw [only.journal] at hpull
  rw [only.roster] at hroster
  rw [only.session] at hhold
  rw [only.memory] at harb
  exact ⟨accessSound_congr hs haccess (fun _ => by rw [hpull]), settingsSound_restarted hsettings hhold hclkin hroster, harb ha⟩

theorem regular_openStartAppends {s : State} (h : Regular s) : Regular (openStartAppends s) := by
  rw [openStartAppends]
  split
  · split
    · next hg => exact regular_segmentAppended (regular_granted h hg) _ rfl rfl rfl rfl rfl id
    · exact h
  · exact h
  · exact h

theorem regular_closeEndAppends {s : State} (h : Regular s) : Regular (closeEndAppends s) := by
  rw [closeEndAppends]
  split
  · split
    · next hg => exact regular_segmentAppended (regular_granted h hg) _ rfl rfl rfl rfl rfl id
    · exact h
  · exact h
  · exact h
  · exact h

theorem regular_clockRuns (n : Nat) {s : State} (h : Regular s) :
    Regular { s with session := clockRuns n s.session } := by
  obtain ⟨haccess, ⟨hlow, hhigh, hclkin, hnames⟩, harb⟩ := h
  rw [clockRuns]
  split
  · exact ⟨haccess, ⟨hlow, hhigh, Nat.mod_lt _ (by decide), hnames⟩, harb⟩
  · exact ⟨haccess, ⟨hlow, hhigh, hclkin, hnames⟩, harb⟩

/-! ### Start-up -/

theorem regular_headerReadEnds {s : State} (h : Regular s) : Regular (headerReadEnds s) := by
  rw [headerReadEnds]
  split
  · split
    · next hg =>
      have h1 := regular_granted h hg
      exact h1
    · exact h
  · exact h

theorem regular_startupCompletes {s : State} (h : Regular s) : Regular (startupCompletes s) := by
  rw [startupCompletes]
  split
  · split
    · exact h
    · rcases maintStep_cases (fun _ => becomeReady) s with he | ⟨w, -, -, he⟩
      · rw [he]
        exact h
      · rw [he]
        have h1 := regular_of_maintOnly (.stepServed w s) h
        exact h1
    · exact h
  · exact h

theorem powerOn_pull (p : PortId) :
    (State.reset.journal.pull.get p).isSome = holdsClass (defaultAccess.get p).classes .pull :=
  match p with
  | 0 => rfl
  | 1 => rfl
  | 2 => rfl
  | 3 => rfl

/-! ### Every command -/

theorem regular_exec (c : Instr) (s t : State) (h : Regular s) (hexec : exec c s = .next t) : Regular t := by
  cases c with
  | frameRefused p bytes | responsePhase p bytes =>
    cases hexec
    exact selectPeriod_keeps portFree_regular
      (fun k p tag body s hs => servedBy_nil k p tag body ▸ regular_servedBy [] k p tag body s hs) p bytes h
  | journalAppend => cases hexec; exact regular_journalAppends h
  | maintHeadCheck => cases hexec; exact regular_of_maintOnly (.maintHeadChecks s) h
  | tableLockTake => cases hexec; exact regular_of_maintOnly (.tableLockTakes s) h
  | putWriteEnd => cases hexec; exact regular_of_maintOnly (.putWritesEnd s) h
  | dropWriteEnd => cases hexec; exact regular_of_maintOnly (.dropWritesEnd s) h
  | clearTierStart => cases hexec; exact regular_of_maintOnly (.clearTierStarts s) h
  | clearTierSweepEnd => cases hexec; exact regular_of_maintOnly (.clearTierSweepEnds s) h
  | getAnswer => cases hexec; exact regular_of_maintOnly (.getAnswers s) h
  | reResolution | takeStroke | takeStrike | closeSettle | retranslationStart | retranslationRebuild =>
    cases hexec; exact regular_engineRow _ h
  | expiry first =>
    cases hexec
    rw [expires]
    split
    · exact h
    · exact regular_engineRow _ h
  | closeEndAppended => cases hexec; exact regular_closeEndAppends h
  | openStartAppended => cases hexec; exact regular_openStartAppends h
  | sessionClockTick n => cases hexec; exact regular_clockRuns n h
  | memoryGrant asks => cases hexec; exact regular_memoryGrants asks h
  | sdramRefresh => cases hexec; exact h
  | powerOn => cases hexec; exact regular_defaults rfl powerOn_pull rfl rfl rfl
  | resetLine ns sets =>
    cases hexec
    rw [resetAsserted]
    split
    · exact h
    · exact regular_resetPart ..
  | resetRelease =>
    cases hexec
    rw [resetReleased]
    split
    · exact h
    · exact h
  | startupHeaderRead => cases hexec; exact regular_headerReadEnds h
  | startupComplete => cases hexec; exact regular_startupCompletes h
  | memoryTransactionComplete => cases hexec; exact regular_transactionEnds h
  | _ => exact exec_request_keeps portFree_regular rfl (fun reads s => regular_servedBy reads _ _ _ _ s) h hexec

/-- Settles O6: what each command keeps, every step keeps. -/
theorem settingsAndAccessKept : Obligations.SettingsAndAccessKept := by
  unfold Obligations.SettingsAndAccessKept
  intro s t haccess hsettings harbiter hstep
  exact step_keeps (P := Regular) (fun _ _ h => h) regular_exec ⟨haccess, hsettings, harbiter⟩ hstep

end Sys2Proof.Proofs
end

section
/-! PROOFS. The slots' canonical form, the table lock and the maintenance unit's writes through every step (R22, R37, R125, R129,
R130). -/

namespace Sys2Proof.Proofs

open Sys2Proof.Machine

/-! ### What a row of the engine leaves alone -/

/-- What a row of the engine leaves of the blocks outside it, and of the memory controller. -/
structure RowOnly (s t : State) : Prop where
  dict : t.dict = s.dict
  access : t.access = s.access
  roster : t.roster = s.roster
  device : t.device = s.device
  queue : t.maint.queue = s.maint.queue
  lock : t.maint.lockHeld = s.maint.lockHeld
  session : ∃ r, t.session = { s.session with request := r }
  memory : ∃ o c e l, (l = [] ∨ l = [.endAppend]) ∧
    t.memory = { s.memory with order := o, counts := c, engineWork := e, logWork := s.memory.logWork ++ l }
  log : LogSound s → LogSound t

theorem RowOnly.refl (s : State) : RowOnly s s :=
  ⟨rfl, rfl, rfl, rfl, rfl, rfl, ⟨s.session.request, rfl⟩, ⟨s.memory.order, s.memory.counts, s.memory.engineWork, [],
    .inl rfl, by rw [List.append_nil]⟩, id⟩

/-- The state in which a work has made its transactions, and the engine holds it no more. -/
theorem rowOnly_dropped {s t : State} {b : Bool} (rs : List MemRequester)
    (h : WorkOnly { s with engine := { s.engine with changePending := b } } t) :
    RowOnly s (dropWork { t with memory := servedAlone s.memory rs }) := by
  have hlog := h.log
  obtain ⟨o, c, hm⟩ := servedAlone_shape rs s.memory
  obtain ⟨_, _, _, _, rfl⟩ := h.form
  exact ⟨rfl, rfl, rfl, rfl, rfl, rfl, ⟨s.session.request, rfl⟩,
    ⟨o, c, none, [], .inl rfl, by rw [dropWork, hm, List.append_nil]⟩, hlog⟩

theorem rowOnly_quiet {s t u : State} (h : RowOnly s t) (q : Quiet t u) : RowOnly s u :=
  ⟨q.dict.trans h.dict, q.access.trans h.access, q.roster.trans h.roster, q.device.trans h.device, q.queue.trans h.queue,
    q.lock.trans h.lock, by rw [q.session]; exact h.session, by rw [q.memory]; exact h.memory, fun x => q.log (h.log x)⟩

theorem engineRow_only (k : WorkKind) (s : State) : RowOnly s (engineRow k s) := by
  rcases engineRow_cases k s with he | ⟨b, w, t, rs, -, ht, -, he⟩
  · rw [he]
    exact .refl s
  · rw [he]
    have dropped := rowOnly_dropped rs ht
    by_cases hk : w.kind = .closeSettle
    · rw [workEnds, hk]
      rcases closeSettled_shape (dropWork { t with memory := servedAlone s.memory rs }) with hs | ⟨p, _, -, hq⟩
      · rw [hs]
        exact dropped
      · have hlw : t.memory.logWork = s.memory.logWork := by
          obtain ⟨_, _, _, _, rfl⟩ := ht.form
          rfl
        refine rowOnly_quiet ?_ hq
        obtain ⟨o, c, hm⟩ := servedAlone_shape rs s.memory
        obtain ⟨r, hr⟩ := dropped.session
        exact { dropped with
          session := ⟨.closeInProgress p true, by rw [askEnd, hr]⟩
          memory := ⟨o, c, none, [.endAppend], .inr rfl, by rw [askEnd, dropWork, hm]⟩ }
    · exact rowOnly_quiet dropped (workEnds_quiet _ hk)

/-! ### The four maintenance requests -/

/-- PUT, DROP, CLEAR TIER and GET either answer their port alone or join the tail of the queue. -/
theorem servedBy_maint_shape (reads : List Nat) {k : Kind} (hk : k ∈ [Kind.put, .drop, .clearTier, .get]) (p : PortId)
    (tag : Byte) (body : List Byte) (s : State) :
    PortsOnly p s (servedBy reads k p tag body s) ∨
      ∃ q r, OnlyPort p s.ports q ∧ servedBy reads k p tag body s = { s with
        ports := q
        maint := { s.maint with queue := s.maint.queue ++ [⟨p, r, joiningPhase s.maint.queue⟩] } } := by
  have fields : ∀ a : Except Nat MaintRequest, PortsOnly p s (withFields p k tag a (acceptMaint p k tag) s) ∨
      ∃ q r, OnlyPort p s.ports q ∧ withFields p k tag a (acceptMaint p k tag) s = { s with
        ports := q
        maint := { s.maint with queue := s.maint.queue ++ [⟨p, r, joiningPhase s.maint.queue⟩] } } := fun a =>
    match a with
    | .error d => .inl (refuse_portsOnly p k tag .malformed d s)
    | .ok r => (acceptMaint_shape p k tag r s).imp_right (fun ⟨q, hq⟩ => ⟨q, r, hq⟩)
  simp only [List.mem_cons, List.not_mem_nil, or_false] at hk
  rcases hk with rfl | rfl | rfl | rfl
  · exact fields (putBody body)
  · exact fields (dropBody body)
  · exact fields (clearBody body)
  · exact fields (getBody body)

/-! ### What a step keeps of the table, the queue and the unit's step -/

/-- From s to t the three stay sound. -/
structure TableKept (s t : State) : Prop where
  table : TableSound s → TableSound t
  maint : MaintSound s → MaintSound t
  step : MaintSound s → StepSound s → StepSound t

namespace TableKept

theorem refl (s : State) : TableKept s s := ⟨id, id, fun _ => id⟩

theorem trans {s t u : State} (h : TableKept s t) (k : TableKept t u) : TableKept s u :=
  ⟨fun x => k.table (h.table x), fun x => k.maint (h.maint x), fun x y => k.step (h.maint x) (h.step x y)⟩

/-- What leaves the slots, the queue, the lock, the unit's step and the device state alone. -/
theorem same {s t : State} (hslots : t.dict.slots = s.dict.slots) (hqueue : t.maint.queue = s.maint.queue)
    (hlock : t.maint.lockHeld = s.maint.lockHeld) (hwork : t.memory.maintWork = s.memory.maintWork)
    (hdevice : t.device.state = s.device.state ∧ t.device.startup = s.device.startup) : TableKept s t where
  table h := by rw [TableSound, hslots]; exact h
  maint h := by rw [MaintSound, hqueue, hlock]; exact h
  step _ h := by rw [StepSound, hqueue, hwork, hdevice.1, hdevice.2]; exact h

theorem of_eq {s t u : State} (he : t = u) (h : TableKept s u) : TableKept s t := he ▸ h

theorem engineRow (k : WorkKind) (s : State) : TableKept s (engineRow k s) := by
  have only := engineRow_only k s
  obtain ⟨_, _, _, _, -, hm⟩ := only.memory
  exact same (by rw [only.dict]) only.queue only.lock (by rw [hm]) (by rw [only.device]; exact ⟨rfl, rfl⟩)

theorem ports {s t : State} {p : PortId} (ht : PortsOnly p s t) : TableKept s t := by
  obtain ⟨_, rfl, -⟩ := ht
  exact same rfl rfl rfl rfl ⟨rfl, rfl⟩

end TableKept

/-- With no step begun, or reads alone left of it, the unit writes nothing. -/
theorem stepSound_of_none {s : State} (h : s.memory.maintWork = none) : StepSound s :=
  fun w hw => by simp [h] at hw

/-- An empty queue holds no lock. -/
theorem maintSound_empty {s : State} (hqueue : s.maint.queue = []) (hlock : s.maint.lockHeld = false) : MaintSound s := by
  rw [MaintSound, hqueue, hlock]
  exact ⟨rfl, fun e he => absurd he List.not_mem_nil⟩

/-- A reset leaves the table canonical, the queue empty and no step begun (R38, R189). -/
theorem tableKept_resetPart (c : ResetCause) (d : DeviceState) (s : State) : TableKept s (resetPart c d s) where
  table h := by
    show slotsWf (appendInFlight s).dict.slots = true
    rw [appendInFlight]
    repeat' split
    all_goals try exact h
    · rw [engineUseEnds_dict]
      exact h
    · obtain ⟨_, _, _, he, hs⟩ := maintUseEnds_shape s
      rw [he]
      exact hs h
  maint _ := maintSound_empty rfl rfl
  step _ _ := stepSound_of_none rfl

/-! ### A request that joins the queue (R126) -/

theorem tableKept_enqueue (p : PortId) (r : MaintRequest) (q : Quad Port) (s : State) :
    TableKept s { s with ports := q, maint := { s.maint with
      queue := s.maint.queue ++ [⟨p, r, joiningPhase s.maint.queue⟩] } } where
  table := id
  maint h := by
    obtain ⟨hlock, hrest⟩ := h
    cases hq : s.maint.queue with
    | nil =>
      rw [hq] at hlock
      exact ⟨by simp [hlock, joiningPhase, MaintEntry.isWriting], by simp⟩
    | cons e es =>
      rw [hq] at hlock hrest
      refine ⟨by simp [hlock], fun x hx => ?_⟩
      simp only [List.cons_append, List.drop_one, List.tail_cons, List.mem_append, List.mem_singleton] at hx
      rcases hx with hx | rfl
      · exact hrest x (by simpa using hx)
      · simp [joiningPhase]
  step _ h w hw := by
    rcases h w hw with hreads | hsweep | ⟨e, he, hphase⟩
    · exact .inl hreads
    · exact .inr (.inl hsweep)
    · refine .inr (.inr ⟨e, ?_, hphase⟩)
      rw [List.head?_append, he]
      rfl

/-- Every owner keeps the three. -/
theorem tableKept_servedBy (reads : List Nat) (k : Kind) (p : PortId) (tag : Byte) (body : List Byte) (s : State) :
    TableKept s (servedBy reads k p tag body s) := by
  have same : ∀ {t : State}, t.dict.slots = s.dict.slots → t.maint.queue = s.maint.queue →
      t.maint.lockHeld = s.maint.lockHeld → t.memory.maintWork = s.memory.maintWork → t.device = s.device →
      TableKept s t := fun a b c d e => .same a b c d (by rw [e]; exact ⟨rfl, rfl⟩)
  have queued : ∀ k ∈ [Kind.put, .drop, .clearTier, .get], TableKept s (servedBy reads k p tag body s) := fun k hk => by
    rcases servedBy_maint_shape reads hk p tag body s with hports | ⟨_, _, -, he⟩
    · exact .ports hports
    · exact .of_eq he (tableKept_enqueue ..)
  cases k with
  | stroke =>
    obtain ⟨_, _, _, _, _, ⟨⟨_, _, _, rfl⟩, -⟩, -, he⟩ := serveStroke_shape p tag body s
    exact .of_eq he (same rfl rfl rfl rfl rfl)
  | pull => obtain ⟨_, _, _, -, -, he⟩ := servePull_shape p tag body s; exact .of_eq he (same rfl rfl rfl rfl rfl)
  | subscribe => obtain ⟨_, _, -, he⟩ := serveSubscribe_shape p tag body s; exact .of_eq he (same rfl rfl rfl rfl rfl)
  | unsubscribe => obtain ⟨_, _, -, he⟩ := serveUnsubscribe_shape p tag body s; exact .of_eq he (same rfl rfl rfl rfl rfl)
  | fetch => obtain ⟨_, _, _, -, he⟩ := serveFetch_shape p tag body s; exact .of_eq he (same rfl rfl rfl rfl rfl)
  | collect => exact .ports (serveCollect_shape p tag body s)
  | status => obtain ⟨_, _, -, he⟩ := serveStatus_shape p tag reads body s; exact .of_eq he (same rfl rfl rfl rfl rfl)
  | speaker => obtain ⟨_, _, -, he, -⟩ := serveSpeaker_shape p tag body s; exact .of_eq he (same rfl rfl rfl rfl rfl)
  | setTiers => obtain ⟨_, _, _, -, he, -⟩ := serveSetTiers_shape p tag body s; exact .of_eq he (same rfl rfl rfl rfl rfl)
  | setHold => obtain ⟨_, _, -, he, -⟩ := serveSetHold_shape p tag body s; exact .of_eq he (same rfl rfl rfl rfl rfl)
  | setOffset => obtain ⟨_, _, -, he⟩ := serveSetOffset_shape p tag body s; exact .of_eq he (same rfl rfl rfl rfl rfl)
  | setArbiter =>
    obtain ⟨_, _, -, he, hm⟩ := serveSetArbiter_shape p tag body s
    rcases hm with rfl | ⟨_, rfl⟩
    · exact .of_eq he (same rfl rfl rfl rfl rfl)
    · exact .of_eq he (same rfl rfl rfl rfl rfl)
  | setAccess =>
    rcases serveSetAccess_shape p tag body s with hports | ⟨_, _, _, _, -, -, he⟩
    · exact .ports hports
    · exact .of_eq he (same rfl rfl rfl rfl rfl)
  | trust =>
    rcases serveTrust_shape p tag body s with hports | ⟨_, _, _, -, -, he⟩
    · exact .ports hports
    · exact .of_eq he (same rfl rfl rfl rfl rfl)
  | lockPort =>
    rcases serveLockPort_shape p tag body s with hports | ⟨_, _, -, he⟩
    · exact .ports hports
    · exact .of_eq he (same rfl rfl rfl rfl rfl)
  | lockTier =>
    rcases serveLockTier_shape p tag body s with hports | ⟨_, _, -, he⟩
    · exact .ports hports
    · exact .of_eq he (same rfl rfl rfl rfl rfl)
  | restart =>
    show TableKept s (serveRestart p tag body s)
    cases hb : noBody body with
    | error d =>
      rw [serveRestart, hb]
      exact .ports (refuse_portsOnly ..)
    | ok u =>
      rw [serveRestart, hb]
      exact tableKept_resetPart ..
  | put => exact queued .put (by decide)
  | drop => exact queued .drop (by decide)
  | clearTier => exact queued .clearTier (by decide)
  | get => exact queued .get (by decide)
  | retranslate => obtain ⟨_, _, -, he⟩ := serveRetranslate_shape p tag body s; exact .of_eq he (same rfl rfl rfl rfl rfl)
  | openSession =>
    rcases serveOpenSession_shape p tag body s with hports | ⟨_, _, _, _, _, _, -, -, he⟩
    · exact .ports hports
    · exact .of_eq he (same rfl rfl rfl rfl rfl)
  | closeSession => obtain ⟨_, _, -, he⟩ := serveCloseSession_shape p tag body s; exact .of_eq he (same rfl rfl rfl rfl rfl)

/-! ### The queue's head (R125, R127) -/

/-- The head where there is one. -/
theorem headOf_some {s : State} {e : MaintEntry} (h : headOf s = some e) :
    s.device.state = .ready ∧ s.maint.queue.head? = some e := by
  rw [headOf] at h
  split at h
  · next hr => exact ⟨hr, h⟩
  · cases h

/-- The lock goes by the phase of the head. -/
theorem lockHeld_of_head {s : State} {e : MaintEntry} (h : MaintSound s) (he : s.maint.queue.head? = some e) :
    s.maint.lockHeld = e.isWriting := by
  obtain ⟨hlock, -⟩ := h
  cases hq : s.maint.queue with
  | nil => simp [hq] at he
  | cons x xs =>
    rw [hq] at hlock he
    cases he
    exact hlock

/-- A head that leaves hands the place on to an entry in CHECKING. -/
theorem maintSound_leave {s t : State} (hrest : ∀ e ∈ s.maint.queue.drop 1, e.phase = .queued)
    (hqueue : t.maint.queue = promoteHead (s.maint.queue.drop 1)) (hlock : t.maint.lockHeld = false) : MaintSound t := by
  cases hd : s.maint.queue.drop 1 with
  | nil => exact maintSound_empty (by rw [hqueue, hd, promoteHead]) hlock
  | cons x xs =>
    rw [MaintSound, hqueue, hlock, hd]
    refine ⟨rfl, fun e he => hrest e ?_⟩
    rw [hd]
    exact List.mem_cons_of_mem _ he

/-- A new phase of the head, with the lock as that phase has it. -/
theorem maintSound_setHeadPhase {s t : State} {e : MaintEntry} {ph : Phase}
    (hrest : ∀ e ∈ s.maint.queue.drop 1, e.phase = .queued) (he : s.maint.queue.head? = some e)
    (hqueue : t.maint.queue = (setHeadPhase ph s).maint.queue)
    (hlock : t.maint.lockHeld = ({ e with phase := ph } : MaintEntry).isWriting) : MaintSound t := by
  cases hq : s.maint.queue with
  | nil => simp [hq] at he
  | cons x xs =>
    rw [hq] at he hrest
    cases he
    rw [MaintSound, hqueue, hlock, setHeadPhase, hq]
    exact ⟨rfl, hrest⟩

/-- A head in CHECKING or SWEEPING does not hold the lock, whatever became of the step and the table. -/
theorem unlocked {s : State} {e : MaintEntry} (h : MaintSound s) (he : s.maint.queue.head? = some e)
    (hphase : e.isWriting = false) : s.maint.lockHeld = false := by
  rw [lockHeld_of_head h he, hphase]

/-! ### The rows of the unit -/

/-- A row that makes the step's last transactions ends the step, so it keeps the three if it keeps the queue and the lock. -/
theorem tableKept_maintStep {act : MaintWork → State → State} {s : State} (only : ∀ w u, MaintOnly u (act w u))
    (hmaint : MaintSound s → ∀ w u, u.maint = s.maint → MaintSound (act w u))
    (hmemory : ∀ w u, (act w u).memory = u.memory) : TableKept s (maintStep act s) := by
  rcases maintStep_cases act s with h | ⟨w, -, -, h⟩
  · rw [h]
    exact .refl s
  · rw [h]
    exact ⟨((MaintOnly.stepServed w s).trans (only _ _)).table, fun hs => hmaint hs _ _ rfl, fun _ _ => stepSound_of_none (by rw [hmemory]; rfl)⟩

/-- A new phase of a head that has not begun its writes and does not begin them. -/
theorem maintSound_nextPhase {s u : State} {e : MaintEntry} {ph : Phase} (h : MaintSound s)
    (he : s.maint.queue.head? = some e) (hu : u.maint = s.maint) (hphase : e.isWriting = false)
    (hnext : ({ e with phase := ph } : MaintEntry).isWriting = false) : MaintSound (setHeadPhase ph u) :=
  maintSound_setHeadPhase (s := u) (by rw [hu]; exact h.2) (by rw [hu]; exact he) rfl
    (by rw [hnext]; show u.maint.lockHeld = false; rw [hu]; exact unlocked h he hphase)

/-- A head that holds no lock leaves. -/
theorem maintSound_finishHead {s u : State} {e : MaintEntry} (h : MaintSound s) (he : s.maint.queue.head? = some e)
    (hu : u.maint = s.maint) (hphase : e.isWriting = false) (r : Reply) : MaintSound (finishHead e r u) :=
  maintSound_leave (s := u) (by rw [hu]; exact h.2) rfl
    (by show u.maint.lockHeld = false; rw [hu]; exact unlocked h he hphase)

theorem maintSound_resourceCheck {s u : State} {e : MaintEntry} (h : MaintSound s) (he : s.maint.queue.head? = some e)
    (hu : u.maint = s.maint) (hphase : e.isWriting = false) : MaintSound (resourceCheck e u) := by
  rw [resourceCheck]
  split
  · split
    · exact maintSound_finishHead h he hu hphase _
    · exact maintSound_nextPhase h he hu hphase rfl
  · split
    · exact maintSound_finishHead h he hu hphase _
    · exact maintSound_nextPhase h he hu hphase rfl
  · exact maintSound_nextPhase h he hu hphase rfl
  · exact maintSound_nextPhase h he hu hphase rfl

theorem resourceCheck_memory (e : MaintEntry) (s : State) : (resourceCheck e s).memory = s.memory := by
  rw [resourceCheck]
  split
  · split <;> rfl
  · split <;> rfl
  · rfl
  · rfl

/-- A head in CHECKING has a step of reads alone, if any. -/
theorem stepSound_checking {s t : State} {e : MaintEntry} (h : StepSound s) (he : s.maint.queue.head? = some e)
    (hphase : e.phase = .checking false) (hwork : t.memory.maintWork = s.memory.maintWork)
    (hdevice : t.device = s.device) : StepSound t := by
  intro w hw
  rcases h w (hwork ▸ hw) with hreads | hsweep | ⟨x, hx, hpast⟩
  · exact .inl hreads
  · exact .inr (.inl (by rw [hdevice]; exact hsweep))
  · rw [he] at hx
    cases hx
    simp [MaintEntry.isWriting, MaintEntry.isBeforeWrites, hphase] at hpast

theorem tableKept_maintHeadChecks (s : State) : TableKept s (maintHeadChecks s) := by
  rw [maintHeadChecks]
  split
  case h_2 => exact .refl s
  case h_1 e hhead =>
    obtain ⟨-, he⟩ := headOf_some hhead
    split
    case isFalse => exact .refl s
    case isTrue hphase =>
      have hnot : e.isWriting = false := by rw [MaintEntry.isWriting, hphase]
      rw [headCheck]
      split
      case isTrue hlocked =>
        exact ⟨(MaintOnly.finishHead ..).table, fun hs => maintSound_finishHead hs he rfl hnot _,
          fun _ _ => stepSound_of_none hlocked.1⟩
      case isFalse =>
        split
        case isTrue =>
          exact tableKept_maintStep (fun _ _ => .resourceCheck ..) (fun hs _ _ hu => maintSound_resourceCheck hs he hu hnot)
            (fun _ _ => resourceCheck_memory ..)
        case isFalse =>
          exact ⟨(MaintOnly.resourceCheck ..).table, fun hs => maintSound_resourceCheck hs he rfl hnot, fun _ hs =>
            stepSound_checking hs he hphase (by rw [resourceCheck_memory]) (MaintOnly.resourceCheck ..).device⟩

/-! ### The writes begin and end (R129, R130, R139 to R141) -/

theorem maintSound_takeLock {s : State} {e : MaintEntry} (h : MaintSound s) (he : s.maint.queue.head? = some e) (plan : Plan) :
    MaintSound (takeLock plan s) ∧ ∃ x, (takeLock plan s).maint.queue.head? = some x ∧ x.isWriting = true := by
  obtain ⟨a, ht⟩ := takeLock_shape plan s
  rw [ht]
  refine ⟨maintSound_setHeadPhase h.2 he rfl rfl, { e with phase := .writing plan }, ?_, rfl⟩
  show (setHeadPhase (.writing plan) s).maint.queue.head? = _
  cases hq : s.maint.queue with
  | nil => simp [hq] at he
  | cons x xs =>
    rw [hq] at he
    cases he
    simp [setHeadPhase, hq]

theorem maintSound_startSweep {s : State} {e : MaintEntry} (h : MaintSound s) (he : s.maint.queue.head? = some e)
    (hphase : e.isWriting = false) (t : TierId) :
    MaintSound (startSweep t s) ∧ ∃ x, (startSweep t s).maint.queue.head? = some x ∧ x.phase = .sweeping := by
  obtain ⟨a, ht⟩ := startSweep_shape t s
  rw [ht]
  refine ⟨maintSound_setHeadPhase (s := s) h.2 he rfl (unlocked (s := s) h he hphase), { e with phase := .sweeping }, ?_, rfl⟩
  show (setHeadPhase .sweeping s).maint.queue.head? = _
  cases hq : s.maint.queue with
  | nil => simp [hq] at he
  | cons x xs =>
    rw [hq] at he
    cases he
    simp [setHeadPhase, hq]

theorem tableKept_tableLockTakes (s : State) : TableKept s (tableLockTakes s) := by
  have only := MaintOnly.tableLockTakes s
  cases hhead : headOf s with
  | none => rw [tableLockTakes, hhead]; exact .refl s
  | some e =>
    obtain ⟨-, he⟩ := headOf_some hhead
    cases hphase : e.phase with
    | lockWait plan =>
      have row : tableLockTakes s =
          if (!writesWithheld s && maintAlone s) = true then headerMade (takeLock plan s) else s := by
        rw [tableLockTakes, hhead]
        simp only [hphase]
      rw [row] at only ⊢
      split
      · exact ⟨((MaintOnly.takeLock plan s).trans (.headerMade _)).table, fun hs => (maintSound_takeLock hs he plan).1,
          fun _ _ => stepSound_of_none rfl⟩
      · exact .refl s
    | _ =>
      have row : tableLockTakes s = s := by
        rw [tableLockTakes, hhead]
        simp only [hphase]
      rw [row]
      exact .refl s

theorem tableKept_clearTierStarts (s : State) : TableKept s (clearTierStarts s) := by
  rw [clearTierStarts]
  split
  case h_2 => exact .refl s
  case h_1 e hhead =>
    obtain ⟨-, he⟩ := headOf_some hhead
    split
    case h_1 t hreq hphase =>
      split
      · exact ⟨((MaintOnly.startSweep t s).trans (.headerMade _)).table,
          fun hs => (maintSound_startSweep hs he (by rw [MaintEntry.isWriting, hphase]) t).1, fun _ _ => stepSound_of_none rfl⟩
      · exact .refl s
    case h_2 => exact .refl s

theorem maintSound_writesEnd {s u : State} (h : MaintSound s) (hu : u.maint = s.maint) (e : MaintEntry) (k : Kind)
    (flag : Bool) (report : List Byte) : MaintSound (writesEnd e k flag report u) := by
  have hrest : ∀ e ∈ u.maint.queue.drop 1, e.phase = .queued := by
    rw [hu]
    exact h.2
  rw [writesEnd, refreshActivity_eq]
  split
  · exact maintSound_leave hrest rfl rfl
  · exact maintSound_leave hrest rfl rfl

theorem writesEnd_memory (e : MaintEntry) (k : Kind) (flag : Bool) (report : List Byte) (s : State) :
    (writesEnd e k flag report s).memory = s.memory := by
  rw [writesEnd, refreshActivity_eq]
  split
  · rfl
  · rfl

theorem tableKept_writesEnd (e : MaintEntry) (k : Kind) (flag : Bool) (s : State) :
    TableKept s (maintStep (fun w => writesEnd e k flag w.report) s) :=
  tableKept_maintStep (fun _ _ => .writesEnd ..) (fun hs _ _ hu => maintSound_writesEnd hs hu ..)
    (fun _ _ => writesEnd_memory ..)

theorem tableKept_putWritesEnd (s : State) : TableKept s (putWritesEnd s) := by
  rw [putWritesEnd]
  repeat' split
  · exact tableKept_writesEnd ..
  · exact .refl s
  · exact .refl s

theorem tableKept_dropWritesEnd (s : State) : TableKept s (dropWritesEnd s) := by
  rw [dropWritesEnd]
  repeat' split
  · exact tableKept_writesEnd ..
  · exact .refl s
  · exact .refl s

theorem tableKept_clearTierSweepEnds (s : State) : TableKept s (clearTierSweepEnds s) := by
  rw [clearTierSweepEnds]
  split
  case h_2 => exact .refl s
  case h_1 e hhead =>
    obtain ⟨-, he⟩ := headOf_some hhead
    split
    case h_1 t hreq hphase =>
      have hnot : e.isWriting = false := by rw [MaintEntry.isWriting, hphase]
      exact tableKept_maintStep (fun _ _ => (MaintOnly.setClearing ..).trans (.finishHead ..))
        (fun hs _ u hu => maintSound_finishHead (u := setClearing t false u) hs he hu hnot _) (fun _ _ => rfl)
    case h_2 => exact .refl s

theorem tableKept_getAnswers (s : State) : TableKept s (getAnswers s) := by
  rw [getAnswers]
  split
  case h_2 => exact .refl s
  case h_1 e hhead =>
    obtain ⟨-, he⟩ := headOf_some hhead
    split
    case h_1 tier strokes checked hreq hphase =>
      have hnot : e.isWriting = false := by rw [MaintEntry.isWriting, hphase]
      exact tableKept_maintStep (fun _ _ => .finishHead ..)
        (fun hs _ _ hu => maintSound_finishHead hs he hu hnot _) (fun _ _ => rfl)
    case h_2 => exact .refl s

/-! ### The unit at the memory controller (R183) -/

/-- What the head's next step is made of. -/
theorem headUses_spec (e : MaintEntry) (s : State) :
    (∀ u ∈ headUses e s, ∃ n, u = .read n) ∨ e.isWriting = true ∨ e.phase = .sweeping ∨
      (e.isBeforeWrites ∧ headUses e s = [.header .writing]) := by
  have reads : ∀ ns : List SlotNo, ∀ u ∈ slotReads ns, ∃ n, u = .read n := fun ns u hu => by
    obtain ⟨n, -, rfl⟩ := List.mem_map.mp hu
    exact ⟨n, rfl⟩
  rw [headUses]
  split
  · split
    · exact .inl nofun
    · exact .inl (reads _)
  · split
    · exact .inl nofun
    · exact .inl (reads _)
  · exact .inl (reads _)
  · next t hreq hphase =>
    split
    · exact .inl nofun
    · exact .inr (.inr (.inr ⟨.inr ⟨⟨t, hreq⟩, hphase⟩, rfl⟩))
  · next hphase =>
    obtain ⟨plan, hphase⟩ : ∃ plan, e.phase = .lockWait plan := ⟨_, hphase⟩
    split
    · exact .inl nofun
    · exact .inr (.inr (.inr ⟨.inl ⟨plan, hphase⟩, rfl⟩))
  · next hphase => exact .inr (.inr (.inl hphase))
  · next hphase => exact .inr (.inl (by rw [MaintEntry.isWriting, hphase]))
  · next hphase => exact .inr (.inl (by rw [MaintEntry.isWriting, hphase]))
  · exact .inl nofun

/-- What the unit's next step is made of. -/
theorem maintUses_spec (s : State) :
    (∀ u ∈ maintUses s, ∃ n, u = .read n) ∨ (s.device.state = .starting ∧ s.device.startup = .sweep) ∨
      ∃ e, s.maint.queue.head? = some e ∧
        (e.isWriting = true ∨ e.phase = .sweeping ∨ (e.isBeforeWrites ∧ maintUses s = [.header .writing])) := by
  rw [maintUses]
  split
  · next h => exact .inr (.inl h)
  · split
    · next e hhead =>
      rcases headUses_spec e s with h | h
      · exact .inl h
      · exact .inr (.inr ⟨e, (headOf_some hhead).2, h⟩)
    · exact .inl nofun

theorem tableKept_presentMaint (s : State) : TableKept s (presentMaint s) := by
  rw [presentMaint]
  split
  · exact .refl s
  · exact ⟨id, id, fun _ _ w hw => by cases hw; exact maintUses_spec s⟩

theorem tableKept_writesBegin (s : State) : TableKept s (writesBegin s) := by
  rw [writesBegin]
  split
  case h_2 => exact .refl s
  case h_1 e hhead =>
    obtain ⟨-, he⟩ := headOf_some hhead
    split
    case h_1 plan hphase =>
      refine ⟨(MaintOnly.takeLock plan s).table, fun hs => (maintSound_takeLock hs he plan).1, fun hs _ w _ => ?_⟩
      obtain ⟨x, hx, hwriting⟩ := (maintSound_takeLock hs he plan).2
      exact .inr (.inr ⟨x, hx, .inl hwriting⟩)
    case h_2 t hreq hphase =>
      have hnot : e.isWriting = false := by rw [MaintEntry.isWriting, hphase]
      refine ⟨(MaintOnly.startSweep t s).table, fun hs => (maintSound_startSweep hs he hnot t).1, fun hs _ w _ => ?_⟩
      obtain ⟨x, hx, hsweeping⟩ := (maintSound_startSweep hs he hnot t).2
      exact .inr (.inr ⟨x, hx, .inr (.inl hsweeping)⟩)
    case h_3 => exact .refl s

theorem tableKept_maintUseEnds (s : State) : TableKept s (maintUseEnds s) := by
  refine ⟨(MaintOnly.maintUseEnds s).table, ?_, ?_⟩
  · obtain ⟨_, _, _, he, -⟩ := maintUseEnds_shape s
    rw [he]
    exact id
  · intro _ hs
    rw [maintUseEnds]
    repeat' split
    · next w hwork _ u rest hleft =>
      intro x hx
      cases hx
      rcases hs w hwork with hreads | hsweep | ⟨e, he, hphase⟩
      · rw [hleft] at hreads
        obtain ⟨n, rfl⟩ := hreads u (List.mem_cons_self ..)
        exact .inl (fun v hv => hreads v (List.mem_cons_of_mem _ hv))
      · exact .inr (.inl hsweep)
      · rcases hphase with hwriting | hsweeping | ⟨-, hone⟩
        · exact .inr (.inr ⟨e, he, .inl hwriting⟩)
        · exact .inr (.inr ⟨e, he, .inr (.inl hsweeping)⟩)
        · rw [hleft] at hone
          cases hone
          exact .inl nofun
    · exact hs
    · exact hs

theorem tableKept_grant (s : State) : TableKept s (grant s) := by
  obtain ⟨_, _, _, he⟩ := grant_shape s
  exact .of_eq he (.same rfl rfl rfl rfl ⟨rfl, rfl⟩)

theorem tableKept_presentEngine (first : Bool) (s : State) : TableKept s (presentEngine first s) := by
  rw [presentEngine]
  split
  · split
    · exact .refl s
    · obtain ⟨_, _, -, -, -, he⟩ := beginWork_shape _ s
      exact .of_eq he (.same rfl rfl rfl rfl ⟨rfl, rfl⟩)
  · exact .refl s

theorem tableKept_presented (asks : Asks) (s : State) : TableKept s (presented asks s) := by
  have engine : TableKept s (if asks.engine then presentEngine asks.expiryFirst s else s) := by
    split
    · exact tableKept_presentEngine ..
    · exact .refl s
  rw [presented]
  split
  · exact engine.trans (tableKept_presentMaint _)
  · exact engine

theorem tableKept_memoryGrants (asks : Asks) (s : State) : TableKept s (memoryGrants asks s) := by
  have asked := (tableKept_presented asks s).trans (tableKept_grant _)
  rw [memoryGrants]
  split
  · exact .refl s
  · rw [begunWith]
    split
    · split
      · exact asked.trans (tableKept_writesBegin _)
      · exact asked
    · exact asked

theorem tableKept_transactionEnds (s : State) : TableKept s (transactionEnds s) := by
  have same : ∀ {t : State}, t.dict.slots = s.dict.slots → t.maint.queue = s.maint.queue →
      t.maint.lockHeld = s.maint.lockHeld → t.memory.maintWork = s.memory.maintWork → t.device = s.device →
      TableKept s t := fun a b c d e => .same a b c d (by rw [e]; exact ⟨rfl, rfl⟩)
  rw [transactionEnds]
  split
  · exact .refl s
  · split
    · rw [pullReadEnds]
      repeat' split
      all_goals exact same rfl rfl rfl rfl rfl
    · rw [fetchReadEnds]
      repeat' split
      all_goals exact same rfl rfl rfl rfl rfl
    · obtain ⟨t, w, ht, he⟩ := engineUseEnds_shape (endTransaction s)
      obtain ⟨_, _, _, _, rfl⟩ := ht.form
      exact .of_eq he (same rfl rfl rfl rfl rfl)
    · exact TableKept.trans (same (t := endTransaction s) rfl rfl rfl rfl rfl) (tableKept_maintUseEnds _)
    · obtain ⟨_, _, he⟩ := changeEnds_shape (endTransaction s)
      exact .of_eq he (same rfl rfl rfl rfl rfl)
    · exact .refl s
    · exact same rfl rfl rfl rfl rfl
    · exact .refl s
    · exact .refl s
    · exact .refl s

/-! ### Appends, the clock and start-up -/

theorem tableKept_granted {w : TxWork} {s t : State} (hg : granted w s = some t) : TableKept s t := by
  rw [granted_shape hg]
  exact tableKept_grant s

theorem tableKept_journalAppends (s : State) : TableKept s (journalAppends s) := by
  rw [journalAppends]
  split
  · exact .refl s
  · next s1 hg =>
    split
    · exact .refl s
    · rw [refreshActivity_eq]
      exact (tableKept_granted hg).trans (.same rfl rfl rfl rfl ⟨rfl, rfl⟩)

/-- A segment of session control's, whatever becomes of the session and its port. -/
theorem tableKept_segment {s t : State} (body : SegmentBody) (hdict : t.dict = (appendSegment body s).dict)
    (hmaint : t.maint = (appendSegment body s).maint)
    (hwork : t.memory.maintWork = (appendSegment body s).memory.maintWork)
    (hdevice : t.device = (appendSegment body s).device) : TableKept s t := by
  have only := appendSegment_only body s
  rw [only.dict] at hdict
  rw [only.maint] at hmaint
  rw [only.memory] at hwork
  rw [only.device] at hdevice
  exact .same (by rw [hdict]) (by rw [hmaint]) (by rw [hmaint]) hwork (by rw [hdevice]; exact ⟨rfl, rfl⟩)

theorem tableKept_openStartAppends (s : State) : TableKept s (openStartAppends s) := by
  rw [openStartAppends]
  split
  · split
    · next hg => exact (tableKept_granted hg).trans (tableKept_segment _ rfl rfl rfl rfl)
    · exact .refl s
  · exact .refl s
  · exact .refl s

theorem tableKept_closeEndAppends (s : State) : TableKept s (closeEndAppends s) := by
  rw [closeEndAppends]
  split
  · split
    · next hg => exact (tableKept_granted hg).trans (tableKept_segment _ rfl rfl rfl rfl)
    · exact .refl s
  · exact .refl s
  · exact .refl s
  · exact .refl s

/-- A device that does not leave start-up's sweep for another state with a step begun. -/
theorem tableKept_device {s t : State} {d : Device} (h : TableKept s t) (hdevice : t.device = s.device)
    (hsweep : ¬(s.device.state = .starting ∧ s.device.startup = .sweep)) : TableKept s { t with device := d } where
  table := h.table
  maint := h.maint
  step hm hs w hw := by
    rcases h.step hm hs w hw with hreads | hstart | hhead
    · exact .inl hreads
    · exact absurd (hdevice ▸ hstart) hsweep
    · exact .inr (.inr hhead)

theorem tableKept_headerReadEnds (s : State) : TableKept s (headerReadEnds s) := by
  rw [headerReadEnds]
  split
  · next h =>
    obtain ⟨-, hread⟩ := h
    split
    · next t hg =>
      have hdevice : t.device = s.device := by
        obtain ⟨_, _, _, he⟩ := grant_shape s
        rw [granted_shape hg, he]
      have ended : TableKept s (endTransaction t) := (tableKept_granted hg).trans (.same rfl rfl rfl rfl ⟨rfl, rfl⟩)
      exact tableKept_device (d := headerOutcome t.dict.header t.device) ended hdevice (by simp [hread])
    · exact .refl s
  · exact .refl s

theorem tableKept_startupCompletes (s : State) : TableKept s (startupCompletes s) := by
  rw [startupCompletes]
  split
  · split
    · exact .refl s
    · rcases maintStep_cases (fun _ => becomeReady) s with he | ⟨w, -, -, he⟩
      · rw [he]
        exact .refl s
      · rw [he]
        exact ⟨(MaintOnly.stepServed w s).table, id, fun _ _ => stepSound_of_none rfl⟩
    · next hdone => exact tableKept_device (.refl s) rfl (by simp [hdone])
  · exact .refl s

/-! ### Every command -/

theorem portFree_tableKept (s : State) : PortFree (TableKept s) := by
  refine portFree_of_keeps (fun q r t h => ?_)
  exact h.trans (.same rfl rfl rfl rfl ⟨rfl, rfl⟩)

theorem tableKept_exec (c : Instr) (s t : State) (hexec : exec c s = .next t) : TableKept s t := by
  cases c with
  | frameRefused p bytes | responsePhase p bytes =>
    cases hexec
    exact selectPeriod_keeps (portFree_tableKept s)
      (fun k p tag body u hu => hu.trans (servedBy_nil k p tag body ▸ tableKept_servedBy [] k p tag body u)) p bytes (.refl s)
  | journalAppend => cases hexec; exact tableKept_journalAppends s
  | maintHeadCheck => cases hexec; exact tableKept_maintHeadChecks s
  | tableLockTake => cases hexec; exact tableKept_tableLockTakes s
  | putWriteEnd => cases hexec; exact tableKept_putWritesEnd s
  | dropWriteEnd => cases hexec; exact tableKept_dropWritesEnd s
  | clearTierStart => cases hexec; exact tableKept_clearTierStarts s
  | clearTierSweepEnd => cases hexec; exact tableKept_clearTierSweepEnds s
  | getAnswer => cases hexec; exact tableKept_getAnswers s
  | reResolution | takeStroke | takeStrike | closeSettle | retranslationStart | retranslationRebuild =>
    cases hexec; exact .engineRow _ s
  | expiry first =>
    cases hexec
    rw [expires]
    split
    · exact .refl s
    · exact .engineRow _ s
  | closeEndAppended => cases hexec; exact tableKept_closeEndAppends s
  | openStartAppended => cases hexec; exact tableKept_openStartAppends s
  | sessionClockTick n => cases hexec; exact .same rfl rfl rfl rfl ⟨rfl, rfl⟩
  | memoryGrant asks => cases hexec; exact tableKept_memoryGrants asks s
  | sdramRefresh => cases hexec; exact .refl s
  | powerOn => cases hexec; exact ⟨fun _ => rfl, fun _ => maintSound_empty rfl rfl, fun _ _ => stepSound_of_none rfl⟩
  | resetLine ns sets =>
    cases hexec
    rw [resetAsserted]
    split
    · exact .refl s
    · have met : (headerReadMet sets s).dict = s.dict := by
        rw [headerReadMet]
        repeat' split
        all_goals rfl
      exact ⟨fun h => (tableKept_resetPart .resetLine .held _).table (by rw [TableSound, met]; exact h), fun _ => maintSound_empty rfl rfl,
        fun _ _ => stepSound_of_none rfl⟩
  | resetRelease =>
    cases hexec
    rw [resetReleased]
    split
    · next hheld => exact tableKept_device (.refl s) rfl (by simp [hheld])
    · exact .refl s
  | startupHeaderRead => cases hexec; exact tableKept_headerReadEnds s
  | startupComplete => cases hexec; exact tableKept_startupCompletes s
  | memoryTransactionComplete => cases hexec; exact tableKept_transactionEnds s
  | _ =>
    exact exec_request_keeps (portFree_tableKept s) rfl
      (fun reads u hu => hu.trans (tableKept_servedBy reads _ _ _ _ u)) (.refl s) hexec

/-- Settles O4: what each command keeps, every step keeps. -/
theorem tableAndLockKept : Obligations.TableAndLockKept := by
  unfold Obligations.TableAndLockKept
  intro s t htable hmaint hstep
  have kept : TableKept s t := step_keeps (P := TableKept s) (fun u rest h => h.trans (.same rfl rfl rfl rfl ⟨rfl, rfl⟩))
    (fun c u v h hexec => h.trans (tableKept_exec c u v hexec)) (.refl s) hstep
  exact ⟨kept.table htable, kept.maint hmaint, kept.step hmaint⟩

end Sys2Proof.Proofs
end

section
/-! PROOFS. What the owner of a request makes of it: a refusal, an answer that is none, or a response that waits; so a request
that is refused has changed nothing but its own port's exchange (R163, R164, R166). -/

namespace Sys2Proof.Proofs

open Sys2Proof.Machine

/-- The owner of a request has answered it on its port. -/
inductive Replied (p : PortId) (k : Kind) (tag : Byte) (s t : State) : Prop where
  | refused (c : Cause) (d : Nat) (h : t = refuse p k tag c d s)
  | answered (r : Reply) (hr : r.outcome ≠ .refused)
      (h : (t.ports.get p).exchange = .answering (responseFrame (byteOf k.code) tag r))

theorem answer_exchange (p : PortId) (k : Kind) (tag : Byte) (r : Reply) (s : State) :
    ((answer p k tag r s).ports.get p).exchange = .answering (responseFrame (byteOf k.code) tag r) := by
  simp [answer, respond]

theorem doneReply_outcome (b : List Byte) : (doneReply b).outcome ≠ .refused := by
  show ReplyOutcome.done ≠ .refused
  decide

/-- An answered port is not WORKING. -/
theorem Replied.exchange {p : PortId} {k : Kind} {tag : Byte} {s t : State} (h : Replied p k tag s t) :
    ∃ f, (t.ports.get p).exchange = .answering f := by
  cases h with
  | refused c d h => exact ⟨_, by rw [h, refuse, answer_exchange]⟩
  | answered r _ h => exact ⟨_, h⟩

section

variable (p : PortId) (k : Kind) (tag : Byte) (s : State)

theorem replied_done (b : List Byte) (t : State) : Replied p k tag s (answer p k tag (doneReply b) t) :=
  .answered _ (doneReply_outcome b) (answer_exchange ..)

theorem replied_none (t : State) : Replied p k tag s (answer p k tag noneReply t) :=
  .answered _ (by decide) (answer_exchange ..)

theorem replied_accept (t : State) : Replied p k tag s (accept p k tag t) :=
  .answered _ (by decide) (answer_exchange ..)

theorem replied_refuse (c : Cause) (d : Nat) : Replied p k tag s (refuse p k tag c d s) := .refused c d rfl

/-- A field check refuses by itself. -/
theorem replied_withFields {α : Type} (fields : Except Nat α) {act : α → State → State}
    (h : ∀ a, Replied p k tag s (act a s)) : Replied p k tag s (withFields p k tag fields act s) := by
  cases fields with
  | error d => exact replied_refuse ..
  | ok a => exact h a

end

/-- The kinds whose response waits for no read and no append, and that do not reset the part. -/
def Kind.repliesAtOnce : Kind → Bool
  | .stroke | .pull | .fetch | .status | .restart => false
  | _ => true

section

variable (p : PortId) (tag : Byte) (s : State)

theorem collectSlot_replied : Replied p .collect tag s (collectSlot p tag s) := by
  rw [collectSlot]
  split
  · exact replied_done ..
  · exact replied_none ..
  · exact replied_none ..

theorem writeAccess_replied (a : PortId × BitVec 7) : Replied p .setAccess tag s (writeAccess p tag a s) := by
  rw [writeAccess]
  split
  · exact replied_refuse ..
  · exact replied_done ..

theorem writeTrust_replied (a : PortId × Bool) : Replied p .trust tag s (writeTrust p tag a s) := by
  rw [writeTrust]
  split
  · exact replied_refuse ..
  · exact replied_done ..

theorem acceptMaint_replied (k : Kind) (r : MaintRequest) : Replied p k tag s (acceptMaint p k tag r s) := by
  rw [acceptMaint]
  split
  · exact replied_refuse ..
  · split
    · exact replied_refuse ..
    · split
      · exact replied_refuse ..
      · exact replied_accept ..

theorem acceptRetranslate_replied (start : Word32) : Replied p .retranslate tag s (acceptRetranslate p tag start s) := by
  rw [acceptRetranslate]
  split
  · exact replied_refuse ..
  · split
    · exact replied_refuse ..
    · split
      · exact replied_refuse ..
      · exact replied_accept ..

theorem acceptOpen_replied (a : BitVec 16 × Bool) : Replied p .openSession tag s (acceptOpen p tag a s) := by
  rw [acceptOpen]
  split
  · exact replied_refuse ..
  · split
    · exact replied_refuse ..
    · split
      · exact replied_refuse ..
      · split
        · exact replied_refuse ..
        · exact replied_accept ..

theorem acceptClose_replied : Replied p .closeSession tag s (acceptClose p tag s) := by
  rw [acceptClose]
  split
  · exact replied_refuse ..
  · split
    · exact replied_refuse ..
    · split
      · exact replied_refuse ..
      · split
        · exact replied_refuse ..
        · exact replied_accept ..

/-- The kinds that need neither entry memory nor further select periods are answered at once. -/
theorem servedBy_replied (reads : List Nat) {k : Kind} (hk : Kind.repliesAtOnce k = true) (body : List Byte) :
    Replied p k tag s (servedBy reads k p tag body s) := by
  cases k with
  | stroke | pull | fetch | status | restart => cases hk
  | subscribe => exact replied_withFields p _ tag s (subscribeBody body) fun _ => replied_done ..
  | unsubscribe =>
    exact replied_withFields p .unsubscribe tag s (noBody body)
      (act := fun _ s => answer p .unsubscribe tag (doneReply []) (setFeed p none s)) fun _ => replied_done ..
  | collect => exact replied_withFields p _ tag s (noBody body) fun _ => collectSlot_replied ..
  | speaker => exact replied_withFields p _ tag s (speakerBody body) fun _ => replied_done ..
  | setTiers => exact replied_withFields p _ tag s (tiersBody body) fun _ => replied_done ..
  | setHold => exact replied_withFields p _ tag s (holdBody body) fun _ => replied_done ..
  | setOffset => exact replied_withFields p _ tag s (offsetBody body) fun _ => replied_done ..
  | setArbiter => exact replied_withFields p _ tag s (arbiterBody body) fun _ => replied_done ..
  | setAccess => exact replied_withFields p _ tag s (accessBody body) (writeAccess_replied p tag s)
  | trust => exact replied_withFields p _ tag s (trustBody body) (writeTrust_replied p tag s)
  | lockPort => exact replied_withFields p _ tag s (portBody body) fun _ => replied_done ..
  | lockTier => exact replied_withFields p _ tag s (tierBody body) fun _ => replied_done ..
  | put => exact replied_withFields p _ tag s (putBody body) (acceptMaint_replied p tag s _)
  | drop => exact replied_withFields p _ tag s (dropBody body) (acceptMaint_replied p tag s _)
  | clearTier => exact replied_withFields p _ tag s (clearBody body) (acceptMaint_replied p tag s _)
  | get => exact replied_withFields p _ tag s (getBody body) (acceptMaint_replied p tag s _)
  | retranslate => exact replied_withFields p _ tag s (retranslateBody body) (acceptRetranslate_replied p tag s)
  | openSession => exact replied_withFields p _ tag s (openBody body) (acceptOpen_replied p tag s)
  | closeSession => exact replied_withFields p _ tag s (noBody body) fun _ => acceptClose_replied ..

/-! ### The five kinds whose response may wait -/

/-- A masked chord is refused or asks for its append. -/
theorem serveChord_cases (c : Chord) : (∃ cause d, serveChord p tag c s = refuse p .stroke tag cause d s) ∨
    (serveChord p tag c s = takeChord p tag c s ∧ c ≠ 0#23 ∧ sessionTaking s = true ∧ guardBusy s = false ∧
      journalExhausted s = false) := by
  rw [serveChord]
  by_cases hc : c = 0#23
  · rw [if_pos hc]
    exact .inl ⟨_, _, rfl⟩
  · by_cases ht : sessionTaking s = false
    · rw [if_neg hc, if_pos ht]
      exact .inl ⟨_, _, rfl⟩
    · by_cases hg : guardBusy s = true
      · rw [if_neg hc, if_neg ht, if_pos hg]
        exact .inl ⟨_, _, rfl⟩
      · by_cases hj : journalExhausted s = true
        · rw [if_neg hc, if_neg ht, if_neg hg, if_pos hj]
          exact .inl ⟨_, _, rfl⟩
        · rw [if_neg hc, if_neg ht, if_neg hg, if_neg hj]
          exact .inr ⟨rfl, hc, by simpa using ht, by simpa using hg, by simpa using hj⟩

/-- STROKE is refused, or its port waits for the append (R3). -/
theorem serveStroke_cases (body : List Byte) : (∃ cause d, serveStroke p tag body s = refuse p .stroke tag cause d s) ∨
    ∃ c, serveStroke p tag body s = takeChord p tag c s ∧ c ≠ 0#23 ∧ sessionTaking s = true ∧ guardBusy s = false ∧
      journalExhausted s = false := by
  rw [serveStroke]
  cases strokeBody body with
  | error d => exact .inl ⟨_, _, rfl⟩
  | ok c => exact (serveChord_cases p tag s c).imp_right (fun h => ⟨c, h⟩)

/-- An accepted chord leaves the ports as they are. -/
theorem takeChord_ports (c : Chord) : (takeChord p tag c s).ports = s.ports := by
  rw [takeChord]
  obtain ⟨t, b, us, ht, he⟩ := guardRelease_shape (victimSeq s) s
  split
  · rw [he]
    exact ht.ports
  · rfl

/-- The pull cursors after a PULL: its own has moved on, by no more records than stand before the translate cursor (R16). -/
def PullMoved (cursors : Quad (Option PullCursor)) : Prop :=
  cursors = s.journal.pull ∨ ∃ c n, s.journal.pull.get p = some c ∧ n ≤ s.journal.cursor - c.cursor ∧
    cursors = s.journal.pull.set p (some ⟨c.cursor + n, 0⟩)

/-- What a PULL has to deliver is answered at once, or read first. -/
theorem pullReads_cases (items : List Byte) (recs : List JournalRecord) :
    pullReads p tag items recs s = answer p .pull tag (doneReply items) s ∨
      ∃ w, w.port = p ∧ pullReads p tag items recs s =
        setWorking p { s with memory := { s.memory with pullWork := s.memory.pullWork ++ [w] } } := by
  cases recs with
  | nil => exact .inl rfl
  | cons r rest => exact .inr ⟨_, rfl, rfl⟩

/-- So is what a FETCH has. -/
theorem answerReads_cases (items : List Byte) (reads : List Block) :
    answerReads p tag items reads s = answer p .fetch tag (doneReply items) s ∨
      ∃ w : ReadWork, w.port = p ∧ answerReads p tag items reads s =
        setWorking p { s with memory := { s.memory with logWork := s.memory.logWork ++ [.fetch w] } } := by
  cases reads with
  | nil => exact .inl rfl
  | cons b rest => exact .inr ⟨_, rfl, rfl⟩

theorem pullable_length_le (j : Journal) (from' count : Nat) : (j.pullable from' count).length ≤ j.cursor - from' := by
  rw [Journal.pullable, List.length_take]
  omega

/-- PULL is refused, answered, or its port waits for reads (R160). -/
theorem servePull_cases (body : List Byte) : (∃ d, servePull p tag body s = refuse p .pull tag .malformed d s) ∨
    ∃ cursors, PullMoved p s cursors ∧
      ((∃ b, servePull p tag body s =
        answer p .pull tag (doneReply b) { s with journal := { s.journal with pull := cursors } }) ∨
      ∃ w, w.port = p ∧ servePull p tag body s = setWorking p { s with
        journal := { s.journal with pull := cursors }, memory := { s.memory with pullWork := s.memory.pullWork ++ [w] } }) := by
  rw [servePull]
  cases oneByte body with
  | error d => exact .inl ⟨d, rfl⟩
  | ok n =>
    refine .inr ?_
    rw [withFields, servePullCount]
    split
    · next c hc =>
      rw [pullFrom]
      refine ⟨_, .inr ⟨c, _, hc, pullable_length_le s.journal c.cursor (clampCount n.toNat), rfl⟩, ?_⟩
      rcases pullReads_cases p tag _ _ _ with h | ⟨w, hw, h⟩
      · exact .inl ⟨_, h⟩
      · exact .inr ⟨w, hw, h⟩
    · exact ⟨s.journal.pull, .inl rfl, .inl ⟨[], rfl⟩⟩

/-- FETCH is refused, answered, or its port waits for reads (R160). -/
theorem serveFetch_cases (body : List Byte) : (∃ c d, serveFetch p tag body s = refuse p .fetch tag c d s) ∨
    ∃ feeds, (∃ b, serveFetch p tag body s = answer p .fetch tag (doneReply b) { s with feeds := feeds }) ∨
      ∃ w, w.port = p ∧ serveFetch p tag body s = setWorking p { s with
        feeds := feeds, memory := { s.memory with logWork := s.memory.logWork ++ [.fetch w] } } := by
  rw [serveFetch]
  cases oneByte body with
  | error d => exact .inl ⟨_, _, rfl⟩
  | ok n =>
    rw [withFields, serveFetchCount]
    split
    · rw [fetchFrom]
      rcases answerReads_cases p tag _ _ _ with h | ⟨w, hw, h⟩
      · exact .inr ⟨_, .inl ⟨_, h⟩⟩
      · exact .inr ⟨_, .inr ⟨w, hw, h⟩⟩
    · exact .inl ⟨_, _, rfl⟩

/-- A STATUS in reading is answered, or its port waits for further select periods (R179). -/
theorem carryReport_cases (r : StatusReading) :
    carryReport p r s = answer p .status r.tag (doneReply r.got) (setReport p none s) ∨
      carryReport p r s = setReport p (some r) (setWorking p s) := by
  rw [carryReport]
  split
  · exact .inl rfl
  · exact .inr rfl

/-- STATUS is refused, answered, or read further. -/
theorem serveStatus_cases (reads : List Nat) (body : List Byte) :
    (∃ c d, serveStatus p tag reads body s = refuse p .status tag c d s) ∨
    (∃ b, serveStatus p tag reads body s = answer p .status tag (doneReply b) (setReport p none s)) ∨
      ∃ r, serveStatus p tag reads body s = setReport p (some r) (setWorking p s) := by
  rw [serveStatus]
  cases noBody body with
  | error d => exact .inl ⟨_, _, rfl⟩
  | ok u =>
    refine .inr ?_
    rcases carryReport_cases p s (StatusReading.advance s p ⟨tag, [], statusBlocks, reads⟩) with h | h
    · exact .inl ⟨_, h⟩
    · exact .inr ⟨_, h⟩

/-- RESTART is refused, or resets the part (R180). -/
theorem serveRestart_cases (body : List Byte) :
    (∃ d, noBody body = .error d ∧ serveRestart p tag body s = refuse p .restart tag .malformed d s) ∨
      (body = [] ∧ serveRestart p tag body s = resetPart .restart .starting s) := by
  cases body with
  | nil => exact .inr ⟨rfl, rfl⟩
  | cons b rest => exact .inl ⟨_, rfl, rfl⟩

end

/-! ### Refused requests -/

/-- The byte of a response that gives its outcome (R162). -/
theorem responseFrame_outcome (k t : Byte) (r : Reply) : (responseFrame k t r)[2]? = some (byteOf r.outcome.code) := rfl

/-- Only a refusal's outcome has the code 3. -/
theorem outcome_refused {o : ReplyOutcome} (h : byteOf o.code = 3#8) : o = .refused := by
  cases o with
  | refused => rfl
  | done => exact absurd h (by decide)
  | accepted => exact absurd h (by decide)
  | none => exact absurd h (by decide)

/-- An owner that answers REFUSED has made nothing but that refusal, on a port that was WORKING. -/
theorem servedBy_refused {reads : List Nat} {k : Kind} {p : PortId} {tag : Byte} {body : List Byte} {s : State} {f : List Byte}
    (hwork : (s.ports.get p).exchange = .working)
    (hf : ((servedBy reads k p tag body s).ports.get p).exchange = .answering f) (hout : f[2]? = some 3#8) :
    ∃ c d, servedBy reads k p tag body s = refuse p k tag c d s := by
  have of_replied : ∀ {t : State}, (t.ports.get p).exchange = .answering f → Replied p k tag s t →
      ∃ c d, t = refuse p k tag c d s := by
    intro t ht h
    cases h with
    | refused c d h => exact ⟨c, d, h⟩
    | answered r hr h =>
      rw [h] at ht
      cases ht
      rw [responseFrame_outcome] at hout
      exact absurd (outcome_refused (Option.some.inj hout)) hr
  cases hk : Kind.repliesAtOnce k with
  | true => exact of_replied hf (servedBy_replied p tag s reads hk body)
  | false =>
    cases k with
    | stroke =>
      rcases serveStroke_cases p tag s body with h | ⟨c, h, -⟩
      · exact h
      · have hwaits : ((serveStroke p tag body s).ports.get p).exchange = .answering f := hf
        rw [h, takeChord_ports, hwork] at hwaits
        cases hwaits
    | pull =>
      rcases servePull_cases p tag s body with ⟨d, h⟩ | ⟨_, -, ⟨b, h⟩ | ⟨_, -, h⟩⟩
      · exact ⟨_, d, h⟩
      · exact of_replied hf (.answered (doneReply b) (doneReply_outcome b)
          ((congrArg (fun t : State => (t.ports.get p).exchange) h).trans (answer_exchange ..)))
      · have hwaits : ((servePull p tag body s).ports.get p).exchange = .answering f := hf
        rw [h] at hwaits
        simp [setWorking] at hwaits
    | fetch =>
      rcases serveFetch_cases p tag s body with h | ⟨_, ⟨b, h⟩ | ⟨_, -, h⟩⟩
      · exact h
      · exact of_replied hf (.answered (doneReply b) (doneReply_outcome b)
          ((congrArg (fun t : State => (t.ports.get p).exchange) h).trans (answer_exchange ..)))
      · have hwaits : ((serveFetch p tag body s).ports.get p).exchange = .answering f := hf
        rw [h] at hwaits
        simp [setWorking] at hwaits
    | status =>
      rcases serveStatus_cases p tag s reads body with h | ⟨b, h⟩ | ⟨r, h⟩
      · exact h
      · exact of_replied hf (.answered (doneReply b) (doneReply_outcome b) (by rw [servedBy, h]; exact answer_exchange ..))
      · rw [servedBy, h] at hf
        simp [setReport, setWorking] at hf
    | restart =>
      rcases serveRestart_cases p tag s body with ⟨d, -, h⟩ | ⟨-, h⟩
      · exact ⟨_, _, h⟩
      · have hreset : ((serveRestart p tag body s).ports.get p).exchange = .answering f := hf
        rw [h, resetPart_eq] at hreset
        simp [resetBlocks, Port.cleared] at hreset
    | _ => cases hk

/-- Settles O7: the checks and the owner refuse by an answer on the port and nothing else. -/
theorem refusalChangesNothing : Obligations.RefusalChangesNothing := by
  unfold Obligations.RefusalChangesNothing
  intro c k p tag body s t f hwf hform hheld hidle hexec hf hout
  obtain ⟨reads, -, hx⟩ | ⟨-, -, hx⟩ := exec_request hform s
  · rw [hx, requestPeriod_idle hheld hidle (requestForm_fits hwf hform)] at hexec
    cases hexec
    rw [throughChecks] at hf ⊢
    split at hf
    · exact ⟨_, _, refuse_working ..⟩
    · split at hf
      · next hserved =>
        obtain ⟨cause, d, h⟩ := servedBy_refused (by rw [working_get]) hf hout
        exact ⟨cause, d, by rw [if_pos hserved, h, refuse_working]⟩
      · next hstarting => exact ⟨_, _, by rw [if_neg hstarting, refuse_working]⟩
  · rw [hx] at hexec
    cases hexec
    simp [setExchange] at hf

end Sys2Proof.Proofs
end

section
/-! PROOFS. Requests and the other ports: what a select period on one port leaves of the exchanges, the slots and the bytes of
the others (R158, R167). -/

namespace Sys2Proof.Proofs

open Sys2Proof.Machine

/-! ### A select period's two ways -/

/-- t is s but for a port's exchange and bytes, and what is still to read of a STATUS on it. -/
def PortMoved (p : PortId) (s t : State) : Prop := ∃ f x, t = { s with ports := s.ports.modify p f, reports := s.reports.set p x }

theorem portMoved_ports {p : PortId} {s : State} (f : Port → Port) : PortMoved p s { s with ports := s.ports.modify p f } :=
  ⟨f, s.reports.get p, by rw [Quad.set_get]⟩

theorem portMoved_setExchange (p : PortId) (x : Exchange) (out : List Byte) (s : State) :
    PortMoved p s (setExchange p x out s) := portMoved_ports _

/-- An answer right after the port was taken. -/
theorem portMoved_respond (p : PortId) (n : Nat) (k t : Byte) (r : Reply) (s : State) :
    PortMoved p s (respond p k t r (beginExchange p n s)) := by
  have h : respond p k t r (beginExchange p n s) = { s with ports := s.ports.modify p (fun q =>
      { q with exchange := .answering (responseFrame k t r), dataOut := zeros n }) } := by
    simp [respond, beginExchange, setExchange]
  rw [h]
  exact portMoved_ports _

theorem portMoved_responsePeriod (p : PortId) (n : Nat) (s : State) : PortMoved p s (responsePeriod p n s) := by
  obtain ⟨f, x, h⟩ := responsePeriod_shape p n s
  exact ⟨f, x, h⟩

/-- The checks before the owner, on a port that was just taken. -/
theorem throughChecks_cases (p : PortId) (k : Kind) (tag : Byte) (act : State → State) (n : Nat) (s : State) :
    PortMoved p s (throughChecks p k tag act (beginExchange p n s)) ∨
      throughChecks p k tag act (beginExchange p n s) = act (beginExchange p n s) := by
  rw [throughChecks]
  split
  · exact .inl (portMoved_respond ..)
  · split
    · exact .inr rfl
    · exact .inl (portMoved_respond ..)

/-- A request's select period moves its port alone, or is its owner's work. -/
theorem requestPeriod_cases (p : PortId) (k : Kind) (tag : Byte) (body : List Byte) (act : State → State) (s : State) :
    PortMoved p s (requestPeriod p k tag body act s) ∨
      requestPeriod p k tag body act s = act (beginExchange p (4 + body.length) s) := by
  rw [requestPeriod]
  split
  · exact .inl (portMoved_setExchange ..)
  · split
    · split
      · exact throughChecks_cases ..
      · exact .inl (portMoved_respond ..)
    · exact .inl (portMoved_responsePeriod ..)

theorem portMoved_onlyPort {p : PortId} {s t : State} (h : PortMoved p s t) : OnlyPort p s.ports t.ports := by
  obtain ⟨f, _, rfl⟩ := h
  exact OnlyPort.modify p s.ports f

/-! ### The owners and the other ports -/

theorem portsOnly_onlyPort {p : PortId} {s t : State} (h : PortsOnly p s t) : OnlyPort p s.ports t.ports := by
  obtain ⟨_, rfl, hq⟩ := h
  exact hq

/-- Every owner but OPEN's and RESTART's leaves the other ports as they are. -/
theorem servedBy_onlyPort (reads : List Nat) {k : Kind} (hr : k ≠ .restart) (ho : k ≠ .openSession) (p : PortId) (tag : Byte)
    (body : List Byte) (s : State) : OnlyPort p s.ports (servedBy reads k p tag body s).ports := by
  have of_eq : ∀ {t u : State}, t = u → OnlyPort p s.ports u.ports → OnlyPort p s.ports t.ports := fun he h => he ▸ h
  have queued : ∀ k ∈ [Kind.put, .drop, .clearTier, .get], OnlyPort p s.ports (servedBy reads k p tag body s).ports :=
    fun k hk => by
      rcases servedBy_maint_shape reads hk p tag body s with hports | ⟨_, _, hq, he⟩
      · exact portsOnly_onlyPort hports
      · exact of_eq he hq
  cases k with
  | stroke => obtain ⟨_, _, _, _, _, -, hq, he⟩ := serveStroke_shape p tag body s; exact of_eq he hq
  | pull => obtain ⟨_, _, _, hq, -, he⟩ := servePull_shape p tag body s; exact of_eq he hq
  | subscribe => obtain ⟨_, _, hq, he⟩ := serveSubscribe_shape p tag body s; exact of_eq he hq
  | unsubscribe => obtain ⟨_, _, hq, he⟩ := serveUnsubscribe_shape p tag body s; exact of_eq he hq
  | fetch => obtain ⟨_, _, _, hq, he⟩ := serveFetch_shape p tag body s; exact of_eq he hq
  | collect => exact portsOnly_onlyPort (serveCollect_shape p tag body s)
  | status => obtain ⟨_, _, hq, he⟩ := serveStatus_shape p tag reads body s; exact of_eq he hq
  | speaker => obtain ⟨_, _, hq, he, -⟩ := serveSpeaker_shape p tag body s; exact of_eq he hq
  | setTiers => obtain ⟨_, _, _, hq, he, -⟩ := serveSetTiers_shape p tag body s; exact of_eq he hq
  | setHold => obtain ⟨_, _, hq, he, -⟩ := serveSetHold_shape p tag body s; exact of_eq he hq
  | setOffset => obtain ⟨_, _, hq, he⟩ := serveSetOffset_shape p tag body s; exact of_eq he hq
  | setArbiter => obtain ⟨_, _, hq, he, -⟩ := serveSetArbiter_shape p tag body s; exact of_eq he hq
  | setAccess =>
    rcases serveSetAccess_shape p tag body s with hports | ⟨_, _, _, _, hq, -, he⟩
    · exact portsOnly_onlyPort hports
    · exact of_eq he hq
  | trust =>
    rcases serveTrust_shape p tag body s with hports | ⟨_, _, _, hq, -, he⟩
    · exact portsOnly_onlyPort hports
    · exact of_eq he hq
  | lockPort =>
    rcases serveLockPort_shape p tag body s with hports | ⟨_, _, hq, he⟩
    · exact portsOnly_onlyPort hports
    · exact of_eq he hq
  | lockTier =>
    rcases serveLockTier_shape p tag body s with hports | ⟨_, _, hq, he⟩
    · exact portsOnly_onlyPort hports
    · exact of_eq he hq
  | put => exact queued .put (by decide)
  | drop => exact queued .drop (by decide)
  | clearTier => exact queued .clearTier (by decide)
  | get => exact queued .get (by decide)
  | retranslate => obtain ⟨_, _, hq, he⟩ := serveRetranslate_shape p tag body s; exact of_eq he hq
  | closeSession => obtain ⟨_, _, hq, he⟩ := serveCloseSession_shape p tag body s; exact of_eq he hq
  | restart => exact absurd rfl hr
  | openSession => exact absurd rfl ho

/-- OPEN leaves the slots and the bytes of the other ports, and the exchange of those for which no read waits. -/
theorem serveOpenSession_other {p q : PortId} (hq : q ≠ p) (tag : Byte) (body : List Byte) (s : State) :
    ((serveOpenSession p tag body s).ports.get q).slot = (s.ports.get q).slot ∧
      ((serveOpenSession p tag body s).ports.get q).dataOut = (s.ports.get q).dataOut ∧
      (¬ReadsWait q s → (serveOpenSession p tag body s).ports.get q = s.ports.get q) := by
  rcases serveOpenSession_shape p tag body s with hports | ⟨mid, _, _, _, _, _, hopen, honly, he⟩
  · have same := portsOnly_onlyPort hports q hq
    exact ⟨by rw [same], by rw [same], fun _ => same⟩
  · have same : (serveOpenSession p tag body s).ports.get q = mid.get q := by
      rw [he]
      exact honly q hq
    rw [same]
    exact hopen q

/-- Settles O8: a select period moves its port alone, or its owner does, and only OPEN's reaches ports that wait for reads. -/
theorem portsKeptApart : Obligations.PortsKeptApart := by
  unfold Obligations.PortsKeptApart
  intro c k p q tag body s t hform hk hq hexec
  have apart : OnlyPort p s.ports t.ports → (t.ports.get q).slot = (s.ports.get q).slot ∧
      (t.ports.get q).dataOut = (s.ports.get q).dataOut ∧
      (k ≠ .openSession ∨ ¬ReadsWait q s → t.ports.get q = s.ports.get q) := fun h => by
    rw [h q hq]
    exact ⟨rfl, rfl, fun _ => rfl⟩
  have begun : OnlyPort p s.ports (beginExchange p (4 + body.length) s).ports :=
    portMoved_onlyPort (portMoved_setExchange ..)
  obtain ⟨reads, -, hx⟩ | ⟨-, -, hx⟩ := exec_request hform s
  · rw [hx] at hexec
    cases hexec
    rcases requestPeriod_cases p k tag body (servedBy reads k p tag body) s with hmoved | hserved
    · exact apart (portMoved_onlyPort hmoved)
    · rw [hserved] at apart ⊢
      by_cases ho : k = .openSession
      · subst ho
        obtain ⟨hslot, hout, hsame⟩ := serveOpenSession_other hq tag body (beginExchange p (4 + body.length) s)
        rw [begun q hq] at hslot hout hsame
        exact ⟨hslot, hout, fun h => hsame (h.resolve_left (fun hne => hne rfl))⟩
      · exact apart (fun r hr => (servedBy_onlyPort reads hk ho p tag body _ r hr).trans (begun r hr))
  · rw [hx] at hexec
    cases hexec
    exact apart (portMoved_onlyPort (portMoved_setExchange ..))

end Sys2Proof.Proofs
end

section
/-! PROOFS. Who writes the access table, the locks, the slots and the session's state: frames over all the commands (R37, R127,
R142, R146, R171, R175). -/

namespace Sys2Proof.Proofs

open Sys2Proof.Machine

/-! ### Select periods whose frame fails -/

/-- A frame that fails the check moves its port alone (R161). -/
theorem frameRefused_moved {p : PortId} {bytes : List Byte} (h : frameFails bytes = true) (s : State) :
    PortMoved p s (selectPeriod p bytes s) := by
  rw [selectPeriod]
  split
  · exact portMoved_setExchange ..
  · split
    · split
      · exact portMoved_setExchange ..
      · rw [takeFrame]
        split
        · next hc =>
          cases bytes with
          | nil => cases h
          | cons b rest => simp [frameFails, hc] at h
        · exact portMoved_respond ..
    · exact portMoved_responsePeriod ..

/-! ### The events -/

/-- An event leaves the rows and the tiers' locks. -/
structure EventOnly (s t : State) : Prop where
  access : t.access = s.access
  locked : ∀ l, (t.dict.tiers.get l).locked = (s.dict.tiers.get l).locked
  opened : t.session.opened = s.session.opened

namespace EventOnly

theorem refl (s : State) : EventOnly s s := ⟨rfl, fun _ => rfl, rfl⟩

theorem trans {s t u : State} (h : EventOnly s t) (k : EventOnly t u) : EventOnly s u :=
  ⟨k.access.trans h.access, fun l => (k.locked l).trans (h.locked l), k.opened.trans h.opened⟩

theorem of_eq {s t u : State} (he : t = u) (h : EventOnly s u) : EventOnly s t := he ▸ h

theorem maint {s t : State} (h : MaintOnly s t) : EventOnly s t := ⟨h.access, h.locked, by rw [h.session]⟩

theorem row {s t : State} (h : RowOnly s t) : EventOnly s t := by
  obtain ⟨_, hs⟩ := h.session
  exact ⟨h.access, by rw [h.dict]; exact fun _ => rfl, by rw [hs]⟩

theorem grant (s : State) : EventOnly s (grant s) := by
  obtain ⟨_, _, _, he⟩ := grant_shape s
  exact of_eq he ⟨rfl, fun _ => rfl, rfl⟩

theorem granted {w : TxWork} {s t : State} (h : granted w s = some t) : EventOnly s t := of_eq (granted_shape h) (grant s)

theorem presented (asks : Asks) (s : State) : EventOnly s (presented asks s) := by
  have engine : EventOnly s (if asks.engine then presentEngine asks.expiryFirst s else s) := by
    split
    · rw [presentEngine]
      split
      · split
        · exact refl s
        · obtain ⟨_, _, -, -, -, he⟩ := beginWork_shape _ s
          exact of_eq he ⟨rfl, fun _ => rfl, rfl⟩
      · exact refl s
    · exact refl s
  rw [Machine.presented]
  split
  · exact engine.trans (maint (.presentMaint _))
  · exact engine

theorem memoryGrants (asks : Asks) (s : State) : EventOnly s (memoryGrants asks s) := by
  have asked := (presented asks s).trans (grant _)
  rw [Machine.memoryGrants]
  split
  · exact refl s
  · rw [begunWith]
    split
    · split
      · exact asked.trans (maint (.writesBegin _))
      · exact asked
    · exact asked

theorem transactionEnds (s : State) : EventOnly s (transactionEnds s) := by
  have same : EventOnly s (endTransaction s) := ⟨rfl, fun _ => rfl, rfl⟩
  rw [Machine.transactionEnds]
  split
  · exact refl s
  · split
    · rw [pullReadEnds]
      repeat' split
      all_goals exact ⟨rfl, fun _ => rfl, rfl⟩
    · rw [fetchReadEnds]
      repeat' split
      all_goals exact ⟨rfl, fun _ => rfl, rfl⟩
    · obtain ⟨t, w, ht, he⟩ := engineUseEnds_shape (endTransaction s)
      obtain ⟨_, _, _, _, rfl⟩ := ht.form
      exact of_eq he ⟨rfl, fun _ => rfl, rfl⟩
    · exact same.trans (maint (.maintUseEnds _))
    · obtain ⟨_, _, he⟩ := changeEnds_shape (endTransaction s)
      exact of_eq he ⟨rfl, fun _ => rfl, rfl⟩
    · exact refl s
    · exact same
    · exact refl s
    · exact refl s
    · exact refl s

theorem journalAppends (s : State) : EventOnly s (journalAppends s) := by
  rw [Machine.journalAppends]
  split
  · exact refl s
  · next s1 hg =>
    split
    · exact refl s
    · rw [refreshActivity_eq]
      exact (granted hg).trans ⟨rfl, fun _ => rfl, rfl⟩

theorem headerReadEnds (s : State) : EventOnly s (headerReadEnds s) := by
  rw [Machine.headerReadEnds]
  split
  · split
    · next hg => exact (granted hg).trans ⟨rfl, fun _ => rfl, rfl⟩
    · exact refl s
  · exact refl s

theorem startupCompletes (s : State) : EventOnly s (startupCompletes s) := by
  rw [Machine.startupCompletes]
  split
  · split
    · exact refl s
    · rcases maintStep_cases (fun _ => becomeReady) s with he | ⟨w, -, -, he⟩
      · exact of_eq he (refl s)
      · exact of_eq he ((maint (.stepServed w s)).trans ⟨rfl, fun _ => rfl, rfl⟩)
    · exact ⟨rfl, fun _ => rfl, rfl⟩
  · exact refl s

/-- START's or END's segment, whatever becomes of the session's state. -/
theorem segment {s t u : State} (body : SegmentBody) (h : EventOnly s t) (haccess : u.access = (appendSegment body t).access)
    (hdict : u.dict = (appendSegment body t).dict) :
    u.access = s.access ∧ ∀ l, (u.dict.tiers.get l).locked = (s.dict.tiers.get l).locked := by
  have only := appendSegment_only body t
  rw [only.access] at haccess
  rw [only.dict] at hdict
  exact ⟨haccess.trans h.access, fun l => by rw [hdict]; exact h.locked l⟩

theorem startAppends (s : State) : (openStartAppends s).access = s.access ∧
    ∀ l, ((openStartAppends s).dict.tiers.get l).locked = (s.dict.tiers.get l).locked := by
  rw [openStartAppends]
  split
  · split
    · next s1 hg => exact segment (.start s1.session.job 0#32) (granted hg) rfl rfl
    · exact ⟨rfl, fun _ => rfl⟩
  · exact ⟨rfl, fun _ => rfl⟩
  · exact ⟨rfl, fun _ => rfl⟩

theorem endAppends (s : State) : (closeEndAppends s).access = s.access ∧
    ∀ l, ((closeEndAppends s).dict.tiers.get l).locked = (s.dict.tiers.get l).locked := by
  rw [closeEndAppends]
  split
  · split
    · next s1 hg => exact segment (.fin s1.session.job s1.session.clock) (granted hg) rfl rfl
    · exact ⟨rfl, fun _ => rfl⟩
  · exact ⟨rfl, fun _ => rfl⟩
  · exact ⟨rfl, fun _ => rfl⟩
  · exact ⟨rfl, fun _ => rfl⟩

theorem clockRuns_opened (n : Nat) (c : Session) : (clockRuns n c).opened = c.opened := by
  rw [clockRuns]
  split
  · rfl
  · rfl

/-- Every event but START's, END's and the resets is one of them. -/
theorem exec {c : Instr} {s t : State} (hwf : c.wf = true) (hform : c.requestForm = none)
    (hnot : match c with
      | .openStartAppended | .closeEndAppended | .resetLine .. | .powerOn | .responsePhase .. => False
      | _ => True)
    (hexec : exec c s = .next t) : EventOnly s t := by
  cases c with
  | frameRefused p bytes =>
    cases hexec
    obtain ⟨_, _, he⟩ := frameRefused_moved (p := p) (bytes := bytes) hwf s
    exact of_eq he ⟨rfl, fun _ => rfl, rfl⟩
  | journalAppend => cases hexec; exact journalAppends s
  | maintHeadCheck => cases hexec; exact maint (.maintHeadChecks s)
  | tableLockTake => cases hexec; exact maint (.tableLockTakes s)
  | putWriteEnd => cases hexec; exact maint (.putWritesEnd s)
  | dropWriteEnd => cases hexec; exact maint (.dropWritesEnd s)
  | clearTierStart => cases hexec; exact maint (.clearTierStarts s)
  | clearTierSweepEnd => cases hexec; exact maint (.clearTierSweepEnds s)
  | getAnswer => cases hexec; exact maint (.getAnswers s)
  | reResolution | takeStroke | takeStrike | closeSettle | retranslationStart | retranslationRebuild =>
    cases hexec; exact row (engineRow_only _ s)
  | expiry first =>
    cases hexec
    rw [expires]
    split
    · exact refl s
    · exact row (engineRow_only _ s)
  | sessionClockTick n => cases hexec; exact ⟨rfl, fun _ => rfl, clockRuns_opened n s.session⟩
  | memoryGrant asks => cases hexec; exact memoryGrants asks s
  | sdramRefresh => cases hexec; exact refl s
  | resetRelease =>
    cases hexec
    rw [resetReleased]
    split
    · exact ⟨rfl, fun _ => rfl, rfl⟩
    · exact refl s
  | startupHeaderRead => cases hexec; exact headerReadEnds s
  | startupComplete => cases hexec; exact startupCompletes s
  | memoryTransactionComplete => cases hexec; exact transactionEnds s
  | openStartAppended | closeEndAppended | resetLine _ _ | powerOn | responsePhase _ _ => exact hnot.elim
  | _ => cases hform

end EventOnly

/-! ### The requests -/

/-- What the owner of a kind leaves of the rows, the tiers' locks and the session's state. -/
structure OwnerKept (k : Kind) (s t : State) : Prop where
  access : k ≠ .setAccess → k ≠ .trust → k ≠ .lockPort → t.access = s.access
  rows : ∀ q, (s.access.get q).locked = true → t.access.get q = s.access.get q
  tiers : ∀ l, (s.dict.tiers.get l).locked = true → (t.dict.tiers.get l).locked = true
  opened : t.session.opened = s.session.opened

namespace OwnerKept

theorem of_eq {k : Kind} {s t u : State} (he : t = u) (haccess : u.access = s.access)
    (htiers : ∀ l, (s.dict.tiers.get l).locked = true → (u.dict.tiers.get l).locked = true)
    (hopened : u.session.opened = s.session.opened) : OwnerKept k s t := by
  rw [he]
  exact ⟨fun _ _ _ => haccess, fun q _ => by rw [haccess], htiers, hopened⟩

theorem ports {k : Kind} {p : PortId} {s t : State} (h : PortsOnly p s t) : OwnerKept k s t := by
  obtain ⟨_, he, -⟩ := h
  exact of_eq he rfl (fun _ h => h) rfl

/-- One row written, the locked rows as they were. -/
theorem row {k : Kind} {s t : State} {r : PortId} {row : AccessRow}
    (hk : k = .setAccess ∨ k = .trust ∨ k = .lockPort) (haccess : t.access = s.access.set r row)
    (hrow : (s.access.get r).locked = true → row = s.access.get r) (hdict : t.dict = s.dict)
    (hsession : t.session = s.session) : OwnerKept k s t where
  access h1 h2 h3 := by
    rcases hk with h | h | h
    · exact absurd h h1
    · exact absurd h h2
    · exact absurd h h3
  rows q hq := by
    rw [haccess, Quad.get_set]
    split
    · next h => rw [h, hrow (h ▸ hq)]
    · rfl
  tiers l h := by rw [hdict]; exact h
  opened := by rw [hsession]

end OwnerKept

theorem servedBy_kept (reads : List Nat) {k : Kind} (hr : k ≠ .restart) (p : PortId) (tag : Byte) (body : List Byte)
    (s : State) : OwnerKept k s (servedBy reads k p tag body s) := by
  have of_eq : ∀ {t u : State}, t = u → u.access = s.access →
      (∀ l, (s.dict.tiers.get l).locked = true → (u.dict.tiers.get l).locked = true) →
      u.session.opened = s.session.opened → OwnerKept k s t := .of_eq
  have ports : ∀ {t : State}, PortsOnly p s t → OwnerKept k s t := .ports
  have queued : k ∈ [Kind.put, .drop, .clearTier, .get] → OwnerKept k s (servedBy reads k p tag body s) := fun hk => by
    rcases servedBy_maint_shape reads hk p tag body s with hports | ⟨_, _, -, he⟩
    · exact ports hports
    · exact of_eq he rfl (fun _ h => h) rfl
  cases k with
  | stroke =>
    obtain ⟨_, _, _, _, _, ⟨⟨_, _, _, rfl⟩, -⟩, -, he⟩ := serveStroke_shape p tag body s
    exact of_eq he rfl (fun _ h => h) rfl
  | pull => obtain ⟨_, _, _, -, -, he⟩ := servePull_shape p tag body s; exact of_eq he rfl (fun _ h => h) rfl
  | subscribe => obtain ⟨_, _, -, he⟩ := serveSubscribe_shape p tag body s; exact of_eq he rfl (fun _ h => h) rfl
  | unsubscribe => obtain ⟨_, _, -, he⟩ := serveUnsubscribe_shape p tag body s; exact of_eq he rfl (fun _ h => h) rfl
  | fetch => obtain ⟨_, _, _, -, he⟩ := serveFetch_shape p tag body s; exact of_eq he rfl (fun _ h => h) rfl
  | collect => exact ports (serveCollect_shape p tag body s)
  | status => obtain ⟨_, _, -, he⟩ := serveStatus_shape p tag reads body s; exact of_eq he rfl (fun _ h => h) rfl
  | speaker => obtain ⟨_, _, -, he, -⟩ := serveSpeaker_shape p tag body s; exact of_eq he rfl (fun _ h => h) rfl
  | setTiers =>
    obtain ⟨_, _, _, -, he, hl⟩ := serveSetTiers_shape p tag body s
    exact of_eq he rfl (fun l h => by rw [(hl l).1]; exact h) rfl
  | setHold => obtain ⟨_, _, -, he, -⟩ := serveSetHold_shape p tag body s; exact of_eq he rfl (fun _ h => h) rfl
  | setOffset => obtain ⟨_, _, -, he⟩ := serveSetOffset_shape p tag body s; exact of_eq he rfl (fun _ h => h) rfl
  | setArbiter => obtain ⟨_, _, -, he, -⟩ := serveSetArbiter_shape p tag body s; exact of_eq he rfl (fun _ h => h) rfl
  | setAccess =>
    rcases serveSetAccess_shape p tag body s with hports | ⟨_, r, _, _, -, hfree, he⟩
    · exact ports hports
    · have row : OwnerKept .setAccess s (serveSetAccess p tag body s) := by
        rw [he]
        exact .row (by simp) rfl (fun h => by rw [hfree] at h; cases h) rfl rfl
      exact row
  | trust =>
    rcases serveTrust_shape p tag body s with hports | ⟨_, r, _, -, hfree, he⟩
    · exact ports hports
    · have row : OwnerKept .trust s (serveTrust p tag body s) := by
        rw [he]
        exact .row (by simp) rfl (fun h => by rw [hfree] at h; cases h) rfl rfl
      exact row
  | lockPort =>
    rcases serveLockPort_shape p tag body s with hports | ⟨_, r, -, he⟩
    · exact ports hports
    · have row : OwnerKept .lockPort s (serveLockPort p tag body s) := by
        rw [he]
        exact .row (by simp) rfl (fun h => by rw [← h]) rfl rfl
      exact row
  | lockTier =>
    rcases serveLockTier_shape p tag body s with hports | ⟨_, r, -, he⟩
    · exact ports hports
    · refine of_eq he rfl (fun l h => ?_) rfl
      show ((s.dict.tiers.set r { s.dict.tiers.get r with locked := true }).get l).locked = true
      rw [Quad.get_set]
      split
      · rfl
      · exact h
  | put => exact queued (by decide)
  | drop => exact queued (by decide)
  | clearTier => exact queued (by decide)
  | get => exact queued (by decide)
  | retranslate => obtain ⟨_, _, -, he⟩ := serveRetranslate_shape p tag body s; exact of_eq he rfl (fun _ h => h) rfl
  | openSession =>
    rcases serveOpenSession_shape p tag body s with hports | ⟨_, _, _, _, _, _, -, -, he⟩
    · exact ports hports
    · exact of_eq he rfl (fun _ h => h) rfl
  | closeSession => obtain ⟨_, _, -, he⟩ := serveCloseSession_shape p tag body s; exact of_eq he rfl (fun _ h => h) rfl
  | restart => exact absurd rfl hr

/-- A step of a request command keeps what the selecting of a port keeps and its owner keeps. -/
theorem exec_request_ownerKept {c : Instr} {k : Kind} {p : PortId} {tag : Byte} {body : List Byte}
    (hform : c.requestForm = some (k, p, tag, body)) (hr : k ≠ .restart) {s t : State} (hexec : exec c s = .next t) :
    OwnerKept k s t :=
  exec_request_keeps (P := OwnerKept k s)
    (portFree_of_keeps (fun _ _ _ h => ⟨h.access, h.rows, h.tiers, h.opened⟩)) hform
    (fun reads u h => by
      have own := servedBy_kept reads hr p tag body u
      exact ⟨fun a b c => (own.access a b c).trans (h.access a b c),
        fun q hq => (own.rows q (by rw [h.rows q hq]; exact hq)).trans (h.rows q hq),
        fun l hl => own.tiers l (h.tiers l hl), own.opened.trans h.opened⟩)
    (.of_eq rfl rfl (fun _ h => h) rfl) hexec

/-- The kind of a request command that is no RESTART. -/
theorem requestForm_ne_restart {c : Instr} {k : Kind} {p : PortId} {tag : Byte} {body : List Byte}
    (hform : c.requestForm = some (k, p, tag, body)) (h : ∀ p tag body together, c ≠ .restart p tag body together) :
    k ≠ .restart := by
  rintro rfl
  cases c with
  | restart p tag body together => exact h p tag body together rfl
  | _ => cases hform

/-- Settles O9: the owners of the other kinds leave the rows, and so does every event. -/
theorem accessWrittenByItsRequests : Obligations.AccessWrittenByItsRequests := by
  unfold Obligations.AccessWrittenByItsRequests
  intro c s t hwf hc hexec
  cases hform : c.requestForm with
  | some x =>
    obtain ⟨k, p, tag, body⟩ := x
    have kept := exec_request_ownerKept hform
      (requestForm_ne_restart hform (fun _ _ _ _ h => by rw [h] at hc; exact hc)) hexec
    refine kept.access ?_ ?_ ?_
    all_goals
      rintro rfl
      cases c with
      | setAccess _ _ _ | trust _ _ _ | lockPort _ _ _ => exact hc
      | _ => cases hform
  | none =>
    cases c with
    | openStartAppended => cases hexec; exact (EventOnly.startAppends s).1
    | closeEndAppended => cases hexec; exact (EventOnly.endAppends s).1
    | resetLine _ _ | powerOn | responsePhase _ _ => exact hc.elim
    | _ => exact (EventOnly.exec hwf hform trivial hexec).access

/-- Settles O10: no owner but a reset's gives a lock up, and no event does. -/
theorem locksLastToTheReset : Obligations.LocksLastToTheReset := by
  unfold Obligations.LocksLastToTheReset
  intro c s t hwf hc hexec
  cases hform : c.requestForm with
  | some x =>
    obtain ⟨k, p, tag, body⟩ := x
    have kept := exec_request_ownerKept hform
      (requestForm_ne_restart hform (fun _ _ _ _ h => by rw [h] at hc; exact hc)) hexec
    exact ⟨kept.rows, kept.tiers⟩
  | none =>
    have same : t.access = s.access ∧ ∀ l, (t.dict.tiers.get l).locked = (s.dict.tiers.get l).locked := by
      cases c with
      | openStartAppended => cases hexec; exact EventOnly.startAppends s
      | closeEndAppended => cases hexec; exact EventOnly.endAppends s
      | resetLine _ _ | powerOn | responsePhase _ _ => exact hc.elim
      | _ => exact ⟨(EventOnly.exec hwf hform trivial hexec).access, (EventOnly.exec hwf hform trivial hexec).locked⟩
    exact ⟨fun q _ => by rw [same.1], fun l h => by rw [same.2]; exact h⟩

/-! ### The session's state (R146) -/

/-- A transaction in progress of a work is the one granted for it. -/
theorem granted_inProgress {s : State} {t : Transaction} (h : s.memory.inProgress = some t) : granted t.work s = some s := by
  have same : grant s = s := by
    rw [grant, h]
  rw [granted, same, h]
  simp

/-- Settles O12: the appends of START and END and the resets write the session's state, and nothing else does. -/
theorem sessionStateTurnsAtItsAppends : Obligations.SessionStateTurnsAtItsAppends := by
  unfold Obligations.SessionStateTurnsAtItsAppends
  refine ⟨fun c s t hwf hc hexec => ?_, fun p discard ns sets r b tag s => ⟨?_, ?_, ?_, ?_, ?_⟩⟩
  · cases hform : c.requestForm with
    | some x =>
      obtain ⟨k, p, tag, body⟩ := x
      exact (exec_request_ownerKept hform
        (requestForm_ne_restart hform (fun _ _ _ _ h => by rw [h] at hc; exact hc)) hexec).opened
    | none =>
      cases c with
      | openStartAppended | closeEndAppended | resetLine _ _ | powerOn | responsePhase _ _ => exact hc.elim
      | _ => exact (EventOnly.exec hwf hform trivial hexec).opened
  · intro hrequest hprogress
    have hg := granted_inProgress hprogress
    exact ⟨_, rfl, by simp [openStartAppends, hrequest, hg, startAppended]⟩
  · intro hrequest hprogress
    have hg := granted_inProgress hprogress
    exact ⟨_, rfl, by simp [closeEndAppends, hrequest, hg, endAppended]⟩
  · intro hns
    refine ⟨_, rfl, ?_⟩
    rw [resetAsserted, if_neg (by simp only [Config.resetLineNs]; omega), resetPart_eq]
    rfl
  · intro htaken
    refine ⟨_, rfl, ?_⟩
    rw [restarts, Bool.false_and, if_neg Bool.false_ne_true, requestPeriod_taken htaken (by simp)]
    show (resetPart .restart .starting (working p [] s)).session.opened = false
    rw [resetPart_eq]
    rfl
  · exact ⟨_, rfl, rfl⟩

end Sys2Proof.Proofs
end

section
/-! PROOFS. The slots as a lookup reads them, written by transactions of MAINT alone (R37, R127, R183, R187). -/

namespace Sys2Proof.Proofs

open Sys2Proof.Machine

/-- The step has only reads left. -/
def ReadsLeft (us : List MaintUse) : Prop := ∀ u ∈ us, ∃ n, u = .read n

/-- Reads, with all that follow from them, leave the table. -/
theorem carryAll_reads {us : List MaintUse} (h : ReadsLeft us) (x : Dictionary × Nat) :
    (us.foldl MaintUse.carryAll x).1 = x.1 := by
  induction us generalizing x with
  | nil => rfl
  | cons u rest ih =>
    obtain ⟨n, rfl⟩ := h u (List.mem_cons_self ..)
    rw [List.foldl_cons, ih (fun v hv => h v (List.mem_cons_of_mem _ hv))]
    rfl

/-- The head in CHECKING, or a GET's, has a step of reads alone. -/
theorem readsLeft_of_head {s : State} {e : MaintEntry} (hs : StepSound s) (hhead : headOf s = some e)
    (hphase : e.phase = .checking false ∨ ((∃ b, e.phase = .checking b) ∧ ∃ t cs, e.request = .get t cs)) :
    ReadsLeft (s.memory.maintWork.getD (begunStep s)).left := by
  obtain ⟨hready, he⟩ := headOf_some hhead
  have nosweep : ¬(s.device.state = .starting ∧ s.device.startup = .sweep) := by simp [hready]
  have nowrites : ¬(e.isWriting = true ∨ e.phase = .sweeping ∨ e.isBeforeWrites) := by
    rcases hphase with hp | ⟨⟨b, hp⟩, t, cs, hr⟩
    · simp [MaintEntry.isWriting, MaintEntry.isBeforeWrites, hp]
    · simp [MaintEntry.isWriting, MaintEntry.isBeforeWrites, hp, hr]
  have only : ∀ us, ReadsLeft us ∨ (s.device.state = .starting ∧ s.device.startup = .sweep) ∨
      (∃ x, s.maint.queue.head? = some x ∧
        (x.isWriting = true ∨ x.phase = .sweeping ∨ (x.isBeforeWrites ∧ us = [.header .writing]))) → ReadsLeft us := by
    rintro us (h | h | ⟨x, hx, h⟩)
    · exact h
    · exact absurd h nosweep
    · rw [he] at hx
      cases hx
      exact absurd (h.imp_right (fun h => h.imp_right And.left)) nowrites
  cases hw : s.memory.maintWork with
  | none => exact only _ (maintUses_spec s)
  | some w => exact only _ (hs w hw)

/-- A row that ends a step of reads leaves the slots if what it does besides leaves them. -/
theorem maintStep_slots {act : MaintWork → State → State} {s : State}
    (h : ReadsLeft (s.memory.maintWork.getD (begunStep s)).left) (hact : ∀ w u, (act w u).dict.slots = u.dict.slots) :
    (maintStep act s).dict.slots = s.dict.slots := by
  rcases maintStep_cases act s with he | ⟨w, rfl, -, he⟩
  · rw [he]
  · rw [he, hact]
    show (stepWrites _ s.dict).1.slots = s.dict.slots
    rw [stepWrites, carryAll_reads h]

theorem resourceCheck_slots (e : MaintEntry) (s : State) : (resourceCheck e s).dict.slots = s.dict.slots := by
  rw [resourceCheck]
  split
  · split
    · rfl
    · rfl
  · split
    · rfl
    · rfl
  · rfl
  · rfl

theorem maintHeadChecks_slots {s : State} (hs : StepSound s) : (maintHeadChecks s).dict.slots = s.dict.slots := by
  rw [maintHeadChecks]
  split
  · next e hhead =>
    split
    · next hphase =>
      rw [headCheck]
      split
      · rfl
      · split
        · exact maintStep_slots (readsLeft_of_head hs hhead (.inl hphase)) (fun _ _ => resourceCheck_slots ..)
        · exact resourceCheck_slots ..
    · rfl
  · rfl

theorem getAnswers_slots {s : State} (hs : StepSound s) : (getAnswers s).dict.slots = s.dict.slots := by
  rw [getAnswers]
  split
  · next e hhead =>
    split
    · next t cs b hreq hphase =>
      exact maintStep_slots (readsLeft_of_head hs hhead (.inr ⟨⟨b, hphase⟩, t, cs, hreq⟩)) (fun _ _ => rfl)
    · rfl
  · rfl

theorem takeLock_slots (plan : Plan) (s : State) : (takeLock plan s).dict.slots = s.dict.slots := by
  obtain ⟨_, he⟩ := takeLock_shape plan s
  rw [he]

theorem startSweep_slots (t : TierId) (s : State) : (startSweep t s).dict.slots = s.dict.slots := by
  obtain ⟨_, he⟩ := startSweep_shape t s
  rw [he]

theorem tableLockTakes_slots (s : State) : (tableLockTakes s).dict.slots = s.dict.slots := by
  rw [tableLockTakes]
  repeat' split
  · exact takeLock_slots ..
  all_goals rfl

theorem clearTierStarts_slots (s : State) : (clearTierStarts s).dict.slots = s.dict.slots := by
  rw [clearTierStarts]
  repeat' split
  · exact startSweep_slots ..
  all_goals rfl

theorem writesBegin_slots (s : State) : (writesBegin s).dict.slots = s.dict.slots := by
  rw [writesBegin]
  repeat' split
  · exact takeLock_slots ..
  · exact startSweep_slots ..
  · rfl
  · rfl

theorem grant_slots (s : State) : (grant s).dict.slots = s.dict.slots := by
  obtain ⟨_, _, _, he⟩ := grant_shape s
  rw [he]

theorem granted_slots {w : TxWork} {s t : State} (h : granted w s = some t) : t.dict.slots = s.dict.slots := by
  rw [granted_shape h, grant_slots]

theorem presentMaint_slots (s : State) : (presentMaint s).dict.slots = s.dict.slots := by
  rw [presentMaint]
  split
  · rfl
  · rfl

theorem presented_slots (asks : Asks) (s : State) : (presented asks s).dict.slots = s.dict.slots := by
  have engine : (if asks.engine then presentEngine asks.expiryFirst s else s).dict.slots = s.dict.slots := by
    split
    · rw [presentEngine]
      split
      · split
        · rfl
        · obtain ⟨_, _, -, -, -, he⟩ := beginWork_shape _ s
          rw [he]
      · rfl
    · rfl
  rw [presented]
  split
  · rw [presentMaint_slots, engine]
  · exact engine

theorem memoryGrants_slots (asks : Asks) (s : State) : (memoryGrants asks s).dict.slots = s.dict.slots := by
  have asked : (grant (presented asks s)).dict.slots = s.dict.slots := by rw [grant_slots, presented_slots]
  rw [memoryGrants]
  split
  · rfl
  · rw [begunWith]
    split
    · split
      · rw [writesBegin_slots, asked]
      · exact asked
    · exact asked

/-- The end of a transaction of another block leaves the table. -/
theorem transactionEnds_slots {s : State} (h : ∀ tx, s.memory.inProgress = some tx → tx.work ≠ .maint) :
    (transactionEnds s).dict.slots = s.dict.slots := by
  rw [transactionEnds]
  split
  · rfl
  · next tx htx =>
    split
    · rw [pullReadEnds]
      repeat' split
      all_goals rfl
    · rw [fetchReadEnds]
      repeat' split
      all_goals rfl
    · rw [engineUseEnds_dict]
      rfl
    · next hwork => exact absurd hwork (h tx htx)
    · rw [changeEnds_dict]
      rfl
    · rfl
    · rfl
    · rfl
    · rfl
    · rfl

/-- So does a reset that meets no transaction of MAINT. -/
theorem resetPart_slots {s : State} (h : ∀ tx, s.memory.inProgress = some tx → tx.work ≠ .maint) (c : ResetCause)
    (d : DeviceState) : (resetPart c d s).dict.slots = s.dict.slots := by
  show (appendInFlight s).dict.slots = s.dict.slots
  rw [appendInFlight]
  split
  · rfl
  · next tx htx =>
    split
    · rfl
    · rw [engineUseEnds_dict]
    · next hwork => exact absurd hwork (h tx htx)
    · rfl

theorem journalAppends_slots (s : State) : (journalAppends s).dict.slots = s.dict.slots := by
  rw [journalAppends]
  split
  · rfl
  · next hg =>
    split
    · rfl
    · rw [refreshActivity_eq]
      have same := granted_slots hg
      exact same

theorem openStartAppends_slots (s : State) : (openStartAppends s).dict.slots = s.dict.slots := by
  rw [openStartAppends]
  split
  · split
    · next s1 hg =>
      show (appendSegment (.start s1.session.job 0#32) s1).dict.slots = s.dict.slots
      rw [(appendSegment_only _ s1).dict, granted_slots hg]
    · rfl
  · rfl
  · rfl

theorem closeEndAppends_slots (s : State) : (closeEndAppends s).dict.slots = s.dict.slots := by
  rw [closeEndAppends]
  split
  · split
    · next s1 hg =>
      show (appendSegment (.fin s1.session.job s1.session.clock) s1).dict.slots = s.dict.slots
      rw [(appendSegment_only _ s1).dict, granted_slots hg]
    · rfl
  · rfl
  · rfl
  · rfl

theorem headerReadEnds_slots (s : State) : (headerReadEnds s).dict.slots = s.dict.slots := by
  rw [headerReadEnds]
  split
  · split
    · next hg =>
      have same := granted_slots hg
      exact same
    · rfl
  · rfl

theorem engineRow_slots (k : WorkKind) (s : State) : (engineRow k s).dict.slots = s.dict.slots := by
  rw [(engineRow_only k s).dict]

/-- No owner but RESTART's touches the slots. -/
theorem servedBy_slots (reads : List Nat) {k : Kind} (hr : k ≠ .restart) (p : PortId) (tag : Byte) (body : List Byte)
    (s : State) : (servedBy reads k p tag body s).dict.slots = s.dict.slots := by
  have of_eq : ∀ {t u : State}, t = u → u.dict.slots = s.dict.slots → t.dict.slots = s.dict.slots := fun he h => he ▸ h
  have ports : ∀ {t : State}, PortsOnly p s t → t.dict.slots = s.dict.slots := fun ⟨_, he, _⟩ => of_eq he rfl
  have queued : k ∈ [Kind.put, .drop, .clearTier, .get] → (servedBy reads k p tag body s).dict.slots = s.dict.slots :=
    fun hk => by
      rcases servedBy_maint_shape reads hk p tag body s with hports | ⟨_, _, -, he⟩
      · exact ports hports
      · exact of_eq he rfl
  cases k with
  | stroke =>
    obtain ⟨_, _, _, _, _, ⟨⟨_, _, _, rfl⟩, -⟩, -, he⟩ := serveStroke_shape p tag body s
    exact of_eq he rfl
  | pull => obtain ⟨_, _, _, -, -, he⟩ := servePull_shape p tag body s; exact of_eq he rfl
  | subscribe => obtain ⟨_, _, -, he⟩ := serveSubscribe_shape p tag body s; exact of_eq he rfl
  | unsubscribe => obtain ⟨_, _, -, he⟩ := serveUnsubscribe_shape p tag body s; exact of_eq he rfl
  | fetch => obtain ⟨_, _, _, -, he⟩ := serveFetch_shape p tag body s; exact of_eq he rfl
  | collect => exact ports (serveCollect_shape p tag body s)
  | status => obtain ⟨_, _, -, he⟩ := serveStatus_shape p tag reads body s; exact of_eq he rfl
  | speaker => obtain ⟨_, _, -, he, -⟩ := serveSpeaker_shape p tag body s; exact of_eq he rfl
  | setTiers => obtain ⟨_, _, _, -, he, -⟩ := serveSetTiers_shape p tag body s; exact of_eq he rfl
  | setHold => obtain ⟨_, _, -, he, -⟩ := serveSetHold_shape p tag body s; exact of_eq he rfl
  | setOffset => obtain ⟨_, _, -, he⟩ := serveSetOffset_shape p tag body s; exact of_eq he rfl
  | setArbiter => obtain ⟨_, _, -, he, -⟩ := serveSetArbiter_shape p tag body s; exact of_eq he rfl
  | setAccess =>
    rcases serveSetAccess_shape p tag body s with hports | ⟨_, _, _, _, -, -, he⟩
    · exact ports hports
    · exact of_eq he rfl
  | trust =>
    rcases serveTrust_shape p tag body s with hports | ⟨_, _, _, -, -, he⟩
    · exact ports hports
    · exact of_eq he rfl
  | lockPort =>
    rcases serveLockPort_shape p tag body s with hports | ⟨_, _, -, he⟩
    · exact ports hports
    · exact of_eq he rfl
  | lockTier =>
    rcases serveLockTier_shape p tag body s with hports | ⟨_, _, -, he⟩
    · exact ports hports
    · exact of_eq he rfl
  | put => exact queued (by decide)
  | drop => exact queued (by decide)
  | clearTier => exact queued (by decide)
  | get => exact queued (by decide)
  | retranslate => obtain ⟨_, _, -, he⟩ := serveRetranslate_shape p tag body s; exact of_eq he rfl
  | openSession =>
    rcases serveOpenSession_shape p tag body s with hports | ⟨_, _, _, _, _, _, -, -, he⟩
    · exact ports hports
    · exact of_eq he rfl
  | closeSession => obtain ⟨_, _, -, he⟩ := serveCloseSession_shape p tag body s; exact of_eq he rfl
  | restart => exact absurd rfl hr

/-- RESTART's owner leaves the slots unless it meets a transaction of MAINT. -/
theorem serveRestart_slots {s : State} (h : ∀ tx, s.memory.inProgress = some tx → tx.work ≠ .maint) (p : PortId) (tag : Byte)
    (body : List Byte) : (serveRestart p tag body s).dict.slots = s.dict.slots := by
  rcases serveRestart_cases p tag s body with ⟨_, -, he⟩ | ⟨-, he⟩
  · rw [he]
    rfl
  · rw [he]
    exact resetPart_slots h ..

/-- Every owner does, where no transaction of MAINT is in progress. -/
theorem servedBy_slots_alone {s : State} (h : ∀ tx, s.memory.inProgress = some tx → tx.work ≠ .maint) (reads : List Nat)
    (k : Kind) (p : PortId) (tag : Byte) (body : List Byte) : (servedBy reads k p tag body s).dict.slots = s.dict.slots := by
  by_cases hr : k = .restart
  · subst hr
    exact serveRestart_slots h p tag body
  · exact servedBy_slots reads hr p tag body s

theorem portFree_slots : PortFree (fun s : State => s.dict.slots) := fun _ _ _ => rfl

/-- A select period by its bytes, where no transaction of MAINT is in progress. -/
theorem selectPeriod_slots {s : State} (h : ∀ tx, s.memory.inProgress = some tx → tx.work ≠ .maint) (p : PortId)
    (bytes : List Byte) : (selectPeriod p bytes s).dict.slots = s.dict.slots :=
  selectPeriod_reads (P := (· = s.dict.slots)) portFree_slots rfl (fun k tag body _ => by
    rw [← servedBy_nil]
    exact servedBy_slots_alone (s := beginExchange p bytes.length s) h [] k p tag body)

/-- Settles O11: the rows that may write slots are MAINT's, and so is every transaction that does. -/
theorem slotsWrittenByMaintenance : Obligations.SlotsWrittenByMaintenance := by
  unfold Obligations.SlotsWrittenByMaintenance
  intro c s t hwf hs hc hexec
  cases c with
  | frameRefused p bytes =>
    cases hexec
    obtain ⟨_, _, he⟩ := frameRefused_moved (p := p) (bytes := bytes) hwf s
    exact congrArg (fun s => s.dict.slots) he
  | responsePhase p bytes => cases hexec; exact selectPeriod_slots hc p bytes
  | restart p tag body together =>
    obtain ⟨reads, -, hx⟩ | ⟨-, -, hx⟩ := exec_request (c := .restart p tag body together) rfl s
    · rw [hx] at hexec
      cases hexec
      exact requestPeriod_reads (P := (· = s.dict.slots)) portFree_slots rfl
        (servedBy_slots_alone (s := beginExchange p (4 + body.length) s) hc reads _ p tag body)
    · rw [hx] at hexec
      cases hexec
      rfl
  | journalAppend => cases hexec; exact journalAppends_slots s
  | maintHeadCheck => cases hexec; exact maintHeadChecks_slots hs
  | tableLockTake => cases hexec; exact tableLockTakes_slots s
  | clearTierStart => cases hexec; exact clearTierStarts_slots s
  | getAnswer => cases hexec; exact getAnswers_slots hs
  | reResolution | takeStroke | takeStrike | closeSettle | retranslationStart | retranslationRebuild =>
    cases hexec; exact engineRow_slots _ s
  | expiry first =>
    cases hexec
    rw [expires]
    split
    · rfl
    · exact engineRow_slots _ s
  | closeEndAppended => cases hexec; exact closeEndAppends_slots s
  | openStartAppended => cases hexec; exact openStartAppends_slots s
  | sessionClockTick n => cases hexec; rfl
  | memoryGrant asks => cases hexec; exact memoryGrants_slots asks s
  | sdramRefresh => cases hexec; rfl
  | resetLine ns sets =>
    cases hexec
    rw [resetAsserted]
    split
    · rfl
    · have met : (headerReadMet sets s).dict = s.dict ∧ (headerReadMet sets s).memory = s.memory := by
        rw [headerReadMet]
        repeat' split
        all_goals exact ⟨rfl, rfl⟩
      rw [resetPart_slots (by rw [met.2]; exact hc), met.1]
  | resetRelease =>
    cases hexec
    rw [resetReleased]
    split
    · rfl
    · rfl
  | startupHeaderRead => cases hexec; exact headerReadEnds_slots s
  | memoryTransactionComplete => cases hexec; exact transactionEnds_slots hc
  | putWriteEnd | dropWriteEnd | clearTierSweepEnd | startupComplete | powerOn => exact hc.elim
  | _ =>
    exact exec_request_keeps (P := fun u => u.dict.slots = s.dict.slots) (fun _ _ _ => rfl) rfl
      (fun reads u hu => (servedBy_slots reads (by decide) _ _ _ u).trans hu) rfl hexec

end Sys2Proof.Proofs
end

section
/-! PROOFS. The two rings, the pointers and the WORKING ports through every step (R9, R53, R81, R82, R104, R158, R159). -/

namespace Sys2Proof.Proofs

open Sys2Proof.Machine

/-! ### The responses owed to a port -/

/-- A FETCH's reads for the port. -/
def isFetchFor (p : PortId) : LogWork → Bool
  | .fetch f => decide (f.port = p)
  | .startAppend => false
  | .endAppend => false
  | .change _ => false

/-- How many FETCHes of the port have reads to make. -/
def fetchesFor (p : PortId) (l : List LogWork) : Nat := (l.filter (isFetchFor p)).length

/-- How many STROKEs of the port have their append to make. -/
def strokesFor (p : PortId) (l : List IntakeWork) : Nat := (l.filter (fun w => decide (w.port = p))).length

/-- How many PULLs of the port have reads to make. -/
def pullsFor (p : PortId) (l : List PullWork) : Nat := (l.filter (fun w => decide (w.port = p))).length

/-- Whether a STATUS of the port is in reading. -/
def reportsFor (p : PortId) (q : Quad (Option StatusReading)) : Nat := if (q.get p).isSome then 1 else 0

theorem owedTo_eq (p : PortId) (s : State) : owedTo p s = strokesFor p s.memory.intakeWork + pullsFor p s.memory.pullWork +
    fetchesFor p s.memory.logWork + reportsFor p s.reports := rfl

theorem strokesFor_cons (p : PortId) (w : IntakeWork) (rest : List IntakeWork) :
    strokesFor p (w :: rest) = strokesFor p rest + if w.port = p then 1 else 0 := by
  rw [strokesFor, strokesFor, List.filter_cons]
  by_cases h : w.port = p
  · simp [h]
  · simp [h]

theorem pullsFor_cons (p : PortId) (w : PullWork) (rest : List PullWork) :
    pullsFor p (w :: rest) = pullsFor p rest + if w.port = p then 1 else 0 := by
  rw [pullsFor, pullsFor, List.filter_cons]
  by_cases h : w.port = p
  · simp [h]
  · simp [h]

theorem owedTo_answer (q p : PortId) (k : Kind) (tag : Byte) (r : Reply) (s : State) :
    owedTo q (answer p k tag r s) = owedTo q s := rfl

theorem owedTo_congr {p : PortId} {s t : State} (hintake : t.memory.intakeWork = s.memory.intakeWork)
    (hpull : t.memory.pullWork = s.memory.pullWork) (hlog : fetchesFor p t.memory.logWork = fetchesFor p s.memory.logWork)
    (hreports : t.reports.get p = s.reports.get p) : owedTo p t = owedTo p s := by
  rw [owedTo_eq, owedTo_eq, hintake, hpull, hlog, reportsFor, reportsFor, hreports]

theorem fetchesFor_append (p : PortId) (a b : List LogWork) : fetchesFor p (a ++ b) = fetchesFor p a + fetchesFor p b := by
  simp [fetchesFor]

theorem fetchesFor_changes (p : PortId) (us : List ListedUnit) :
    fetchesFor p (us.map (fun u => LogWork.change (segmentBlock u.segment))) = 0 := by
  rw [fetchesFor, List.length_eq_zero_iff, List.filter_eq_nil_iff]
  intro w hw
  obtain ⟨u, -, rfl⟩ := List.mem_map.mp hw
  simp [isFetchFor]

/-- An append or a change at the head of the log's work was none. -/
theorem fetchesFor_made (p : PortId) (l : List LogWork) : fetchesFor p (LogWork.made l) = fetchesFor p l := by
  cases l with
  | nil => rfl
  | cons w rest => cases w <;> rfl

theorem fetchesFor_cons (p : PortId) (w : ReadWork) (rest : List LogWork) :
    fetchesFor p (.fetch w :: rest) = fetchesFor p rest + if w.port = p then 1 else 0 := by
  rw [fetchesFor, fetchesFor, List.filter_cons]
  by_cases h : w.port = p
  · simp [isFetchFor, h]
  · simp [isFetchFor, h]

/-! ### What a step keeps -/

/-- From s to t the rings and the pointers stay sound, and the ports that are WORKING are those that are owed a response. -/
structure RingKept (s t : State) : Prop where
  log : LogSound s → LogSound t
  journal : JournalSound s → TakeSound s → JournalSound t ∧ TakeSound t
  pointer : JournalSound s → TakeSound s → PointerSound s → PointerSound t
  port : PortSound s → PortSound t

theorem ringKept_refl (s : State) : RingKept s s := ⟨id, fun h k => ⟨h, k⟩, fun _ _ => id, id⟩

theorem RingKept.trans {s t u : State} (h : RingKept s t) (k : RingKept t u) : RingKept s u where
  log x := k.log (h.log x)
  journal x y := k.journal (h.journal x y).1 (h.journal x y).2
  pointer x y z := k.pointer (h.journal x y).1 (h.journal x y).2 (h.pointer x y z)
  port x := k.port (h.port x)

theorem RingKept.of_eq {s t u : State} (he : t = u) (h : RingKept s u) : RingKept s t := he ▸ h

/-- The journal and the appends waiting as they were, and no take begun. -/
structure JournalSame (s t : State) : Prop where
  journal : t.journal = s.journal
  intake : t.memory.intakeWork = s.memory.intakeWork
  work : t.memory.engineWork = s.memory.engineWork ∨ t.memory.engineWork = none

namespace JournalSame

variable {s t : State} (h : JournalSame s t)
include h

theorem take (ht : TakeSound s) : TakeSound t := by
  intro w hw hk
  rw [h.journal]
  rcases h.work with hsame | hnone
  · exact ht w (hsame ▸ hw) hk
  · rw [hnone] at hw
    cases hw

theorem sound (hj : JournalSound s) : JournalSound t := by
  rw [JournalSound, h.journal]
  exact hj

theorem pointer (hp : PointerSound s) : PointerSound t := by
  rw [PointerSound, h.journal, h.intake]
  exact hp

theorem kept (hlog : LogSound s → LogSound t) (hport : PortSound s → PortSound t) : RingKept s t :=
  ⟨hlog, fun x y => ⟨h.sound x, h.take y⟩, fun _ _ => h.pointer, hport⟩

end JournalSame

theorem logSound_same {s t : State} (h : t.log = s.log) (hs : LogSound s) : LogSound t := by
  rw [LogSound, h]
  exact hs

/-- The ports' exchanges and what is owed to them as they were. -/
theorem portSound_same {s t : State} (hx : ∀ p, (t.ports.get p).exchange = (s.ports.get p).exchange)
    (ho : ∀ p, owedTo p t = owedTo p s) (h : PortSound s) : PortSound t := by
  intro p
  rw [ho, hx]
  exact h p

theorem ringKept_of_maintOnly {s t : State} (h : MaintOnly s t) : RingKept s t := by
  obtain ⟨_, _, _, hm⟩ := h.memory
  exact (JournalSame.mk h.journal (by rw [hm]) (.inl (by rw [hm]))).kept (logSound_same h.log)
    (portSound_same h.exchange (fun p => owedTo_congr (by rw [hm]) (by rw [hm]) (by rw [hm]) (by rw [h.reports])))

/-- With no work begun none takes a record. -/
theorem takeSound_none {s : State} (h : s.memory.engineWork = none) : TakeSound s := fun w hw => by
  rw [h] at hw
  cases hw

/-! ### The rows of the engine -/

/-- What the end of a work leaves of the exchanges and of a STATUS in reading. -/
structure PortsUntouched (s t : State) : Prop where
  exchange : ∀ p, (t.ports.get p).exchange = (s.ports.get p).exchange
  reports : t.reports = s.reports

theorem PortsUntouched.refl (s : State) : PortsUntouched s s := ⟨fun _ => rfl, rfl⟩

theorem PortsUntouched.trans {s t u : State} (h : PortsUntouched s t) (k : PortsUntouched t u) : PortsUntouched s u :=
  ⟨fun p => (k.exchange p).trans (h.exchange p), k.reports.trans h.reports⟩

theorem complete_untouched (p : PortId) (r : Reply) (s : State) : PortsUntouched s (complete p r s) :=
  ⟨(MaintOnly.complete p r s).exchange, rfl⟩

theorem giveCompletions_untouched (values : List Byte) (rs : List Requester) (s : State) :
    PortsUntouched s (giveCompletions values rs s) := by
  induction rs generalizing s with
  | nil => exact .refl s
  | cons r rest ih => exact (complete_untouched r.port _ s).trans (ih _)

theorem endWork_untouched (s : State) : PortsUntouched s (endWork s) := by
  rw [endWork_eq]
  exact ⟨fun _ => rfl, rfl⟩

theorem endWork_journal (s : State) : (endWork s).journal = s.journal := by
  rw [endWork_eq]
  rfl

theorem finishRetranslation_untouched (a b c : Nat) (s : State) : PortsUntouched s (finishRetranslation a b c s) := by
  have begun : PortsUntouched s { s with engine := { s.engine with request := none, activity := .idle } } :=
    ⟨fun _ => rfl, rfl⟩
  exact begun.trans ((giveCompletions_untouched _ _ _).trans (endWork_untouched _))

theorem finishRetranslation_journal (a b c : Nat) (s : State) : (finishRetranslation a b c s).journal = s.journal := by
  obtain ⟨_, _, _, h⟩ := finishRetranslation_shape a b c s
  rw [h]

/-- The end of a work touches no exchange, and moves the translate cursor for a take alone (R10). -/
theorem workEnds_keeps (w : EngineWork) (s : State) : PortsUntouched s (workEnds w s) ∧
    ((workEnds w s).journal = s.journal ∨ ((w.kind = .takeStroke ∨ w.kind = .takeStrike) ∧
      (workEnds w s).journal = { s.journal with cursor := s.journal.cursor + 1 })) := by
  have dropped : PortsUntouched s (dropWork s) := ⟨fun _ => rfl, rfl⟩
  have asked : ∀ p, PortsUntouched s (askEnd p (dropWork s)) := fun _ => ⟨fun _ => rfl, rfl⟩
  have advanced : PortsUntouched s (advanceCursor (dropWork s)) := ⟨fun _ => rfl, rfl⟩
  have ends : PortsUntouched s (endWork (dropWork s)) ∧ (endWork (dropWork s)).journal = s.journal :=
    ⟨dropped.trans (endWork_untouched _), endWork_journal _⟩
  have takes : PortsUntouched s (endWork (advanceCursor (dropWork s))) ∧
      (endWork (advanceCursor (dropWork s))).journal = { s.journal with cursor := s.journal.cursor + 1 } :=
    ⟨advanced.trans (endWork_untouched _), endWork_journal _⟩
  rw [workEnds]
  split
  · exact ⟨ends.1, .inl ends.2⟩
  · rw [startEnds]
    split
    · rw [beginRetranslation]
      split
      · exact ⟨dropped.trans (finishRetranslation_untouched ..), .inl (finishRetranslation_journal _ _ _ (dropWork s))⟩
      · exact ⟨⟨fun _ => rfl, rfl⟩, .inl rfl⟩
    · exact ⟨dropped, .inl rfl⟩
  · next hk => exact ⟨takes.1, .inr ⟨.inl hk, takes.2⟩⟩
  · next hk => exact ⟨takes.1, .inr ⟨.inr hk, takes.2⟩⟩
  · exact ⟨ends.1, .inl ends.2⟩
  · rw [closeSettled]
    split
    · exact ⟨(asked _).trans (endWork_untouched _), .inl (endWork_journal _)⟩
    · exact ⟨dropped, .inl rfl⟩
    · exact ⟨dropped, .inl rfl⟩
  · rw [rebuildEnds]
    split
    · exact ⟨dropped.trans (finishRetranslation_untouched ..), .inl (finishRetranslation_journal _ _ _ (dropWork s))⟩
    · exact ⟨dropped, .inl rfl⟩

/-- A record that a take may begin with stands at the translate cursor. -/
theorem cursor_le_of_mayBegin {s : State} {k : WorkKind} (hk : k = .takeStroke ∨ k = .takeStrike)
    (h : mayBegin s k = true) : s.journal.cursor ≤ s.journal.head := by
  have record : ∀ r, s.journal.recordAt s.journal.cursor = some r → s.journal.cursor ≤ s.journal.head := by
    intro r hr
    rw [Journal.recordAt] at hr
    split at hr
    · next hin => exact hin.2
    · cases hr
  rcases hk with rfl | rfl
  · rw [mayBegin, strokeAtCursor] at h
    split at h
    · split at h
      · next hr => exact record _ hr
      · cases h
    · cases h
  · rw [mayBegin, strikeAtCursor] at h
    split at h
    · split at h
      · next hr => exact record _ hr
      · cases h
    · cases h

/-- A take's row has a record to take, or changes nothing. -/
theorem engineRow_record {s : State} (ht : TakeSound s) {k : WorkKind} (hk : k = .takeStroke ∨ k = .takeStrike) :
    engineRow k s = s ∨ s.journal.cursor ≤ s.journal.head := by
  rw [engineRow]
  split
  · next w hw =>
    split
    · next hkind => exact .inr (ht w hw (by rw [hkind]; exact hk))
    · exact .inl rfl
  · split
    · next hb => exact .inr (cursor_le_of_mayBegin hk hb)
    · exact .inl rfl

theorem ringSound_pointers {s t : State} (h : WorkOnly s t) : t.journal.head = s.journal.head ∧
    t.journal.oldest = s.journal.oldest ∧ t.journal.cursor = s.journal.cursor ∧ t.journal.pull = s.journal.pull := by
  obtain ⟨_, _, _, _, rfl⟩ := h.form
  exact ⟨rfl, rfl, rfl, rfl⟩

theorem ringKept_engineRow (k : WorkKind) (s : State) : RingKept s (engineRow k s) := by
  have only := engineRow_only k s
  rcases engineRow_cases k s with he | ⟨b, w, t, rs, hkind, ht, -, he⟩
  · exact .of_eq he (ringKept_refl s)
  · obtain ⟨_, _, e, l, hl, hm⟩ := only.memory
    obtain ⟨⟨hx, hreports⟩, hjournal⟩ := workEnds_keeps w { t with memory := servedAlone s.memory rs }
    rw [← he] at hx hreports hjournal
    obtain ⟨hhead, holdest, hcursor, hpull⟩ := ringSound_pointers ht
    have huntouched : t.ports = s.ports ∧ t.reports = s.reports := by
      obtain ⟨_, _, _, _, rfl⟩ := ht.form
      exact ⟨rfl, rfl⟩
    have dropped : (engineRow k s).memory.engineWork = none := by
      rw [he]
      by_cases hc : w.kind = .closeSettle
      · rw [workEnds, hc]
        rcases closeSettled_shape (dropWork { t with memory := servedAlone s.memory rs }) with h | ⟨_, _, -, h⟩
        · rw [h]
          rfl
        · rw [h.memory]
          rfl
      · rw [(workEnds_quiet _ hc).memory]
        rfl
    refine ⟨only.log, fun hj htake => ⟨?_, fun x hx => by rw [dropped] at hx; cases hx⟩, fun hj htake hp => ?_,
      portSound_same (fun p => by rw [hx p, huntouched.1]) (fun p => owedTo_congr (by rw [hm]) (by rw [hm]) ?_
        (by rw [hreports, huntouched.2]))⟩
    · have ring : RingSound t.journal := ht.ring ((journalSound_iff s).mp hj)
      rw [journalSound_iff]
      rcases hjournal with hj' | ⟨htakes, hj'⟩
      · rw [hj']
        exact ring
      · rw [hj']
        rcases engineRow_record htake (hkind ▸ htakes) with hsame | hrec
        · rw [hsame] at hj'
          rw [← hj']
          exact (journalSound_iff s).mp hj
        · exact ring.advance (by rw [hcursor, hhead]; exact hrec)
    · obtain ⟨hlow, hpulls⟩ := hp
      have held : t.journal.held = s.journal.held := by rw [Journal.held, Journal.held, hhead, holdest]
      rcases hjournal with hj' | ⟨-, hj'⟩
      · rw [PointerSound, hj', hm]
        exact ⟨by rw [held, holdest, hcursor]; exact hlow, by rw [hpull, holdest, hcursor]; exact hpulls⟩
      · rw [PointerSound, hj', hm]
        refine ⟨?_, fun p c hc => ?_⟩
        · show t.journal.oldest + (t.journal.held + s.memory.intakeWork.length - Config.journalRing) ≤ t.journal.cursor + 1
          rw [held, holdest, hcursor]
          exact Nat.le_succ_of_le hlow
        · obtain ⟨hfrom, hto⟩ := hpulls p c (hpull ▸ hc)
          show t.journal.oldest ≤ c.cursor ∧ c.cursor ≤ t.journal.cursor + 1
          rw [holdest, hcursor]
          exact ⟨hfrom, Nat.le_succ_of_le hto⟩
    · rw [hm, fetchesFor_append]
      rcases hl with rfl | rfl
      · rfl
      · rfl

/-! ### The memory controller -/

theorem ringKept_grant (s : State) : RingKept s (grant s) := by
  obtain ⟨_, _, _, he⟩ := grant_shape s
  exact .of_eq he (JournalSame.kept ⟨rfl, rfl, .inl rfl⟩ id (portSound_same (fun _ => rfl) (fun _ => rfl)))

theorem ringKept_granted {w : TxWork} {s t : State} (h : granted w s = some t) : RingKept s t :=
  .of_eq (granted_shape h) (ringKept_grant s)

theorem ringKept_presentEngine (first : Bool) (s : State) : RingKept s (presentEngine first s) := by
  rw [presentEngine]
  split
  · next k hwork hready =>
    split
    · exact ringKept_refl s
    · obtain ⟨e, w, -, -, hkind, he⟩ := beginWork_shape k s
      refine .of_eq he ⟨id, fun hj _ => ⟨hj, fun x hx hk => ?_⟩, fun _ _ => id,
        portSound_same (fun _ => rfl) (fun _ => rfl)⟩
      have hb : mayBegin s k = true := List.find?_some hready
      cases hx
      exact cursor_le_of_mayBegin (s := s) (hkind ▸ hk) hb
  · exact ringKept_refl s

theorem ringKept_presented (asks : Asks) (s : State) : RingKept s (presented asks s) := by
  have engine : RingKept s (if asks.engine then presentEngine asks.expiryFirst s else s) := by
    split
    · exact ringKept_presentEngine ..
    · exact ringKept_refl s
  rw [presented]
  split
  · exact engine.trans (ringKept_of_maintOnly (.presentMaint _))
  · exact engine

theorem ringKept_memoryGrants (asks : Asks) (s : State) : RingKept s (memoryGrants asks s) := by
  have asked := (ringKept_presented asks s).trans (ringKept_grant _)
  rw [memoryGrants]
  split
  · exact ringKept_refl s
  · rw [begunWith]
    split
    · split
      · exact asked.trans (ringKept_of_maintOnly (.writesBegin _))
      · exact asked
    · exact asked

/-- A work that goes on is the same work. -/
theorem engineUseEnds_kind {s : State} {x : EngineWork} (h : (engineUseEnds s).memory.engineWork = some x) :
    ∃ w, s.memory.engineWork = some w ∧ x.kind = w.kind := by
  rw [engineUseEnds] at h
  split at h
  · next w hw =>
    split at h
    · next u rest hleft =>
      cases h
      exact ⟨w, hw, (goOn_spec 5 ({ w with stage := w.stage.saw s.dict.slots u, left := turnUses s u ++ rest },
        carryUse u s)).2.1⟩
    · exact ⟨x, h, rfl⟩
  · exact ⟨x, h, rfl⟩

theorem ringKept_engineUseEnds (s : State) : RingKept s (engineUseEnds s) := by
  obtain ⟨t, w, ht, he⟩ := engineUseEnds_shape s
  obtain ⟨hhead, holdest, hcursor, hpull⟩ := ringSound_pointers ht
  have hjournal : (engineUseEnds s).journal = t.journal := by rw [he]
  have hmemory : (engineUseEnds s).memory.intakeWork = s.memory.intakeWork := by rw [he]
  have hlog : (engineUseEnds s).log = t.log := by rw [he]
  refine ⟨fun h => logSound_same hlog (ht.log h), fun hj htake => ⟨?_, fun x hx hk => ?_⟩, fun _ _ hp => ?_, ?_⟩
  · rw [journalSound_iff, hjournal]
    exact ht.ring ((journalSound_iff s).mp hj)
  · obtain ⟨y, hy, hkind⟩ := engineUseEnds_kind hx
    rw [hjournal, hcursor, hhead]
    exact htake y hy (hkind ▸ hk)
  · rw [PointerSound, hjournal, hmemory, Journal.held, hhead, holdest, hcursor, hpull]
    exact hp
  · rw [he]
    obtain ⟨_, _, _, _, rfl⟩ := ht.form
    exact portSound_same (fun _ => rfl) (fun _ => rfl)

theorem answer_not_working (p : PortId) (k : Kind) (tag : Byte) (r : Reply) (s : State) :
    ((answer p k tag r s).ports.get p).exchange ≠ .working := by
  rw [answer_exchange]
  exact nofun

theorem answer_onlyPort (p : PortId) (k : Kind) (tag : Byte) (r : Reply) (s : State) :
    OnlyPort p s.ports (answer p k tag r s).ports := portsOnly_onlyPort (answer_portsOnly p k tag r s)

/-- Answering a port that is owed one response pays it. -/
theorem portSound_paid {s u : State} {p : PortId} {k : Kind} {tag : Byte} {r : Reply} (h : PortSound s)
    (hports : u.ports = s.ports) (hp : owedTo p u + 1 = owedTo p s) (ho : ∀ q, q ≠ p → owedTo q u = owedTo q s) :
    PortSound (answer p k tag r u) := by
  intro q
  rw [owedTo_answer]
  by_cases hq : q = p
  · subst hq
    have hs := h q
    rw [if_neg (answer_not_working q k tag r u)]
    split at hs
    · omega
    · omega
  · rw [answer_onlyPort p k tag r u q hq, hports, ho q hq]
    exact h q

theorem ringKept_pullReadEnds (s : State) : RingKept s (pullReadEnds s) := by
  rw [pullReadEnds]
  split
  · exact ringKept_refl s
  · next w rest hwork =>
    split
    · exact ringKept_refl s
    · next r more hleft =>
      split
      · refine JournalSame.kept ⟨rfl, rfl, .inl rfl⟩ id (fun h => portSound_paid h rfl ?_ (fun q hq => ?_))
        · simp only [owedTo_eq, hwork, pullsFor_cons, if_true]
          omega
        · simp only [owedTo_eq, hwork, pullsFor_cons, if_neg (fun h : w.port = q => hq h.symm), Nat.add_zero]
      · refine JournalSame.kept ⟨rfl, rfl, .inl rfl⟩ id (portSound_same (fun _ => rfl) (fun q => ?_))
        simp only [owedTo_eq, hwork, pullsFor_cons]

theorem ringKept_fetchReadEnds (s : State) : RingKept s (fetchReadEnds s) := by
  rw [fetchReadEnds]
  split
  · next w rest hwork =>
    split
    · refine JournalSame.kept ⟨rfl, rfl, .inl rfl⟩ id (fun h => portSound_paid h rfl ?_ (fun q hq => ?_))
      · simp only [owedTo_eq, hwork, fetchesFor_cons, if_true]
        omega
      · simp only [owedTo_eq, hwork, fetchesFor_cons, if_neg (fun h : w.port = q => hq h.symm), Nat.add_zero]
    · refine JournalSame.kept ⟨rfl, rfl, .inl rfl⟩ id (portSound_same (fun _ => rfl) (fun q => ?_))
      simp only [owedTo_eq, hwork, fetchesFor_cons]
  all_goals exact ringKept_refl s

theorem ringKept_transactionEnds (s : State) : RingKept s (transactionEnds s) := by
  have ended : RingKept s (endTransaction s) :=
    JournalSame.kept ⟨rfl, rfl, .inl rfl⟩ id (portSound_same (fun _ => rfl) (fun _ => rfl))
  rw [transactionEnds]
  split
  · exact ringKept_refl s
  · split
    · exact ended.trans (ringKept_pullReadEnds _)
    · exact ended.trans (ringKept_fetchReadEnds _)
    · exact ended.trans (ringKept_engineUseEnds _)
    · exact ended.trans (ringKept_of_maintOnly (.maintUseEnds _))
    · obtain ⟨_, _, he⟩ := changeEnds_shape (endTransaction s)
      refine ended.trans (.of_eq he (JournalSame.kept ⟨rfl, rfl, .inl rfl⟩ id
        (portSound_same (fun _ => rfl) (fun p => owedTo_congr rfl rfl (fetchesFor_made ..) rfl))))
    · exact ringKept_refl s
    · exact ended
    · exact ringKept_refl s
    · exact ringKept_refl s
    · exact ringKept_refl s

/-! ### The journal's pointers (R9) -/

/-- The law of pointers of a journal on which n more appends wait. -/
def JournalLaw (j : Journal) (n : Nat) : Prop :=
  j.oldest + (j.held + n - Config.journalRing) ≤ j.cursor ∧
    ∀ p c, j.pull.get p = some c → j.oldest ≤ c.cursor ∧ c.cursor ≤ j.cursor

theorem pointerSound_iff (s : State) : PointerSound s ↔ JournalLaw s.journal s.memory.intakeWork.length := .rfl

theorem journalLaw_mono {j : Journal} {n m : Nat} (h : JournalLaw j n) (hm : m ≤ n) : JournalLaw j m := by
  obtain ⟨hlow, hpull⟩ := h
  refine ⟨Nat.le_trans ?_ hlow, hpull⟩
  exact Nat.add_le_add_left (Nat.sub_le_sub_right (Nat.add_le_add_left hm _) _) _

/-- An append that waited is made: the untaken records stay, and a cursor at the overwritten record moves on (R15). -/
theorem journalLaw_append {j : Journal} {n : Nat} (hring : RingSound j) (h : JournalLaw j (n + 1)) (r : JournalRecord) :
    JournalLaw (j.append r) n := by
  obtain ⟨-, hoh, hch, hheld, -⟩ := hring
  obtain ⟨hlow, hpull⟩ := h
  simp only [Journal.held, Config.journalRing] at hlow hheld
  rw [Journal.append]
  split
  · next hroom =>
    have moved : j.head + 1 + 1 - j.oldest + n = j.head + 1 - j.oldest + (n + 1) := by
      clear hlow hroom hheld
      omega
    refine ⟨?_, hpull⟩
    simp only [Journal.held, Config.journalRing]
    rw [moved]
    exact hlow
  · next hfull =>
    simp only [Journal.held, Config.journalRing] at hfull
    refine ⟨?_, fun p c hc => ?_⟩
    · simp only [Journal.held, Config.journalRing]
      omega
    · simp only [Quad.get_map, Option.map_eq_some_iff] at hc
      obtain ⟨d, hd, rfl⟩ := hc
      obtain ⟨hfrom, hto⟩ := hpull p d hd
      simp only [PullCursor.overwrite]
      split
      · simp only
        omega
      · omega

theorem journalLaw_notice {j : Journal} {n : Nat} (h : JournalLaw j n) (p : PortId) (classes : BitVec 7) :
    JournalLaw (j.notice p classes) n := by
  obtain ⟨hlow, hpull⟩ := h
  refine ⟨hlow, fun q c hc => ?_⟩
  show j.oldest ≤ c.cursor ∧ c.cursor ≤ j.cursor
  by_cases hq : q = p
  · subst hq
    simp only [Journal.notice, Quad.get_modify_same] at hc
    split at hc
    · cases hd : j.pull.get q with
      | none =>
        rw [hd] at hc
        cases hc
        exact ⟨Nat.le_refl _, Nat.le_trans (Nat.le_add_right ..) hlow⟩
      | some d =>
        rw [hd] at hc
        cases hc
        exact hpull q d hd
    · cases hc
  · simp only [Journal.notice, Quad.get_modify_other _ _ hq] at hc
    exact hpull q c hc

/-- A reset moves the translate cursor to head + 1, with no append waiting (R19). -/
theorem journalLaw_atReset {j : Journal} (hring : RingSound j) (h : JournalLaw j 0) : JournalLaw j.atReset 0 := by
  obtain ⟨-, hoh, hch, hheld, -⟩ := hring
  obtain ⟨hlow, hpull⟩ := h
  have moved : JournalLaw { j with cursor := j.head + 1 } 0 := by
    refine ⟨?_, fun p c hc => ⟨(hpull p c hc).1, ?_⟩⟩
    · show j.oldest + (j.held + 0 - Config.journalRing) ≤ j.head + 1
      omega
    · have := (hpull p c hc).2
      show c.cursor ≤ j.head + 1
      omega
  rw [Journal.atReset, noticeDefaults]
  exact journalLaw_notice (journalLaw_notice (journalLaw_notice (journalLaw_notice moved 0 _) 1 _) 2 _) 3 _

/-- OPEN empties the journal: every cursor at 1 (R18). The appends that still wait fit the ring. -/
theorem journalLaw_emptied {j : Journal} {n : Nat} (hn : n ≤ Config.journalRing) : JournalLaw j.emptied n := by
  refine ⟨?_, fun p c hc => ?_⟩
  · show 1 + (0 + 1 - 1 + n - Config.journalRing) ≤ 1
    omega
  · simp only [Journal.emptied, Quad.get_map, Option.map_eq_some_iff] at hc
    obtain ⟨_, -, rfl⟩ := hc
    exact ⟨Nat.le_refl _, Nat.le_refl _⟩

/-- The appends that wait fit the ring. -/
theorem waiting_le_ring {j : Journal} {n : Nat} (hring : RingSound j) (h : JournalLaw j n) : n ≤ Config.journalRing := by
  obtain ⟨-, hoh, hch, hheld, -⟩ := hring
  obtain ⟨hlow, -⟩ := h
  rw [Journal.held] at hlow hheld
  omega

/-- A PULL moves its cursor, at most to the translate cursor (R16). -/
theorem journalLaw_pull {p : PortId} {s : State} {cursors : Quad (Option PullCursor)} (hmoved : PullMoved p s cursors)
    {n : Nat} (h : JournalLaw s.journal n) : JournalLaw { s.journal with pull := cursors } n := by
  obtain ⟨hlow, hpull⟩ := h
  refine ⟨hlow, fun q c hc => ?_⟩
  show s.journal.oldest ≤ c.cursor ∧ c.cursor ≤ s.journal.cursor
  rcases hmoved with rfl | ⟨d, m, hd, hm, rfl⟩
  · exact hpull q c hc
  · obtain ⟨hfrom, hto⟩ := hpull p d hd
    simp only [Quad.get_set] at hc
    split at hc
    · cases hc
      simp only
      omega
    · exact hpull q c hc

theorem append_pointers (j : Journal) (r : JournalRecord) :
    (j.append r).head = j.head + 1 ∧ (j.append r).cursor = j.cursor := by
  rw [Journal.append]
  split
  · exact ⟨rfl, rfl⟩
  · exact ⟨rfl, rfl⟩

theorem owedTo_appendWaiting (q : PortId) (w : IntakeWork) (rest : List IntakeWork) (s : State) :
    owedTo q (endTransaction (appendWaiting w rest s)) = strokesFor q rest + pullsFor q s.memory.pullWork +
      fetchesFor q s.memory.logWork + reportsFor q s.reports := rfl

theorem ringKept_journalAppends (s : State) : RingKept s (journalAppends s) := by
  rw [journalAppends]
  split
  · exact ringKept_refl s
  · next s1 hg =>
    split
    · exact ringKept_refl s
    · next w rest hwork =>
      rw [refreshActivity_eq]
      obtain ⟨hhead, hcursor⟩ := append_pointers s1.journal (newRecord s1.journal w s1.session.clock)
      refine (ringKept_granted hg).trans ⟨id, fun hj ht => ⟨?_, fun x hx hk => ?_⟩, fun hj _ hp => ?_, fun h => ?_⟩
      · exact (journalSound_iff _).mpr (((journalSound_iff s1).mp hj).append _ rfl)
      · have := ht x hx hk
        show (s1.journal.append _).cursor ≤ (s1.journal.append _).head
        omega
      · refine journalLaw_append (n := rest.length) ((journalSound_iff s1).mp hj) ?_ _
        rw [pointerSound_iff, hwork] at hp
        exact hp
      · refine portSound_paid (u := endTransaction (appendWaiting w rest s1)) h rfl ?_ (fun q hq => ?_)
        · rw [owedTo_appendWaiting, owedTo_eq, hwork, strokesFor_cons, if_pos rfl]
          omega
        · rw [owedTo_appendWaiting, owedTo_eq q s1, hwork, strokesFor_cons, if_neg (fun h => hq h.symm), Nat.add_zero]

/-! ### Session control's segments, start-up and the resets -/

/-- START's or END's segment, whatever becomes of the session and of a slot. -/
theorem ringKept_segment {s t : State} (body : SegmentBody) (hlog : t.log = (appendSegment body s).log)
    (hjournal : t.journal = (appendSegment body s).journal)
    (hintake : t.memory.intakeWork = (appendSegment body s).memory.intakeWork)
    (hpull : t.memory.pullWork = (appendSegment body s).memory.pullWork)
    (hwork : t.memory.engineWork = (appendSegment body s).memory.engineWork)
    (hmade : t.memory.logWork = LogWork.made (appendSegment body s).memory.logWork)
    (hports : ∀ p, (t.ports.get p).exchange = ((appendSegment body s).ports.get p).exchange)
    (hreports : t.reports = (appendSegment body s).reports) : RingKept s t := by
  have only := appendSegment_only body s
  rw [only.journal] at hjournal
  rw [only.memory] at hintake hpull hwork hmade
  rw [only.ports] at hports
  obtain ⟨⟨_, _, _, he⟩, hsound⟩ := only
  rw [he] at hreports
  exact JournalSame.kept ⟨hjournal, hintake, .inl hwork⟩ (fun h => logSound_same hlog (hsound h))
    (portSound_same hports (fun p => owedTo_congr hintake hpull (by rw [hmade, fetchesFor_made]) (by rw [hreports])))

theorem ringKept_openStartAppends (s : State) : RingKept s (openStartAppends s) := by
  rw [openStartAppends]
  split
  · split
    · next p _ _ s1 hg =>
      exact (ringKept_granted hg).trans (ringKept_segment (.start s1.session.job 0#32) rfl rfl rfl rfl rfl rfl
        (complete_untouched _ _ _).exchange rfl)
    · exact ringKept_refl s
  · exact ringKept_refl s
  · exact ringKept_refl s

theorem ringKept_closeEndAppends (s : State) : RingKept s (closeEndAppends s) := by
  rw [closeEndAppends]
  split
  · split
    · next s1 hg =>
      exact (ringKept_granted hg).trans (ringKept_segment (.fin s1.session.job s1.session.clock) rfl rfl rfl rfl rfl rfl
        (complete_untouched _ _ _).exchange rfl)
    · exact ringKept_refl s
  · exact ringKept_refl s
  · exact ringKept_refl s
  · exact ringKept_refl s

theorem ringKept_headerReadEnds (s : State) : RingKept s (headerReadEnds s) := by
  rw [headerReadEnds]
  split
  · split
    · next hg =>
      exact (ringKept_granted hg).trans
        (JournalSame.kept ⟨rfl, rfl, .inl rfl⟩ id (portSound_same (fun _ => rfl) (fun _ => rfl)))
    · exact ringKept_refl s
  · exact ringKept_refl s

theorem ringKept_startupCompletes (s : State) : RingKept s (startupCompletes s) := by
  have ready : ∀ u, RingKept u (becomeReady u) := fun u =>
    JournalSame.kept ⟨rfl, rfl, .inl rfl⟩ id (portSound_same (fun _ => rfl) (fun _ => rfl))
  rw [startupCompletes]
  split
  · split
    · exact ringKept_refl s
    · rcases maintStep_cases (fun _ => becomeReady) s with he | ⟨w, -, -, he⟩
      · exact .of_eq he (ringKept_refl s)
      · exact .of_eq he ((ringKept_of_maintOnly (.stepServed w s)).trans (ready _))
    · exact ready s
  · exact ringKept_refl s

/-- An emptied log is sound (R81). -/
theorem logSound_reset {s : State} (h : s.log = CaptionLog.reset) : LogSound s := by
  rw [LogSound, h]
  exact ⟨by decide, rfl, rfl⟩

/-- Every port IDLE, and nothing owed to any (R181). -/
theorem portSound_idle {s : State} (hports : ∀ p, (s.ports.get p).exchange = .idle) (hmemory : s.memory = Memory.reset)
    (hreports : s.reports = ⟨none, none, none, none⟩) : PortSound s := by
  intro p
  have hnone : reportsFor p s.reports = 0 := by
    rw [hreports, reportsFor]
    match p with
    | 0 => rfl
    | 1 => rfl
    | 2 => rfl
    | 3 => rfl
  rw [owedTo_eq, hmemory, hnone, hports]
  rfl

theorem engineUseEnds_pointers (s : State) : (engineUseEnds s).journal.head = s.journal.head ∧
    (engineUseEnds s).journal.oldest = s.journal.oldest ∧ (engineUseEnds s).journal.cursor = s.journal.cursor ∧
    (engineUseEnds s).journal.pull = s.journal.pull := by
  obtain ⟨t, w, ht, he⟩ := engineUseEnds_shape s
  have pointers := ringSound_pointers ht
  rw [he]
  exact pointers

/-- A transaction that a reset meets keeps the law of pointers. -/
theorem appendInFlight_law {s : State} (hring : RingSound s.journal) (h : PointerSound s) :
    JournalLaw (appendInFlight s).journal 0 := by
  have none : JournalLaw s.journal 0 := journalLaw_mono ((pointerSound_iff s).mp h) (Nat.zero_le _)
  rw [appendInFlight]
  split
  · exact none
  · split
    · next w rest _ hwork =>
      have law : JournalLaw s.journal (rest.length + 1) := by
        rw [pointerSound_iff, hwork] at h
        exact h
      exact journalLaw_mono (journalLaw_append hring law _) (Nat.zero_le _)
    · obtain ⟨hhead, holdest, hcursor, hpull⟩ := engineUseEnds_pointers s
      rw [JournalLaw, Journal.held, hhead, holdest, hcursor, hpull]
      exact none
    · obtain ⟨_, _, _, he, -⟩ := maintUseEnds_shape s
      rw [he]
      exact none
    · exact none

theorem ringKept_resetPart (c : ResetCause) (d : DeviceState) (s : State) : RingKept s (resetPart c d s) where
  log _ := logSound_reset rfl
  journal hj _ := ⟨(journalSound_iff _).mpr (appendInFlight_ring ((journalSound_iff s).mp hj)).atReset, takeSound_none rfl⟩
  pointer hj _ hp := journalLaw_atReset (appendInFlight_ring ((journalSound_iff s).mp hj))
    (appendInFlight_law ((journalSound_iff s).mp hj) hp)
  port _ := portSound_idle (fun p => by rw [resetPart_eq]; simp [resetBlocks, Port.cleared]) rfl rfl

end Sys2Proof.Proofs
end

section
/-! PROOFS. The rings, the pointers and the WORKING ports through the requests, and so through every step (R9, R158, R159). -/

namespace Sys2Proof.Proofs

open Sys2Proof.Machine

/-! ### A port that was just taken -/

/-- A request has just taken the port: it is WORKING, and nothing is owed to it yet. -/
structure Taking (p : PortId) (s : State) : Prop where
  others : ∀ q, q ≠ p → owedTo q s = if (s.ports.get q).exchange = .working then 1 else 0
  none : owedTo p s = 0
  working : (s.ports.get p).exchange = .working

/-- What a request keeps that has just taken its port. -/
structure TakenKept (p : PortId) (s t : State) : Prop where
  log : LogSound s → LogSound t
  journal : JournalSound s → TakeSound s → JournalSound t ∧ TakeSound t
  pointer : JournalSound s → TakeSound s → PointerSound s → PointerSound t
  port : Taking p s → PortSound t

theorem TakenKept.of_eq {p : PortId} {s t u : State} (he : t = u) (h : TakenKept p s u) : TakenKept p s t := he ▸ h

/-- A port that is answered has no response to wait for. -/
theorem portSound_answered {p : PortId} {s t : State} (h : Taking p s) (ho : ∀ q, owedTo q t = owedTo q s)
    (hports : OnlyPort p s.ports t.ports) (hx : ∃ f, (t.ports.get p).exchange = .answering f) : PortSound t := by
  intro q
  rw [ho]
  by_cases hq : q = p
  · subst hq
    obtain ⟨f, hf⟩ := hx
    rw [h.none, hf, if_neg nofun]
  · rw [hports q hq]
    exact h.others q hq

/-- A port that is not answered waits for the one response that is formed for it. -/
theorem portSound_waiting {p : PortId} {s t : State} (h : Taking p s) (ho : owedTo p t = owedTo p s + 1)
    (hother : ∀ q, q ≠ p → owedTo q t = owedTo q s) (hports : OnlyPort p s.ports t.ports)
    (hx : (t.ports.get p).exchange = .working) : PortSound t := by
  intro q
  by_cases hq : q = p
  · subst hq
    rw [ho, h.none, if_pos hx]
  · rw [hother q hq, hports q hq]
    exact h.others q hq

theorem takenKept_answer (p : PortId) (k : Kind) (tag : Byte) (r : Reply) (s : State) : TakenKept p s (answer p k tag r s) where
  log := id
  journal hj ht := ⟨hj, ht⟩
  pointer _ _ := id
  port h := portSound_answered h (fun _ => rfl) (answer_onlyPort p k tag r s) ⟨_, answer_exchange ..⟩

theorem takenKept_refuse (p : PortId) (k : Kind) (tag : Byte) (c : Cause) (d : Nat) (s : State) :
    TakenKept p s (refuse p k tag c d s) := takenKept_answer ..

/-- A request that is answered at once and touches neither ring nor memory. -/
theorem takenKept_replied {p : PortId} {s t : State} (hlog : t.log = s.log) (hsame : JournalSame s t)
    (ho : ∀ q, owedTo q t = owedTo q s) (hports : OnlyPort p s.ports t.ports)
    (hx : ∃ f, (t.ports.get p).exchange = .answering f) : TakenKept p s t :=
  ⟨logSound_same hlog, fun hj ht => ⟨hsame.sound hj, hsame.take ht⟩, fun _ _ => hsame.pointer,
    fun h => portSound_answered h ho hports hx⟩

/-! ### STROKE, PULL, FETCH and STATUS -/

/-- The reports of one port written. -/
theorem reportsFor_set (p q : PortId) (r : Quad (Option StatusReading)) (x : Option StatusReading) :
    reportsFor q (r.set p x) = if q = p then (if x.isSome then 1 else 0) else reportsFor q r := by
  rw [reportsFor, Quad.get_set]
  split
  · rfl
  · rfl

theorem strokesFor_append (q : PortId) (a : List IntakeWork) (w : IntakeWork) :
    strokesFor q (a ++ [w]) = strokesFor q a + if w.port = q then 1 else 0 := by
  by_cases h : w.port = q
  · simp [strokesFor, h]
  · simp [strokesFor, h]

theorem pullsFor_append (q : PortId) (a : List PullWork) (w : PullWork) :
    pullsFor q (a ++ [w]) = pullsFor q a + if w.port = q then 1 else 0 := by
  by_cases h : w.port = q
  · simp [pullsFor, h]
  · simp [pullsFor, h]

theorem fetchesFor_fetch (q : PortId) (a : List LogWork) (w : ReadWork) :
    fetchesFor q (a ++ [.fetch w]) = fetchesFor q a + if w.port = q then 1 else 0 := by
  rw [fetchesFor_append, fetchesFor_cons]
  simp [fetchesFor]

theorem setWorking_onlyPort (p : PortId) (s : State) : OnlyPort p s.ports (setWorking p s).ports := OnlyPort.modify p s.ports _

theorem setWorking_exchange (p : PortId) (s : State) : ((setWorking p s).ports.get p).exchange = .working := by
  simp [setWorking]

/-- What an accepted chord comes to: the guard's release, and an append more. -/
theorem takeChord_shape (p : PortId) (tag : Byte) (c : Chord) (s : State) : ∃ (t : State) (b : Bool) (us : List ListedUnit)
    (g : Bool), EngineOnly s t ∧ takeChord p tag c s = { t with
      maint := { t.maint with lockTurn := b }
      memory := { s.memory with
        logWork := s.memory.logWork ++ us.map (fun u => .change (segmentBlock u.segment))
        intakeWork := s.memory.intakeWork ++ [⟨p, tag, c, g⟩] } } := by
  rw [takeChord]
  split
  · obtain ⟨t, b, us, ht, he⟩ := guardRelease_shape (victimSeq s) s
    refine ⟨t, b, us, guardSettles s, ht, ?_⟩
    rw [he, ht.memory]
  · refine ⟨s, s.maint.lockTurn, [], guardSettles s, .refl s, ?_⟩
    simp

/-- One append more waits: in a full ring the record that it will overwrite was taken (R13). -/
theorem journalLaw_accept {j : Journal} {n : Nat} (h : JournalLaw j n)
    (htaken : Config.journalRing ≤ j.held + n → j.oldest + (j.held + n - Config.journalRing) < j.cursor) :
    JournalLaw j (n + 1) := by
  obtain ⟨hlow, hpull⟩ := h
  refine ⟨?_, hpull⟩
  generalize Config.journalRing = ring at *
  by_cases hfull : ring ≤ j.held + n
  · have := htaken hfull
    omega
  · omega

theorem takenKept_takeChord (p : PortId) (tag : Byte) (c : Chord) {s : State} (hfree : journalExhausted s = false) :
    TakenKept p s (takeChord p tag c s) := by
  have hports := takeChord_ports p tag s c
  obtain ⟨t, b, us, g, ht, he⟩ := takeChord_shape p tag c s
  have hjournal : (takeChord p tag c s).journal = s.journal := by
    rw [he]
    exact ht.journal
  have howed : ∀ q, owedTo q (takeChord p tag c s) = owedTo q s + if p = q then 1 else 0 := by
    intro q
    have hreports : t.reports = s.reports := by
      obtain ⟨⟨_, _, _, rfl⟩, -⟩ := ht
      rfl
    rw [he, owedTo_eq, owedTo_eq]
    simp only [strokesFor_append, fetchesFor_append, fetchesFor_changes, hreports]
    omega
  refine ⟨fun h => ?_, fun hj htake => ⟨?_, ?_⟩, fun _ _ hp => ?_, fun h => portSound_waiting h ?_ (fun q hq => ?_)
    (fun q _ => by rw [hports]) (by rw [hports]; exact h.working)⟩
  · rw [he]
    exact ht.2 h
  · rw [JournalSound, hjournal]
    exact hj
  · have hwork : (takeChord p tag c s).memory.engineWork = s.memory.engineWork := by rw [he]
    rw [TakeSound, hjournal, hwork]
    exact htake
  · have hlen : (takeChord p tag c s).memory.intakeWork.length = s.memory.intakeWork.length + 1 := by
      rw [he]
      simp
    rw [pointerSound_iff, hjournal, hlen]
    refine journalLaw_accept hp (fun hfull => Nat.lt_of_not_le fun hc => ?_)
    rw [(journalExhausted_iff s).mpr (.inr ⟨hfull, hc⟩)] at hfree
    cases hfree
  · rw [howed, if_pos rfl]
  · rw [howed, if_neg (fun h => hq h.symm)]
    rfl

theorem takenKept_serveStroke (p : PortId) (tag : Byte) (body : List Byte) (s : State) :
    TakenKept p s (serveStroke p tag body s) := by
  rcases serveStroke_cases p tag s body with ⟨c, d, h⟩ | ⟨c, h, -, -, -, hfree⟩
  · exact .of_eq h (takenKept_refuse ..)
  · exact .of_eq h (takenKept_takeChord p tag c hfree)

theorem ringSound_pull {s : State} (h : JournalSound s) (q : Quad (Option PullCursor)) :
    RingSound { s.journal with pull := q } := ((journalSound_iff s).mp h).pull q

theorem takenKept_servePull (p : PortId) (tag : Byte) (body : List Byte) (s : State) :
    TakenKept p s (servePull p tag body s) := by
  rcases servePull_cases p tag s body with ⟨d, h⟩ | ⟨cursors, hmoved, ⟨b, h⟩ | ⟨w, hw, h⟩⟩
  · exact .of_eq h (takenKept_refuse ..)
  · refine .of_eq h ⟨id, fun hj ht => ⟨ringSound_pull hj cursors, ht⟩, fun _ _ hp => journalLaw_pull hmoved hp, fun hs =>
      portSound_answered hs (fun _ => rfl) (answer_onlyPort p _ tag _ _) ⟨_, answer_exchange ..⟩⟩
  · refine .of_eq h ⟨id, fun hj ht => ⟨ringSound_pull hj cursors, ht⟩, fun _ _ hp => journalLaw_pull hmoved hp, fun hs =>
      portSound_waiting hs ?_ (fun q hq => ?_) (setWorking_onlyPort p _) (setWorking_exchange p _)⟩
    · rw [owedTo_eq, owedTo_eq]
      simp only [setWorking_memory, setWorking_reports, pullsFor_append, hw, if_true]
      omega
    · rw [owedTo_eq, owedTo_eq]
      simp only [setWorking_memory, setWorking_reports, pullsFor_append, hw, if_neg (fun h : p = q => hq h.symm), Nat.add_zero]

theorem takenKept_serveFetch (p : PortId) (tag : Byte) (body : List Byte) (s : State) :
    TakenKept p s (serveFetch p tag body s) := by
  rcases serveFetch_cases p tag s body with ⟨c, d, h⟩ | ⟨feeds, ⟨b, h⟩ | ⟨w, hw, h⟩⟩
  · exact .of_eq h (takenKept_refuse ..)
  · exact .of_eq h ⟨id, fun hj ht => ⟨hj, ht⟩, fun _ _ hp => hp, fun hs =>
      portSound_answered hs (fun _ => rfl) (answer_onlyPort p _ tag _ _) ⟨_, answer_exchange ..⟩⟩
  · refine .of_eq h ⟨id, fun hj ht => ⟨hj, ht⟩, fun _ _ hp => hp, fun hs =>
      portSound_waiting hs ?_ (fun q hq => ?_) (setWorking_onlyPort p _) (setWorking_exchange p _)⟩
    · rw [owedTo_eq, owedTo_eq]
      simp only [setWorking_memory, setWorking_reports, fetchesFor_fetch, hw, if_true]
      omega
    · rw [owedTo_eq, owedTo_eq]
      simp only [setWorking_memory, setWorking_reports, fetchesFor_fetch, hw, if_neg (fun h : p = q => hq h.symm), Nat.add_zero]

theorem owedTo_setReport (q p : PortId) (x : Option StatusReading) (s : State) : owedTo q (setReport p x s) =
    strokesFor q s.memory.intakeWork + pullsFor q s.memory.pullWork + fetchesFor q s.memory.logWork +
      if q = p then (if x.isSome then 1 else 0) else reportsFor q s.reports := by
  rw [owedTo_eq, ← reportsFor_set]
  rfl

/-- With nothing owed to the port no STATUS of it is in reading. -/
theorem Taking.noReport {p : PortId} {s : State} (h : Taking p s) : strokesFor p s.memory.intakeWork = 0 ∧
    pullsFor p s.memory.pullWork = 0 ∧ fetchesFor p s.memory.logWork = 0 ∧ reportsFor p s.reports = 0 := by
  have := h.none
  rw [owedTo_eq] at this
  omega

theorem takenKept_serveStatus (p : PortId) (tag : Byte) (reads : List Nat) (body : List Byte) (s : State) :
    TakenKept p s (serveStatus p tag reads body s) := by
  rcases serveStatus_cases p tag s reads body with ⟨c, d, h⟩ | ⟨b, h⟩ | ⟨r, h⟩
  · exact .of_eq h (takenKept_refuse ..)
  · refine .of_eq h ⟨id, fun hj ht => ⟨hj, ht⟩, fun _ _ hp => hp, fun hs => portSound_answered hs (fun q => ?_)
      (answer_onlyPort p _ tag _ _) ⟨_, answer_exchange ..⟩⟩
    rw [owedTo_answer, owedTo_setReport, owedTo_eq]
    split
    · next hq =>
      rw [hq, hs.noReport.2.2.2]
      rfl
    · rfl
  · refine .of_eq h ⟨id, fun hj ht => ⟨hj, ht⟩, fun _ _ hp => hp, fun hs => portSound_waiting hs ?_ (fun q hq => ?_)
      (setWorking_onlyPort p _) (setWorking_exchange p _)⟩
    · rw [owedTo_setReport, if_pos rfl, owedTo_eq, hs.noReport.2.2.2]
      rfl
    · rw [owedTo_setReport, if_neg hq]
      rfl

/-! ### OPEN -/

/-- The ports that the emptying answers. -/
theorem foldl_answers_keep {α : Type} (f : α → State → State) (l : List α) (q : PortId)
    (hf : ∀ w s, (∃ x, (s.ports.get q).exchange = .answering x) → ∃ x, ((f w s).ports.get q).exchange = .answering x)
    (s : State) (h : ∃ x, (s.ports.get q).exchange = .answering x) :
    ∃ x, ((l.foldl (fun t w => f w t) s).ports.get q).exchange = .answering x := by
  induction l generalizing s with
  | nil => exact h
  | cons w rest ih => exact ih _ (hf w s h)

theorem foldl_answers {α : Type} (f : α → State → State) {l : List α} {q : PortId} {w : α} (hw : w ∈ l)
    (hf : ∀ w s, (∃ x, (s.ports.get q).exchange = .answering x) → ∃ x, ((f w s).ports.get q).exchange = .answering x)
    (hone : ∀ s, ∃ x, ((f w s).ports.get q).exchange = .answering x) (s : State) :
    ∃ x, ((l.foldl (fun t w => f w t) s).ports.get q).exchange = .answering x := by
  induction l generalizing s with
  | nil => cases hw
  | cons v rest ih =>
    rcases List.mem_cons.mp hw with rfl | hw
    · exact foldl_answers_keep f rest q hf _ (hone s)
    · exact ih hw _

theorem answer_answers (q p : PortId) (k : Kind) (tag : Byte) (r : Reply) (s : State)
    (h : ∃ x, (s.ports.get q).exchange = .answering x) : ∃ x, ((answer p k tag r s).ports.get q).exchange = .answering x := by
  by_cases hq : q = p
  · subst hq
    exact ⟨_, answer_exchange ..⟩
  · rw [answer_onlyPort p k tag r s q hq]
    exact h

/-- A port for which reads wait is answered by the emptying (R149). -/
theorem answerWaiting_answers {q : PortId} {s : State} (h : ReadsWait q s) :
    ∃ x, ((answerWaiting s).ports.get q).exchange = .answering x := by
  have fetchKeeps : ∀ (w : LogWork) (t : State), (∃ x, (t.ports.get q).exchange = .answering x) →
      ∃ x, ((match w with
        | .fetch f => answer f.port .fetch f.tag (doneReply f.items) t
        | .startAppend => t
        | .endAppend => t
        | .change _ => t : State).ports.get q).exchange = .answering x := by
    intro w t ht
    cases w with
    | fetch f => exact answer_answers q f.port _ _ _ t ht
    | _ => exact ht
  rw [answerWaiting]
  rcases h with ⟨w, hw, rfl⟩ | ⟨f, hf, rfl⟩
  · exact foldl_answers_keep _ s.memory.logWork _ fetchKeeps _
      (foldl_answers (fun w t => answer w.port .pull w.tag (doneReply (w.items ++ w.left.flatMap (pullItem s w.port))) t) hw
        (fun v t ht => answer_answers _ v.port _ _ _ t ht) (fun t => ⟨_, answer_exchange ..⟩) s)
  · exact foldl_answers _ hf fetchKeeps (fun t => ⟨_, answer_exchange ..⟩) _

/-- Reads wait for a port exactly where they are owed to it. -/
theorem readsWait_iff (q : PortId) (s : State) :
    ReadsWait q s ↔ 0 < pullsFor q s.memory.pullWork + fetchesFor q s.memory.logWork := by
  have pulls : (∃ w ∈ s.memory.pullWork, w.port = q) ↔ 0 < pullsFor q s.memory.pullWork := by
    rw [pullsFor, List.length_pos_iff_exists_mem]
    simp
  have fetches : (∃ f, LogWork.fetch f ∈ s.memory.logWork ∧ f.port = q) ↔ 0 < fetchesFor q s.memory.logWork := by
    rw [fetchesFor, List.length_pos_iff_exists_mem]
    constructor
    · rintro ⟨f, hf, hq⟩
      exact ⟨.fetch f, List.mem_filter.mpr ⟨hf, by simp [isFetchFor, hq]⟩⟩
    · rintro ⟨w, hw⟩
      obtain ⟨hmem, hfor⟩ := List.mem_filter.mp hw
      cases w with
      | fetch f => exact ⟨f, hmem, of_decide_eq_true hfor⟩
      | _ => cases hfor
  rw [ReadsWait, pulls, fetches]
  omega

/-- OPEN with its fields is refused, or empties the session and is ACCEPTED (R147 to R149). -/
theorem serveOpenSession_cases (p : PortId) (tag : Byte) (body : List Byte) (s : State) :
    (∃ c d, serveOpenSession p tag body s = refuse p .openSession tag c d s) ∨
      ∃ job n, serveOpenSession p tag body s = accept p .openSession tag (refreshActivity (askStart p n (emptySession job s))) := by
  rw [serveOpenSession]
  cases openBody body with
  | error d => exact .inl ⟨_, _, rfl⟩
  | ok a =>
    show (∃ c d, acceptOpen p tag a s = _) ∨ _
    rw [withFields, acceptOpen]
    split
    · exact .inl ⟨_, _, rfl⟩
    · split
      · exact .inl ⟨_, _, rfl⟩
      · split
        · exact .inl ⟨_, _, rfl⟩
        · split
          · exact .inl ⟨_, _, rfl⟩
          · exact .inr ⟨_, _, rfl⟩

theorem accept_exchange (p : PortId) (k : Kind) (tag : Byte) (s : State) :
    ((accept p k tag s).ports.get p).exchange = .answering (responseFrame (byteOf k.code) tag acceptedReply) :=
  answer_exchange ..

theorem takenKept_serveOpenSession (p : PortId) (tag : Byte) (body : List Byte) (s : State) :
    TakenKept p s (serveOpenSession p tag body s) := by
  rcases serveOpenSession_cases p tag body s with ⟨c, d, h⟩ | ⟨job, n, h⟩
  · exact .of_eq h (takenKept_refuse ..)
  · rw [refreshActivity_eq] at h
    refine .of_eq h ⟨fun _ => logSound_reset rfl, fun _ _ => ⟨(journalSound_iff _).mpr (.emptied s.journal), takeSound_none rfl⟩,
      fun hj _ hp => journalLaw_emptied (waiting_le_ring ((journalSound_iff s).mp hj) hp), fun hs q => ?_⟩
    obtain ⟨ports, hports, hopen⟩ := answerWaiting_shape s
    have howed : owedTo q (accept p .openSession tag (refreshed (askStart p n (emptySession job s)))) =
        strokesFor q s.memory.intakeWork + reportsFor q s.reports := by
      rw [owedTo_eq]
      show strokesFor q s.memory.intakeWork + 0 + 0 + reportsFor q (answerWaiting s).reports = _
      rw [hports]
      rfl
    rw [howed]
    by_cases hq : q = p
    · subst hq
      rw [accept_exchange, if_neg nofun, hs.noReport.1, hs.noReport.2.2.2]
    · have hsame : (accept p .openSession tag (refreshed (askStart p n (emptySession job s)))).ports.get q =
          (answerWaiting s).ports.get q := accept_onlyPort p .openSession tag (refreshed (askStart p n (emptySession job s))) q hq
      rw [hsame]
      have hbefore := hs.others q hq
      rw [owedTo_eq] at hbefore
      by_cases hwait : ReadsWait q s
      · obtain ⟨x, hx⟩ := answerWaiting_answers hwait
        rw [hx, if_neg nofun]
        have := (readsWait_iff q s).mp hwait
        split at hbefore
        · omega
        · omega
      · have := (readsWait_iff q s).not.mp hwait
        rw [hports]
        show _ = if (ports.get q).exchange = .working then 1 else 0
        rw [(hopen q).2.2 hwait, ← hbefore]
        omega

/-! ### Every owner -/

/-- A request that is answered at once and notices the journal of a row's new classes (R11). -/
theorem takenKept_setAccess (p : PortId) (tag : Byte) (body : List Byte) (s : State) :
    TakenKept p s (serveSetAccess p tag body s) := by
  have hx := (servedBy_replied p tag s [] (k := .setAccess) rfl body).exchange
  rcases serveSetAccess_shape p tag body s with ⟨_, he, hq⟩ | ⟨ports, r, c, f, hq, -, he⟩
  · exact takenKept_replied (by rw [he]) ⟨by rw [he], by rw [he], .inl (by rw [he])⟩ (fun _ => by rw [he]; rfl)
      (by rw [he]; exact hq) hx
  · have hjournal : (serveSetAccess p tag body s).journal = s.journal.notice r c := by rw [he]
    have hmemory : (serveSetAccess p tag body s).memory = s.memory := by rw [he]
    refine ⟨logSound_same (by rw [he]), fun hj ht => ⟨?_, ?_⟩, fun _ _ hp => ?_, fun h =>
      portSound_answered h (fun _ => by rw [he]; rfl) (by rw [he]; exact hq) hx⟩
    · rw [journalSound_iff, hjournal]
      exact ((journalSound_iff s).mp hj).pull _
    · rw [TakeSound, hjournal, hmemory]
      exact ht
    · rw [pointerSound_iff, hjournal, hmemory]
      exact journalLaw_notice hp r c

theorem takenKept_serveRestart (p : PortId) (tag : Byte) (body : List Byte) (s : State) :
    TakenKept p s (serveRestart p tag body s) := by
  rcases serveRestart_cases p tag s body with ⟨d, -, h⟩ | ⟨-, h⟩
  · exact .of_eq h (takenKept_refuse ..)
  · have kept := ringKept_resetPart .restart .starting s
    exact .of_eq h ⟨kept.log, kept.journal, kept.pointer, fun _ =>
      portSound_idle (fun p => by rw [resetPart_eq]; simp [resetBlocks, Port.cleared]) rfl rfl⟩

/-- Of the owners those of STROKE, PULL and OPEN write the journal, and OPEN's empties it. -/
theorem takenKept_servedBy (reads : List Nat) (k : Kind) (p : PortId) (tag : Byte) (body : List Byte) (s : State) :
    TakenKept p s (servedBy reads k p tag body s) := by
  have atOnce : Kind.repliesAtOnce k = true → k ≠ .restart → k ≠ .openSession → ∀ u : State,
      servedBy reads k p tag body s = u → u.log = s.log → JournalSame s u → (∀ q, owedTo q u = owedTo q s) →
      TakenKept p s (servedBy reads k p tag body s) := fun hk hr ho u he hlog hsame howed => by
    have hports := servedBy_onlyPort reads hr ho p tag body s
    have hx := (servedBy_replied p tag s reads hk body).exchange
    rw [he] at hports hx ⊢
    exact takenKept_replied hlog hsame howed hports hx
  have ports : Kind.repliesAtOnce k = true → k ≠ .restart → k ≠ .openSession →
      PortsOnly p s (servedBy reads k p tag body s) → TakenKept p s (servedBy reads k p tag body s) :=
    fun hk hr ho ⟨_, he, _⟩ => atOnce hk hr ho _ he rfl ⟨rfl, rfl, .inl rfl⟩ (fun _ => rfl)
  have queued : Kind.repliesAtOnce k = true → k ≠ .restart → k ≠ .openSession → k ∈ [Kind.put, .drop, .clearTier, .get] →
      TakenKept p s (servedBy reads k p tag body s) := fun hk hr ho hm => by
    rcases servedBy_maint_shape reads hm p tag body s with hports | ⟨_, _, -, he⟩
    · exact ports hk hr ho hports
    · exact atOnce hk hr ho _ he rfl ⟨rfl, rfl, .inl rfl⟩ (fun _ => rfl)
  cases k with
  | stroke => exact takenKept_serveStroke ..
  | pull => exact takenKept_servePull ..
  | fetch => exact takenKept_serveFetch ..
  | status => exact takenKept_serveStatus ..
  | setAccess => exact takenKept_setAccess ..
  | restart => exact takenKept_serveRestart ..
  | openSession => exact takenKept_serveOpenSession ..
  | put => exact queued rfl nofun nofun (by decide)
  | drop => exact queued rfl nofun nofun (by decide)
  | clearTier => exact queued rfl nofun nofun (by decide)
  | get => exact queued rfl nofun nofun (by decide)
  | collect => exact ports rfl nofun nofun (serveCollect_shape p tag body s)
  | subscribe =>
    obtain ⟨_, _, -, he⟩ := serveSubscribe_shape p tag body s
    exact atOnce rfl nofun nofun _ he rfl ⟨rfl, rfl, .inl rfl⟩ (fun _ => rfl)
  | unsubscribe =>
    obtain ⟨_, _, -, he⟩ := serveUnsubscribe_shape p tag body s
    exact atOnce rfl nofun nofun _ he rfl ⟨rfl, rfl, .inl rfl⟩ (fun _ => rfl)
  | speaker =>
    obtain ⟨_, _, -, he, -⟩ := serveSpeaker_shape p tag body s
    exact atOnce rfl nofun nofun _ he rfl ⟨rfl, rfl, .inl rfl⟩ (fun _ => rfl)
  | setTiers =>
    obtain ⟨_, _, _, -, he, -⟩ := serveSetTiers_shape p tag body s
    exact atOnce rfl nofun nofun _ he rfl ⟨rfl, rfl, .inl rfl⟩ (fun _ => rfl)
  | setHold =>
    obtain ⟨_, _, -, he, -⟩ := serveSetHold_shape p tag body s
    exact atOnce rfl nofun nofun _ he rfl ⟨rfl, rfl, .inl rfl⟩ (fun _ => rfl)
  | setOffset =>
    obtain ⟨_, _, -, he⟩ := serveSetOffset_shape p tag body s
    exact atOnce rfl nofun nofun _ he rfl ⟨rfl, rfl, .inl rfl⟩ (fun _ => rfl)
  | setArbiter =>
    obtain ⟨_, m, -, he, hm⟩ := serveSetArbiter_shape p tag body s
    rcases hm with rfl | ⟨_, rfl⟩
    · exact atOnce rfl nofun nofun _ he rfl ⟨rfl, rfl, .inl rfl⟩ (fun _ => rfl)
    · exact atOnce rfl nofun nofun _ he rfl ⟨rfl, rfl, .inl rfl⟩ (fun _ => rfl)
  | trust =>
    rcases serveTrust_shape p tag body s with hports | ⟨_, _, _, -, -, he⟩
    · exact ports rfl nofun nofun hports
    · exact atOnce rfl nofun nofun _ he rfl ⟨rfl, rfl, .inl rfl⟩ (fun _ => rfl)
  | lockPort =>
    rcases serveLockPort_shape p tag body s with hports | ⟨_, _, -, he⟩
    · exact ports rfl nofun nofun hports
    · exact atOnce rfl nofun nofun _ he rfl ⟨rfl, rfl, .inl rfl⟩ (fun _ => rfl)
  | lockTier =>
    rcases serveLockTier_shape p tag body s with hports | ⟨_, _, -, he⟩
    · exact ports rfl nofun nofun hports
    · exact atOnce rfl nofun nofun _ he rfl ⟨rfl, rfl, .inl rfl⟩ (fun _ => rfl)
  | retranslate =>
    obtain ⟨_, _, -, he⟩ := serveRetranslate_shape p tag body s
    exact atOnce rfl nofun nofun _ he rfl ⟨rfl, rfl, .inl rfl⟩ (fun _ => rfl)
  | closeSession =>
    obtain ⟨_, _, -, he⟩ := serveCloseSession_shape p tag body s
    exact atOnce rfl nofun nofun _ he rfl ⟨rfl, rfl, .inl rfl⟩ (fun _ => rfl)

/-! ### Select periods -/

/-- An exchange written as it was, or one that is not WORKING over another that is not. -/
theorem ringKept_setExchange {p : PortId} {x : Exchange} {s : State}
    (hx : (x = .working) ↔ (s.ports.get p).exchange = .working) (out : List Byte) : RingKept s (setExchange p x out s) := by
  refine JournalSame.kept ⟨rfl, rfl, .inl rfl⟩ id (fun h q => ?_)
  have hq := h q
  show owedTo q s = if ((s.ports.modify p (fun r => { r with exchange := x, dataOut := out })).get q).exchange = .working
    then 1 else 0
  by_cases he : q = p
  · subst he
    rw [hq, Quad.get_modify_same]
    exact if_congr hx.symm rfl rfl
  · rw [hq, Quad.get_modify_other _ _ he]

/-- A request phase has begun on a port that waited for none. -/
theorem ringKept_begun {p : PortId} {n : Nat} {s t : State} (hidle : (s.ports.get p).exchange.takesRequest = true)
    (h : TakenKept p (beginExchange p n s) t) : RingKept s t := by
  refine ⟨h.log, fun hj ht => h.journal hj ht, fun hj ht hp => h.pointer hj ht hp, fun hs => h.port ⟨fun q hq => ?_, ?_, ?_⟩⟩
  · have hsame : (beginExchange p n s).ports.get q = s.ports.get q :=
      portMoved_onlyPort (portMoved_setExchange p .working (zeros n) s) q hq
    rw [hsame]
    exact hs q
  · have := hs p
    rw [if_neg (fun hw => by rw [hw] at hidle; cases hidle)] at this
    exact this
  · simp [beginExchange, setExchange]

theorem takenKept_throughChecks {p : PortId} {act : State → State} (hact : ∀ u, TakenKept p u (act u)) (k : Kind) (tag : Byte)
    (s : State) : TakenKept p s (throughChecks p k tag act s) := by
  rw [throughChecks]
  split
  · exact takenKept_refuse ..
  · split
    · exact hact s
    · exact takenKept_refuse ..

/-- A STATUS in reading goes on, on a port that is WORKING for it (R179). -/
theorem ringKept_readOn (p : PortId) (s : State) (hworking : (s.reports.get p).isSome → PortSound s →
    (s.ports.get p).exchange = .working) : RingKept s (readOn p s) := by
  rw [readOn]
  split
  · next r hr =>
    have hone : reportsFor p s.reports = 1 := by
      rw [reportsFor, hr]
      rfl
    rcases carryReport_cases p s (r.advance s p) with h | h
    · refine .of_eq h (JournalSame.kept ⟨rfl, rfl, .inl rfl⟩ id (fun hs => portSound_paid hs rfl ?_ (fun q hq => ?_)))
      · rw [owedTo_setReport, if_pos rfl, owedTo_eq, hone]
        rfl
      · rw [owedTo_setReport, if_neg hq]
        rfl
    · refine .of_eq h (JournalSame.kept ⟨rfl, rfl, .inl rfl⟩ id (fun hs => ?_))
      have hw := hworking (by rw [hr]; rfl) hs
      refine portSound_same (fun q => ?_) (fun q => ?_) hs
      · show ((setWorking p s).ports.get q).exchange = _
        by_cases hq : q = p
        · subst hq
          rw [setWorking_exchange, hw]
        · rw [setWorking_onlyPort p s q hq]
      · rw [owedTo_setReport, owedTo_eq]
        split
        · next hq =>
          rw [hq]
          show _ + 1 = _
          rw [hone]
          rfl
        · rfl
  · exact ringKept_refl s

/-- WORKING lasts as long as a STATUS is in reading. -/
theorem working_of_report {p : PortId} {s : State} (hr : (s.reports.get p).isSome) (h : PortSound s) :
    (s.ports.get p).exchange = .working := by
  have hone : reportsFor p s.reports = 1 := by
    rw [reportsFor, if_pos hr]
  have := h p
  rw [owedTo_eq, hone] at this
  split at this
  · next hw => exact hw
  · omega

theorem ringKept_responsePeriod (p : PortId) (n : Nat) (s : State) : RingKept s (responsePeriod p n s) := by
  rw [responsePeriod]
  have shifted : RingKept s (shiftOut p n s) := by
    rw [shiftOut]
    split
    · next f hf =>
      refine ringKept_setExchange ?_ _
      rw [hf]
      split
      · exact iff_of_false nofun nofun
      · exact iff_of_false nofun nofun
    · next hx => exact ringKept_setExchange (iff_of_eq (by rw [hx])) _
    · next hx => exact ringKept_setExchange (iff_of_eq (by rw [hx])) _
    · next hx => exact ringKept_setExchange (iff_of_eq (by rw [hx])) _
  exact shifted.trans (ringKept_readOn p _ (fun hr hs => working_of_report hr hs))

theorem ringKept_requestPeriod {p : PortId} {act : State → State} (hact : ∀ u, TakenKept p u (act u)) (k : Kind) (tag : Byte)
    (body : List Byte) (s : State) : RingKept s (requestPeriod p k tag body act s) := by
  rw [requestPeriod]
  split
  · exact ringKept_setExchange .rfl _
  · split
    · next hidle =>
      split
      · exact ringKept_begun hidle (takenKept_throughChecks hact ..)
      · exact ringKept_begun hidle (takenKept_answer ..)
    · exact ringKept_responsePeriod p _ s

/-- The answer to a frame that fails the check (R161). -/
theorem takenKept_respond (p : PortId) (k tag : Byte) (r : Reply) (s : State) : TakenKept p s (respond p k tag r s) where
  log := id
  journal hj ht := ⟨hj, ht⟩
  pointer _ _ := id
  port h := portSound_answered h (fun _ => rfl) (OnlyPort.modify p s.ports _) ⟨responseFrame k tag r, by simp [respond]⟩

theorem ringKept_selectPeriod (p : PortId) (bytes : List Byte) (s : State) : RingKept s (selectPeriod p bytes s) := by
  rw [selectPeriod]
  split
  · exact ringKept_setExchange .rfl _
  · split
    · next hidle =>
      split
      · exact ringKept_setExchange (x := .idle)
          (iff_of_false (by decide) (fun hw => by rw [hw] at hidle; cases hidle)) _
      · refine ringKept_begun (n := bytes.length) hidle ?_
        rw [takeFrame]
        split
        · next k tag body _ =>
          exact takenKept_throughChecks (fun u => servedBy_nil k p tag body ▸ takenKept_servedBy [] k p tag body u) ..
        · exact takenKept_respond ..
    · exact ringKept_responsePeriod p _ s

/-! ### Every command -/

theorem ringKept_request {c : Instr} {k : Kind} {p : PortId} {tag : Byte} {body : List Byte}
    (hform : c.requestForm = some (k, p, tag, body)) {s t : State} (hexec : exec c s = .next t) : RingKept s t := by
  obtain ⟨reads, -, hx⟩ | ⟨-, hj, hx⟩ := exec_request hform s
  · rw [hx] at hexec
    cases hexec
    exact ringKept_requestPeriod (fun u => takenKept_servedBy reads k p tag body u) ..
  · rw [hx] at hexec
    cases hexec
    have hidle : (s.ports.get p).exchange = .idle := by
      simp only [justRestarted, Bool.and_eq_true, List.all_eq_true, decide_eq_true_eq] at hj
      exact hj.2 p (by fin_cases p <;> decide)
    exact ringKept_setExchange (iff_of_eq (by rw [hidle])) _

theorem ringKept_exec (c : Instr) (s t : State) (hexec : exec c s = .next t) : RingKept s t := by
  have same : ∀ {u : State}, u.log = s.log → JournalSame s u → u.ports = s.ports → (∀ p, owedTo p u = owedTo p s) →
      RingKept s u := fun hl hj hp ho => hj.kept (logSound_same hl) (portSound_same (fun _ => by rw [hp]) ho)
  cases c with
  | frameRefused p bytes | responsePhase p bytes => cases hexec; exact ringKept_selectPeriod p bytes s
  | journalAppend => cases hexec; exact ringKept_journalAppends s
  | maintHeadCheck => cases hexec; exact ringKept_of_maintOnly (.maintHeadChecks s)
  | tableLockTake => cases hexec; exact ringKept_of_maintOnly (.tableLockTakes s)
  | putWriteEnd => cases hexec; exact ringKept_of_maintOnly (.putWritesEnd s)
  | dropWriteEnd => cases hexec; exact ringKept_of_maintOnly (.dropWritesEnd s)
  | clearTierStart => cases hexec; exact ringKept_of_maintOnly (.clearTierStarts s)
  | clearTierSweepEnd => cases hexec; exact ringKept_of_maintOnly (.clearTierSweepEnds s)
  | getAnswer => cases hexec; exact ringKept_of_maintOnly (.getAnswers s)
  | reResolution | takeStroke | takeStrike | closeSettle | retranslationStart | retranslationRebuild =>
    cases hexec; exact ringKept_engineRow _ s
  | expiry first =>
    cases hexec
    rw [expires]
    split
    · exact ringKept_refl s
    · exact ringKept_engineRow _ s
  | closeEndAppended => cases hexec; exact ringKept_closeEndAppends s
  | openStartAppended => cases hexec; exact ringKept_openStartAppends s
  | sessionClockTick n => cases hexec; exact same rfl ⟨rfl, rfl, .inl rfl⟩ rfl (fun _ => rfl)
  | memoryGrant asks => cases hexec; exact ringKept_memoryGrants asks s
  | sdramRefresh => cases hexec; exact ringKept_refl s
  | powerOn =>
    cases hexec
    refine ⟨fun _ => logSound_reset rfl, fun _ _ => ⟨(journalSound_iff _).mpr ?_, takeSound_none rfl⟩, fun _ _ _ => ?_, fun _ => ?_⟩
    · exact ⟨Nat.le_refl _, Nat.le_refl _, Nat.le_refl _, Nat.zero_le _, rfl⟩
    · exact journalLaw_emptied (j := State.reset.journal) (Nat.zero_le _)
    · exact portSound_idle (fun p => by fin_cases p <;> rfl) rfl rfl
  | resetLine ns sets =>
    cases hexec
    rw [resetAsserted]
    split
    · exact ringKept_refl s
    · have met : RingKept s (headerReadMet sets s) := by
        rw [headerReadMet]
        repeat' split
        all_goals exact same rfl ⟨rfl, rfl, .inl rfl⟩ rfl (fun _ => rfl)
      exact met.trans (ringKept_resetPart ..)
  | resetRelease =>
    cases hexec
    rw [resetReleased]
    split
    · exact same rfl ⟨rfl, rfl, .inl rfl⟩ rfl (fun _ => rfl)
    · exact ringKept_refl s
  | startupHeaderRead => cases hexec; exact ringKept_headerReadEnds s
  | startupComplete => cases hexec; exact ringKept_startupCompletes s
  | memoryTransactionComplete => cases hexec; exact ringKept_transactionEnds s
  | _ => exact ringKept_request rfl hexec

/-- Settles O5: what each command keeps, every step keeps. -/
theorem ringsKept : Obligations.RingsKept := by
  unfold Obligations.RingsKept
  intro s t hlog hjournal htake hstep
  have kept : RingKept s t := step_keeps (P := RingKept s)
    (fun u rest h => h.trans (JournalSame.kept ⟨rfl, rfl, .inl rfl⟩ id (portSound_same (fun _ => rfl) (fun _ => rfl))))
    (fun c u v h hexec => h.trans (ringKept_exec c u v hexec)) (ringKept_refl s) hstep
  obtain ⟨hj, ht⟩ := kept.journal hjournal htake
  exact ⟨kept.log hlog, hj, ht, fun hp hport => ⟨kept.pointer hjournal htake hp, kept.port hport⟩⟩

end Sys2Proof.Proofs
end

section
/-! PROOFS. The queue, request frames and their faults, the checks before the owner, and response phases (R159 to R164, R170,
R177). -/

namespace Sys2Proof.Proofs

open Sys2Proof.Machine

/-- Settles O1: the step's two cases. -/
theorem stepTakesTheFront : Obligations.StepTakesTheFront := by
  unfold Obligations.StepTakesTheFront
  refine fun s => ⟨fun c rest h => ?_, fun h => ?_⟩
  · rw [step, h]
  · rw [step, h]

/-! ### A request command is its frame (R159, R161, R162) -/

/-- Without a plan of its reads a STATUS is served as any kind is. -/
theorem servedBy_eq_serve {reads : List Nat} {k : Kind} (h : k = .status → reads = []) (p : PortId) (tag : Byte)
    (body : List Byte) : servedBy reads k p tag body = serve k p tag body := by
  cases k with
  | status =>
    rw [h rfl]
    rfl
  | _ => rfl

/-- The select period that writes a request frame is the request's. -/
theorem selectPeriod_requestFrame (k : Kind) (p : PortId) (tag : Byte) {body : List Byte}
    (hb : body.length ≤ Config.bodyLimit) (s : State) :
    selectPeriod p (requestFrame k tag body) s = requestPeriod p k tag body (serve k p tag body) s := by
  have hne : requestFrame k tag body ≠ [] := nofun
  rw [selectPeriod, requestPeriod, requestFrame_length, if_neg hne, if_pos hb, takeFrame, checkFrame_requestFrame k tag body hb]

/-- Settles O2: the frame passes its check and is the owner's work, whichever row names it. -/
theorem requestIsItsFrame : Obligations.RequestIsItsFrame := by
  unfold Obligations.RequestIsItsFrame
  intro c k p tag body s hwf hform hstatus hrestart
  have served : exec c s = .next (selectPeriod p (requestFrame k tag body) s) := by
    obtain ⟨reads, hreads, hx⟩ | ⟨hc, -, -⟩ := exec_request hform s
    · rw [hx, selectPeriod_requestFrame k p tag (requestForm_fits hwf hform),
        servedBy_eq_serve (fun hk => hstatus reads (hreads hk))]
    · exact absurd (hrestart true hc) (by decide)
  exact ⟨served.symm, served.symm⟩

/-! ### Right after power-on -/

/-- Settles O3, invariant by invariant, from what the resets leave. -/
theorem soundAtReset : Obligations.SoundAtReset := by
  unfold Obligations.SoundAtReset
  obtain ⟨haccess, hsettings, harbiter⟩ : Regular State.reset := regular_defaults rfl powerOn_pull rfl rfl rfl
  refine ⟨haccess, hsettings, rfl, harbiter, logSound_reset rfl, ?_, maintSound_empty rfl rfl,
    journalLaw_emptied (j := State.reset.journal) (Nat.zero_le _), ?_, stepSound_of_none rfl, takeSound_none rfl⟩
  · exact ⟨Nat.le_refl _, Nat.le_refl _, Nat.le_refl _, Nat.zero_le _, rfl⟩
  · exact portSound_idle (fun p => by fin_cases p <;> rfl) rfl rfl

/-! ### The access check and the STARTING check -/

/-- Settles O13: the table, and the two checks in their order. -/
theorem deniedThenStarting : Obligations.DeniedThenStarting := by
  unfold Obligations.DeniedThenStarting
  refine ⟨fun k row => by cases k <;> rfl, fun c k p tag body s hwf hform halone hheld hidle => ?_⟩
  obtain ⟨reads, -, hx⟩ := exec_request_idle hwf hform halone hheld hidle
  rw [hx, throughChecks, working_access, working_device]
  refine ⟨fun d hd => ?_, fun hd hstarting hstatus hcollect => ?_⟩
  · rw [hd]
    exact congrArg _ (refuse_working ..)
  · have notServed : ¬(s.device.state = .ready ∨ k.servedWhileStarting = true) := by
      rw [hstarting, Kind.servedWhileStarting]
      simp [hstatus, hcollect]
    rw [hd]
    simp only
    rw [if_neg notServed, refuse_working]

/-! ### Frames that fail the check -/

/-- A frame that fails the check, on an IDLE port (R161). -/
theorem frameRefused_told {p : PortId} {bytes : List Byte} {kb tb : Byte} {d : Nat} {s : State} (hheld : s.device.state ≠ .held)
    (hidle : (s.ports.get p).exchange = .idle) (hne : bytes ≠ []) (hbad : checkFrame bytes = .bad kb tb d) :
    exec (.frameRefused p bytes) s = .next { s with
      ports := s.ports.set p ⟨.answering (responseFrame kb tb (refusedReply .malformed d)),
        (s.ports.get p).slot, List.replicate bytes.length 0#8⟩ } := by
  show Host.Outcome.next (selectPeriod p bytes s) = _
  rw [selectPeriod, if_neg hheld, hidle, Exchange.takesRequest, if_pos rfl, if_neg hne, takeFrame, hbad, beginExchange_eq]
  simp [respond, Quad.modify_eq_set]

/-- The kinds' codes are 1 to 24. -/
theorem ofCode_none {n : Nat} (h : n = 0 ∨ 24 < n) : Kind.ofCode n = none := by
  rcases h with rfl | h
  · rfl
  · rw [Kind.ofCode]
    all_goals
      intro hn
      omega

theorem ofCode_some {n : Nat} (h1 : 1 ≤ n) (h24 : n ≤ 24) : ∃ k, Kind.ofCode n = some k := by
  interval_cases n
  all_goals exact ⟨_, rfl⟩

/-- Settles O14: the frame check's faults in their order. -/
theorem frameFaultsAnswered : Obligations.FrameFaultsAnswered := by
  unfold Obligations.FrameFaultsAnswered
  intro p k t x l0 l1 body s hheld hidle
  refine ⟨frameRefused_told hheld hidle nofun rfl, frameRefused_told hheld hidle nofun rfl,
    frameRefused_told hheld hidle nofun rfl, fun hk => ?_, fun h1 h24 hlen => ?_⟩
  · exact frameRefused_told hheld hidle nofun (by rw [checkFrame, ofCode_none hk])
  · obtain ⟨kind, hkind⟩ := ofCode_some h1 h24
    have hle : leNat [l0, l1] = l0.toNat + 256 * l1.toNat := by simp [leNat]
    refine frameRefused_told hheld hidle nofun ?_
    rw [checkFrame, hkind]
    simp only
    rw [if_neg]
    rw [hle]
    simp only [Config.bodyLimit]
    omega

/-! ### Response phases -/

/-- Settles O15: what a WORKING and an ANSWERING port shift out. -/
theorem responsePhaseShifts : Obligations.ResponsePhaseShifts := by
  unfold Obligations.ResponsePhaseShifts
  intro p bytes f s hheld hnone
  have period : (s.ports.get p).exchange.takesRequest = false →
      exec (.responsePhase p bytes) s = .next (shiftOut p bytes.length s) := fun hbusy => by
    have quiet : (shiftOut p bytes.length s).reports.get p = none := by
      rw [shiftOut]
      split
      all_goals exact hnone
    show Host.Outcome.next (selectPeriod p bytes s) = _
    rw [selectPeriod, if_neg hheld, if_neg (by rw [hbusy]; decide), responsePeriod, readOn_none quiet]
  refine ⟨fun hw => ?_, fun ha => ?_⟩
  · rw [period (by rw [hw]; rfl), shiftOut, hw]
    simp [setExchange, Quad.modify_eq_set, zeros]
  · refine ⟨(f ++ zeros (bytes.length - f.length)).take bytes.length, ?_, ?_, ?_⟩
    · simp only [List.length_take, List.length_append, zeros, List.length_replicate]
      omega
    · refine (List.take_prefix _ _).trans ?_
      rw [List.prefix_append_right_inj, zeros]
      exact List.prefix_replicate_iff.mpr (by simp)
    · rw [period (by rw [ha]; rfl), shiftOut, ha]
      simp [setExchange, Quad.modify_eq_set]

end Sys2Proof.Proofs
end

section
/-! PROOFS. The requests that write settings, the roster, the access table, the tier items and the feeds: each body is read by
its field check, which either names the field at fault or hands the owner what to write. -/

namespace Sys2Proof.Proofs

open Sys2Proof.Machine

/-! ### A request in its owner's hands (R161, R164) -/

/-- A request whose body fails its owner's field check is refused MALFORMED with the field's index. -/
theorem exec_of_fields_error {α : Type} {c : Instr} {p : PortId} {k : Kind} {tag : Byte} {body : List Byte}
    {fields : Except Nat α} {act : α → State → State} {d : Nat} {s : State} (h : Taken p k s)
    (hb : body.length ≤ Config.bodyLimit)
    (hexec : exec c s = .next (requestPeriod p k tag body (withFields p k tag fields act) s)) (he : fields = .error d) :
    exec c s = .next (answered p k tag body (refusedReply .malformed d) s) := by
  rw [hexec, requestPeriod_taken h hb, withFields_error_working he]

/-- A request whose body passes its owner's field check is the owner's work. -/
theorem exec_of_fields_ok {α : Type} {c : Instr} {p : PortId} {k : Kind} {tag : Byte} {body : List Byte}
    {fields : Except Nat α} {act : α → State → State} {a : α} {s : State} (h : Taken p k s)
    (hb : body.length ≤ Config.bodyLimit)
    (hexec : exec c s = .next (requestPeriod p k tag body (withFields p k tag fields act) s)) (ha : fields = .ok a) :
    exec c s = .next (act a (working p body s)) := by
  rw [hexec, requestPeriod_taken h hb, withFields_ok ha]

/-- A body of two bytes fits, and so does any body with a given head. -/
theorem cons_fits {b : Byte} {rest : List Byte} (h : rest.length ≤ 255) : (b :: rest).length ≤ Config.bodyLimit :=
  Nat.succ_le_succ h

theorem four?_of_le {n : Nat} (h : n ≤ 3) : four? n = some ⟨n, Nat.lt_succ_of_le h⟩ := dif_pos (Nat.lt_succ_of_le h)

theorem four?_of_lt {n : Nat} (h : 3 < n) : four? n = none := dif_neg (by omega)

/-- A list of a given length written out as the field checks match it. -/
theorem leBytes_four (v : Nat) : leBytes 4 v =
    [BitVec.ofNat 8 v, BitVec.ofNat 8 (v / 256), BitVec.ofNat 8 (v / 256 / 256), BitVec.ofNat 8 (v / 256 / 256 / 256)] := rfl

/-- A 32-bit field reads back. -/
theorem word_leBytes (w : Word32) : BitVec.ofNat 32 (leNat (leBytes 4 w.toNat)) = w := by
  rw [leNat_leBytes, show 256 ^ 4 = 2 ^ 32 from rfl, Nat.mod_eq_of_lt w.isLt, BitVec.ofNat_toNat, BitVec.setWidth_eq]

/-! ### SPEAKER (R74) -/

theorem printable_iff (b : Byte) : printable b = true ↔ 0x20 ≤ b.toNat ∧ b.toNat ≤ 0x7E := by
  simp [printable]

theorem all_printable_iff (name : List Byte) :
    name.all printable = true ↔ ∀ b ∈ name, 0x20 ≤ b.toNat ∧ b.toNat ≤ 0x7E := by
  simp [List.all_eq_true, printable_iff]

theorem speakerBody_ok {n : Byte} {name : List Byte} (hn : n.toNat ≤ 15) (hname : name.all printable = true) :
    speakerBody (n :: name) = .ok (n.toNat, name) := by
  rw [speakerBody, if_neg (by omega), if_pos hname]

theorem speakerBody_slot {n : Byte} (name : List Byte) (hn : 15 < n.toNat) : speakerBody (n :: name) = .error 0 :=
  if_pos hn

theorem speakerBody_name {n : Byte} {name : List Byte} (hn : n.toNat ≤ 15) (hname : ¬ name.all printable = true) :
    speakerBody (n :: name) = .error 1 := by
  rw [speakerBody, if_neg (by omega), if_neg hname]

theorem writeSpeaker_working (p : PortId) (tag n : Byte) (body name : List Byte) (s : State) :
    writeSpeaker p tag (n.toNat, name) (working p body s) =
      { answered p .speaker tag body (doneReply (n :: name.take 24)) s with
        roster := s.roster.set n.toNat (name.take 24) } := by
  have hn : byteOf n.toNat = n := by rw [byteOf, BitVec.ofNat_toNat, BitVec.setWidth_eq]
  rw [← answer_working, writeSpeaker, hn]
  rfl

/-- Settles O28: the slot's and the characters' checks, and the write. -/
theorem speakerWritesTheRoster : Obligations.SpeakerWritesTheRoster := by
  unfold Obligations.SpeakerWritesTheRoster
  intro p tag n name s htaken hlen
  refine ⟨fun hn hname => ?_, ?_, fun hn => ?_, fun hn hname => ?_⟩
  · rw [exec_of_fields_ok htaken (cons_fits hlen) rfl (speakerBody_ok hn ((all_printable_iff name).mpr hname)),
      writeSpeaker_working]
  · exact exec_of_fields_error htaken (by decide) rfl (show speakerBody [] = .error 0 from rfl)
  · exact exec_of_fields_error htaken (cons_fits hlen) rfl (speakerBody_slot name hn)
  · refine exec_of_fields_error htaken (cons_fits hlen) rfl (speakerBody_name hn fun hall => ?_)
    obtain ⟨b, hb, hout⟩ := hname
    have := (all_printable_iff name).mp hall b hb
    omega

/-! ### SET TIERS (R35, R36) -/

theorem tiersBody_of_length {body : List Byte} (h : body.length ≠ 1) : tiersBody body = .error 0 := by
  match body with
  | [] => rfl
  | [_] => exact absurd rfl h
  | _ :: _ :: _ => rfl

theorem tiersBody_ok {mask : Byte} (h : mask.toNat < 16) : tiersBody [mask] = .ok mask := if_pos h

theorem tiersBody_high {mask : Byte} (h : 16 ≤ mask.toNat) : tiersBody [mask] = .error 0 := if_neg (by omega)

/-- With a dictionary change handed to it the engine has work to begin, so that the lock alone says whether it waits. -/
theorem refreshActivity_handChange (s : State) :
    refreshActivity (handChange s) = { s with engine := { s.engine with
      changePending := true
      activity := if s.engine.activity = .idle ∨ s.engine.activity = .waiting then
          (if s.maint.lockHeld then .waiting else .idle)
        else s.engine.activity } } := by
  rw [refreshActivity_eq]
  simp [refreshed, handChange]

theorem writeTiers_working (p : PortId) (tag mask : Byte) (body : List Byte) (s : State) :
    writeTiers p tag mask (working p body s) = { answered p .setTiers tag body (doneReply [mask]) s with
      dict := { s.dict with
        tiers := ⟨{ s.dict.tiers.q0 with enabled := mask.getLsbD 0 },
          { s.dict.tiers.q1 with enabled := mask.getLsbD 1 }, { s.dict.tiers.q2 with enabled := mask.getLsbD 2 },
          { s.dict.tiers.q3 with enabled := mask.getLsbD 3 }⟩ }
      engine := { s.engine with
        changePending := true
        activity := if s.engine.activity = .idle ∨ s.engine.activity = .waiting then
            (if s.maint.lockHeld then .waiting else .idle)
          else s.engine.activity } } := by
  rw [← answer_working, writeTiers, refreshActivity_handChange]
  rfl

/-- Settles O29: the mask's check, and the write with its change event. -/
theorem tierEnablesWritten : Obligations.TierEnablesWritten := by
  unfold Obligations.TierEnablesWritten
  intro p tag mask body s htaken
  refine ⟨fun hlen hfits => ?_, fun hlow => ?_, fun hhigh => ?_⟩
  · exact exec_of_fields_error htaken hfits rfl (tiersBody_of_length hlen)
  · rw [exec_of_fields_ok htaken (cons_fits (Nat.zero_le _)) rfl (tiersBody_ok hlow), writeTiers_working]
  · exact exec_of_fields_error htaken (cons_fits (Nat.zero_le _)) rfl (tiersBody_high hhigh)

/-! ### SET HOLD and SET OFFSET (R155, R156) -/

theorem clampHold_eq (n : Nat) : clampHold n = max 200 (min 4000 n) := by
  simp only [clampHold, Config.holdLow, Config.holdHigh]
  split
  · omega
  · split <;> omega

theorem holdBody_of_length {body : List Byte} (h : body.length ≠ 2) : holdBody body = .error 0 := by
  match body with
  | [] => rfl
  | [_] => rfl
  | [_, _] => exact absurd rfl h
  | _ :: _ :: _ :: _ => rfl

theorem holdBody_two (b0 b1 : Byte) : holdBody [b0, b1] = .ok (b0.toNat + 256 * b1.toNat) := by
  simp [holdBody, leNat]

theorem writeHold_working (p : PortId) (tag : Byte) (body : List Byte) (n : Nat) (s : State) :
    writeHold p tag n (working p body s) =
      { answered p .setHold tag body (doneReply (leBytes 2 (clampHold n))) s with
        session := { s.session with hold := clampHold n } } := by
  rw [← answer_working]
  rfl

theorem offsetBody_port {b : Byte} (rest : List Byte) (h : 3 < b.toNat) : offsetBody (b :: rest) = .error 0 := by
  rw [offsetBody, four?_of_lt h]

theorem offsetBody_offset {b : Byte} {rest : List Byte} (h : b.toNat ≤ 3) (hrest : rest.length ≠ 4) :
    offsetBody (b :: rest) = .error 1 := by
  rw [offsetBody, four?_of_le h]
  match rest with
  | [] => rfl
  | [_] => rfl
  | [_, _] => rfl
  | [_, _, _] => rfl
  | [_, _, _, _] => exact absurd rfl hrest
  | _ :: _ :: _ :: _ :: _ :: _ => rfl

theorem offsetBody_ok (q : PortId) (o : Word32) :
    offsetBody (BitVec.ofNat 8 q.val :: leBytes 4 o.toNat) = .ok (q, o) := by
  have h : offsetBody (BitVec.ofNat 8 q.val :: leBytes 4 o.toNat) =
      .ok (q, BitVec.ofNat 32 (leNat (leBytes 4 o.toNat))) := by
    rw [offsetBody, four?_ofNat, leBytes_four]
  rw [h, word_leBytes]

theorem writeOffset_working (p q : PortId) (tag : Byte) (body : List Byte) (o : Word32) (s : State) :
    writeOffset p tag (q, o) (working p body s) =
      { answered p .setOffset tag body (doneReply (BitVec.ofNat 8 q.val :: leBytes 4 o.toNat)) s with
        session := { s.session with offsets := s.session.offsets.set q o } } := by
  rw [← answer_working]
  rfl

/-- Settles O30: both bodies, the clamp, and the writes. -/
theorem holdAndOffsetsWritten : Obligations.HoldAndOffsetsWritten := by
  unfold Obligations.HoldAndOffsetsWritten
  intro p q tag b0 b1 o h body rest s hh
  refine ⟨fun htaken => ?_, fun htaken => ?_, fun htaken hlen hfits => ?_, fun htaken => ?_, fun htaken hlen =>
    ⟨fun hb => ?_, fun hb hrest => ?_⟩⟩
  · rw [exec_of_fields_ok htaken (cons_fits (by simp)) rfl (holdBody_two b0 b1), writeHold_working, clampHold_eq, hh]
  · rw [exec_of_fields_ok htaken (cons_fits (by simp)) rfl (offsetBody_ok q o), writeOffset_working]
  · exact exec_of_fields_error htaken hfits rfl (holdBody_of_length hlen)
  · exact exec_of_fields_error htaken (by decide) rfl (show offsetBody [] = .error 0 from rfl)
  · exact exec_of_fields_error htaken (cons_fits hlen) rfl (offsetBody_port rest hb)
  · exact exec_of_fields_error htaken (cons_fits hlen) rfl (offsetBody_offset hb hrest)

/-! ### SET ACCESS (R11, R91, R171, R173) -/

theorem accessBody_port {b : Byte} (rest : List Byte) (h : 3 < b.toNat) : accessBody (b :: rest) = .error 0 := by
  rw [accessBody, four?_of_lt h]

theorem accessBody_length {b : Byte} {rest : List Byte} (h : b.toNat ≤ 3) (hrest : rest.length ≠ 1) :
    accessBody (b :: rest) = .error 1 := by
  rw [accessBody, four?_of_le h]
  match rest with
  | [] => rfl
  | [_] => exact absurd rfl hrest
  | _ :: _ :: _ => rfl

theorem accessBody_classes {b c : Byte} (h : b.toNat ≤ 3) (hc : c.getLsbD 7 = true) : accessBody [b, c] = .error 1 := by
  rw [accessBody, four?_of_le h]
  exact if_pos hc

theorem accessBody_ok (q : PortId) {c : Byte} (hc : c.getLsbD 7 = false) :
    accessBody [BitVec.ofNat 8 q.val, c] = .ok (q, c.setWidth 7) := by
  rw [accessBody, four?_ofNat]
  exact if_neg (by rw [hc]; decide)

/-- A class set's seven bits, read back as the byte that gave them. -/
theorem classes_byte {c : Byte} (hc : c.getLsbD 7 = false) : (c.setWidth 7).setWidth 8 = c := by
  have h := BitVec.msb_eq_decide c
  rw [BitVec.msb_eq_getLsbD_last, show 8 - 1 = 7 from rfl, hc] at h
  have hlt : c.toNat < 128 := by simpa using h
  apply BitVec.eq_of_toNat_eq
  simp only [BitVec.toNat_setWidth]
  omega

theorem changeClasses_eq (q : PortId) (c : Byte) (s : State) :
    changeClasses q (c.setWidth 7) s = { s with
      access := s.access.set q { s.access.get q with classes := c.setWidth 7 }
      journal := { s.journal with
        pull := s.journal.pull.set q
          (if c.getLsbD 4 then some ((s.journal.pull.get q).getD ⟨s.journal.oldest, 0⟩) else none) }
      feeds := s.feeds.set q (if c.getLsbD 5 then s.feeds.get q else none) } := by
  have pull : holdsClass (c.setWidth 7) .pull = c.getLsbD 4 := by
    rw [holdsClass_pull, BitVec.getLsbD_setWidth]
    simp
  have caption : holdsClass (c.setWidth 7) .caption = c.getLsbD 5 := by
    have h : holdsClass (c.setWidth 7) .caption = (c.setWidth 7).getLsbD 5 := rfl
    rw [h, BitVec.getLsbD_setWidth]
    simp
  simp only [changeClasses, Journal.notice, Quad.modify, pull, caption]

theorem writeAccess_free (p q : PortId) (tag : Byte) (body : List Byte) {c : Byte} {s : State} (hc : c.getLsbD 7 = false)
    (h : (s.access.get q).locked = false) :
    writeAccess p tag (q, c.setWidth 7) (working p body s) =
      { answered p .setAccess tag body (doneReply [BitVec.ofNat 8 q.val, c]) s with
        access := s.access.set q { s.access.get q with classes := c.setWidth 7 }
        journal := { s.journal with
          pull := s.journal.pull.set q
            (if c.getLsbD 4 then some ((s.journal.pull.get q).getD ⟨s.journal.oldest, 0⟩) else none) }
        feeds := s.feeds.set q (if c.getLsbD 5 then s.feeds.get q else none) } := by
  have free : ¬ ((working p body s).access.get q).locked = true := by simp [h]
  rw [← answer_working, writeAccess, if_neg free, classes_byte hc, changeClasses_eq]
  rfl

theorem writeAccess_locked (p q : PortId) (tag : Byte) (body : List Byte) (classes : BitVec 7) {s : State}
    (h : (s.access.get q).locked = true) :
    writeAccess p tag (q, classes) (working p body s) = answered p .setAccess tag body (refusedReply .locked 0) s := by
  rw [writeAccess, working_access, if_pos h, refuse_working]

/-- Settles O32: the fields' checks, the lock, and the write with its notices. -/
theorem accessRowReplaced : Obligations.AccessRowReplaced := by
  unfold Obligations.AccessRowReplaced
  intro p q tag c b rest s htaken hlen
  refine ⟨fun hc hfree => ?_, fun hc hlocked => ?_, ?_, fun hb => ?_, fun hb hrest => ?_, fun hb hc => ?_⟩
  · rw [exec_of_fields_ok htaken (cons_fits (by simp)) rfl (accessBody_ok q hc), writeAccess_free p q tag _ hc hfree]
  · rw [exec_of_fields_ok htaken (cons_fits (by simp)) rfl (accessBody_ok q hc), writeAccess_locked p q tag _ _ hlocked]
  · exact exec_of_fields_error htaken (by decide) rfl (show accessBody [] = .error 0 from rfl)
  · exact exec_of_fields_error htaken (cons_fits hlen) rfl (accessBody_port rest hb)
  · exact exec_of_fields_error htaken (cons_fits hlen) rfl (accessBody_length hb hrest)
  · exact exec_of_fields_error htaken (cons_fits (by simp)) rfl (accessBody_classes hb hc)

/-! ### TRUST (R174) -/

theorem trustBody_port {b : Byte} (rest : List Byte) (h : 3 < b.toNat) : trustBody (b :: rest) = .error 0 := by
  rw [trustBody, four?_of_lt h]

theorem trustBody_value (q : PortId) {rest : List Byte} (h0 : rest ≠ [0#8]) (h1 : rest ≠ [1#8]) :
    trustBody (BitVec.ofNat 8 q.val :: rest) = .error 1 := by
  rw [trustBody, four?_ofNat]
  match rest with
  | [] => rfl
  | [v] =>
    have hv0 : v ≠ 0#8 := fun h => h0 (by rw [h])
    have hv1 : v ≠ 1#8 := fun h => h1 (by rw [h])
    exact (if_neg hv0).trans (if_neg hv1)
  | _ :: _ :: _ => rfl

theorem trustBody_ok (q : PortId) (v : Bool) :
    trustBody [BitVec.ofNat 8 q.val, if v then 1#8 else 0#8] = .ok (q, v) := by
  rw [trustBody, four?_ofNat]
  cases v <;> rfl

theorem writeTrust_free (p q : PortId) (tag : Byte) (body : List Byte) (v : Bool) {s : State}
    (h : (s.access.get q).locked = false) :
    writeTrust p tag (q, v) (working p body s) =
      { answered p .trust tag body
          (doneReply [BitVec.ofNat 8 q.val, if trustGiven q v then 1#8 else 0#8]) s with
        access := s.access.set q { s.access.get q with trusted := trustGiven q v } } := by
  have free : ¬ ((working p body s).access.get q).locked = true := by simp [h]
  rw [← answer_working, writeTrust, if_neg free]
  rfl

theorem writeTrust_locked (p q : PortId) (tag : Byte) (body : List Byte) (v : Bool) {s : State}
    (h : (s.access.get q).locked = true) :
    writeTrust p tag (q, v) (working p body s) = answered p .trust tag body (refusedReply .locked 0) s := by
  rw [writeTrust, working_access, if_pos h, refuse_working]

/-- Settles O33: the fields' checks, the lock, and the write that keeps P0 trusted. -/
theorem trustWritten : Obligations.TrustWritten := by
  unfold Obligations.TrustWritten
  intro p q tag b v rest s htaken hlen
  refine ⟨fun hfree => ?_, fun hlocked => ?_, ?_, fun hb => ?_, fun h0 h1 => ?_⟩
  · rw [exec_of_fields_ok htaken (cons_fits (by simp)) rfl (trustBody_ok q v), writeTrust_free p q tag _ v hfree]
    rfl
  · rw [exec_of_fields_ok htaken (cons_fits (by simp)) rfl (trustBody_ok q v), writeTrust_locked p q tag _ v hlocked]
  · exact exec_of_fields_error htaken (by decide) rfl (show trustBody [] = .error 0 from rfl)
  · exact exec_of_fields_error htaken (cons_fits hlen) rfl (trustBody_port rest hb)
  · exact exec_of_fields_error htaken (cons_fits hlen) rfl (trustBody_value q h0 h1)

/-! ### LOCK PORT and LOCK TIER (R142, R175) -/

theorem tierBody_ok (q : Fin 4) : tierBody [BitVec.ofNat 8 q.val] = .ok q := by
  rw [tierBody, four?_ofNat]

theorem tierBody_high {b : Byte} (h : 3 < b.toNat) : tierBody [b] = .error 0 := by
  rw [tierBody, four?_of_lt h]

theorem tierBody_of_length {body : List Byte} (h : body.length ≠ 1) : tierBody body = .error 0 := by
  match body with
  | [] => rfl
  | [_] => exact absurd rfl h
  | _ :: _ :: _ => rfl

/-- A body that is not one byte, or is a byte above 3, is no tier and no port, and it fits. -/
theorem tierBody_bad {b : Byte} {body : List Byte}
    (h : (body.length ≠ 1 ∧ body.length ≤ 256) ∨ (body = [b] ∧ 3 < b.toNat)) :
    tierBody body = .error 0 ∧ body.length ≤ Config.bodyLimit := by
  rcases h with ⟨hlen, hfits⟩ | ⟨rfl, hb⟩
  · exact ⟨tierBody_of_length hlen, hfits⟩
  · exact ⟨tierBody_high hb, cons_fits (by simp)⟩

theorem writePortLock_working (p q : PortId) (tag : Byte) (body : List Byte) (s : State) :
    writePortLock p tag q (working p body s) =
      { answered p .lockPort tag body (doneReply [BitVec.ofNat 8 q.val, (s.access.get q).classes.setWidth 8,
          if (s.access.get q).trusted then 1#8 else 0#8, 1#8]) s with
        access := s.access.set q { s.access.get q with locked := true } } := by
  rw [← answer_working]
  rfl

theorem writeTierLock_working (p : PortId) (l : TierId) (tag : Byte) (body : List Byte) (s : State) :
    writeTierLock p tag l (working p body s) =
      { answered p .lockTier tag body (doneReply [BitVec.ofNat 8 l.val, 1#8]) s with
        dict := { s.dict with tiers := s.dict.tiers.set l { s.dict.tiers.get l with locked := true } } } := by
  rw [← answer_working]
  rfl

/-- Settles O34: one body check for both, and the two writes. -/
theorem locksSet : Obligations.LocksSet := by
  unfold Obligations.LocksSet
  intro p q tag b body s
  refine ⟨fun htaken => ?_, fun htaken => ?_, fun hbad => ?_⟩
  · rw [exec_of_fields_ok htaken (cons_fits (by simp)) rfl (show portBody _ = _ from tierBody_ok q),
      writePortLock_working]
  · rw [exec_of_fields_ok htaken (cons_fits (by simp)) rfl (tierBody_ok q), writeTierLock_working]
  · obtain ⟨herror, hfits⟩ := tierBody_bad hbad
    exact ⟨fun htaken => exec_of_fields_error htaken hfits rfl (show portBody body = _ from herror),
      fun htaken => exec_of_fields_error htaken hfits rfl herror⟩

/-! ### SUBSCRIBE (R89) -/

theorem feedMode?_code (mode : FeedMode) : feedMode? (byteOf mode.code) = some mode := by
  cases mode <;> rfl

theorem feedMode?_high {b : Byte} (h : 1 < b.toNat) : feedMode? b = none := by
  have h0 : b ≠ 0#8 := fun e => by rw [e] at h; exact absurd h (by decide)
  have h1 : b ≠ 1#8 := fun e => by rw [e] at h; exact absurd h (by decide)
  rw [feedMode?, if_neg h0, if_neg h1]

theorem feedMode?_low {b : Byte} (h : b.toNat ≤ 1) : ∃ mode, feedMode? b = some mode := by
  obtain h | h : b = 0#8 ∨ b = 1#8 := by bv_omega
  · exact ⟨.live, by rw [h]; rfl⟩
  · exact ⟨.settled, by rw [h]; rfl⟩

/-- A starting point's form is none of the table's. -/
theorem startPoint_form {form : Byte} (rest : List Byte) (h : 2 < form.toNat) : startPoint form rest = .error 1 := by
  have h0 : form ≠ 0#8 := fun e => by rw [e] at h; exact absurd h (by decide)
  have h1 : form ≠ 1#8 := fun e => by rw [e] at h; exact absurd h (by decide)
  have h2 : form ≠ 2#8 := fun e => by rw [e] at h; exact absurd h (by decide)
  rw [startPoint, if_neg h0, if_neg h1, if_neg h2]

/-- OLDEST and NEXT are followed by nothing. -/
theorem startPoint_rest {form : Byte} {rest : List Byte} (h : form.toNat ≤ 1) (hrest : rest ≠ []) :
    startPoint form rest = .error 2 := by
  obtain h | h : form = 0#8 ∨ form = 1#8 := by bv_omega
  · rw [h]; exact if_neg hrest
  · rw [h]; exact if_neg hrest

/-- NUMBER is followed by four bytes. -/
theorem startPoint_number {form : Byte} {rest : List Byte} (h : form.toNat = 2) (hrest : rest.length ≠ 4) :
    startPoint form rest = .error 2 := by
  obtain rfl : form = 2#8 := by bv_omega
  exact if_neg hrest

theorem subscribeBody_mode {b form : Byte} (rest : List Byte) (h : 1 < b.toNat) :
    subscribeBody (b :: form :: rest) = .error 0 := by
  rw [subscribeBody, feedMode?_high h]

theorem subscribeBody_start {b form : Byte} {rest : List Byte} {d : Nat} (h : b.toNat ≤ 1)
    (hstart : startPoint form rest = .error d) : subscribeBody (b :: form :: rest) = .error d := by
  obtain ⟨mode, hmode⟩ := feedMode?_low h
  rw [subscribeBody, hmode, hstart]

theorem subscribeBody_ok {mode : FeedMode} {form : Byte} {rest : List Byte} {a : StartPoint}
    (hstart : startPoint form rest = .ok a) : subscribeBody (byteOf mode.code :: form :: rest) = .ok (mode, a) := by
  rw [subscribeBody, feedMode?_code, hstart]

/-- The cursor of a NUMBER, by the three cases of R89. -/
theorem startCursor_number (l : CaptionLog) (n : SegNo) :
    startCursor l (.number n) =
      if (n - l.oldest).toNat < l.segments.length ∨ n = l.newest + 1#32 then n
      else if l.wrapped = false ∧ (l.newest + 1#32).toNat < n.toNat then l.newest + 1#32
      else l.oldest :=
  if_congr (or_congr_left decide_eq_true_iff) rfl rfl

/-- The bytes of a starting point, and the cursor that they give. -/
theorem startBytes_ok {l : CaptionLog} {n cur : SegNo} {start : List Byte}
    (h : (start = [0#8] ∧ cur = l.oldest) ∨ (start = [1#8] ∧ cur = l.newest + 1#32) ∨
      (start = 2#8 :: leBytes 4 n.toNat ∧
        cur = (if (n - l.oldest).toNat < l.segments.length ∨ n = l.newest + 1#32 then n
          else if l.wrapped = false ∧ (l.newest + 1#32).toNat < n.toNat then l.newest + 1#32
          else l.oldest))) :
    ∃ form rest a, start = form :: rest ∧ rest.length ≤ 4 ∧ startPoint form rest = .ok a ∧ startCursor l a = cur := by
  rcases h with ⟨rfl, rfl⟩ | ⟨rfl, rfl⟩ | ⟨rfl, rfl⟩
  · exact ⟨0#8, [], .oldest, rfl, Nat.zero_le 4, rfl, rfl⟩
  · exact ⟨1#8, [], .next, rfl, Nat.zero_le 4, rfl, rfl⟩
  · refine ⟨2#8, leBytes 4 n.toNat, .number n, rfl, Nat.le_refl 4, ?_, startCursor_number l n⟩
    have h : startPoint 2#8 (leBytes 4 n.toNat) = .ok (.number (BitVec.ofNat 32 (leNat (leBytes 4 n.toNat)))) := rfl
    rw [h, word_leBytes]

theorem subscribeTo_working (p : PortId) (tag : Byte) (body : List Byte) (mode : FeedMode) (a : StartPoint) (s : State) :
    subscribeTo p tag (mode, a) (working p body s) =
      { answered p .subscribe tag body (doneReply (byteOf mode.code :: leBytes 4 (startCursor s.log a).toNat)) s with
        feeds := s.feeds.set p (some ⟨mode, ⟨startCursor s.log a, false⟩, ⟨startCursor s.log a, false⟩,
          if s.log.segments = [] then none else some ⟨s.log.newest, false⟩⟩) } := by
  rw [← answer_working]
  rfl

/-- Settles O21: the starting point gives its cursor, and each field that is none of the table's is refused. -/
theorem subscribeGivesAFeed : Obligations.SubscribeGivesAFeed := by
  unfold Obligations.SubscribeGivesAFeed
  intro p tag mode n cur start s htaken hstart m refused
  have code : m = byteOf mode.code := by
    cases mode <;> rfl
  refine ⟨?_, ?_, fun b => ?_, fun b form rest hlen => ?_⟩
  · obtain ⟨form, rest, a, rfl, hlen, hpoint, rfl⟩ := startBytes_ok hstart
    have hfits : (form :: rest).length ≤ 255 := by rw [List.length_cons]; omega
    rw [code, exec_of_fields_ok htaken (cons_fits hfits) rfl (subscribeBody_ok hpoint), subscribeTo_working]
  · exact exec_of_fields_error htaken (by decide) rfl (show subscribeBody [] = .error 0 from rfl)
  · exact exec_of_fields_error htaken (cons_fits (by simp)) rfl (show subscribeBody [b] = .error 0 from rfl)
  · have bad {d : Nat} (he : subscribeBody (b :: form :: rest) = .error d) :=
      exec_of_fields_error (c := .subscribe p tag (b :: form :: rest)) htaken (cons_fits (b := b) (rest := form :: rest) (Nat.succ_le_succ hlen)) rfl he
    exact ⟨fun hb => bad (subscribeBody_mode rest hb),
      fun hb hform => bad (subscribeBody_start hb (startPoint_form rest hform)),
      fun hb hform hrest => bad (subscribeBody_start hb (startPoint_rest hform hrest)),
      fun hb hform hrest => bad (subscribeBody_start hb (startPoint_number hform hrest))⟩

end Sys2Proof.Proofs
end

section
/-! PROOFS. STATUS (R178, R179): its blocks, a reading that is answered at once, and one that goes on over select periods. -/

namespace Sys2Proof.Proofs

open Sys2Proof.Machine

/-! ### The blocks -/

theorem statusBlocks_length (s : State) (p : PortId) : (statusBlocks.flatMap (blockReport s p)).length = 41 := by
  simp [statusBlocks, blockReport, wordBytes]

/-- A block reads nothing of the ports but the offset, which is the session's. -/
theorem blockReport_ports (s : State) (q : Quad Port) (r : Quad (Option StatusReading)) (p : PortId) :
    blockReport { s with ports := q, reports := r } p = blockReport s p := by
  funext b
  cases b <;> rfl

theorem blockReport_working (p q : PortId) (body : List Byte) (s : State) :
    blockReport (working p body s) q = blockReport s q := blockReport_ports s _ s.reports q

/-! ### A reading -/

/-- A reading with every block read is answered. -/
theorem carryReport_done {r : StatusReading} (h : r.left = []) (p : PortId) (s : State) :
    carryReport p r s = answer p .status r.tag (doneReply r.got) (setReport p none s) := if_pos h

/-- A reading with blocks left stays. -/
theorem carryReport_more {r : StatusReading} (h : r.left ≠ []) (p : PortId) (s : State) :
    carryReport p r s = setReport p (some r) (setWorking p s) := if_neg h

theorem exec_status (p : PortId) (tag : Byte) (body : List Byte) (reads : List Nat) (s : State) :
    exec (.status p tag body reads) s =
      .next (requestPeriod p .status tag body (serveStatus p tag reads body) s) := rfl

/-- A STATUS whose body fits reaches its owner, STARTING or READY. -/
theorem exec_status_idle {p : PortId} {body : List Byte} {s : State} (hheld : s.device.state ≠ .held)
    (hidle : (s.ports.get p).exchange = .idle) (hfits : body.length ≤ Config.bodyLimit) (tag : Byte) (reads : List Nat) :
    exec (.status p tag body reads) s = .next (serveStatus p tag reads body (working p body s)) := by
  rw [exec_status, requestPeriod_idle hheld hidle hfits, throughChecks_of_need_nothing rfl rfl]

/-- The first reads of a STATUS. -/
theorem serveStatus_nil (p : PortId) (tag : Byte) (reads : List Nat) (s : State) :
    serveStatus p tag reads [] s = carryReport p (StatusReading.advance s p ⟨tag, [], statusBlocks, reads⟩) s := rfl

/-- With no plan every block is read, and the port answered. -/
theorem serveStatus_at_once {p : PortId} {s : State} (hnone : s.reports.get p = none) (tag : Byte) :
    serveStatus p tag [] [] (working p [] s) =
      answered p .status tag [] (doneReply (statusBlocks.flatMap (blockReport s p))) s := by
  have reports : setReport p none (working p [] s) = working p [] s := by
    have h : s.reports.set p none = s.reports := by rw [← hnone, Quad.set_get]
    rw [setReport, working_reports, h]
    rfl
  rw [serveStatus_nil, carryReport_done rfl, reports, answer_working, StatusReading.advance, blockReport_working]
  rfl

/-- A plan whose first entry leaves blocks to read keeps the port WORKING. -/
theorem serveStatus_planned {p : PortId} {n : Nat} (hn : n < 7) (plan : List Nat) (tag : Byte) (s : State) :
    serveStatus p tag (n :: plan) [] (working p [] s) = { working p [] s with
      reports := s.reports.set p
        (some ⟨tag, (statusBlocks.take n).flatMap (blockReport s p), statusBlocks.drop n, plan⟩) } := by
  have left : statusBlocks.drop n ≠ [] := by
    rw [Ne, List.drop_eq_nil_iff]
    simpa [statusBlocks] using hn
  have still : setWorking p (working p [] s) = working p [] s := by
    simp [setWorking, working, Quad.modify_eq_set]
  rw [serveStatus_nil, carryReport_more left, still, StatusReading.advance, blockReport_working]
  rfl

/-- A select period on a WORKING port with a STATUS in reading reads on. -/
theorem exec_responsePhase_reading {p : PortId} {s : State} {r : StatusReading} (hheld : s.device.state ≠ .held)
    (hw : (s.ports.get p).exchange = .working) (hr : s.reports.get p = some r) (bytes : List Byte) :
    exec (.responsePhase p bytes) s = .next (carryReport p (r.advance s p)
      { s with ports := s.ports.set p ⟨.working, (s.ports.get p).slot, List.replicate bytes.length 0#8⟩ }) := by
  have served : ¬ (s.ports.get p).exchange.takesRequest = true := by
    rw [hw]
    decide
  have shifted : shiftOut p bytes.length s =
      { s with ports := s.ports.set p ⟨.working, (s.ports.get p).slot, List.replicate bytes.length 0#8⟩ } := by
    rw [shiftOut, hw]
    rfl
  show Host.Outcome.next (selectPeriod p bytes s) = _
  rw [selectPeriod, if_neg hheld, if_neg served, responsePeriod, shifted, readOn]
  simp only [hr, StatusReading.advance]
  rw [blockReport_ports s _ s.reports p]

/-- Settles O26: the blocks by the layout of R178, then the reading at once, by plan, and in a select period. -/
theorem statusReports : Obligations.StatusReports := by
  unfold Obligations.StatusReports
  intro p tag s hheld bit mask block all
  have hblock : block = blockReport s p := by
    funext b
    cases b with
    | device =>
      have state : (if s.device.state = .ready then 1#8 else 0#8) = byteOf s.device.state.code := by
        cases s.device.state <;> rfl
      have cause : (match s.device.cause with
          | .powerOn => 0#8
          | .resetLine => 1#8
          | .restart => 2#8 : Byte) = byteOf s.device.cause.code := by
        cases s.device.cause <;> rfl
      have outcome : (if s.device.outcome = .kept then 0#8 else 1#8) = byteOf s.device.outcome.code := by
        cases s.device.outcome <;> rfl
      exact List.cons_eq_cons.mpr ⟨state, List.cons_eq_cons.mpr ⟨cause, List.cons_eq_cons.mpr ⟨outcome, rfl⟩⟩⟩
    | tiers =>
      have bits (t : Bool) : bit t = t.toNat := by cases t <;> rfl
      simp only [block, mask, bits]
      rfl
    | _ => rfl
  rw [hblock]
  refine ⟨statusBlocks_length s p, fun hidle hnone => ⟨?_, fun n plan hn => ?_, fun body reads hne hfits => ?_⟩,
    fun got left plan n bytes hw hr hn => ?_⟩
  · rw [exec_status_idle hheld hidle (by simp), serveStatus_at_once hnone]
    rfl
  · rw [exec_status_idle hheld hidle (by simp), serveStatus_planned hn]
    rfl
  · rw [exec_status_idle hheld hidle hfits, serveStatus, withFields_error_working (noBody_eq_error hne)]
  · have next : StatusReading.next ⟨tag, got, left, plan⟩ = n := hn.symm
    have went : StatusReading.advance s p ⟨tag, got, left, plan⟩ =
        ⟨tag, got ++ (left.take n).flatMap (blockReport s p), left.drop n, plan.drop 1⟩ := by
      rw [StatusReading.advance, next]
    rw [exec_responsePhase_reading hheld hw hr, went]
    refine ⟨fun hall => ?_, fun hmore => ?_⟩
    · have none_left : left.drop n = [] := List.drop_eq_nil_of_le hall
      rw [carryReport_done none_left, List.take_of_length_le hall]
      simp [answer, respond, setReport, Quad.modify_eq_set]
      rfl
    · have some_left : left.drop n ≠ [] := by
        rw [Ne, List.drop_eq_nil_iff]
        omega
      rw [carryReport_more some_left]
      simp [setReport, setWorking, Quad.modify_eq_set]

end Sys2Proof.Proofs
end

section
/-! PROOFS. STROKE and the append it asks for (R1 to R15): the checks in their order, the guard's release, and the append to a
ring with room and to a full one. -/

namespace Sys2Proof.Proofs

open Sys2Proof.Machine

/-! ### The chord on the wire (R1) -/

/-- Masking clears bit 23, so that the third byte counts modulo 128. -/
theorem maskChord_eq (b0 b1 b2 : Byte) :
    maskChord b0 b1 b2 = BitVec.ofNat 23 (b0.toNat + 256 * b1.toNat + 65536 * (b2.toNat % 128)) := by
  have mask : Config.chordMask = 2 ^ 23 - 1 := rfl
  have value : leNat [b0, b1, b2] = b0.toNat + 256 * (b1.toNat + 256 * b2.toNat) := by simp [leNat]
  have h0 := b0.isLt
  have h1 := b1.isLt
  rw [maskChord, mask, Nat.and_two_pow_sub_one_eq_mod, value]
  congr 1
  omega

theorem strokeBody_of_length {body : List Byte} (h : body.length ≠ 3) : strokeBody body = .error 0 := by
  match body with
  | [] => rfl
  | [_] => rfl
  | [_, _] => rfl
  | [_, _, _] => exact absurd rfl h
  | _ :: _ :: _ :: _ :: _ => rfl

/-- A STROKE of three bytes is its masked chord's checks. -/
theorem exec_stroke {p : PortId} {tag b0 b1 b2 : Byte} {c : Chord} {s : State}
    (hc : c = BitVec.ofNat 23 (b0.toNat + 256 * b1.toNat + 65536 * (b2.toNat % 128))) (h : Taken p .stroke s) :
    exec (.stroke p tag [b0, b1, b2]) s = .next (serveChord p tag c (working p [b0, b1, b2] s)) := by
  have body : strokeBody [b0, b1, b2] = .ok c := by
    rw [hc, ← maskChord_eq]
    rfl
  exact exec_of_fields_ok h (cons_fits (by simp)) rfl body

/-! ### The checks of a chord (R3, R12 to R14) -/

theorem sessionTaking_open {s : State} (hopened : s.session.opened = true) (hnone : s.session.request = .none) :
    sessionTaking s = true := by
  rw [sessionTaking, hopened, hnone]
  rfl

theorem sessionTaking_closed {s : State} (h : s.session.opened = false) : sessionTaking s = false := by
  rw [sessionTaking, h]
  rfl

theorem sessionTaking_closing {s : State} {q : PortId} {b : Bool} (h : s.session.request = .closeInProgress q b) :
    sessionTaking s = false := by
  rw [sessionTaking, h, Bool.and_false]

section
variable {p : PortId} {tag : Byte} {c : Chord} {s : State}

theorem serveChord_empty : serveChord p tag 0#23 s = refuse p .stroke tag .emptyChord 0 s := if_pos rfl

theorem serveChord_no_session (hc : c ≠ 0#23) (h : sessionTaking s = false) :
    serveChord p tag c s = refuse p .stroke tag .noSession 0 s := by
  rw [serveChord, if_neg hc, if_pos h]

theorem serveChord_busy (hc : c ≠ 0#23) (h : sessionTaking s = true) (hbusy : guardBusy s = true) :
    serveChord p tag c s = refuse p .stroke tag .busy 0 s := by
  rw [serveChord, if_neg hc, if_neg (by rw [h]; decide), if_pos hbusy]

theorem serveChord_full (hc : c ≠ 0#23) (h : sessionTaking s = true) (hbusy : ¬ guardBusy s = true)
    (hfull : journalExhausted s = true) :
    serveChord p tag c s = refuse p .stroke tag .journalFull s.journal.cursor s := by
  rw [serveChord, if_neg hc, if_neg (by rw [h]; decide), if_neg hbusy, if_pos hfull]

theorem serveChord_taken (hc : c ≠ 0#23) (h : sessionTaking s = true) (hbusy : ¬ guardBusy s = true)
    (hroom : ¬ journalExhausted s = true) : serveChord p tag c s = takeChord p tag c s := by
  rw [serveChord, if_neg hc, if_neg (by rw [h]; decide), if_neg hbusy, if_neg hroom]

end

/-- Settles O17: each check of R3 in its order. -/
theorem strokeRefusals : Obligations.StrokeRefusals := by
  unfold Obligations.StrokeRefusals
  intro p tag b0 b1 b2 c s hc htaken refused held oldest needed atWork
  have refused_of {cause : Cause} {d : Nat} (h : serveChord p tag c (working p [b0, b1, b2] s) =
      refuse p .stroke tag cause d (working p [b0, b1, b2] s)) : refused cause d :=
    (exec_stroke hc htaken).trans (congrArg _ (h.trans (refuse_working ..)))
  have taking (hopened : s.session.opened = true) (hnone : s.session.request = .none) :
      sessionTaking (working p [b0, b1, b2] s) = true := sessionTaking_open hopened hnone
  have busy : guardBusy (working p [b0, b1, b2] s) = true ↔
      65536 ≤ held ∧ oldest < s.journal.cursor ∧ needed ∧ atWork := guardBusy_iff _
  have exhausted : journalExhausted (working p [b0, b1, b2] s) = true ↔
      4294967294 ≤ s.journal.head + s.memory.intakeWork.length ∨ (65536 ≤ held ∧ s.journal.cursor ≤ oldest) :=
    journalExhausted_iff _
  refine ⟨fun body hlen hfits => ?_, fun hempty => ?_, fun hne hclosed => ?_, fun hne _ hclosing => ?_,
    fun hne hopened hnone hlast hfree => ?_, fun hne hopened hnone hfull hcursor => ?_,
    fun hne hopened hnone hfull hcursor hneeded hwork => ?_⟩
  · exact exec_of_fields_error htaken hfits rfl (strokeBody_of_length hlen)
  · refine refused_of ?_
    rw [hempty, serveChord_empty]
  · exact refused_of (serveChord_no_session hne (sessionTaking_closed hclosed))
  · obtain ⟨q, b, hrequest⟩ := hclosing
    exact refused_of (serveChord_no_session hne (sessionTaking_closing hrequest))
  · exact refused_of (serveChord_full hne (taking hopened hnone) (mt busy.mp hfree) (exhausted.mpr (.inl hlast)))
  · have hfree : ¬ guardBusy (working p [b0, b1, b2] s) = true := fun h =>
      absurd (busy.mp h).2.1 (Nat.not_lt.mpr hcursor)
    exact refused_of (serveChord_full hne (taking hopened hnone) hfree (exhausted.mpr (.inr ⟨hfull, hcursor⟩)))
  · exact refused_of (serveChord_busy hne (taking hopened hnone) (busy.mpr ⟨hfull, hcursor, hneeded, hwork⟩))

/-! ### The guard's release (R5, R14, R62) -/

/-- The append that an accepted chord asks for. -/
def asking (p : PortId) (tag : Byte) (c : Chord) (guarded : Bool) (s : State) : State :=
  { s with memory := { s.memory with intakeWork := s.memory.intakeWork ++ [⟨p, tag, c, guarded⟩] } }

section
variable {p : PortId} {tag : Byte} {c : Chord} {s : State}

/-- In a ring with room nothing is released. -/
theorem takeChord_room (h : ringFull s = false) : takeChord p tag c s = asking p tag c false s := by
  simp only [takeChord, guardSettles, h]
  rfl

/-- With no run that holds the record, the units that name it leave the list. -/
theorem takeChord_evicts (h : ringFull s = true) (hrun : runHolds (victimSeq s) s = false) :
    takeChord p tag c s = asking p tag c false (evictNaming (victimSeq s) s) := by
  simp only [takeChord, guardSettles, h, guardRelease, hrun]
  rfl

/-- With no unit that names the record either, nothing changes. -/
theorem evictNaming_unnamed {n : Nat} (h : ∀ u ∈ s.engine.units, n ∉ u.strokes) : evictNaming n s = s := by
  have kept : s.engine.units.filter (fun u => decide (n ∉ u.strokes)) = s.engine.units :=
    List.filter_eq_self.mpr fun u hu => by simpa using h u hu
  rw [evictNaming, kept]

/-- A run that holds the record is settled, and its changes of the log are asked for. -/
theorem takeChord_settles (h : ringFull s = true) (hrun : runHolds (victimSeq s) s = true) :
    takeChord p tag c s = asking p tag c true
      (guardSettled (evictNaming (victimSeq s) (postChanges (provisionalListed s) (settledRun s)))) := by
  simp only [takeChord, guardSettles, h, guardRelease, hrun, settleRun_eq]
  rfl

/-- With changes still to write the settle goes on; with none it ends as a resolution does. -/
theorem asking_guardSettled (guarded : Bool) : asking p tag c guarded (guardSettled s) =
    if changesWait s then asking p tag c guarded s else refreshed (workEnded (asking p tag c guarded s)) := by
  rw [guardSettled]
  split
  · rfl
  · rw [endWork_eq]
    rfl

end

/-- Settles O16: the accepted chord in a ring with room, and in a full one by what the record is needed for. -/
theorem strokeAsksForItsAppend : Obligations.StrokeAsksForItsAppend := by
  unfold Obligations.StrokeAsksForItsAppend
  intro p tag b0 b1 b2 c s hc hne htaken hopened hnone hlast w held oldest atWork runHolds unitNames
  have full : ringFull (working p [b0, b1, b2] s) = true ↔ 65536 ≤ held := ringFull_iff _
  have hrun : Machine.runHolds oldest (working p [b0, b1, b2] s) = true ↔ runHolds := runHolds_iff oldest _
  have busy : guardBusy (working p [b0, b1, b2] s) = true ↔
      65536 ≤ held ∧ oldest < s.journal.cursor ∧
        ((∃ u ∈ (asOfLast s).units, oldest ∈ u.strokes) ∨ ∃ e ∈ (asOfLast s).run, e.seq = oldest) ∧ atWork :=
    guardBusy_iff _
  have exhausted : journalExhausted (working p [b0, b1, b2] s) = true ↔
      4294967294 ≤ s.journal.head + s.memory.intakeWork.length ∨ (65536 ≤ held ∧ s.journal.cursor ≤ oldest) :=
    journalExhausted_iff _
  have taken (hfree : ¬ guardBusy (working p [b0, b1, b2] s) = true) (hcursor : 65536 ≤ held → oldest < s.journal.cursor) :
      exec (.stroke p tag [b0, b1, b2]) s = .next (takeChord p tag c (working p [b0, b1, b2] s)) := by
    have hroom : ¬ journalExhausted (working p [b0, b1, b2] s) = true := fun h =>
      (exhausted.mp h).elim (Nat.not_le.mpr hlast) fun ⟨hfull, hle⟩ => Nat.not_le.mpr (hcursor hfull) hle
    have taking : sessionTaking (working p [b0, b1, b2] s) = true := sessionTaking_open hopened hnone
    rw [exec_stroke hc htaken, serveChord_taken hne taking hfree hroom]
  refine ⟨fun hroom => ?_, fun hfull hcursor => ⟨fun hno hunnamed hshown => ?_, fun hno _ hidle => ?_,
    fun hholds hidle => ?_⟩⟩
  · have hnot : ringFull (working p [b0, b1, b2] s) = false :=
      Bool.eq_false_iff.mpr (mt full.mp (Nat.not_le.mpr hroom))
    have hfree : ¬ guardBusy (working p [b0, b1, b2] s) = true := fun h => Nat.not_le.mpr hroom (busy.mp h).1
    rw [taken hfree (fun h => absurd h (Nat.not_le.mpr hroom)), takeChord_room hnot]
    rfl
  · have hfree : ¬ guardBusy (working p [b0, b1, b2] s) = true := fun h => by
      obtain ⟨-, -, hneeded, hwork⟩ := busy.mp h
      obtain ⟨hunits, hentries⟩ := hshown hwork
      rcases hneeded with ⟨u, hu, hin⟩ | ⟨e, he, heq⟩
      · exact hunits u hu hin
      · exact hentries e he heq
    have evicted : evictNaming (victimSeq (working p [b0, b1, b2] s)) (working p [b0, b1, b2] s) = working p [b0, b1, b2] s :=
      evictNaming_unnamed fun u hu hin => hunnamed ⟨u, hu, hin⟩
    rw [taken hfree (fun _ => hcursor), takeChord_evicts (full.mpr hfull) (Bool.eq_false_iff.mpr (mt hrun.mp hno)), evicted]
    rfl
  · have hfree : ¬ guardBusy (working p [b0, b1, b2] s) = true := fun h => by
      obtain ⟨-, -, -, hwork⟩ := busy.mp h
      exact hidle hwork
    rw [taken hfree (fun _ => hcursor), takeChord_evicts (full.mpr hfull) (Bool.eq_false_iff.mpr (mt hrun.mp hno))]
    rfl
  · have hfree : ¬ guardBusy (working p [b0, b1, b2] s) = true := fun h => by
      obtain ⟨-, -, -, hwork⟩ := busy.mp h
      exact hidle hwork
    intro after
    have step : exec (.stroke p tag [b0, b1, b2]) s =
        .next (if changesWait after then after else refreshed (workEnded after)) := by
      rw [taken hfree (fun _ => hcursor), takeChord_settles (full.mpr hfull) (hrun.mpr hholds), asking_guardSettled]
      rfl
    refine ⟨fun hwait => ?_, fun hno => ?_⟩
    · rw [step, if_pos ((changesWait_iff after).mpr hwait)]
    · rw [step, if_neg (Bool.eq_false_iff.mp ((changesWait_false after).mpr hno))]

/-! ### The append (R5, R9, R15) -/

/-- The state of a STROKE whose append has ended: its port is ANSWERING with number and stamp. -/
theorem exec_journalAppend {s : State} {w : IntakeWork} {rest : List IntakeWork} {b : Block}
    (hwork : s.memory.intakeWork = w :: rest) (hprogress : s.memory.inProgress = some ⟨.intake, b, .journalAppend⟩) :
    exec .journalAppend s = .next (refreshed { s with
      journal := s.journal.append (newRecord s.journal w s.session.clock)
      ports := s.ports.modify w.port (fun q => { q with exchange := .answering (responseFrame 1#8 w.tag
        (doneReply (leBytes 4 (s.journal.head + 1) ++
          leBytes 4 (s.session.clock + s.session.offsets.get w.port).toNat))) })
      memory := { s.memory with inProgress := none, intakeWork := rest } }) := by
  have ends : journalAppends s = refreshActivity (answer w.port .stroke w.tag (strokeReply w s)
      (endTransaction (appendWaiting w rest s))) := by
    rw [journalAppends, granted_inProgress hprogress]
    simp only [hwork]
  show Host.Outcome.next (journalAppends s) = _
  rw [ends, refreshActivity_eq]
  rfl

/-- The record of a chord, by its kind. -/
theorem newRecord_eq (j : Journal) (w : IntakeWork) (clock : Stamp) : newRecord j w clock =
    ⟨j.head + 1, if w.chord = 1024#23 then .strike none else .stroke false, w.chord, clock, w.port⟩ := rfl

theorem append_room {j : Journal} (h : j.held < Config.journalRing) (r : JournalRecord) :
    j.append r = { j with head := j.head + 1, records := j.records ++ [r] } := if_pos h

theorem append_full {j : Journal} (h : ¬ j.held < Config.journalRing) (r : JournalRecord) :
    j.append r = { j with
      head := j.head + 1, oldest := j.oldest + 1, records := j.records.drop 1 ++ [r],
      pull := j.pull.map (Option.map (PullCursor.overwrite j.oldest)) } := if_neg h

/-- Settles O18: the append to a ring with room. -/
theorem appendJoinsTheJournal : Obligations.AppendJoinsTheJournal := by
  unfold Obligations.AppendJoinsTheJournal
  intro s w rest b hwork hprogress hroom
  rw [exec_journalAppend hwork hprogress, append_room hroom, newRecord_eq]

/-- As many records as numbers are held. -/
theorem records_length {s : State} (h : JournalSound s) : s.journal.records.length = s.journal.held := by
  obtain ⟨-, -, -, -, hseqs⟩ := h
  have := congrArg List.length hseqs
  simpa using this

/-- In a journal with one record dropped in front and one joined, each number finds what it found, and the new one the new
record. -/
theorem recordAt_overwritten {j : Journal} (r : JournalRecord) (pull : Quad (Option PullCursor))
    (hlength : j.records.length = j.held) (hheld : 0 < j.held) :
    let k : Journal := { j with
      head := j.head + 1, oldest := j.oldest + 1, records := j.records.drop 1 ++ [r], pull := pull }
    k.recordAt (j.head + 1) = some r ∧ ∀ n, j.oldest < n → n ≤ j.head → k.recordAt n = j.recordAt n := by
  have hle : j.oldest ≤ j.head := by
    have : 0 < j.head + 1 - j.oldest := hheld
    omega
  have hlen : j.records.length = j.head + 1 - j.oldest := hlength
  refine ⟨?_, fun n hn hhead => ?_⟩
  · have hidx : j.head + 1 - (j.oldest + 1) = (j.records.drop 1).length := by
      rw [List.length_drop]
      omega
    simp only [Journal.recordAt]
    rw [if_pos ⟨by omega, Nat.le_refl _⟩, hidx, List.getElem?_concat_length]
  · have hidx : n - (j.oldest + 1) < (j.records.drop 1).length := by
      rw [List.length_drop]
      omega
    simp only [Journal.recordAt]
    rw [if_pos ⟨by omega, by omega⟩, if_pos ⟨by omega, hhead⟩, List.getElem?_append_left hidx, List.getElem?_drop]
    congr 1
    omega

/-- Settles O19: the append to a full ring, and what each number then finds. -/
theorem appendOverwritesTheOldest : Obligations.AppendOverwritesTheOldest := by
  unfold Obligations.AppendOverwritesTheOldest
  intro s w rest b hwork hprogress hfull
  have hnot : ¬ s.journal.held < Config.journalRing := by
    rw [hfull]
    decide
  refine ⟨_, _, rfl, exec_journalAppend hwork hprogress, ?_, fun hsound => ?_⟩
  · rw [append_full hnot, newRecord_eq]
    rfl
  · have hjournal : ∀ t : State, (refreshed t).journal = t.journal := fun _ => rfl
    rw [hjournal]
    show ((s.journal.append _).recordAt _ = _) ∧ ∀ n, _ → _ → (s.journal.append _).recordAt n = _
    rw [append_full hnot]
    exact recordAt_overwritten _ _ (records_length hsound) (by rw [hfull]; decide)

end Sys2Proof.Proofs
end

section
/-! PROOFS. PULL and FETCH (R16, R17, R92 to R96): what they deliver at once, what they leave to be read, each read's item, and
the walk of a FETCH. -/

namespace Sys2Proof.Proofs

open Sys2Proof.Machine

theorem oneByte_of_length {body : List Byte} (h : body.length ≠ 1) : oneByte body = .error 0 := by
  match body with
  | [] => rfl
  | [_] => exact absurd rfl h
  | _ :: _ :: _ => rfl

/-- The count of a PULL or a FETCH as the spec has it: 0 is taken as 1, and above 16 as 16. -/
theorem clampCount_eq (n : Byte) : clampCount n.toNat = if n = 0#8 then 1 else min n.toNat 16 := by
  have zero : n.toNat = 0 ↔ n = 0#8 := by
    rw [← BitVec.toNat_inj]
    rfl
  simp only [clampCount, zero, Config.itemLimit]
  split
  · rfl
  · split <;> omega

/-! ### PULL (R16, R17) -/

/-- The records a PULL takes: one for each number from the cursor on, at most the count. -/
theorem pullable_records {s : State} (h : JournalSound s) {k : Nat} (hlow : s.journal.oldest ≤ k)
    (hhigh : k ≤ s.journal.cursor) (count : Nat) :
    (s.journal.pullable k count).length = min count (s.journal.cursor - k) ∧
    (s.journal.pullable k count).map some =
      (List.range (min count (s.journal.cursor - k))).map (fun i => s.journal.recordAt (k + i)) := by
  have hlen : s.journal.records.length = s.journal.head + 1 - s.journal.oldest := records_length h
  obtain ⟨-, -, hcursor, -, -⟩ := h
  have length : (s.journal.pullable k count).length = min count (s.journal.cursor - k) := by
    rw [Journal.pullable, List.length_take, List.length_drop, hlen]
    omega
  refine ⟨length, List.ext_getElem (by simp [length]) fun i hi _ => ?_⟩
  have hi : i < min count (s.journal.cursor - k) := by simpa [length] using hi
  have place : k - s.journal.oldest + i = k + i - s.journal.oldest := by omega
  have held : k + i - s.journal.oldest < s.journal.records.length := by omega
  simp only [List.getElem_map, Journal.pullable, List.getElem_take, List.getElem_drop, List.getElem_range,
    Journal.recordAt, place]
  rw [if_pos ⟨by omega, by omega⟩, List.getElem?_eq_getElem held]

/-- A PULL on a cursor, by what it finds to read. -/
theorem exec_pull {p : PortId} {s : State} {c : PullCursor} (h : Taken p .pull s) (hc : s.journal.pull.get p = some c)
    (tag n : Byte) : exec (.pull p tag [n]) s =
      .next (pullFrom p tag (if n = 0#8 then 1 else min n.toNat 16) c (working p [n] s)) := by
  have hcursor : (working p [n] s).journal.pull.get p = some c := hc
  rw [exec_of_fields_ok h (cons_fits (by simp)) rfl (oneByte_singleton n), servePullCount, hcursor, ← clampCount_eq]

/-- With nothing to read a PULL is answered at once. -/
theorem pullReads_nil (p : PortId) (tag : Byte) (body items : List Byte) (j : Journal) (s : State) :
    pullReads p tag items [] { working p body s with journal := j } =
      { answered p .pull tag body (doneReply items) s with journal := j } := by
  rw [← answer_working]
  rfl

theorem setWorking_working (p : PortId) (body : List Byte) (s : State) : setWorking p (working p body s) = working p body s := by
  simp [setWorking, working, Quad.modify_eq_set]

/-- With records to read its port stays WORKING. -/
theorem pullReads_some (p : PortId) (tag : Byte) (body items : List Byte) {recs : List JournalRecord} (h : recs ≠ [])
    (j : Journal) (s : State) :
    pullReads p tag items recs { working p body s with journal := j } =
      { working p body s with
        journal := j, memory := { s.memory with pullWork := s.memory.pullWork ++ [⟨p, tag, recs, items⟩] } } := by
  cases recs with
  | nil => exact absurd rfl h
  | cons r rest =>
    conv => rhs; rw [← setWorking_working]
    rfl

/-- A read of a PULL's that ends joins its item, and the last one answers the port. -/
theorem exec_pullRead {q : PortId} {t : Byte} {r : JournalRecord} {more : List JournalRecord} {items : List Byte}
    {rest : List PullWork} {b : Block} {s : State} (hprogress : s.memory.inProgress = some ⟨.pull, b, .pullRead⟩)
    (hwork : s.memory.pullWork = ⟨q, t, r :: more, items⟩ :: rest) :
    exec .memoryTransactionComplete s = .next (
      let now := (s.journal.recordAt r.seq).getD r
      if more = [] then
        { s with
          ports := s.ports.modify q (fun port =>
            { port with exchange :=
                .answering (responseFrame 2#8 t (doneReply (items ++ recordItem now (s.session.offsets.get q)))) })
          memory := { s.memory with inProgress := none, pullWork := rest } }
      else
        { s with memory := { s.memory with
          inProgress := none
          pullWork := ⟨q, t, more, items ++ recordItem now (s.session.offsets.get q)⟩ :: rest } }) := by
  have ends : transactionEnds s = pullReadEnds (endTransaction s) := by rw [transactionEnds, hprogress]
  have work : (endTransaction s).memory.pullWork = ⟨q, t, r :: more, items⟩ :: rest := hwork
  show Host.Outcome.next (transactionEnds s) = _
  rw [ends, pullReadEnds, work]
  rfl

/-- Settles O20: the body's check, the take on a cursor, and each read. -/
theorem pullDelivers : Obligations.PullDelivers := by
  unfold Obligations.PullDelivers
  intro p tag n c m gap body s item
  have hitem : ∀ (r : JournalRecord) (q : PortId), recordItem r (s.session.offsets.get q) = item r q := fun r q => by
    cases hk : r.kind with
    | stroke struck => simp only [item, recordItem, hk]; rfl
    | strike target => cases target <;> (simp only [item, recordItem, hk]; rfl)
  refine ⟨fun htaken hlen hfits => ?_, fun htaken hsound hc hlow hhigh hm hgap => ?_,
    fun q t r now more items rest b hprogress hwork hnow => ?_⟩
  · exact exec_of_fields_error htaken hfits rfl (oneByte_of_length hlen)
  · intro journal
    obtain ⟨hlength, hrecords⟩ := pullable_records hsound hlow hhigh (if n = 0#8 then 1 else min n.toNat 16)
    rw [← hm] at hlength hrecords
    have gapItems : pullGap c.gap = gap := hgap.symm
    have step : exec (.pull p tag [n]) s = .next (pullReads p tag gap
        (s.journal.pullable c.cursor (if n = 0#8 then 1 else min n.toNat 16)) { working p [n] s with journal := journal }) := by
      rw [exec_pull htaken hc, pullFrom, working_journal, gapItems, hlength]
    refine ⟨fun hzero => ?_, fun hpos => ⟨_, hrecords, ?_⟩⟩
    · have none_left : s.journal.pullable c.cursor (if n = 0#8 then 1 else min n.toNat 16) = [] :=
        List.eq_nil_of_length_eq_zero (hlength.trans hzero)
      rw [step, none_left, pullReads_nil]
    · have some_left : s.journal.pullable c.cursor (if n = 0#8 then 1 else min n.toNat 16) ≠ [] := fun h => by
        rw [h, List.length_nil] at hlength
        omega
      rw [step, pullReads_some p tag _ _ some_left]
  · rw [exec_pullRead hprogress hwork, ← hnow]
    refine ⟨fun hmore => ?_, fun hlast => ?_⟩
    · simp only [if_neg hmore, hitem]
    · simp only [if_pos hlast, hitem]

/-! ### The walk of a FETCH (R92, R94) -/

/-- Settles O24: the walk by induction over the segments, and the table by the kind of segment. -/
theorem walkDeliversInOrder : Obligations.WalkDeliversInOrder := by
  unfold Obligations.WalkDeliversInOrder
  intro l p f
  refine ⟨fun n segs w hw => ?_, fun num k job st u text un com counts => ?_⟩
  · subst hw
    induction segs generalizing n with
    | nil => cases n <;> simp [fetchWalk]
    | cons g rest ih =>
      cases n with
      | zero => simp [fetchWalk]
      | succ n =>
        rw [fetchWalk]
        split
        · next htreat =>
          obtain ⟨hdelivered, hlength, hpassed, hends⟩ := ih n
          refine ⟨?_, Nat.succ_le_succ hlength, ?_, ?_⟩
          · simp [htreat, hdelivered]
          · simpa [htreat] using hpassed
          · simpa using hends
        · next htreat =>
          obtain ⟨hdelivered, hlength, hpassed, hends⟩ := ih (n + 1)
          refine ⟨?_, hlength, ?_, ?_⟩
          · simp [htreat, hdelivered]
          · simpa [htreat] using hpassed
          · simpa using hends
        · next htreat => exact ⟨rfl, Nat.zero_le _, by simp, .inr (.inr ⟨g, rfl, htreat⟩)⟩
  · refine ⟨rfl, rfl, rfl, rfl, ?_, fun hzero => ?_, fun hcount hmark => ?_, fun r hr hlapsed hle => ?_⟩
    · cases hmode : f.mode <;> simp [treat, hmode]
    · simp [treat, Segment.eraseFor, hzero]
    · have after : l.afterMark f.mark num = true := by
        cases hr : f.mark with
        | none => rfl
        | some r => exact (Bool.or_eq_true ..).mpr ((hmark r hr).imp_right decide_eq_true)
      exact if_pos ⟨after, hcount⟩
    · have before : ¬ l.afterMark f.mark num = true := by
        rw [hr, CaptionLog.afterMark, hlapsed, Bool.false_or]
        exact fun h => Nat.not_lt.mpr hle (of_decide_eq_true h)
      exact if_neg fun h => before h.1

/-! ### FETCH (R92, R93, R96) -/

/-- A FETCH on a feed, by what it finds to read. -/
theorem exec_fetch_feed {p : PortId} {s : State} {f : Feed} (h : Taken p .fetch s) (hf : s.feeds.get p = some f)
    (tag n : Byte) : exec (.fetch p tag [n]) s =
      .next (fetchFrom p tag (if n = 0#8 then 1 else min n.toNat 16) f (working p [n] s)) := by
  have hfeed : (working p [n] s).feeds.get p = some f := hf
  rw [exec_of_fields_ok h (cons_fits (by simp)) rfl (oneByte_singleton n), serveFetchCount, hfeed, ← clampCount_eq]

/-- With nothing to read a FETCH is answered at once. -/
theorem answerReads_nil (p : PortId) (tag : Byte) (body items : List Byte) (f : Option Feed) (s : State) :
    answerReads p tag items [] (setFeed p f (working p body s)) =
      { answered p .fetch tag body (doneReply items) s with feeds := s.feeds.set p f } := by
  rw [← answer_working]
  rfl

/-- With segments to read its port stays WORKING. -/
theorem answerReads_some (p : PortId) (tag : Byte) (body items : List Byte) {reads : List Block} (h : reads ≠ [])
    (f : Option Feed) (s : State) :
    answerReads p tag items reads (setFeed p f (working p body s)) =
      { working p body s with
        feeds := s.feeds.set p f
        memory := { s.memory with logWork := s.memory.logWork ++ [.fetch ⟨p, tag, reads, items⟩] } } := by
  cases reads with
  | nil => exact absurd rfl h
  | cons b rest =>
    conv => rhs; rw [← setWorking_working]
    rfl

/-- The GAP of a lapsed cursor leaves a cursor that holds a number. -/
theorem afterGap_cursor (l : CaptionLog) (f : Feed) : (f.afterGap l).cursor.lapsed = false := by
  rw [Feed.afterGap]
  split
  · rfl
  · next h => simpa using h

theorem fromCursor_of_not_lapsed {l : CaptionLog} {f : Feed} (h : f.cursor.lapsed = false) :
    l.fromCursor f = l.segments.drop (f.cursor.number - l.oldest).toNat := by
  rw [CaptionLog.fromCursor, CaptionLog.refRank, if_neg (by rw [h]; decide), CaptionLog.rank]

/-- Settles O23: the body's check, and the walk from the feed's cursor, with its items by the layout of R96. -/
theorem fetchDelivers : Obligations.FetchDelivers := by
  unfold Obligations.FetchDelivers
  intro p tag n f f1 w items body s item
  have hitem : ∀ g : Segment, segmentItem g (g.eraseFor p) (offsetOf p s) = item g := fun g => by
    obtain ⟨number, body⟩ := g
    cases body with
    | text unit text untranslated command st state =>
      have flags : byteOf (untranslated.toNat + 2 * command.toNat) =
          (if untranslated then 1#8 else 0#8) ||| (if command then 2#8 else 0#8) := by
        cases untranslated <;> cases command <;> rfl
      have code : byteOf state.code = if state = .provisional then 0#8 else 1#8 := by
        cases state <;> rfl
      simp only [segmentItem, flags, code]
      rfl
    | _ => rfl
  refine ⟨fun htaken hlen hfits => ?_, fun htaken hf hf1 hw hitems => ?_⟩
  · exact exec_of_fields_error htaken hfits rfl (oneByte_of_length hlen)
  · intro feeds
    have gap : f.afterGap s.log = f1 := hf1.symm
    have hlapsed : f1.cursor.lapsed = false := gap ▸ afterGap_cursor s.log f
    have walk : fetchWalk s.log p f1 (if n = 0#8 then 1 else min n.toNat 16) (s.log.fromCursor f1) = w := by
      rw [fromCursor_of_not_lapsed hlapsed, hw]
    have delivered : f.gapItems s.log ++
        w.delivered.flatMap (fun g => segmentItem g (g.eraseFor p) (offsetOf p s)) = items := by
      simp only [hitem, hitems]
      rfl
    have step : exec (.fetch p tag [n]) s = .next (answerReads p tag items
        (w.reads.map (fun g => segmentBlock g.number))
        (setFeed p (some { f1 with cursor := ⟨f1.cursor.number + BitVec.ofNat 32 w.moved, false⟩ }) (working p [n] s))) := by
      have offset : offsetOf p (working p [n] s) = offsetOf p s := rfl
      rw [exec_fetch_feed htaken hf, fetchFrom, working_log]
      simp only [gap, walk, offset, delivered]
    refine ⟨fun hnone => ?_, fun hsome => ?_⟩
    · rw [step, hnone, List.map_nil, answerReads_nil]
    · rw [step, answerReads_some p tag _ _ (by simpa using hsome)]

end Sys2Proof.Proofs
end

section
/-! PROOFS. RETRANSLATE and CLOSE through their state checks, OPEN and the emptying of the previous session, the appends of START
and END, and the session clock (R110, R147 to R154). -/

namespace Sys2Proof.Proofs

open Sys2Proof.Machine

/-! ### State checks (R110, R147, R151) -/

theorem slotBusy_iff (p : PortId) (s : State) : slotBusy p s = true ↔ (s.ports.get p).slot ≠ .clear := by
  rw [slotBusy]
  cases (s.ports.get p).slot <;> simp

theorem sessionTaking_iff (s : State) :
    sessionTaking s = true ↔ s.session.opened = true ∧ ∀ q b, s.session.request ≠ .closeInProgress q b := by
  rw [sessionTaking, Bool.and_eq_true]
  cases s.session.request <;> simp

/-! ### RETRANSLATE (R110, R111) -/

theorem retranslateBody_of_length {body : List Byte} (h : body.length ≠ 4) : retranslateBody body = .error 0 := by
  match body with
  | [] => rfl
  | [_] => rfl
  | [_, _] => rfl
  | [_, _, _] => rfl
  | [_, _, _, _] => exact absurd rfl h
  | _ :: _ :: _ :: _ :: _ :: _ => rfl

theorem retranslateBody_ok (start : Word32) : retranslateBody (leBytes 4 start.toNat) = .ok start := by
  have h : retranslateBody (leBytes 4 start.toNat) = .ok (BitVec.ofNat 32 (leNat (leBytes 4 start.toNat))) := rfl
  rw [h, word_leBytes]

section
variable {p : PortId} {tag : Byte} {start : Word32} {s : State}

theorem acceptRetranslate_busy (h : slotBusy p s = true ∨ s.engine.request ≠ none) :
    acceptRetranslate p tag start s = refuse p .retranslate tag .busy 0 s := by
  have held : s.engine.request ≠ none ↔ s.engine.request.isSome = true := Option.isSome_iff_ne_none.symm
  rw [acceptRetranslate]
  split
  · rfl
  · next hfree => rw [if_pos (held.mp (h.resolve_left hfree))]

theorem acceptRetranslate_no_session (hslot : ¬ slotBusy p s = true) (hnone : s.engine.request = none)
    (h : sessionTaking s = false) : acceptRetranslate p tag start s = refuse p .retranslate tag .noSession 0 s := by
  rw [acceptRetranslate, if_neg hslot, hnone, if_neg (by decide), if_pos h]

theorem acceptRetranslate_taken (hslot : ¬ slotBusy p s = true) (hnone : s.engine.request = none)
    (h : sessionTaking s = true) : acceptRetranslate p tag start s =
      accept p .retranslate tag
        (refreshActivity { s with engine := { s.engine with request := some (newRetranslation p start) } }) := by
  rw [acceptRetranslate, if_neg hslot, hnone, if_neg (by decide), if_neg (by rw [h]; decide)]

end

/-- With a retranslation held the engine has work to begin, so that the lock alone says whether it waits. -/
theorem refreshActivity_requested (p : PortId) (start : Word32) (s : State) :
    refreshActivity { s with engine := { s.engine with request := some (newRetranslation p start) } } =
      { s with engine := { s.engine with
          request := some ⟨start, [⟨p, .retranslate, []⟩], .pending⟩
          activity := if s.engine.activity = .idle ∨ s.engine.activity = .waiting then
              (if s.maint.lockHeld then .waiting else .idle)
            else s.engine.activity } } := by
  rw [refreshActivity_eq]
  simp [refreshed, newRetranslation]

theorem acceptRetranslate_working {p : PortId} {s : State} {start : Word32} (hslot : ¬ slotBusy p s = true)
    (hnone : s.engine.request = none) (h : sessionTaking s = true) (tag : Byte) (body : List Byte) :
    acceptRetranslate p tag start (working p body s) = { acceptedBy p .retranslate tag body s with
      engine := { s.engine with
        request := some ⟨start, [⟨p, .retranslate, []⟩], .pending⟩
        activity := if s.engine.activity = .idle ∨ s.engine.activity = .waiting then
            (if s.maint.lockHeld then .waiting else .idle)
          else s.engine.activity } } := by
  have hslot' : ¬ slotBusy p (working p body s) = true := by rwa [slotBusy_working]
  have hnone' : (working p body s).engine.request = none := hnone
  have taking : sessionTaking (working p body s) = true := h
  rw [acceptRetranslate_taken hslot' hnone' taking, refreshActivity_requested, ← accept_working]
  rfl

/-! ### CLOSE (R151) -/

section
variable {p : PortId} {tag : Byte} {s : State}

theorem acceptClose_busy (h : (s.ports.get p).slot ≠ .clear ∨ s.session.request ≠ .none ∨ s.engine.request ≠ none) :
    acceptClose p tag s = refuse p .closeSession tag .busy 0 s := by
  have held : s.engine.request ≠ none ↔ s.engine.request.isSome = true := Option.isSome_iff_ne_none.symm
  rw [acceptClose]
  split
  · rfl
  · next hslot =>
    split
    · rfl
    · next hsession =>
      rw [← slotBusy_iff] at h
      rw [if_pos (held.mp ((h.resolve_left hslot).resolve_left hsession))]

/-- Past the three BUSY checks the session's state decides. -/
theorem acceptClose_free (h : ¬((s.ports.get p).slot ≠ .clear ∨ s.session.request ≠ .none ∨ s.engine.request ≠ none)) :
    acceptClose p tag s =
      if s.session.opened = false then refuse p .closeSession tag .wrongState 0 s
      else accept p .closeSession tag { s with session := { s.session with request := .closeInProgress p false } } := by
  obtain ⟨hslot, hsession, hengine⟩ : (s.ports.get p).slot = .clear ∧ s.session.request = .none ∧ s.engine.request = none := by
    simpa using h
  have hfree : ¬ slotBusy p s = true := fun hb => (slotBusy_iff p s).mp hb hslot
  rw [acceptClose, if_neg hfree, if_neg (by rw [hsession]; decide), hengine, if_neg (by decide)]

end

/-- Settles O44: both bodies' checks, and the state checks in their order. -/
theorem retranslateAndCloseTaken : Obligations.RetranslateAndCloseTaken := by
  unfold Obligations.RetranslateAndCloseTaken
  intro p tag start bad s
  refine ⟨fun htaken hlen hfits => ?_, fun htaken hne hfits => ?_, fun htaken => ?_, fun htaken => ?_⟩
  · exact exec_of_fields_error htaken hfits rfl (retranslateBody_of_length hlen)
  · exact exec_of_fields_error htaken hfits rfl (noBody_eq_error hne)
  · intro body refused isOpen
    have step : exec (.retranslate p tag body) s = .next (acceptRetranslate p tag start (working p body s)) :=
      exec_of_fields_ok htaken (by simp [body, Config.bodyLimit]) rfl (retranslateBody_ok start)
    have hfree (hslot : (s.ports.get p).slot = .clear) : ¬ slotBusy p s = true := fun hb => (slotBusy_iff p s).mp hb hslot
    refine ⟨fun hbusy => ?_, fun hslot hnone hclosed => ?_, fun hslot hnone hopen => ?_⟩
    · have hbusy : slotBusy p (working p body s) = true ∨ s.engine.request ≠ none := by
        rwa [slotBusy_working, slotBusy_iff]
      exact step.trans (congrArg _ ((acceptRetranslate_busy hbusy).trans (refuse_working ..)))
    · have hno : sessionTaking (working p body s) = false :=
        Bool.eq_false_iff.mpr (mt (sessionTaking_iff _).mp hclosed)
      have hslot' : ¬ slotBusy p (working p body s) = true := by
        rw [slotBusy_working]
        exact hfree hslot
      exact step.trans (congrArg _ ((acceptRetranslate_no_session hslot' hnone hno).trans (refuse_working ..)))
    · rw [step, acceptRetranslate_working (hfree hslot) hnone ((sessionTaking_iff s).mpr hopen)]
  · intro refused busy
    have step : exec (.closeSession p tag []) s = .next (acceptClose p tag (working p [] s)) :=
      exec_of_fields_ok (act := fun _ s => acceptClose p tag s) htaken (by decide) rfl noBody_nil
    have same : ((working p [] s).ports.get p).slot = (s.ports.get p).slot := by rw [working_get]
    refine ⟨fun hbusy => ?_, fun hnot hclosed => ?_, fun hnot hopened => ?_⟩
    · exact step.trans (congrArg _ ((acceptClose_busy (by rw [same]; exact hbusy)).trans (refuse_working ..)))
    · exact step.trans (congrArg _ ((acceptClose_free (by rw [same]; exact hnot)).trans
        ((if_pos hclosed).trans (refuse_working ..))))
    · rw [step, acceptClose_free (by rw [same]; exact hnot), working_session, if_neg (by rw [hopened]; decide),
        ← accept_working]
      rfl

/-! ### START, END and the clock (R150, R153, R154, R192) -/

/-- An append does not look at the ports. -/
theorem segmentAppended_completedBy (body : SegmentBody) (p : PortId) (k : Kind) (tag : Byte) (r : Reply) (s : State) :
    segmentAppended body (completedBy p k tag r s) = completedBy p k tag r (segmentAppended body s) := by
  have room : roomMade (completedBy p k tag r s) = completedBy p k tag r (roomMade s) := by
    by_cases h : s.log.segments.length < 4096
    · have h' : (completedBy p k tag r s).log.segments.length < 4096 := h
      rw [roomMade, if_pos h', roomMade, if_pos h]
    · have h' : ¬ (completedBy p k tag r s).log.segments.length < 4096 := h
      rw [roomMade, if_neg h', roomMade, if_neg h]
      rfl
  rw [segmentAppended, room]
  rfl

/-- A segment joins under the next number. -/
theorem segmentAppended_newest (body : SegmentBody) (s : State) :
    (segmentAppended body s).log.newest = s.log.newest + 1#32 := by
  simp only [segmentAppended, roomMade, logWith]
  split <;> rfl

/-- Settles O46: the append that the transaction in progress is for, and the session and the completion after it. -/
theorem startAndEndAppended : Obligations.StartAndEndAppended := by
  unfold Obligations.StartAndEndAppended
  intro p discard k tag r b works s hslot
  refine ⟨fun hrequest hprogress hwork => ?_, fun hrequest hprogress hwork => ?_⟩
  · have made : LogWork.made s.memory.logWork = works := by
      rw [hwork]
      rfl
    have appends : openStartAppends s = startAppended p discard s := by
      rw [openStartAppends, hrequest]
      simp only [granted_inProgress hprogress]
    obtain ⟨⟨e, f, l, only⟩, -⟩ := appendSegment_only (.start s.session.job 0#32) s
    rw [appendSegment_eq] at only
    show Host.Outcome.next (openStartAppends s) = _
    rw [appends, startAppended, appendSegment_eq, segmentAppended_completedBy, only, made]
    exact congrArg Host.Outcome.next (complete_eq _ hslot)
  · have made : LogWork.made s.memory.logWork = works := by
      rw [hwork]
      rfl
    have appends : closeEndAppends s = endAppended p s := by
      rw [closeEndAppends, hrequest]
      simp only [granted_inProgress hprogress]
    obtain ⟨⟨e, f, l, only⟩, -⟩ := appendSegment_only (.fin s.session.job s.session.clock) s
    have newest := segmentAppended_newest (.fin s.session.job s.session.clock) s
    rw [appendSegment_eq] at only
    rw [only] at newest
    show Host.Outcome.next (closeEndAppends s) = _
    rw [appends, endAppended, appendSegment_eq, segmentAppended_completedBy, only, made, ← newest]
    exact congrArg Host.Outcome.next (complete_eq _ hslot)

/-- Settles O47: the periods counted, by quotient and rest. -/
theorem clockTicks : Obligations.ClockTicks := by
  unfold Obligations.ClockTicks
  intro n s
  refine ⟨fun hclosed => ?_, fun hopened => ?_⟩
  · have held : clockRuns n s.session = s.session := if_neg (by rw [hclosed]; decide)
    show Host.Outcome.next { s with session := clockRuns n s.session } = _
    rw [held]
  · have runs : clockRuns n s.session = _ := if_pos hopened
    refine ⟨(s.session.clkin + n) / 50000, (s.session.clkin + n) % 50000, (Nat.div_add_mod _ _).symm,
      Nat.mod_lt _ (by decide), ?_⟩
    show Host.Outcome.next { s with session := clockRuns n s.session } = _
    rw [runs]

end Sys2Proof.Proofs
end

section
/-! PROOFS. OPEN (R147 to R150): its body, its checks, and the emptying of the previous session as one event, with the PULLs and
FETCHes that it answers. -/

namespace Sys2Proof.Proofs

open Sys2Proof.Machine

/-! ### The body (R147) -/

theorem leNat_two (job : BitVec 16) : leNat [BitVec.ofNat 8 job.toNat, BitVec.ofNat 8 (job.toNat / 256)] = job.toNat := by
  rw [← leBytes_two, leNat_leBytes, show 256 ^ 2 = 2 ^ 16 from rfl, Nat.mod_eq_of_lt job.isLt]

theorem openBody_job {job : BitVec 16} (h : job ≠ 0#16) (rest : List Byte) :
    openBody (leBytes 2 job.toNat ++ rest) =
      match rest with
      | [o] => if o.toNat < 2 then .ok (job, o.getLsbD 0) else .error 1
      | _ => .error 1 := by
  have nonzero : ¬ job.toNat = 0 := fun e => h (BitVec.eq_of_toNat_eq e)
  have checked (b0 b1 : Byte) : openBody (b0 :: b1 :: rest) =
      if leNat [b0, b1] = 0 then .error 0
      else match rest with
        | [o] => if o.toNat < 2 then .ok (BitVec.ofNat 16 (leNat [b0, b1]), o.getLsbD 0) else .error 1
        | _ => .error 1 := rfl
  rw [leBytes_two, List.cons_append, List.cons_append, List.nil_append, checked, leNat_two, if_neg nonzero,
    BitVec.ofNat_toNat, BitVec.setWidth_eq]

theorem openBody_ok {job : BitVec 16} (h : job ≠ 0#16) (flag : Bool) :
    openBody (leBytes 2 job.toNat ++ [if flag then 1#8 else 0#8]) = .ok (job, flag) := by
  rw [openBody_job h]
  cases flag <;> rfl

theorem openBody_flag {job : BitVec 16} (h : job ≠ 0#16) {rest : List Byte} (h0 : rest ≠ [0#8]) (h1 : rest ≠ [1#8]) :
    openBody (leBytes 2 job.toNat ++ rest) = .error 1 := by
  rw [openBody_job h]
  match rest with
  | [] => rfl
  | [o] =>
    have high : ¬ o.toNat < 2 := fun hlt => by
      obtain ho | ho : o = 0#8 ∨ o = 1#8 := by bv_omega
      · exact h0 (by rw [ho])
      · exact h1 (by rw [ho])
    exact if_neg high
  | _ :: _ :: _ => rfl

/-! ### Lagging pull cursors (R148, R150) -/

/-- A pull cursor before the translate cursor. -/
def Lags (s : State) (q : PortId) : Prop := ∃ c, s.journal.pull.get q = some c ∧ c.cursor < s.journal.cursor

theorem mem_lagging (s : State) (q : PortId) : q ∈ s.journal.lagging ↔ Lags s q := by
  have all : q ∈ allFour := by fin_cases q <;> decide
  rw [Journal.lagging, List.mem_filter, Lags]
  cases s.journal.pull.get q with
  | none => simp
  | some c => simp [all]

theorem lagging_nil {s : State} (h : ∀ q, ¬ Lags s q) : s.journal.lagging = [] :=
  List.eq_nil_iff_forall_not_mem.mpr fun q hq => h q ((mem_lagging s q).mp hq)

/-- The ports lag in rising order, so that the first is the lowest. -/
theorem lagging_head {s : State} {q : PortId} (hq : Lags s q) (hlow : ∀ r : PortId, r.val < q.val → ¬ Lags s r) :
    s.journal.lagging.head? = some q := by
  have sorted : s.journal.lagging.Pairwise (· < ·) :=
    List.Pairwise.sublist List.filter_sublist (by decide : allFour.Pairwise (· < ·))
  have hmem := (mem_lagging s q).mpr hq
  have hleast : ∀ r ∈ s.journal.lagging, q ≤ r := fun r hr =>
    Nat.not_lt.mp fun hlt => hlow r hlt ((mem_lagging s r).mp hr)
  cases hl : s.journal.lagging with
  | nil => rw [hl] at hmem; cases hmem
  | cons r rest =>
    rw [hl] at hmem sorted hleast
    rcases List.mem_cons.mp hmem with rfl | hin
    · rfl
    · exact absurd ((List.pairwise_cons.mp sorted).1 q hin) (not_lt.mpr (hleast r (List.mem_cons_self ..)))

/-- How far a port's pull cursor lies before the translate cursor. -/
def lagOf (j : Journal) (q : PortId) : Nat :=
  match j.pull.get q with
  | some c => j.cursor - c.cursor
  | none => 0

/-- The greatest of a list and a first value is an upper bound, and one of them. -/
theorem foldl_max_spec (l : List Nat) (m : Nat) :
    m ≤ l.foldl max m ∧ (∀ a ∈ l, a ≤ l.foldl max m) ∧ (l.foldl max m = m ∨ l.foldl max m ∈ l) := by
  induction l generalizing m with
  | nil => exact ⟨Nat.le_refl m, fun a ha => absurd ha List.not_mem_nil, .inl rfl⟩
  | cons b rest ih =>
    obtain ⟨hfirst, hall, hone⟩ := ih (max m b)
    refine ⟨(Nat.le_max_left m b).trans hfirst, fun a ha => ?_, ?_⟩
    · rcases List.mem_cons.mp ha with rfl | ha
      · exact (Nat.le_max_right m a).trans hfirst
      · exact hall a ha
    · show rest.foldl max (max m b) = m ∨ rest.foldl max (max m b) ∈ b :: rest
      rcases hone with h | h
      · rw [h]
        exact (max_choice m b).imp id fun h => List.mem_cons.mpr (.inl h)
      · exact .inr (List.mem_cons_of_mem b h)

/-- The discard count is the greatest lag, and that of some port where it is not 0. -/
theorem unpulled_spec (j : Journal) :
    (∀ q c, j.pull.get q = some c → j.cursor - c.cursor ≤ j.unpulled) ∧
      (j.unpulled = 0 ∨ ∃ q c, j.pull.get q = some c ∧ j.unpulled = j.cursor - c.cursor) := by
  have greatest : j.unpulled = (allFour.map (lagOf j)).foldl max 0 := rfl
  obtain ⟨-, hall, hone⟩ := foldl_max_spec (allFour.map (lagOf j)) 0
  rw [← greatest] at hall hone
  refine ⟨fun q c h => ?_, ?_⟩
  · have lag : lagOf j q = j.cursor - c.cursor := by rw [lagOf, h]
    exact lag ▸ hall _ (List.mem_map_of_mem (by fin_cases q <;> decide))
  · rcases hone with h | hmem
    · exact .inl h
    · obtain ⟨q, -, h⟩ := List.mem_map.mp hmem
      cases hc : j.pull.get q with
      | none => exact .inl (by rw [← h, lagOf, hc])
      | some c => exact .inr ⟨q, c, hc, by rw [← h, lagOf, hc]⟩

/-! ### The answers of the emptying (R149) -/

/-- Answers one after another: a port that only equal answers are for has that answer, and one with none stays. -/
theorem foldl_answers_get {α : Type} (f : State → α → State) (port : α → Option PortId) (x : α → Exchange)
    (hanswer : ∀ t a p, port a = some p → (f t a).ports = t.ports.modify p (fun q => { q with exchange := x a }))
    (hother : ∀ t a, port a = none → (f t a).ports = t.ports) (q : PortId) (l : List α) (s : State) :
    ((∀ a ∈ l, port a ≠ some q) → (l.foldl f s).ports.get q = s.ports.get q) ∧
      ∀ e, (∃ a ∈ l, port a = some q) → (∀ a ∈ l, port a = some q → x a = e) →
        (l.foldl f s).ports.get q = { s.ports.get q with exchange := e } := by
  have kept (t : State) (a : α) (h : port a ≠ some q) : (f t a).ports.get q = t.ports.get q := by
    cases hp : port a with
    | none => rw [hother t a hp]
    | some p => rw [hanswer t a p hp, Quad.get_modify_other _ _ fun e => h (hp.trans (congrArg some e.symm))]
  induction l generalizing s with
  | nil => exact ⟨fun _ => rfl, fun e ⟨a, ha, _⟩ => absurd ha List.not_mem_nil⟩
  | cons a rest ih =>
    obtain ⟨hkeep, hset⟩ := ih (f s a)
    refine ⟨fun h => ?_, fun e ⟨b, hb, hbq⟩ hall => ?_⟩
    · exact (hkeep fun b hb => h b (List.mem_cons_of_mem a hb)).trans (kept s a (h a (List.mem_cons_self ..)))
    · have hall' : ∀ b ∈ rest, port b = some q → x b = e := fun b hb => hall b (List.mem_cons_of_mem a hb)
      show (rest.foldl f (f s a)).ports.get q = _
      by_cases hrest : ∃ b ∈ rest, port b = some q
      · rw [hset e hrest hall']
        by_cases ha : port a = some q
        · rw [hanswer s a q ha, Quad.get_modify_same]
        · rw [kept s a ha]
      · have hb : b = a := (List.mem_cons.mp hb).resolve_right fun hin => hrest ⟨b, hin, hbq⟩
        subst hb
        rw [hkeep fun c hc hcq => hrest ⟨c, hc, hcq⟩, hanswer s b q hbq, Quad.get_modify_same,
          hall b (List.mem_cons_self ..) hbq]

/-- The port a piece of the log's work answers. -/
def fetchPort : LogWork → Option PortId
  | .fetch f => some f.port
  | .startAppend => none
  | .endAppend => none
  | .change _ => none

/-- The exchange of the answered port. -/
def fetchAnswer : LogWork → Exchange
  | .fetch f => .answering (responseFrame 5#8 f.tag (doneReply f.items))
  | .startAppend => .idle
  | .endAppend => .idle
  | .change _ => .idle

theorem fetchPort_eq_some {w : LogWork} {q : PortId} (h : fetchPort w = some q) : ∃ f, w = .fetch f ∧ f.port = q := by
  cases w with
  | fetch f => exact ⟨f, rfl, Option.some.inj h⟩
  | _ => cases h

/-- The PULLs are answered first. -/
def answerPulls (s : State) : State :=
  s.memory.pullWork.foldl (fun t w =>
    answer w.port .pull w.tag (doneReply (w.items ++ w.left.flatMap (pullItem s w.port))) t) s

/-- What the FETCHes' answers leave of a port, after those of the PULLs. -/
theorem answerWaiting_get (q : PortId) (s : State) :
    ((∀ w ∈ s.memory.logWork, fetchPort w ≠ some q) → (answerWaiting s).ports.get q = (answerPulls s).ports.get q) ∧
      ∀ e, (∃ w ∈ s.memory.logWork, fetchPort w = some q) →
        (∀ w ∈ s.memory.logWork, fetchPort w = some q → fetchAnswer w = e) →
        (answerWaiting s).ports.get q = { (answerPulls s).ports.get q with exchange := e } :=
  foldl_answers_get _ fetchPort fetchAnswer
    (fun t w p h => by obtain ⟨f, rfl, rfl⟩ := fetchPort_eq_some h; rfl)
    (fun t w h => by
      cases w with
      | fetch f => cases h
      | _ => rfl) q s.memory.logWork (answerPulls s)

/-- What the PULLs' answers leave of a port. -/
theorem answerPulls_get (q : PortId) (s : State) :
    ((∀ w ∈ s.memory.pullWork, some w.port ≠ some q) → (answerPulls s).ports.get q = s.ports.get q) ∧
      ∀ e, (∃ w ∈ s.memory.pullWork, some w.port = some q) →
        (∀ w ∈ s.memory.pullWork, some w.port = some q → .answering (responseFrame 2#8 w.tag
          (doneReply (w.items ++ w.left.flatMap (pullItem s w.port)))) = e) →
        (answerPulls s).ports.get q = { s.ports.get q with exchange := e } :=
  foldl_answers_get _ (fun w : PullWork => some w.port) (fun w => .answering (responseFrame 2#8 w.tag
      (doneReply (w.items ++ w.left.flatMap (pullItem s w.port)))))
    (fun t w p h => by cases h; rfl) (fun t w h => nomatch h) q s.memory.pullWork s

/-- The PULLs' answers write an exchange at most. -/
theorem answerPulls_rest (q : PortId) (s : State) (e : Exchange) :
    { (answerPulls s).ports.get q with exchange := e } = { s.ports.get q with exchange := e } := by
  suffices h : ∀ (l : List PullWork) (t : State), { t.ports.get q with exchange := e } = { s.ports.get q with exchange := e } →
      { (l.foldl (fun t w => answer w.port .pull w.tag (doneReply (w.items ++ w.left.flatMap (pullItem s w.port))) t)
        t).ports.get q with exchange := e } = { s.ports.get q with exchange := e } from h s.memory.pullWork s rfl
  intro l
  induction l with
  | nil => exact fun t h => h
  | cons w rest ih =>
    intro t h
    refine ih _ (.trans ?_ h)
    show { (t.ports.modify w.port _).get q with exchange := e } = _
    by_cases hq : q = w.port
    · rw [hq, Quad.get_modify_same]
    · rw [Quad.get_modify_other _ _ hq]

/-- A FETCH with reads to make is answered with its items. -/
theorem answerWaiting_fetch {s : State} {f : ReadWork} (hf : .fetch f ∈ s.memory.logWork)
    (hone : ∀ x, .fetch x ∈ s.memory.logWork → x.port = f.port → x = f) :
    (answerWaiting s).ports.get f.port =
      { s.ports.get f.port with exchange := .answering (responseFrame 5#8 f.tag (doneReply f.items)) } := by
  have answered := (answerWaiting_get f.port s).2 (fetchAnswer (.fetch f)) ⟨_, hf, rfl⟩ fun w hw hport => by
    obtain ⟨x, rfl, hx⟩ := fetchPort_eq_some hport
    rw [hone x hw hx]
  exact answered.trans (answerPulls_rest f.port s _)

/-- A PULL with reads to make is answered with the records it was taken for, where no FETCH waits for its port. -/
theorem answerWaiting_pull {s : State} {w : PullWork} (hw : w ∈ s.memory.pullWork)
    (hone : ∀ x ∈ s.memory.pullWork, x.port = w.port → x = w)
    (hno : ∀ f, .fetch f ∈ s.memory.logWork → f.port ≠ w.port) :
    (answerWaiting s).ports.get w.port = { s.ports.get w.port with
      exchange := .answering
        (responseFrame 2#8 w.tag (doneReply (w.items ++ w.left.flatMap (pullItem s w.port)))) } := by
  have kept := (answerWaiting_get w.port s).1 fun v hv hport => by
    obtain ⟨f, rfl, hf⟩ := fetchPort_eq_some hport
    exact hno f hv hf
  exact kept.trans ((answerPulls_get w.port s).2 _ ⟨w, hw, rfl⟩ fun x hx hport => by
    rw [hone x hx (Option.some.inj hport)])

/-! ### The checks (R147, R148) -/

section
variable {p : PortId} {tag : Byte} {a : BitVec 16 × Bool} {s : State}

theorem acceptOpen_busy (h : (s.ports.get p).slot ≠ .clear ∨ s.session.request ≠ .none) :
    acceptOpen p tag a s = refuse p .openSession tag .busy 0 s := by
  rw [acceptOpen]
  split
  · rfl
  · next hslot =>
    rw [← slotBusy_iff] at h
    rw [if_pos (h.resolve_left hslot)]

/-- Past the BUSY checks the session's state and the lagging cursors decide. -/
theorem acceptOpen_free (hslot : (s.ports.get p).slot = .clear) (hrequest : s.session.request = .none) :
    acceptOpen p tag a s =
      if s.session.opened then refuse p .openSession tag .wrongState 0 s
      else match unpulledPort a.2 s with
        | some q => refuse p .openSession tag .unpulled q.val s
        | none => accept p .openSession tag (refreshActivity (askStart p s.journal.unpulled (emptySession a.1 s))) := by
  have hfree : ¬ slotBusy p s = true := fun hb => (slotBusy_iff p s).mp hb hslot
  rw [acceptOpen, if_neg hfree]
  exact if_neg (by rw [hrequest]; decide)

end

theorem unpulledPort_none {flag : Bool} {s : State} (h : flag = true ∨ ∀ q, ¬ Lags s q) : unpulledPort flag s = none := by
  rw [unpulledPort]
  split
  · rfl
  · next hflag => rw [lagging_nil (h.resolve_left hflag), List.head?_nil]

theorem unpulledPort_some {flag : Bool} {s : State} {q : PortId} (hflag : flag = false) (hq : Lags s q)
    (hlow : ∀ r : PortId, r.val < q.val → ¬ Lags s r) : unpulledPort flag s = some q := by
  rw [unpulledPort, if_neg (by rw [hflag]; decide), lagging_head hq hlow]

/-! ### The emptying (R149) -/

/-- An engine with nothing to do is IDLE already. -/
theorem refreshActivity_emptied (p : PortId) (n : Nat) (job : BitVec 16) (s : State) :
    refreshActivity (askStart p n (emptySession job s)) = askStart p n (emptySession job s) := by
  have quiet : heldBack (askStart p n (emptySession job s)) = false := Bool.and_false _
  have idle : (askStart p n (emptySession job s)).engine.activity = .idle := rfl
  rw [refreshActivity, idle, quiet]
  rfl

theorem atOpen_eq (t : Transaction) : t.atOpen =
    if t.work = .pullRead ∨ t.work = .fetchRead ∨ t.work = .change ∨ t.work = .engine then { t with work := .dropped } else t := by
  rw [Transaction.atOpen]
  split <;> next h => rw [h]; rfl

/-- What an accepted OPEN leaves of the ports. -/
def openedPorts (p : PortId) (tag : Byte) (body : List Byte) (s : State) : Quad Port :=
  (accept p .openSession tag (answerWaiting (working p body s))).ports

/-- The other ports are as the emptying answered them. -/
theorem openedPorts_other {p q : PortId} (h : q ≠ p) (tag : Byte) (body : List Byte) (s : State) :
    (openedPorts p tag body s).get q = (answerWaiting (working p body s)).ports.get q :=
  accept_onlyPort p .openSession tag _ q h

theorem working_get_other {p q : PortId} (h : q ≠ p) (body : List Byte) (s : State) :
    (working p body s).ports.get q = s.ports.get q := Quad.get_set_other _ _ h

/-- The request's own port is ANSWERING with ACCEPTED, and its slot IN PROGRESS. -/
theorem openedPorts_same (p : PortId) (tag : Byte) (body : List Byte) (s : State) :
    (openedPorts p tag body s).get p = (acceptedBy p .openSession tag body s).ports.get p := by
  obtain ⟨mid, hmid, hanswered⟩ := answerWaiting_shape (working p body s)
  obtain ⟨-, hout, -⟩ := hanswered p
  rw [working_get] at hout
  rw [openedPorts, hmid, accept, setSlot, answer, respond, acceptedBy, Quad.modify_modify, Quad.get_modify_same,
    Quad.get_set_same, hout]

/-- Settles O45: the emptying field by field with its answers, then each refusal. -/
theorem openEmptiesTheSession : Obligations.OpenEmptiesTheSession := by
  unfold Obligations.OpenEmptiesTheSession
  intro p tag b job flag body rest s hbody hjob htaken lags refused free
  have fits : body.length ≤ Config.bodyLimit := by
    rw [hbody]
    simp [Config.bodyLimit]
  have parsed : openBody body = .ok (job, flag) := hbody ▸ openBody_ok hjob flag
  have step : exec (.openSession p tag body) s = .next (acceptOpen p tag (job, flag) (working p body s)) :=
    exec_of_fields_ok htaken fits rfl parsed
  have hslot : ((working p body s).ports.get p).slot = (s.ports.get p).slot := by rw [working_get]
  have refused_of {cause : Cause} {d : Nat} (h : acceptOpen p tag (job, flag) (working p body s) =
      refuse p .openSession tag cause d (working p body s)) : refused body cause d :=
    step.trans (congrArg _ (h.trans (refuse_working ..)))
  have free_step (hfree : free) : acceptOpen p tag (job, flag) (working p body s) =
      match unpulledPort flag s with
      | some q => refuse p .openSession tag .unpulled q.val (working p body s)
      | none => accept p .openSession tag (refreshActivity
          (askStart p s.journal.unpulled (emptySession job (working p body s)))) := by
    obtain ⟨hclear, hnone, hclosed⟩ := hfree
    rw [acceptOpen_free (hslot.trans hclear) hnone, working_session, if_neg (by rw [hclosed]; decide)]
    rfl
  refine ⟨fun hfree hpulled => ?_, fun q hfree hflag hq hlow => ?_, fun hbusy => ?_, fun hclear hnone hopened => ?_,
    exec_of_fields_error htaken (by decide) rfl (show openBody [] = .error 0 from rfl),
    exec_of_fields_error htaken (cons_fits (by simp)) rfl (show openBody [b] = .error 0 from rfl), fun hlen => ⟨?_, fun h0 h1 => ?_⟩⟩
  · obtain ⟨hmax, hsome⟩ := unpulled_spec s.journal
    have emptied : exec (.openSession p tag body) s = .next (accept p .openSession tag
        (askStart p s.journal.unpulled (emptySession job (working p body s)))) := by
      rw [step, free_step hfree, unpulledPort_none hpulled, refreshActivity_emptied]
    have works : Transaction.atOpen = _ := funext atOpen_eq
    refine ⟨s.journal.unpulled, openedPorts p tag body s, hmax, hsome, openedPorts_same p tag body s,
      fun q hq hno => ?_, fun w hw hwp hone hno => ?_, fun f hf hfp hone => ?_, ?_⟩
    · obtain ⟨mid, hmid, hanswered⟩ := answerWaiting_shape (working p body s)
      obtain ⟨-, -, hsame⟩ := hanswered q
      rw [openedPorts_other hq, hmid, ← working_get_other hq body s]
      exact hsame hno
    · rw [openedPorts_other hwp, ← working_get_other hwp body s]
      exact answerWaiting_pull (s := working p body s) hw hone hno
    · rw [openedPorts_other hfp, ← working_get_other hfp body s]
      exact answerWaiting_fetch (s := working p body s) hf hone
    · obtain ⟨mid, hmid, -⟩ := answerWaiting_shape (working p body s)
      rw [emptied, ← works, emptySession, openedPorts, hmid]
      rfl
  · refine refused_of ?_
    rw [free_step hfree, unpulledPort_some hflag hq hlow]
  · exact refused_of (acceptOpen_busy (by rw [hslot]; exact hbusy))
  · refine refused_of ?_
    rw [acceptOpen_free (hslot.trans hclear) hnone, working_session, if_pos hopened]
  · exact exec_of_fields_error htaken (cons_fits (Nat.succ_le_succ hlen)) rfl (show openBody (0#8 :: 0#8 :: rest) = .error 0 from rfl)
  · exact exec_of_fields_error htaken (cons_fits (Nat.succ_le_succ hlen)) rfl (openBody_flag hjob h0 h1)

end Sys2Proof.Proofs
end

section
/-! PROOFS. The dictionary table (R27 to R30, R137, R140): what a lookup finds and reads, what the vacating procedure leaves, and
that vacating, placing and sweeping keep every record within its probe sequence. -/

namespace Sys2Proof.Proofs

open Sys2Proof.Machine

/-! ### Lookup (R27, R29) -/

/-- A slot that the walk of a lookup passes over: not EMPTY, and not the key's record. -/
def Passed (slots : List (Nat × Slot)) (t : TierId) (cs : List Chord) (n : SlotNo) : Prop :=
  slotAt slots n.toNat ≠ .empty ∧ ∀ q, slotAt slots n.toNat = .occupied q → ¬(q.tier = t ∧ q.strokes = cs)

/-- The slots of a probe sequence, one after the other. -/
theorem probe_succ (s : SlotNo) (i : Nat) : s + BitVec.ofNat 18 (i + 1) = s + 1#18 + BitVec.ofNat 18 i := by
  rw [BitVec.add_assoc, BitVec.ofNat_add, BitVec.add_comm (BitVec.ofNat 18 i)]

theorem probe_zero (s : SlotNo) : s + BitVec.ofNat 18 0 = s := BitVec.add_zero s

section
variable {slots : List (Nat × Slot)} {t : TierId} {cs : List Chord} {k : Nat} {s : SlotNo}

theorem passed_of_vacated (h : slotAt slots s.toNat = .vacated) : Passed slots t cs s := by
  rw [Passed, h]
  exact ⟨by decide, fun q hq => nomatch hq⟩

theorem key_of_not_passed {r : Record} (h : ¬Passed slots t cs s) (hr : slotAt slots s.toNat = .occupied r) :
    r.tier = t ∧ r.strokes = cs := by
  by_contra hno
  refine h ?_
  rw [Passed, hr]
  exact ⟨(fun he => nomatch he), fun q hq => by cases hq; exact hno⟩

theorem walk_passed (h : Passed slots t cs s) : walk slots t cs (k + 1) s = walk slots t cs k (s + 1#18) := by
  obtain ⟨hempty, hother⟩ := h
  rw [walk]
  split
  · next he => exact absurd he hempty
  · rfl
  · next r hr => rw [if_neg (hother r hr)]

/-- A walk that does not pass a slot ends there, with the key's record if the slot holds it. -/
theorem walk_stopped (h : ¬Passed slots t cs s) {x : Option (SlotNo × Record)} : walk slots t cs (k + 1) s = x ↔
    (slotAt slots s.toNat = .empty ∧ x = none) ∨
      ∃ r, slotAt slots s.toNat = .occupied r ∧ r.tier = t ∧ r.strokes = cs ∧ x = some (s, r) := by
  rw [walk]
  split
  · next he => simp [he, eq_comm]
  · next hv => exact absurd (passed_of_vacated hv) h
  · next r hr =>
    have hkey := key_of_not_passed h hr
    rw [if_pos hkey]
    simp [hr, hkey, eq_comm]

theorem walkReads_passed (h : Passed slots t cs s) :
    walkReads slots t cs (k + 1) s = s :: walkReads slots t cs k (s + 1#18) := by
  obtain ⟨hempty, hother⟩ := h
  rw [walkReads]
  split
  · next he => exact absurd he hempty
  · rfl
  · next r hr => rw [if_neg (hother r hr)]

theorem walkReads_stopped (h : ¬Passed slots t cs s) : walkReads slots t cs (k + 1) s = [s] := by
  rw [walkReads]
  split
  · rfl
  · next hv => exact absurd (passed_of_vacated hv) h
  · next r hr => exact if_pos (key_of_not_passed h hr)

end

/-- A walk finds the first slot that it does not pass, if that holds the key's record. -/
theorem walk_eq_some_iff (slots : List (Nat × Slot)) (t : TierId) (cs : List Chord) (k : Nat) (s n : SlotNo) (r : Record) :
    walk slots t cs k s = some (n, r) ↔
      ∃ i, i < k ∧ n = s + BitVec.ofNat 18 i ∧ slotAt slots n.toNat = .occupied r ∧ r.tier = t ∧ r.strokes = cs ∧
        ∀ j, j < i → Passed slots t cs (s + BitVec.ofNat 18 j) := by
  induction k generalizing s with
  | zero => exact ⟨(fun h => nomatch h), fun ⟨i, hi, _⟩ => absurd hi (Nat.not_lt_zero i)⟩
  | succ k ih =>
    by_cases hpass : Passed slots t cs s
    · rw [walk_passed hpass, ih]
      constructor
      · rintro ⟨i, hi, rfl, hat, htier, hstrokes, hbefore⟩
        refine ⟨i + 1, Nat.succ_lt_succ hi, (probe_succ s i).symm, hat, htier, hstrokes, fun j hj => ?_⟩
        cases j with
        | zero => rwa [probe_zero]
        | succ j =>
          rw [probe_succ]
          exact hbefore j (Nat.lt_of_succ_lt_succ hj)
      · rintro ⟨i, hi, rfl, hat, htier, hstrokes, hbefore⟩
        cases i with
        | zero =>
          rw [probe_zero] at hat
          exact absurd ⟨htier, hstrokes⟩ (hpass.2 r hat)
        | succ i =>
          rw [probe_succ] at hat ⊢
          refine ⟨i, Nat.lt_of_succ_lt_succ hi, rfl, hat, htier, hstrokes, fun j hj => ?_⟩
          rw [← probe_succ]
          exact hbefore (j + 1) (Nat.succ_lt_succ hj)
    · rw [walk_stopped hpass]
      constructor
      · rintro (⟨-, h⟩ | ⟨q, hat, htier, hstrokes, h⟩)
        · cases h
        · cases h
          exact ⟨0, Nat.succ_pos k, (probe_zero _).symm, hat, htier, hstrokes, fun j hj => absurd hj (Nat.not_lt_zero j)⟩
      · rintro ⟨i, hi, rfl, hat, htier, hstrokes, hbefore⟩
        cases i with
        | zero =>
          rw [probe_zero] at hat
          exact .inr ⟨r, hat, htier, hstrokes, by rw [probe_zero]⟩
        | succ i => exact absurd (by simpa [probe_zero] using hbefore 0 (Nat.succ_pos i)) hpass

/-- The reads of a walk: from its first slot up to the first that it does not pass, or all. -/
theorem walkReads_spec (slots : List (Nat × Slot)) (t : TierId) (cs : List Chord) (k : Nat) (s : SlotNo) :
    ∃ m, m < k + 1 ∧ walkReads slots t cs (k + 1) s = (List.range (m + 1)).map (fun i => s + BitVec.ofNat 18 i) ∧
      (∀ i, i < m → Passed slots t cs (s + BitVec.ofNat 18 i)) ∧ (m = k ∨ ¬Passed slots t cs (s + BitVec.ofNat 18 m)) := by
  have one : (List.range 1).map (fun i => s + BitVec.ofNat 18 i) = [s] := by
    rw [List.range_one, List.map_cons, probe_zero]
    rfl
  induction k generalizing s with
  | zero =>
    refine ⟨0, Nat.one_pos, ?_, fun i hi => absurd hi (Nat.not_lt_zero i), .inl rfl⟩
    rw [one]
    by_cases hpass : Passed slots t cs s
    · rw [walkReads_passed hpass]
      rfl
    · rw [walkReads_stopped hpass]
  | succ k ih =>
    by_cases hpass : Passed slots t cs s
    · obtain ⟨m, hm, hreads, hbefore, hend⟩ := ih (s + 1#18) (by simp)
      refine ⟨m + 1, Nat.succ_lt_succ hm, ?_, fun i hi => ?_, ?_⟩
      · rw [walkReads_passed hpass, hreads, List.range_succ_eq_map (n := m + 1), List.map_cons, List.map_map, probe_zero]
        refine congrArg _ (List.map_congr_left fun i _ => ?_)
        exact (probe_succ s i).symm
      · cases i with
        | zero => rwa [probe_zero]
        | succ i =>
          rw [probe_succ]
          exact hbefore i (Nat.lt_of_succ_lt_succ hi)
      · rw [probe_succ]
        exact hend.imp_left (congrArg Nat.succ)
    · refine ⟨0, Nat.succ_pos _, ?_, fun i hi => absurd hi (Nat.not_lt_zero i), .inr (by rwa [probe_zero])⟩
      rw [one, walkReads_stopped hpass]

/-- Settles O42: the walk from the home slot over the 32 slots, and its reads. -/
theorem lookupFinds : Obligations.LookupFinds := by
  unfold Obligations.LookupFinds
  intro slots t cs
  exact ⟨fun n r => walk_eq_some_iff slots t cs 32 (homeSlot t cs) n r, walkReads_spec slots t cs 31 (homeSlot t cs)⟩

/-! ### The vacating procedure (R137) -/

/-- The backward walk turns a run of VACATED slots EMPTY and leaves every other slot. -/
theorem walkBack_spec (fuel : Nat) (hfuel : fuel ≤ 262144) {slots : List (Nat × Slot)} (h : slotsWf slots = true) (s : SlotNo) :
    (walkBack fuel slots s).2 ≤ fuel ∧
      (∀ i, i < (walkBack fuel slots s).2 → slotAt slots (s - BitVec.ofNat 18 i).toNat = .vacated) ∧
      ((walkBack fuel slots s).2 < fuel →
        slotAt slots (s - BitVec.ofNat 18 (walkBack fuel slots s).2).toNat ≠ .vacated) ∧
      ∀ m : SlotNo, slotAt (walkBack fuel slots s).1 m.toNat =
        if (s - m).toNat < (walkBack fuel slots s).2 then .empty else slotAt slots m.toNat := by
  induction fuel generalizing slots s with
  | zero => exact ⟨Nat.le_refl 0, fun i hi => absurd hi (Nat.not_lt_zero i), fun hi => absurd hi (Nat.not_lt_zero 0), fun m => rfl⟩
  | succ fuel ih =>
    by_cases hv : slotAt slots s.toNat = .vacated
    · have step : walkBack (fuel + 1) slots s =
          ((walkBack fuel (writeSlot slots s.toNat .empty) (s - 1#18)).1,
            (walkBack fuel (writeSlot slots s.toNat .empty) (s - 1#18)).2 + 1) := by
        rw [walkBack, hv]
      have hwf := slotsWf_writeSlot .empty h (slotNo_lt s)
      have written (m : SlotNo) : slotAt (writeSlot slots s.toNat .empty) m.toNat =
          if m = s then .empty else slotAt slots m.toNat := by
        rw [slotAt_writeSlot _ _ _ h]
        simp only [BitVec.toNat_inj]
      obtain ⟨hle, hrun, hend, hslots⟩ := ih (by omega) hwf (s - 1#18)
      rw [step]
      generalize (walkBack fuel (writeSlot slots s.toNat .empty) (s - 1#18)).2 = c at *
      have back (i : Nat) : s - 1#18 - BitVec.ofNat 18 i = s - BitVec.ofNat 18 (i + 1) := by
        rw [BitVec.ofNat_add]
        bv_omega
      refine ⟨Nat.succ_le_succ hle, fun i hi => ?_, fun hlt => ?_, fun m => ?_⟩
      · cases i with
        | zero => simpa using hv
        | succ i =>
          have := hrun i (Nat.lt_of_succ_lt_succ hi)
          rw [back, written] at this
          split at this
          · cases this
          · exact this
      · have hne : s - BitVec.ofNat 18 (c + 1) ≠ s := by
          have : c + 1 < 262144 := by omega
          bv_omega
        have := hend (by omega)
        rwa [back, written, if_neg hne] at this
      · rw [hslots, written]
        by_cases hm : m = s
        · have hnear : (s - m).toNat < c + 1 := by
            rw [hm, BitVec.sub_self]
            exact Nat.succ_pos c
          rw [if_pos hnear, if_pos hm, ite_self]
        · have hdist : (s - m).toNat = (s - 1#18 - m).toNat + 1 := by bv_omega
          rw [if_neg hm, hdist]
          simp only [Nat.add_lt_add_iff_right]
    · have step : walkBack (fuel + 1) slots s = (slots, 0) := by
        rw [walkBack]
        split
        · next hs => exact absurd hs hv
        · rfl
        · rfl
      rw [step]
      refine ⟨Nat.zero_le _, fun i hi => absurd hi (Nat.not_lt_zero i), fun _ => ?_, fun m => ?_⟩
      · simpa using hv
      · rw [if_neg (Nat.not_lt_zero _)]

/-- The vacating procedure of a slot, as R137 has it. -/
theorem vacate_vacatedAs {slots : List (Nat × Slot)} (h : slotsWf slots = true) (s : SlotNo) :
    VacatedAs slots s (vacate slots s).1 (vacate slots s).2 := by
  have written (v : Slot) (m : SlotNo) : slotAt (writeSlot slots s.toNat v) m.toNat =
      if m = s then v else slotAt slots m.toNat := by
    rw [slotAt_writeSlot _ _ _ h]
    simp only [BitVec.toNat_inj]
  refine ⟨fun hnext => ?_, fun hnext => ?_⟩
  · have step : vacate slots s = (writeSlot slots s.toNat .vacated, 0) := if_neg hnext
    rw [step]
    exact ⟨rfl, written .vacated⟩
  · have step : vacate slots s = ((walkBack 262144 (writeSlot slots s.toNat .empty) (s - 1#18)).1,
        (walkBack 262144 (writeSlot slots s.toNat .empty) (s - 1#18)).2 + 1) := if_pos hnext
    obtain ⟨-, hrun, hend, hslots⟩ :=
      walkBack_spec 262144 (Nat.le_refl _) (slotsWf_writeSlot .empty h (slotNo_lt s)) (s - 1#18)
    rw [step]
    generalize (walkBack 262144 (writeSlot slots s.toNat .empty) (s - 1#18)).2 = c at *
    have back (i : Nat) : s - 1#18 - BitVec.ofNat 18 i = s - BitVec.ofNat 18 (i + 1) := by
      rw [BitVec.ofNat_add]
      bv_omega
    have hbound : c + 1 < 262144 := by
      by_contra hlong
      have := hrun 262142 (by omega)
      have hplace : s - BitVec.ofNat 18 (262142 + 1) = s + 1#18 := by bv_omega
      rw [back, hplace, written, if_neg (by bv_omega), hnext] at this
      cases this
    have hne (i : Nat) (hpos : 0 < i) (hi : i < 262144) : s - BitVec.ofNat 18 i ≠ s := by bv_omega
    refine ⟨Nat.succ_pos c, hbound, fun i hpos hi => ?_, ?_, fun m => ?_⟩
    · obtain ⟨i, rfl⟩ : ∃ j, i = j + 1 := ⟨i - 1, by omega⟩
      have := hrun i (Nat.lt_of_succ_lt_succ hi)
      rwa [back, written, if_neg (hne _ hpos (by omega))] at this
    · have := hend (by omega)
      rwa [back, written, if_neg (hne _ (Nat.succ_pos c) hbound)] at this
    · rw [hslots, written]
      by_cases hm : m = s
      · have hnear : (s - m).toNat < c + 1 := by
          rw [hm, BitVec.sub_self]
          exact Nat.succ_pos c
        rw [if_pos hnear, if_pos hm, ite_self]
      · have hdist : (s - m).toNat = (s - 1#18 - m).toNat + 1 := by bv_omega
        rw [if_neg hm, hdist]
        simp only [Nat.add_lt_add_iff_right]

/-! ### Records within their probe sequences (R28, R30, R140) -/

/-- Vacating keeps them: the slots that turn EMPTY are a run before an EMPTY slot, so that no record's probes cross them. -/
theorem probeSound_vacate {slots : List (Nat × Slot)} (h : slotsWf slots = true) (hsound : ProbeSound slots) (s : SlotNo) :
    ProbeSound (vacate slots s).1 := by
  obtain ⟨hfar, hnear⟩ := vacate_vacatedAs h s
  intro m r hm
  obtain ⟨hne, hat⟩ := (slotAt_vacate s m.toNat r h).mp hm
  obtain ⟨i, hi, hplace, hbefore⟩ := hsound m r hat
  refine ⟨i, hi, hplace, fun j hj => ?_⟩
  generalize homeSlot r.tier r.strokes = home at *
  have hi : i < 32 := hi
  by_cases hnext : slotAt slots (s + 1#18).toNat = .empty
  · obtain ⟨hpos, hbound, -, -, hslots⟩ := hnear hnext
    rw [hslots]
    split
    · next hrun =>
      exfalso
      have hrecord : ¬ (s - m).toNat < (vacate slots s).2 := fun hin => by
        rw [hslots, if_pos hin] at hm
        cases hm
      generalize (vacate slots s).2 = n at *
      obtain ⟨d, hd⟩ : ∃ d, d = (s - (home + BitVec.ofNat 18 j)).toNat := ⟨_, rfl⟩
      rw [← hd] at hrun
      by_cases hshort : d + 1 < i - j
      · refine hbefore (j + d + 1) (by omega) ?_
        have hplace' : home + BitVec.ofNat 18 (j + d + 1) = s + 1#18 := by
          rw [BitVec.ofNat_add, BitVec.ofNat_add, hd, BitVec.ofNat_toNat, BitVec.setWidth_eq]
          bv_omega
        rw [hplace', hnext]
      · by_cases hexact : d + 1 = i - j
        · have hplace' : m = s + 1#18 := by
            have : i = j + d + 1 := by omega
            rw [hplace, this, BitVec.ofNat_add, BitVec.ofNat_add, hd, BitVec.ofNat_toNat, BitVec.setWidth_eq]
            bv_omega
          rw [hplace', hnext] at hat
          cases hat
        · refine hrecord ?_
          have : (s - m).toNat = d - (i - j) := by
            rw [hplace]
            bv_omega
          omega
    · exact hbefore j hj
  · obtain ⟨-, hslots⟩ := hfar hnext
    rw [hslots]
    split
    · exact fun he => nomatch he
    · exact hbefore j hj

/-- A placement walk ends in a slot that is not OCCUPIED, past OCCUPIED ones alone. -/
theorem placeWalk_some {slots : List (Nat × Slot)} {k : Nat} {s n : SlotNo} (h : placeWalk slots k s = some n) :
    ∃ i, i < k ∧ n = s + BitVec.ofNat 18 i ∧
      ∀ j, j < i → slotAt slots (s + BitVec.ofNat 18 j).toNat ≠ .empty := by
  induction k generalizing s with
  | zero => cases h
  | succ k ih =>
    rw [placeWalk] at h
    split at h
    · cases h
      exact ⟨0, Nat.succ_pos k, (probe_zero _).symm, fun j hj => absurd hj (Nat.not_lt_zero j)⟩
    · cases h
      exact ⟨0, Nat.succ_pos k, (probe_zero _).symm, fun j hj => absurd hj (Nat.not_lt_zero j)⟩
    · next r hr =>
      obtain ⟨i, hi, rfl, hbefore⟩ := ih h
      refine ⟨i + 1, Nat.succ_lt_succ hi, (probe_succ s i).symm, fun j hj => ?_⟩
      cases j with
      | zero =>
        rw [probe_zero, hr]
        exact fun he => nomatch he
      | succ j =>
        rw [probe_succ]
        exact hbefore j (Nat.lt_of_succ_lt_succ hj)

/-- So does the write of a record where its placement walk ends. -/
theorem probeSound_place {slots : List (Nat × Slot)} (h : slotsWf slots = true) (hsound : ProbeSound slots) {r : Record}
    {n : SlotNo} (hplace : placement slots r.tier r.strokes = some n) :
    ProbeSound (writeSlot slots n.toNat (.occupied r)) := by
  have written (m : SlotNo) : slotAt (writeSlot slots n.toNat (.occupied r)) m.toNat =
      if m = n then .occupied r else slotAt slots m.toNat := by
    rw [slotAt_writeSlot _ _ _ h]
    simp only [BitVec.toNat_inj]
  have kept (m : SlotNo) (hm : slotAt slots m.toNat ≠ .empty) :
      slotAt (writeSlot slots n.toNat (.occupied r)) m.toNat ≠ .empty := by
    rw [written]
    split
    · exact fun he => nomatch he
    · exact hm
  intro m q hm
  rw [written] at hm
  split at hm
  · next hn =>
    cases hm
    obtain ⟨i, hi, heq, hbefore⟩ := placeWalk_some hplace
    exact ⟨i, hi, hn.trans heq, fun j hj => kept _ (hbefore j hj)⟩
  · obtain ⟨i, hi, heq, hbefore⟩ := hsound m q hm
    exact ⟨i, hi, heq, fun j hj => kept _ (hbefore j hj)⟩

/-- A sweep vacates slot after slot. -/
theorem probeSound_sweep (t : TierId) (ns : List Nat) (x : List (Nat × Slot) × Nat) (h : slotsWf x.1 = true)
    (hsound : ProbeSound x.1) : ProbeSound (ns.foldl (sweepSlot t) x).1 := by
  induction ns generalizing x with
  | nil => exact hsound
  | cons n rest ih =>
    refine ih (sweepSlot t x n) (slotsWf_sweepFold t [n] h) ?_
    rw [sweepSlot]
    split
    · exact probeSound_vacate h hsound _
    · exact hsound

/-- Settles O43: vacating, placing, and the sweep by vacating slot after slot. -/
theorem probesKept : Obligations.ProbesKept := by
  unfold Obligations.ProbesKept
  intro slots h hsound
  exact ⟨fun n => probeSound_vacate h hsound n, fun r n hplace => probeSound_place h hsound hplace,
    fun t => probeSound_sweep t _ (slots, 0) h hsound⟩

/-! ### The plan of a PUT (R132, R133) -/

theorem bearing_iff (c : Content) : c.bearing = true ↔ c ≠ .stem := by
  cases c <;> simp [Content.bearing]

/-- A list whose every member has a value gives the values in order. -/
theorem filterMap_getElem? {α β : Type} {f : α → Option β} {l : List α} (h : ∀ a ∈ l, (f a).isSome = true) :
    (l.filterMap f).length = l.length ∧ ∀ (i : Nat) (b : β), l[i]?.bind f = some b → (l.filterMap f)[i]? = some b := by
  induction l with
  | nil => exact ⟨rfl, fun i b hb => by simp at hb⟩
  | cons a rest ih =>
    obtain ⟨hlength, hget⟩ := ih fun b hb => h b (List.mem_cons_of_mem a hb)
    obtain ⟨x, hx⟩ := Option.isSome_iff_exists.mp (h a (List.mem_cons_self ..))
    rw [List.filterMap_cons_some hx]
    refine ⟨congrArg Nat.succ hlength, fun i b hb => ?_⟩
    cases i with
    | zero => simpa [hx] using hb
    | succ i => simpa using hget i b (by simpa using hb)

/-- With all its proper prefixes held, a PROMOTED raises each by one, in order of length. -/
theorem raisePrefixes_spec {slots : List (Nat × Slot)} {t : TierId} {cs : List Chord}
    (h : ∀ i, i + 1 < cs.length → (lookup slots t (cs.take (i + 1))).isSome = true) :
    (raisePrefixes slots t cs).length = cs.length - 1 ∧
      ∀ i m q, i + 1 < cs.length → lookup slots t (cs.take (i + 1)) = some (m, q) →
        (raisePrefixes slots t cs)[i]? = some (m, ⟨q.tier, q.strokes, q.content, q.extensions + 1⟩) := by
  obtain ⟨hlength, hget⟩ := filterMap_getElem?
    (f := fun q => (lookup slots t q).map (fun nr => (nr.1, { nr.2 with extensions := nr.2.extensions + 1 })))
    (l := properPrefixes cs) fun q hq => by
      obtain ⟨i, hi, rfl⟩ := List.mem_map.mp hq
      rw [Option.isSome_map]
      exact h i (by have := List.mem_range.mp hi; omega)
  refine ⟨hlength.trans (by simp [properPrefixes]), fun i m q hi hq => hget i _ ?_⟩
  have hprefix : (properPrefixes cs)[i]? = some (cs.take (i + 1)) := by
    rw [properPrefixes, List.getElem?_map, List.getElem?_range (by omega)]
    rfl
  rw [hprefix, Option.bind_some, hq]
  rfl

theorem planPrefixes_of_planned {t : TierId} {qs : List (List Chord)} {slots after : List (Nat × Slot)}
    {writes : List (SlotNo × Record)} {placed raised : Nat} (h : PrefixesPlanned t qs slots writes placed raised after) :
    planPrefixes t qs slots [] 0 0 = .ok (after, writes, placed, raised) := by
  simpa using planPrefixes_planned h [] 0 0

section
variable {slots : List (Nat × Slot)} {t : TierId} {cs : List Chord}

/-- One of the prefixes finding no slot leaves the PUT without a plan. -/
theorem planPut_of_prefix_crowded (hnone : lookup slots t cs = none) {len : Nat}
    (h : planPrefixes t (properPrefixes cs) slots [] 0 0 = .error len) (content : Content) :
    planPut slots t cs content = .error len := by
  simp only [planPut, hnone, h]

variable {after : List (Nat × Slot)} {writes : List (SlotNo × Record)} {placed raised : Nat}

/-- The prefixes planned, the key takes its slot. -/
theorem planPut_of_placed (hnone : lookup slots t cs = none)
    (h : planPrefixes t (properPrefixes cs) slots [] 0 0 = .ok (after, writes, placed, raised)) {n : SlotNo}
    (hplace : placement after t cs = some n) (content : Content) :
    planPut slots t cs content = .ok ⟨.placed, n, placed, raised, writes ++ [(n, ⟨t, cs, content, 0⟩)]⟩ := by
  simp only [planPut, hnone, h, hplace]

/-- Or it finds none. -/
theorem planPut_of_key_crowded (hnone : lookup slots t cs = none)
    (h : planPrefixes t (properPrefixes cs) slots [] 0 0 = .ok (after, writes, placed, raised))
    (hplace : placement after t cs = none) (content : Content) : planPut slots t cs content = .error cs.length := by
  simp only [planPut, hnone, h, hplace]

end

/-- Settles O37: the plan by what the key's lookup finds, and for a key that is not held by its prefixes. -/
theorem putPlanned : Obligations.PutPlanned := by
  unfold Obligations.PutPlanned
  intro slots t cs content
  refine ⟨fun n r hfound hbearing => ?_, fun n r hfound hstem hprefixes => ?_, fun hnone => ⟨prefixes_total t _ slots,
    fun len hcrowded => ?_, fun writes placed raised after hplanned => ?_⟩, fun c hc hnone => ?_⟩
  · rw [planPut, hfound]
    exact if_pos ((bearing_iff _).mpr hbearing)
  · obtain ⟨hlength, hraised⟩ := raisePrefixes_spec hprefixes
    refine ⟨raisePrefixes slots t cs, ?_, hlength, hraised⟩
    rw [planPut, hfound, ← hlength]
    exact if_neg fun h => (bearing_iff _).mp h hstem
  · exact planPut_of_prefix_crowded hnone (planPrefixes_crowded hcrowded [] 0 0) content
  · have planned := planPrefixes_of_planned hplanned
    exact ⟨fun n hplace => planPut_of_placed hnone planned hplace content,
      fun hplace => planPut_of_key_crowded hnone planned hplace content⟩
  · subst hc
    have planned : planPrefixes t (properPrefixes [c]) slots [] 0 0 = .ok (slots, [], 0, 0) := rfl
    exact ⟨fun n hplace => planPut_of_placed hnone planned hplace content,
      fun hplace => planPut_of_key_crowded hnone planned hplace content⟩

end Sys2Proof.Proofs
end

section
/-! PROOFS. The bodies of PUT, DROP, CLEAR TIER and GET (R131, R135, R139, R143), read field by field, and the acceptance of the
request (R126). -/

namespace Sys2Proof.Proofs

open Sys2Proof.Machine

/-! ### Chords of a dictionary request (R131 field 2) -/

theorem leBytes_three (v : Nat) : leBytes 3 v =
    [BitVec.ofNat 8 v, BitVec.ofNat 8 (v / 256), BitVec.ofNat 8 (v / 256 / 256)] := rfl

theorem leNat_three (b0 b1 b2 : Byte) : leNat [b0, b1, b2] = b0.toNat + 256 * (b1.toNat + 256 * b2.toNat) := by
  simp [leNat]

/-- Bytes read as a chord, and the chord's layout gives them back. -/
theorem keyChord_some {b0 b1 b2 : Byte} {c : Chord} (h : keyChord b0 b1 b2 = some c) :
    (c ≠ 0#23 ∧ c ≠ 1024#23) ∧ leBytes 3 c.toNat = [b0, b1, b2] := by
  simp only [keyChord, leNat_three, Config.chordMask] at h
  split at h
  · cases h
  · next hv =>
    simp only [not_or, Nat.not_lt] at hv
    obtain ⟨hzero, hstrike, hle⟩ := hv
    have h0 := b0.isLt
    have h1 := b1.isLt
    have h2 := b2.isLt
    have value : c.toNat = b0.toNat + 256 * (b1.toNat + 256 * b2.toNat) := by
      cases h
      rw [BitVec.toNat_ofNat]
      omega
    refine ⟨⟨fun hc => ?_, fun hc => ?_⟩, ?_⟩
    · rw [hc] at value
      exact hzero value.symm
    · rw [hc] at value
      exact hstrike value.symm
    · rw [leBytes_three, value]
      refine List.cons_eq_cons.mpr ⟨?_, List.cons_eq_cons.mpr ⟨?_, List.cons_eq_cons.mpr ⟨?_, rfl⟩⟩⟩
      · apply BitVec.eq_of_toNat_eq
        rw [BitVec.toNat_ofNat]
        omega
      · apply BitVec.eq_of_toNat_eq
        rw [BitVec.toNat_ofNat]
        omega
      · apply BitVec.eq_of_toNat_eq
        rw [BitVec.toNat_ofNat]
        omega

theorem keyChord_layout {c : Chord} (h0 : c ≠ 0#23) (h1 : c ≠ 1024#23) :
    keyChord (BitVec.ofNat 8 c.toNat) (BitVec.ofNat 8 (c.toNat / 256)) (BitVec.ofNat 8 (c.toNat / 256 / 256)) = some c := by
  have hlt := c.isLt
  have value : leNat [BitVec.ofNat 8 c.toNat, BitVec.ofNat 8 (c.toNat / 256), BitVec.ofNat 8 (c.toNat / 256 / 256)] =
      c.toNat := by
    rw [← leBytes_three, leNat_leBytes]
    omega
  have legal : ¬(c.toNat = 0 ∨ c.toNat = 1024 ∨ Config.chordMask < c.toNat) := by
    rintro (h | h | h)
    · exact h0 (BitVec.eq_of_toNat_eq h)
    · exact h1 (BitVec.eq_of_toNat_eq h)
    · simp only [Config.chordMask] at h
      omega
  simp only [keyChord, value]
  rw [if_neg legal, BitVec.ofNat_toNat, BitVec.setWidth_eq]

theorem chords_layout {cs : List Chord} (h : ∀ c ∈ cs, c ≠ 0#23 ∧ c ≠ 1024#23) (rest : List Byte) :
    chords cs.length (cs.flatMap (fun c => leBytes 3 c.toNat) ++ rest) = some (cs, rest) := by
  induction cs with
  | nil => rfl
  | cons c cs ih =>
    obtain ⟨h0, h1⟩ := h c (List.mem_cons_self ..)
    have tail := ih fun d hd => h d (List.mem_cons_of_mem c hd)
    rw [List.flatMap_cons, leBytes_three, List.length_cons, List.append_assoc]
    simp only [List.cons_append, List.nil_append, chords, keyChord_layout h0 h1, tail]

theorem chords_some {n : Nat} {bytes rest : List Byte} {cs : List Chord} (h : chords n bytes = some (cs, rest)) :
    cs.length = n ∧ (∀ c ∈ cs, c ≠ 0#23 ∧ c ≠ 1024#23) ∧ bytes = cs.flatMap (fun c => leBytes 3 c.toNat) ++ rest := by
  induction n generalizing bytes cs with
  | zero =>
    cases h
    exact ⟨rfl, fun c hc => absurd hc List.not_mem_nil, rfl⟩
  | succ n ih =>
    match bytes with
    | [] => cases h
    | [_] => cases h
    | [_, _] => cases h
    | b0 :: b1 :: b2 :: more =>
      simp only [chords] at h
      split at h
      · next c cs' rest' hc hcs =>
        cases h
        obtain ⟨hlegal, hbytes⟩ := keyChord_some hc
        obtain ⟨hlength, hall, hmore⟩ := ih hcs
        refine ⟨congrArg Nat.succ hlength, fun d hd => ?_, ?_⟩
        · rcases List.mem_cons.mp hd with rfl | hd
          · exact hlegal
          · exact hall d hd
        · rw [List.flatMap_cons, hbytes, hmore]
          simp
      · cases h

/-- The strokes field reads a legal key's layout. -/
theorem strokesField_layout {cs : List Chord} (h : keyLegal cs) (rest : List Byte) :
    strokesField (strokesLayout cs ++ rest) = some (cs, rest) := by
  obtain ⟨hlow, hhigh, hall⟩ := h
  have count : (BitVec.ofNat 8 cs.length).toNat = cs.length := by
    rw [BitVec.toNat_ofNat]
    omega
  have legal : ¬(cs.length = 0 ∨ Config.longestKey < cs.length) := by
    simp only [Config.longestKey]
    omega
  rw [strokesLayout, List.cons_append, strokesField, count, if_neg legal, chords_layout hall]

/-- And reads nothing else. -/
theorem strokesField_none {bytes : List Byte} (h : ∀ cs more, keyLegal cs → bytes ≠ strokesLayout cs ++ more) :
    strokesField bytes = none := by
  cases hs : strokesField bytes with
  | none => rfl
  | some x =>
    obtain ⟨cs, rest⟩ := x
    match bytes with
    | [] => cases hs
    | n :: more =>
      rw [strokesField] at hs
      split at hs
      · cases hs
      · next hcount =>
        obtain ⟨hlength, hall, hbytes⟩ := chords_some hs
        simp only [not_or, Config.longestKey] at hcount
        have legal : keyLegal cs := ⟨by omega, by omega, hall⟩
        refine absurd ?_ (h cs rest legal)
        rw [strokesLayout, hlength, BitVec.ofNat_toNat, BitVec.setWidth_eq, hbytes]
        rfl

/-! ### Fields 0 to 2 of PUT and DROP -/

theorem keyFields_tier {t : Byte} (h : 3 < t.toNat) (rest : List Byte) : keyFields (t :: rest) = .error 0 := by
  rw [keyFields, four?_of_lt h]

section
variable {t : Byte} (ht : t.toNat ≤ 3)
include ht

theorem keyFields_no_options : keyFields [t] = .error 1 := by
  rw [keyFields, four?_of_le ht]

theorem keyFields_options {o : Byte} (ho : 1 < o.toNat) (rest : List Byte) : keyFields (t :: o :: rest) = .error 1 := by
  rw [keyFields, four?_of_le ht]
  exact if_pos ho

theorem keyFields_strokes {o : Byte} (ho : o.toNat ≤ 1) {rest : List Byte} (h : strokesField rest = none) :
    keyFields (t :: o :: rest) = .error 2 := by
  rw [keyFields, four?_of_le ht]
  simp only [if_neg (Nat.not_lt.mpr ho), h]

theorem keyFields_key {o : Byte} (ho : o.toNat ≤ 1) {cs : List Chord} (h : keyLegal cs) (rest : List Byte) :
    keyFields ([t, o] ++ strokesLayout cs ++ rest) = .ok (⟨t.toNat, Nat.lt_succ_of_le ht⟩, o.getLsbD 0, cs, rest) := by
  have bytes : [t, o] ++ strokesLayout cs ++ rest = t :: o :: (strokesLayout cs ++ rest) := rfl
  rw [bytes, keyFields, four?_of_le ht]
  simp only [if_neg (Nat.not_lt.mpr ho), strokesField_layout h]

end

/-- A tier's byte. -/
theorem tierByte (l : TierId) : (BitVec.ofNat 8 l.val).toNat = l.val := by
  rw [BitVec.toNat_ofNat]
  omega

/-- The key of a request as a master writes it. -/
theorem keyFields_layout (l : TierId) (flag : Bool) {cs : List Chord} (h : keyLegal cs) (rest : List Byte) :
    keyFields ([BitVec.ofNat 8 l.val, optionByte flag] ++ strokesLayout cs ++ rest) = .ok (l, flag, cs, rest) := by
  have ht : (BitVec.ofNat 8 l.val).toNat ≤ 3 := by
    rw [tierByte]
    omega
  have ho : (optionByte flag).toNat ≤ 1 := by cases flag <;> decide
  have hflag : (optionByte flag).getLsbD 0 = flag := by cases flag <;> rfl
  rw [keyFields_key ht ho h]
  simp only [tierByte, hflag]

/-! ### Fields 3 to 5 of PUT -/

theorem ofCode_code (f : TextFlags) :
    TextFlags.ofCode (BitVec.ofNat 8 f.code) = f ∧ (BitVec.ofNat 8 f.code).toNat < 64 := by
  obtain ⟨a, b, c, d, e, g⟩ := f
  revert a b c d e g
  decide

theorem allClear_iff (f : TextFlags) : f.allClear = true ↔ f = ⟨false, false, false, false, false, false⟩ := by
  obtain ⟨a, b, c, d, e, g⟩ := f
  revert a b c d e g
  decide

/-- A flags byte without its two upper bits is 0 exactly with no flag set. -/
theorem allClear_ofCode {b : Byte} (h : b.toNat < 64) : (TextFlags.ofCode b).allClear = true ↔ b = 0#8 := by
  revert b
  decide

theorem textField_eq (flags : TextFlags) (n : Byte) (text : List Byte) : textField flags (n :: text) =
    if Config.textLimit < n.toNat ∨ text.length ≠ n.toNat ∨ text.all printable = false ∨
      (text = [] ∧ flags.allClear = true) then .error 5 else .ok (.text text flags) := rfl

theorem textContent_eq (f : Byte) (rest : List Byte) : textContent (f :: rest) =
    if 64 ≤ f.toNat ∨ (f.getLsbD 2 = true ∧ f.getLsbD 3 = true) then .error 4
    else textField (TextFlags.ofCode f) rest := rfl

theorem contentFields_text (rest : List Byte) : contentFields (0#8 :: rest) = textContent rest := rfl

theorem contentFields_kind {k : Byte} (h : 1 < k.toNat) (rest : List Byte) : contentFields (k :: rest) = .error 3 := by
  have h0 : k ≠ 0#8 := fun e => by rw [e] at h; exact absurd h (by decide)
  have h1 : k ≠ 1#8 := fun e => by rw [e] at h; exact absurd h (by decide)
  rw [contentFields, if_neg h0, if_neg h1]

theorem commandContent_high {c : Byte} (h : 3 < c.toNat) (rest : List Byte) : commandContent (c :: rest) = .error 4 := by
  have h0 : c ≠ 0#8 := fun e => by rw [e] at h; exact absurd h (by decide)
  have h1 : c ≠ 1#8 := fun e => by rw [e] at h; exact absurd h (by decide)
  have h2 : c ≠ 2#8 := fun e => by rw [e] at h; exact absurd h (by decide)
  have h3 : c ≠ 3#8 := fun e => by rw [e] at h; exact absurd h (by decide)
  rw [commandContent, if_neg h0, if_neg h1, if_neg h2, if_neg h3]

theorem bareCommand_rest (c : Command) {rest : List Byte} (h : rest ≠ []) : bareCommand c rest = .error 4 := if_neg h

/-- A command without an argument is followed by nothing. -/
theorem commandContent_rest {c : Byte} (h : c.toNat ≤ 3) (hne : c.toNat ≠ 1) {rest : List Byte} (hrest : rest ≠ []) :
    commandContent (c :: rest) = .error 4 := by
  obtain h | h | h : c = 0#8 ∨ c = 2#8 ∨ c = 3#8 := by bv_omega
  · rw [h]; exact bareCommand_rest _ hrest
  · rw [h]; exact bareCommand_rest _ hrest
  · rw [h]; exact bareCommand_rest _ hrest

theorem speakerArgument_bad {rest : List Byte} (h : ∀ a : Fin 16, rest ≠ [BitVec.ofNat 8 a.val]) :
    speakerArgument rest = .error 5 := by
  match rest with
  | [] => rfl
  | [a] =>
    refine dif_neg fun ha => h ⟨a.toNat, ha⟩ ?_
    rw [BitVec.ofNat_toNat, BitVec.setWidth_eq]
  | _ :: _ :: _ => rfl

/-- A content that may be asked for reads back from its layout. -/
theorem contentFields_layout {content : Content} (h : contentLegal content) :
    contentFields (contentLayout content) = .ok content := by
  match content with
  | .text text flags =>
    obtain ⟨hlength, hprintable, hcase, hsome⟩ := h
    obtain ⟨hflags, hlow⟩ := ofCode_code flags
    have count : (BitVec.ofNat 8 text.length).toNat = text.length := by
      rw [BitVec.toNat_ofNat]
      omega
    have free : ¬(64 ≤ (BitVec.ofNat 8 flags.code).toNat ∨
        ((BitVec.ofNat 8 flags.code).getLsbD 2 = true ∧ (BitVec.ofNat 8 flags.code).getLsbD 3 = true)) := by
      rintro (hhigh | ⟨hcap, hlower⟩)
      · omega
      · refine hcase ⟨?_, ?_⟩
        · rw [← hflags]
          exact hcap
        · rw [← hflags]
          exact hlower
    have legal : ¬(Config.textLimit < text.length ∨ text.length ≠ text.length ∨ text.all printable = false ∨
        (text = [] ∧ flags.allClear = true)) := by
      rintro (hlong | hne | hbad | ⟨hnil, hclear⟩)
      · simp only [Config.textLimit] at hlong
        omega
      · exact hne rfl
      · rw [(all_printable_iff text).mpr hprintable] at hbad
        cases hbad
      · exact hsome ⟨hnil, (allClear_iff flags).mp hclear⟩
    have bytes : contentLayout (.text text flags) =
        0#8 :: BitVec.ofNat 8 flags.code :: BitVec.ofNat 8 text.length :: text := rfl
    rw [bytes, contentFields_text, textContent_eq, if_neg free, hflags, textField_eq, count, if_neg legal]
  | .command .paragraph => rfl
  | .command (.speaker a) =>
    have hlow : (BitVec.ofNat 8 a.val).toNat = a.val := by
      rw [BitVec.toNat_ofNat]
      omega
    have arg : speakerArgument [BitVec.ofNat 8 a.val] = .ok (.command (.speaker a)) := by
      rw [speakerArgument]
      simp only [hlow, a.isLt, dif_pos]
    exact arg
  | .command .capsOn => rfl
  | .command .capsOff => rfl
  | .stem => exact absurd h id

/-! ### The bodies -/

theorem putBody_error {body : List Byte} {d : Nat} (h : keyFields body = .error d) : putBody body = .error d := by
  rw [putBody, h]

theorem putBody_content {t : Byte} (ht : t.toNat ≤ 3) {o : Byte} (ho : o.toNat ≤ 1) {cs : List Chord} (h : keyLegal cs)
    {rest : List Byte} {d : Nat} (hrest : contentFields rest = .error d) :
    putBody ([t, o] ++ strokesLayout cs ++ rest) = .error d := by
  rw [putBody, keyFields_key ht ho h]
  simp only [hrest]

theorem dropBody_error {body : List Byte} {d : Nat} (h : keyFields body = .error d) : dropBody body = .error d := by
  rw [dropBody, h]

theorem dropBody_rest {t : Byte} (ht : t.toNat ≤ 3) {o : Byte} (ho : o.toNat ≤ 1) {cs : List Chord} (h : keyLegal cs)
    {rest : List Byte} (hrest : rest ≠ []) : dropBody ([t, o] ++ strokesLayout cs ++ rest) = .error 2 := by
  rw [dropBody, keyFields_key ht ho h]
  exact if_neg hrest

theorem clearBody_bad {body : List Byte} (h : ∀ l : TierId, body ≠ [BitVec.ofNat 8 l.val]) : clearBody body = .error 0 := by
  have bad : tierBody body = .error 0 := by
    match body with
    | [] => rfl
    | [b] =>
      have high : 3 < b.toNat := by
        by_contra hlow
        refine h ⟨b.toNat, by omega⟩ ?_
        rw [BitVec.ofNat_toNat, BitVec.setWidth_eq]
      exact tierBody_high high
    | _ :: _ :: _ => rfl
  rw [clearBody, bad]

theorem getTier_bad {t : Byte} (hhigh : 3 < t.toNat) (hany : t.toNat < 255) : getTier t = none := by
  have hne : t ≠ 255#8 := fun e => by rw [e] at hany; exact absurd hany (by decide)
  rw [getTier, if_neg hne, four?_of_lt hhigh]
  rfl

theorem getTier_good {t : Byte} (h : t.toNat ≤ 3 ∨ t.toNat = 255) : ∃ tier, getTier t = some tier := by
  by_cases hany : t = 255#8
  · exact ⟨none, if_pos hany⟩
  · have hlow : t.toNat ≤ 3 := h.resolve_right fun e => hany (BitVec.eq_of_toNat_eq e)
    exact ⟨_, by rw [getTier, if_neg hany, four?_of_le hlow]; rfl⟩

theorem getTier_layout (l : TierId) : getTier (BitVec.ofNat 8 l.val) = some (some l) := by
  have hne : BitVec.ofNat 8 l.val ≠ 255#8 := fun e => by
    have := congrArg BitVec.toNat e
    rw [tierByte] at this
    have := l.isLt
    simp at *
    omega
  rw [getTier, if_neg hne, four?_ofNat]
  rfl

theorem getBody_tier {t : Byte} (h : getTier t = none) (rest : List Byte) : getBody (t :: rest) = .error 0 := by
  rw [getBody, h]

theorem getBody_strokes {t : Byte} (ht : t.toNat ≤ 3 ∨ t.toNat = 255) {rest : List Byte} (h : strokesField rest = none) :
    getBody (t :: rest) = .error 1 := by
  obtain ⟨tier, htier⟩ := getTier_good ht
  rw [getBody, htier]
  simp only [h]

theorem getBody_rest {t : Byte} (ht : t.toNat ≤ 3 ∨ t.toNat = 255) {cs : List Chord} (h : keyLegal cs) {rest : List Byte}
    (hrest : rest ≠ []) : getBody (t :: (strokesLayout cs ++ rest)) = .error 1 := by
  obtain ⟨tier, htier⟩ := getTier_good ht
  rw [getBody, htier]
  simp only [strokesField_layout h, if_neg hrest]

theorem getBody_ok {t : Byte} {tier : Option TierId} (ht : getTier t = some tier) {cs : List Chord} (h : keyLegal cs) :
    getBody (t :: strokesLayout cs) = .ok (.get tier cs) := by
  have field : strokesField (strokesLayout cs) = some (cs, []) := by
    simpa using strokesField_layout h []
  rw [getBody, ht]
  simp only [field, if_true]

/-! ### Acceptance (R126) -/

/-- The body check of each kind of maintenance request. -/
def maintBody : MaintRequest → List Byte → Except Nat MaintRequest
  | .put .. => putBody
  | .drop .. => dropBody
  | .clearTier _ => clearBody
  | .get .. => getBody

/-- A legal request reads back from its layout. -/
theorem maintBody_layout {req : MaintRequest} (h : req.legal) : maintBody req req.layout = .ok req := by
  match req with
  | .put l flag cs content =>
    obtain ⟨hkey, hcontent⟩ := h
    show putBody ([_, _] ++ strokesLayout cs ++ contentLayout content) = _
    rw [putBody, keyFields_layout l flag hkey]
    simp only [contentFields_layout hcontent]
  | .drop l flag cs =>
    have key := keyFields_layout l flag h []
    rw [List.append_nil] at key
    show dropBody ([_, _] ++ strokesLayout cs) = _
    rw [dropBody, key]
    rfl
  | .clearTier l =>
    show clearBody [_] = _
    rw [clearBody, tierBody_ok]
  | .get (some l) cs => exact getBody_ok (getTier_layout l) h
  | .get none cs => exact getBody_ok (t := 255#8) (tier := none) rfl h

theorem contentLayout_length {content : Content} (h : contentLegal content) : (contentLayout content).length ≤ 43 := by
  match content with
  | .text text flags =>
    obtain ⟨hlength, -⟩ := h
    simp only [contentLayout, List.length_append, List.length_cons, List.length_nil]
    omega
  | .command .paragraph => decide
  | .command (.speaker a) => exact (by decide : 3 ≤ 43)
  | .command .capsOn => decide
  | .command .capsOff => decide
  | .stem => decide

theorem strokesLayout_length {cs : List Chord} (h : keyLegal cs) : (strokesLayout cs).length ≤ 19 := by
  obtain ⟨-, hlength, -⟩ := h
  have three : ∀ cs : List Chord, (cs.flatMap (fun c => leBytes 3 c.toNat)).length = 3 * cs.length := by
    intro cs
    induction cs with
    | nil => rfl
    | cons c cs ih =>
      rw [List.flatMap_cons, List.length_append, ih, leBytes_length, List.length_cons]
      omega
  rw [strokesLayout, List.length_cons, three]
  omega

/-- A legal request's body fits a frame. -/
theorem layout_fits {req : MaintRequest} (h : req.legal) : req.layout.length ≤ Config.bodyLimit := by
  simp only [Config.bodyLimit]
  match req with
  | .put l flag cs content =>
    obtain ⟨hkey, hcontent⟩ := h
    have := strokesLayout_length hkey
    have := contentLayout_length hcontent
    simp only [MaintRequest.layout, List.length_append, List.length_cons, List.length_nil]
    omega
  | .drop l flag cs =>
    have := strokesLayout_length h
    simp only [MaintRequest.layout, List.length_append, List.length_cons, List.length_nil]
    omega
  | .clearTier l => exact (by decide : 1 ≤ 256)
  | .get (some l) cs =>
    have := strokesLayout_length h
    simp only [MaintRequest.layout, List.length_cons]
    omega
  | .get none cs =>
    have := strokesLayout_length h
    simp only [MaintRequest.layout, List.length_cons]
    omega

/-- A legal request that its port may send comes to the checks of the maintenance unit. -/
theorem exec_maint {req : MaintRequest} {p : PortId} {s : State} (hlegal : req.legal) (h : Taken p req.kind s) (tag : Byte) :
    exec (req.command p tag req.layout) s =
      .next (acceptMaint p req.kind tag req (working p req.layout s)) := by
  have parsed := maintBody_layout hlegal
  have fits := layout_fits hlegal
  cases req with
  | put => exact exec_of_fields_ok h fits rfl parsed
  | drop => exact exec_of_fields_ok h fits rfl parsed
  | clearTier => exact exec_of_fields_ok h fits rfl parsed
  | get => exact exec_of_fields_ok h fits rfl parsed

section
variable {p : PortId} {k : Kind} {tag : Byte} {r : MaintRequest} {s : State}

theorem acceptMaint_busy (h : (s.ports.get p).slot ≠ .clear) : acceptMaint p k tag r s = refuse p k tag .busy 0 s :=
  if_pos ((slotBusy_iff p s).mpr h)

theorem not_slotBusy (h : (s.ports.get p).slot = .clear) : ¬ slotBusy p s = true := fun hb => (slotBusy_iff p s).mp hb h

theorem acceptMaint_clearing (h : (s.ports.get p).slot = .clear) (hclearing : namesClearing r s = true) :
    acceptMaint p k tag r s = refuse p k tag .busy 0 s := by
  rw [acceptMaint, if_neg (not_slotBusy h), if_pos hclearing]

theorem acceptMaint_locked (h : (s.ports.get p).slot = .clear) (hclearing : ¬ namesClearing r s = true)
    (hlocked : namesLocked r s = true) : acceptMaint p k tag r s = refuse p k tag .locked 0 s := by
  rw [acceptMaint, if_neg (not_slotBusy h), if_neg hclearing, if_pos hlocked]

theorem acceptMaint_taken (h : (s.ports.get p).slot = .clear) (hclearing : ¬ namesClearing r s = true)
    (hlocked : ¬ namesLocked r s = true) : acceptMaint p k tag r s = accept p k tag (enqueue p r s) := by
  rw [acceptMaint, if_neg (not_slotBusy h), if_neg hclearing, if_neg hlocked]

end

theorem namesClearing_iff (r : MaintRequest) (s : State) :
    namesClearing r s = true ↔ ∃ t, r.namedTier = some t ∧ (s.dict.tiers.get t).clearing = true := by
  rw [namesClearing]
  cases r.namedTier <;> simp

theorem namesLocked_iff (r : MaintRequest) (s : State) :
    namesLocked r s = true ↔ ∃ t, r.namedTier = some t ∧ (s.dict.tiers.get t).locked = true := by
  rw [namesLocked]
  cases r.namedTier <;> simp

/-- Settles O35: a legal request reads back and goes through the checks in their order; a body at fault has its first field's
index. -/
theorem maintenanceAccepted : Obligations.MaintenanceAccepted := by
  unfold Obligations.MaintenanceAccepted
  refine ⟨fun req p tag named s hlegal htaken hnamed => ?_, fun p tag t o b cs rest s => ?_⟩
  · intro refused
    have tier : named = req.namedTier := by
      rw [hnamed]
      cases req <;> rfl
    subst tier
    have step := exec_maint hlegal htaken tag
    have hslot : ((working p req.layout s).ports.get p).slot = (s.ports.get p).slot := by rw [working_get]
    have refused_of {cause : Cause} (h : acceptMaint p req.kind tag req (working p req.layout s) =
        refuse p req.kind tag cause 0 (working p req.layout s)) : refused cause :=
      step.trans (congrArg _ (h.trans (refuse_working ..)))
    refine ⟨fun hbusy => ?_, fun hclear l hl hclearing => ?_, fun hclear l hl hvisible hlocked => ?_, fun hclear hfree => ?_⟩
    · exact refused_of (acceptMaint_busy (hslot ▸ hbusy))
    · exact refused_of (acceptMaint_clearing (hslot.trans hclear) ((namesClearing_iff _ _).mpr ⟨l, hl, hclearing⟩))
    · have visible : ¬ namesClearing req (working p req.layout s) = true := fun h => by
        obtain ⟨m, hm, hc⟩ := (namesClearing_iff _ _).mp h
        cases hl.symm.trans hm
        rw [working_dict, hvisible] at hc
        cases hc
      exact refused_of (acceptMaint_locked (hslot.trans hclear) visible ((namesLocked_iff _ _).mpr ⟨l, hl, hlocked⟩))
    · have visible : ¬ namesClearing req (working p req.layout s) = true := fun h => by
        obtain ⟨m, hm, hc⟩ := (namesClearing_iff _ _).mp h
        rw [working_dict, (hfree m hm).1] at hc
        cases hc
      have unlocked : ¬ namesLocked req (working p req.layout s) = true := fun h => by
        obtain ⟨m, hm, hc⟩ := (namesLocked_iff _ _).mp h
        rw [working_dict, (hfree m hm).2] at hc
        cases hc
      rw [step, acceptMaint_taken (hslot.trans hclear) visible unlocked, ← accept_working]
      rfl
  · intro bad put drop get key noKey
    have puts {body : List Byte} {d : Nat} (h : putBody body = .error d) : put body d := fun htaken hfits =>
      exec_of_fields_error htaken hfits rfl h
    have drops {body : List Byte} {d : Nat} (h : dropBody body = .error d) : drop body d := fun htaken hfits =>
      exec_of_fields_error htaken hfits rfl h
    have gets {body : List Byte} {d : Nat} (h : getBody body = .error d) : get body d := fun htaken hfits =>
      exec_of_fields_error htaken hfits rfl h
    have both {body : List Byte} {d : Nat} (h : keyFields body = .error d) : put body d ∧ drop body d :=
      ⟨puts (putBody_error h), drops (dropBody_error h)⟩
    refine ⟨⟨puts rfl, drops rfl, gets rfl⟩, fun ht => ?_, fun hnot htaken hfits => ?_, fun ht hno => ?_,
      fun ht hkey hrest => ?_, fun ht => ⟨both (keyFields_no_options ht), fun ho => both (keyFields_options ht ho rest),
        fun ho hno => both (keyFields_strokes ht ho (strokesField_none hno)), fun ho hkey => ?_⟩⟩
    · obtain ⟨hput, hdrop⟩ := both (keyFields_tier ht rest)
      exact ⟨hput, hdrop, fun hany => gets (getBody_tier (getTier_bad ht hany) rest)⟩
    · exact exec_of_fields_error htaken hfits rfl (clearBody_bad hnot)
    · exact gets (getBody_strokes ht (strokesField_none hno))
    · exact gets (getBody_rest ht hkey hrest)
    · have content {more : List Byte} {d : Nat} (h : contentFields more = .error d) : put (key ++ more) d :=
        puts (putBody_content ht ho hkey h)
      refine ⟨fun hrest => drops (dropBody_rest ht ho hkey hrest), ?_, fun hb => content (contentFields_kind hb rest),
        content rfl, content rfl, fun hb => content (if_pos hb), fun hb => content (commandContent_high hb rest),
        fun hb hne hrest => content (commandContent_rest hb hne hrest), fun hnot => content (speakerArgument_bad hnot),
        fun hlow hcase hnot => content ?_⟩
      · have := content (more := []) rfl
        rwa [List.append_nil] at this
      · have free : ¬(64 ≤ b.toNat ∨ (b.getLsbD 2 = true ∧ b.getLsbD 3 = true)) := not_or.mpr ⟨Nat.not_le.mpr hlow, hcase⟩
        rw [contentFields_text, textContent_eq, if_neg free]
        match rest with
        | [] => rfl
        | n :: text =>
          rw [textField_eq, if_pos]
          by_contra hgood
          simp only [not_or, Nat.not_lt, Config.textLimit, allClear_ofCode hlow, not_not, Bool.not_eq_false] at hgood
          obtain ⟨hlimit, hlength, hprintable, hsome⟩ := hgood
          refine hnot text (hlength ▸ hlimit) ((all_printable_iff text).mp hprintable) hsome ?_
          rw [hlength, BitVec.ofNat_toNat, BitVec.setWidth_eq]

end Sys2Proof.Proofs
end

section
/-! PROOFS. The steps of the head of the maintenance queue (R125, R127, R128): how a step of the unit ends, how a head leaves or
moves on, and MAINT_HEAD_CHECK. -/

namespace Sys2Proof.Proofs

open Sys2Proof.Machine

/-! ### The head of the queue -/

section
variable {s : State} {e : MaintEntry} {rest : List MaintEntry}

theorem headOf_cons (hready : s.device.state = .ready) (hq : s.maint.queue = e :: rest) : headOf s = some e := by
  rw [headOf, if_pos hready, hq]
  rfl

theorem leaveQueue_cons (hq : s.maint.queue = e :: rest) :
    leaveQueue s = { s with maint := { s.maint with queue := promoteHead rest } } := by
  rw [leaveQueue, hq]
  rfl

theorem setHeadPhase_cons (ph : Phase) (hq : s.maint.queue = e :: rest) :
    setHeadPhase ph s = { s with maint := { s.maint with queue := { e with phase := ph } :: rest } } := by
  simp only [setHeadPhase, hq]

/-- A head finished with leaves the queue, and its port has the completion (R127). -/
theorem finishHead_cons {k : Kind} {tag : Byte} (r : Reply) (hq : s.maint.queue = e :: rest)
    (hslot : (s.ports.get e.port).slot = .inProgress k tag) :
    finishHead e r s = { completedBy e.port k tag r s with maint := { s.maint with queue := promoteHead rest } } := by
  have hcomplete : finishHead e r s = completedBy e.port k tag r (leaveQueue s) := complete_eq r hslot
  rw [hcomplete, leaveQueue_cons hq]
  rfl

/-- A READY part's unit makes the step of its head. -/
theorem maintUses_head (hready : s.device.state = .ready) (hq : s.maint.queue = e :: rest) : maintUses s = headUses e s := by
  simp only [maintUses, hready, headOf_cons hready hq, reduceCtorEq, false_and, if_false]

end

/-! ### The end of a step (R183) -/

section
variable {s : State} {w : MaintWork} {act : MaintWork → State → State}

theorem stepDone_made (h : w.left = []) : stepDone w s = w := by
  obtain ⟨_, _, _, left⟩ := w
  cases h
  rfl

theorem stepServed_made (h : w.left = []) : stepServed w s = { s with memory := { s.memory with maintWork := none } } := by
  simp only [stepServed, stepWrites, h, List.foldl_nil, if_true]

/-- A step made transaction by transaction ends at its row. -/
theorem maintStep_made (hw : s.memory.maintWork = some w) (h : w.left = []) :
    maintStep act s = act w { s with memory := { s.memory with maintWork := none } } := by
  simp only [maintStep, hw, Option.getD_some, h, true_or, if_true, stepDone_made h, stepServed_made h]

/-- While transactions of it are left and one is in progress, its row changes nothing. -/
theorem maintStep_waits (hw : s.memory.maintWork = some w) (h : w.left ≠ []) (hbusy : s.memory.inProgress ≠ none) :
    maintStep act s = s := by
  have hnot : maintAlone s = false := by simp [maintAlone, memoryFree, Option.isNone_eq_false_iff, Option.isSome_iff_ne_none, hbusy]
  simp only [maintStep, hw, Option.getD_some, h, hnot, Bool.false_eq_true, or_self, if_false]

/-- A step of reads, with nobody else asking, leaves the table. -/
theorem maintStep_reads (hm : MemoryQuiet s) (h : ReadsLeft (maintUses s)) : maintStep act s =
    act (stepDone (begunStep s) s)
      { s with memory := if maintUses s = [] then s.memory else afterGrants .maint s.memory } := by
  have htable : (stepWrites (begunStep s) s.dict).1 = s.dict := carryAll_reads h _
  rw [maintStep_quiet hm, htable]

end

theorem readsLeft_slotReads (ns : List SlotNo) : ReadsLeft (slotReads ns) := by
  intro u hu
  obtain ⟨n, -, rfl⟩ := List.mem_map.mp hu
  exact ⟨n, rfl⟩

/-! ### MAINT_HEAD_CHECK (R128, R132, R133, R135) -/

/-- The memory controller once the reads of a head's check are made: in its row, or one by one before. -/
def readsMade (s : State) : Memory :=
  if s.memory.maintWork = none then afterGrants .maint s.memory else { s.memory with maintWork := none }

/-- A check that reads ends with its reads made. -/
theorem maintStep_check {s : State} {act : State → State} (hm : MemoryQuiet s ∨ ∃ w, s.memory.maintWork = some w ∧ w.left = [])
    (hreads : s.memory.maintWork = none → ∃ ns, ns ≠ [] ∧ maintUses s = slotReads ns) :
    maintStep (fun _ => act) s = act { s with memory := readsMade s } := by
  rcases hm with hm | ⟨w, hw, hleft⟩
  · have hnone := hm.2.2.2.2.2
    obtain ⟨ns, hne, huses⟩ := hreads hnone
    have hsome : maintUses s ≠ [] := by simp [huses, slotReads, hne]
    rw [maintStep_reads hm (huses ▸ readsLeft_slotReads ns), if_neg hsome, readsMade, if_pos hnone]
  · rw [maintStep_made hw hleft, readsMade, if_neg (by simp [hw])]

/-- A check without reads leaves the arbiter. -/
theorem maintStep_unread {s : State} {act : State → State} (hm : MemoryQuiet s ∨ ∃ w, s.memory.maintWork = some w ∧ w.left = [])
    (hreads : s.memory.maintWork = none → maintUses s = []) :
    maintStep (fun _ => act) s = act { s with memory := { s.memory with maintWork := none } } := by
  rcases hm with hm | ⟨w, hw, hleft⟩
  · have hnone := hm.2.2.2.2.2
    have huses := hreads hnone
    have hsame : s = { s with memory := { s.memory with maintWork := none } } := by rw [← hnone]
    rw [maintStep_reads hm (by rw [huses]; exact nofun), if_pos huses, ← hsame]
  · rw [maintStep_made hw hleft]

theorem putReads_ne (slots : List (Nat × Slot)) (t : TierId) (cs : List Chord) : putReads slots t cs ≠ [] :=
  List.append_ne_nil_of_left_ne_nil (lookupReads_ne slots t cs) _

theorem dropReads_ne (slots : List (Nat × Slot)) (t : TierId) (cs : List Chord) : dropReads slots t cs ≠ [] :=
  List.append_ne_nil_of_left_ne_nil (lookupReads_ne slots t cs) _

/-- A DROP plans nothing where its key has no bearing record (R135). -/
theorem planDrop_missing {slots : List (Nat × Slot)} {t : TierId} {cs : List Chord}
    (h : ∀ n r, lookup slots t cs = some (n, r) → r.content = .stem) : planDrop slots t cs = none := by
  cases hl : lookup slots t cs with
  | none => simp only [planDrop, hl]
  | some x =>
    obtain ⟨n, r⟩ := x
    simp only [planDrop, hl, h n r hl, Content.bearing, Bool.false_eq_true, if_false]

/-- A DROP plans its record's slot and those of the proper prefixes held, longest first (R135). -/
theorem planDrop_bearing {slots : List (Nat × Slot)} {t : TierId} {cs : List Chord} {n : SlotNo} {r : Record}
    (h : lookup slots t cs = some (n, r)) (hb : r.content ≠ .stem) :
    planDrop slots t cs = some ⟨n, (List.range (cs.length - 1)).reverse.filterMap (fun i =>
      (lookup slots t (cs.take (i + 1))).map Prod.fst)⟩ := by
  simp only [planDrop, h, (bearing_iff r.content).mpr hb, if_true, properPrefixes, ← List.map_reverse, List.filterMap_map]
  rfl

/-! ### The resource checks (R128) -/

section
variable {s : State} {e : MaintEntry} {t : TierId} {flag : Bool} {cs : List Chord}

theorem resourceCheck_crowded {content : Content} {len : Nat} (hreq : e.request = .put t flag cs content)
    (hplan : planPut s.dict.slots t cs content = .error len) :
    resourceCheck e s = finishHead e (refusedReply .crowded len) s := by simp only [resourceCheck, hreq, hplan]

theorem resourceCheck_put {content : Content} {plan : PutPlan} (hreq : e.request = .put t flag cs content)
    (hplan : planPut s.dict.slots t cs content = .ok plan) :
    resourceCheck e s = setHeadPhase (.lockWait (.put plan)) s := by simp only [resourceCheck, hreq, hplan]

theorem resourceCheck_missing (hreq : e.request = .drop t flag cs) (hplan : planDrop s.dict.slots t cs = none) :
    resourceCheck e s = finishHead e (refusedReply .notFound 0) s := by simp only [resourceCheck, hreq, hplan]

theorem resourceCheck_drop {plan : DropPlan} (hreq : e.request = .drop t flag cs)
    (hplan : planDrop s.dict.slots t cs = some plan) :
    resourceCheck e s = setHeadPhase (.lockWait (.drop plan)) s := by simp only [resourceCheck, hreq, hplan]

theorem resourceCheck_clear (hreq : e.request = .clearTier t) : resourceCheck e s = setHeadPhase (.checking true) s := by
  simp only [resourceCheck, hreq]

theorem resourceCheck_get {tier : Option TierId} (hreq : e.request = .get tier cs) :
    resourceCheck e s = setHeadPhase (.checking true) s := by simp only [resourceCheck, hreq]

end

section
variable {s : State} {e : MaintEntry} {rest : List MaintEntry}

/-- MAINT_HEAD_CHECK serves the head in CHECKING. -/
theorem exec_headCheck (hready : s.device.state = .ready) (hq : s.maint.queue = e :: rest) (hphase : e.phase = .checking false) :
    exec .maintHeadCheck s = .next (headCheck e s) := by
  have h : maintHeadChecks s = headCheck e s := by simp only [maintHeadChecks, headOf_cons hready hq, hphase, if_true]
  exact congrArg _ h

/-- The lock check refuses a head that has begun nothing (R128). -/
theorem headCheck_locked {k : Kind} {tag : Byte} (hq : s.maint.queue = e :: rest)
    (hslot : (s.ports.get e.port).slot = .inProgress k tag) (hlocked : namesLocked e.request s = true)
    (hnone : s.memory.maintWork = none) :
    headCheck e s = { completedBy e.port k tag (refusedReply .locked 0) s with
      maint := { s.maint with queue := promoteHead rest } } := by
  rw [headCheck, if_pos ⟨hnone, hlocked⟩, finishHead_cons _ hq hslot]

/-- A PUT or a DROP that passes the lock check reads, and its resources are checked (R128). -/
theorem headCheck_reads {ns : List SlotNo} (hready : s.device.state = .ready) (hq : s.maint.queue = e :: rest)
    (hm : MemoryQuiet s ∨ ∃ w, s.memory.maintWork = some w ∧ w.left = [])
    (hpass : ¬(s.memory.maintWork = none ∧ namesLocked e.request s = true)) (hat : e.request.readsAtCheck = true)
    (hne : ns ≠ []) (huses : namesLocked e.request s ≠ true → headUses e s = slotReads ns) :
    headCheck e s = resourceCheck e { s with memory := readsMade s } := by
  rw [headCheck, if_neg hpass, if_pos hat]
  refine maintStep_check hm fun hnone => ⟨ns, hne, ?_⟩
  rw [maintUses_head hready hq]
  exact huses fun hl => hpass ⟨hnone, hl⟩

end

/-- Settles O36: the head's lock check comes first; then each kind's reads are made, and its resource check finishes the request or
moves the head on. -/
theorem headChecked : Obligations.HeadChecked := by
  unfold Obligations.HeadChecked
  intro e rest k tag s hready hq hphase hslot hm refused read done goesTo
  have checks {s' : State} (h : headCheck e s = s') : exec .maintHeadCheck s = .next s' :=
    (exec_headCheck hready hq hphase).trans (congrArg _ h)
  cases hreq : e.request with
  | put t flag cs content =>
    have locked : namesLocked e.request s = (s.dict.tiers.get t).locked := by simp only [namesLocked, hreq, MaintRequest.namedTier]
    have passed : ¬refused t → headCheck e s = resourceCheck e { s with memory := read } := fun hpass =>
      headCheck_reads hready hq hm (fun h => hpass ⟨locked ▸ h.2, h.1⟩) (by rw [hreq]; rfl) (putReads_ne s.dict.slots t cs)
        (fun hl => by simp only [headUses, hreq, hphase]; exact if_neg (hreq ▸ hl))
    refine ⟨fun ⟨hl, hnone⟩ => checks (headCheck_locked hq hslot (locked.trans hl) hnone), fun hpass len hplan => ?_,
      fun hpass plan hplan => ?_⟩
    · exact checks (((passed hpass).trans (resourceCheck_crowded hreq hplan)).trans (finishHead_cons _ hq hslot))
    · exact checks (((passed hpass).trans (resourceCheck_put hreq hplan)).trans (setHeadPhase_cons _ hq))
  | drop t flag cs =>
    have locked : namesLocked e.request s = (s.dict.tiers.get t).locked := by simp only [namesLocked, hreq, MaintRequest.namedTier]
    have passed : ¬refused t → headCheck e s = resourceCheck e { s with memory := read } := fun hpass =>
      headCheck_reads hready hq hm (fun h => hpass ⟨locked ▸ h.2, h.1⟩) (by rw [hreq]; rfl) (dropReads_ne s.dict.slots t cs)
        (fun hl => by simp only [headUses, hreq, hphase]; exact if_neg (hreq ▸ hl))
    refine ⟨fun ⟨hl, hnone⟩ => checks (headCheck_locked hq hslot (locked.trans hl) hnone), fun hpass hmissing => ?_,
      fun hpass n r hfound hbears => ?_⟩
    · exact checks (((passed hpass).trans (resourceCheck_missing hreq (planDrop_missing hmissing))).trans
        (finishHead_cons _ hq hslot))
    · exact checks (((passed hpass).trans (resourceCheck_drop hreq (planDrop_bearing hfound hbears))).trans (setHeadPhase_cons _ hq))
  | clearTier t =>
    have locked : namesLocked e.request s = (s.dict.tiers.get t).locked := by simp only [namesLocked, hreq, MaintRequest.namedTier]
    have unread : maintUses s = [] := by simp only [maintUses_head hready hq, headUses, hreq, hphase]
    refine ⟨fun ⟨hl, hnone⟩ => checks (headCheck_locked hq hslot (locked.trans hl) hnone), fun hpass => checks ?_⟩
    rw [headCheck, if_neg (fun h => hpass ⟨locked ▸ h.2, h.1⟩), if_pos (by rw [hreq]; rfl), maintStep_unread hm fun _ => unread,
      resourceCheck_clear hreq]
    exact setHeadPhase_cons _ hq
  | get tier cs =>
    have unlocked : ¬(s.memory.maintWork = none ∧ namesLocked e.request s = true) := by
      simp [namesLocked, hreq, MaintRequest.namedTier]
    refine checks ?_
    rw [headCheck, if_neg unlocked, if_neg (by rw [hreq]; exact Bool.false_ne_true), resourceCheck_get hreq]
    exact setHeadPhase_cons _ hq

end Sys2Proof.Proofs
end

section
/-! PROOFS. The writes of a PUT and of a DROP, and the sweep of a CLEAR TIER: what they leave of the table, and the rows that end them
(R130, R134, R136 to R138, R140, R141). -/

namespace Sys2Proof.Proofs

open Sys2Proof.Machine

/-! ### Slots the writes leave (R130) -/

section
variable {slots : List (Nat × Slot)} {n : Nat} {r : Record}

/-- The writes of a PUT leave every record in another slot. -/
theorem slotAt_applyWrites (ws : List (SlotNo × Record)) (hne : ∀ w ∈ ws, w.1.toNat ≠ n) :
    slotAt (applyWrites slots ws) n = slotAt slots n := by
  induction ws generalizing slots with
  | nil => rfl
  | cons w rest ih =>
    have hrest : slotAt (applyWrites (writeSlot slots w.1.toNat (.occupied w.2)) rest) n = _ :=
      ih fun x hx => hne x (List.mem_cons_of_mem _ hx)
    exact hrest.trans (slotAt_writeSlot_other slots _ (hne w (List.mem_cons_self ..)).symm)

/-- The backward walk writes VACATED slots alone. -/
theorem walkBack_keeps (fuel : Nat) (s : SlotNo) (h : slotAt slots n = .occupied r) :
    slotAt (walkBack fuel slots s).1 n = .occupied r := by
  induction fuel generalizing slots s with
  | zero => exact h
  | succ fuel ih =>
    rw [walkBack]
    split
    · next hv =>
      have hne : n ≠ s.toNat := by
        rintro rfl
        rw [h] at hv
        cases hv
      exact ih _ ((slotAt_writeSlot_other slots _ hne).trans h)
    · exact h
    · exact h

theorem vacate_keeps {s : SlotNo} (hne : s.toNat ≠ n) (h : slotAt slots n = .occupied r) :
    slotAt (vacate slots s).1 n = .occupied r := by
  have written (v : Slot) : slotAt (writeSlot slots s.toNat v) n = .occupied r :=
    (slotAt_writeSlot_other slots v hne.symm).trans h
  rw [vacate]
  split
  · exact walkBack_keeps _ _ (written .empty)
  · exact written .vacated

theorem dropRecord_keeps {s : SlotNo} (hne : s.toNat ≠ n) (h : slotAt slots n = .occupied r) :
    slotAt (dropRecord slots s).2.slots n = .occupied r := by
  rw [dropRecord]
  split
  · split
    · exact vacate_keeps hne h
    · exact (slotAt_writeSlot_other slots _ hne.symm).trans h
  · exact h
  · exact h

theorem lowerPrefix_keeps {x : DropTally} {s : SlotNo} (hne : s.toNat ≠ n) (h : slotAt x.slots n = .occupied r) :
    slotAt (lowerPrefix x s).slots n = .occupied r := by
  rw [lowerPrefix]
  split
  · split
    · exact vacate_keeps hne h
    · exact (slotAt_writeSlot_other x.slots _ hne.symm).trans h
  · exact h
  · exact h

theorem lowerPrefixes_keep (ns : List SlotNo) {x : DropTally} (hne : ∀ m ∈ ns, m.toNat ≠ n) (h : slotAt x.slots n = .occupied r) :
    slotAt (ns.foldl lowerPrefix x).slots n = .occupied r := by
  induction ns generalizing x with
  | nil => exact h
  | cons m rest ih =>
    exact ih (fun k hk => hne k (List.mem_cons_of_mem _ hk)) (lowerPrefix_keeps (hne m (List.mem_cons_self ..)) h)

/-- The writes of a DROP leave every record outside its plan's slots. -/
theorem applyDrop_keeps (plan : DropPlan) (hne : ∀ m ∈ plan.slot :: plan.shorter, m.toNat ≠ n)
    (h : slotAt slots n = .occupied r) : slotAt (applyDrop slots plan).2.slots n = .occupied r :=
  lowerPrefixes_keep plan.shorter (fun m hm => hne m (List.mem_cons_of_mem _ hm))
    (dropRecord_keeps (hne plan.slot (List.mem_cons_self ..)) h)

end

/-! ### The writes of a DROP (R136, R138) -/

/-- The proper prefixes of a DROP lose one extension each. -/
theorem lowerPrefixes_lowered (ns : List SlotNo) {x : DropTally} (h : slotsWf x.slots = true) (hnodup : ns.Nodup)
    (hheld : ∀ n ∈ ns, ∃ q, slotAt x.slots n.toNat = .occupied q) : ∃ after stems turned,
    LoweredAs x.slots ns after stems turned ∧ ns.foldl lowerPrefix x = ⟨after, x.stems + stems, x.turned + turned⟩ := by
  induction ns generalizing x with
  | nil => exact ⟨x.slots, 0, 0, .done _, rfl⟩
  | cons n rest ih =>
    obtain ⟨hout, hrest⟩ := List.nodup_cons.mp hnodup
    obtain ⟨q, hq⟩ := hheld n (List.mem_cons_self ..)
    have stillHeld : ∀ m ∈ rest, ∃ q, slotAt (lowerPrefix x n).slots m.toNat = .occupied q := fun m hm => by
      obtain ⟨p, hp⟩ := hheld m (List.mem_cons_of_mem _ hm)
      exact ⟨p, lowerPrefix_keeps (fun he => hout (BitVec.toNat_inj.mp he ▸ hm)) hp⟩
    obtain ⟨after, stems, turned, hlow, hfold⟩ := ih (slotsWf_lowerPrefix n h) hrest stillHeld
    rw [List.foldl_cons, hfold]
    by_cases hgone : q.content = .stem ∧ q.extensions - 1 = 0
    · have step : lowerPrefix x n = ⟨(vacate x.slots n).1, x.stems + 1, x.turned + (vacate x.slots n).2⟩ := by
        simp only [lowerPrefix, hq, hgone, and_self, if_true]
      rw [step] at hlow ⊢
      exact ⟨after, stems + 1, (vacate x.slots n).2 + turned,
        .vacated hq hgone.1 (by have := hgone.2; omega) (vacate_vacatedAs h n) hlow, by rw [Nat.add_assoc, Nat.add_assoc, Nat.add_comm 1]⟩
    · have step : lowerPrefix x n =
          { x with slots := writeSlot x.slots n.toNat (.occupied { q with extensions := q.extensions - 1 }) } := by
        simp only [lowerPrefix, hq, hgone, if_false]
      rw [step] at hlow ⊢
      refine ⟨after, stems, turned, .kept hq ?_ hlow, rfl⟩
      by_cases hstem : q.content = .stem
      · have hne : q.extensions - 1 ≠ 0 := fun h0 => hgone ⟨hstem, h0⟩
        exact .inr (by omega)
      · exact .inl hstem

/-! ### The sweep of a CLEAR TIER (R140) -/

theorem ofTier_iff (t : TierId) (v : Slot) : v.ofTier t = true ↔ ∃ r, v = .occupied r ∧ r.tier = t := by
  cases v with
  | empty => simp [Slot.ofTier]
  | vacated => simp [Slot.ofTier]
  | occupied r => simp [Slot.ofTier]

/-- A sweep of some slots removes the tier's records that stand there, and counts them. -/
theorem sweepSlots_spec (t : TierId) (ns : List Nat) {x : List (Nat × Slot) × Nat} (h : slotsWf x.1 = true) (hnodup : ns.Nodup)
    (hns : ∀ n ∈ ns, n < 262144) :
    (∀ m r, slotAt (ns.foldl (sweepSlot t) x).1 m = .occupied r ↔ slotAt x.1 m = .occupied r ∧ ¬(m ∈ ns ∧ r.tier = t)) ∧
      (ns.foldl (sweepSlot t) x).2 = x.2 + (ns.filter (fun n => (slotAt x.1 n).ofTier t)).length := by
  induction ns generalizing x with
  | nil => exact ⟨fun m r => by simp, rfl⟩
  | cons n rest ih =>
    obtain ⟨hout, hrest⟩ := List.nodup_cons.mp hnodup
    have hplace : (BitVec.ofNat 18 n).toNat = n := Nat.mod_eq_of_lt (hns n (List.mem_cons_self ..))
    have hlt : ∀ k ∈ rest, k < 262144 := fun k hk => hns k (List.mem_cons_of_mem _ hk)
    rw [List.foldl_cons]
    by_cases hof : (slotAt x.1 n).ofTier t = true
    · have step : sweepSlot t x n = ((vacate x.1 (BitVec.ofNat 18 n)).1, x.2 + 1) := if_pos hof
      have left (m : Nat) (r : Record) := slotAt_vacate (BitVec.ofNat 18 n) m r h
      rw [hplace] at left
      obtain ⟨hslots, hcount⟩ := ih (x := sweepSlot t x n) (by rw [step]; exact slotsWf_vacate _ h) hrest hlt
      rw [step] at hslots hcount ⊢
      constructor
      · intro m r
        rw [hslots, left]
        obtain ⟨q, hq, htier⟩ := (ofTier_iff t _).mp hof
        by_cases hm : m = n
        · subst hm
          simp only [ne_eq, not_true_eq_false, false_and, List.mem_cons, true_or, true_and, false_iff, not_and, not_not]
          rintro hr
          rw [hq] at hr
          cases hr
          exact htier
        · simp [hm]
      · rw [hcount, List.filter_cons_of_pos (by exact hof), List.length_cons]
        have same : rest.filter (fun k => (slotAt (vacate x.1 (BitVec.ofNat 18 n)).1 k).ofTier t) =
            rest.filter (fun k => (slotAt x.1 k).ofTier t) := by
          refine List.filter_congr fun k hk => ?_
          have hne : k ≠ n := fun he => hout (he ▸ hk)
          rw [Bool.eq_iff_iff, ofTier_iff, ofTier_iff]
          simp [left, hne]
        rw [same, Nat.add_assoc, Nat.add_comm 1]
    · have step : sweepSlot t x n = x := if_neg hof
      obtain ⟨hslots, hcount⟩ := ih h hrest hlt
      rw [step]
      constructor
      · intro m r
        rw [hslots]
        by_cases hm : m = n
        · subst hm
          have hother (hr : slotAt x.1 m = .occupied r) : r.tier ≠ t := fun ht => hof ((ofTier_iff t _).mpr ⟨r, hr, ht⟩)
          constructor
          · exact fun ⟨hr, _⟩ => ⟨hr, fun hin => hother hr hin.2⟩
          · exact fun ⟨hr, _⟩ => ⟨hr, fun hin => hother hr hin.2⟩
        · simp [hm]
      · rw [hcount, List.filter_cons_of_neg (by exact hof)]

/-- In canonical form the numbers rise, and each slot listed reads as listed. -/
theorem slotsWf_entries {slots : List (Nat × Slot)} (h : slotsWf slots = true) :
    (slots.map Prod.fst).Nodup ∧ ∀ x ∈ slots, x.1 < 262144 ∧ slotAt slots x.1 = x.2 := by
  induction slots with
  | nil => exact ⟨List.nodup_nil, nofun⟩
  | cons e rest ih =>
    obtain ⟨-, hrest, hk, hrise⟩ := slotsWf_cons h
    obtain ⟨hnodup, hread⟩ := ih hrest
    constructor
    · refine List.nodup_cons.mpr ⟨fun hin => ?_, hnodup⟩
      obtain ⟨x, hx, he⟩ := List.mem_map.mp hin
      exact Nat.lt_irrefl e.1 (he ▸ hrise x hx)
    · intro x hx
      rcases List.mem_cons.mp hx with rfl | hx
      · exact ⟨hk, if_pos rfl⟩
      · exact ⟨(hread x hx).1, (if_neg (Nat.ne_of_lt (hrise x hx))).trans (hread x hx).2⟩

/-- A slot that does not read EMPTY is listed. -/
theorem mem_of_occupied {slots : List (Nat × Slot)} {n : Nat} {r : Record} (h : slotAt slots n = .occupied r) :
    n ∈ slots.map Prod.fst := by
  induction slots with
  | nil => cases h
  | cons e rest ih =>
    by_cases hk : e.1 = n
    · exact hk ▸ List.mem_cons_self ..
    · exact List.mem_cons_of_mem _ (ih ((if_neg hk).symm.trans h))

/-- The sweep of a tier removes its records, no other, and counts them. -/
theorem sweepTier_spec {slots : List (Nat × Slot)} (h : slotsWf slots = true) (t : TierId) :
    (∀ n r, slotAt (sweepTier slots t).1 n = .occupied r ↔ slotAt slots n = .occupied r ∧ r.tier ≠ t) ∧
      (sweepTier slots t).2 = (slots.filter (fun x => x.2.ofTier t)).length := by
  obtain ⟨hnodup, hread⟩ := slotsWf_entries h
  have hall : (slots.map Prod.fst).filter (fun k => decide (0 ≤ k)) = slots.map Prod.fst :=
    List.filter_eq_self.mpr fun k _ => decide_eq_true (Nat.zero_le k)
  have hlt : ∀ n ∈ slots.map Prod.fst, n < 262144 := fun n hn => by
    obtain ⟨x, hx, rfl⟩ := List.mem_map.mp hn
    exact (hread x hx).1
  obtain ⟨hslots, hcount⟩ := sweepSlots_spec t (slots.map Prod.fst) (x := (slots, 0)) h hnodup hlt
  rw [sweepTier, sweepFrom, hall]
  constructor
  · intro n r
    rw [hslots]
    constructor
    · exact fun ⟨hr, hout⟩ => ⟨hr, fun ht => hout ⟨mem_of_occupied hr, ht⟩⟩
    · exact fun ⟨hr, ht⟩ => ⟨hr, fun hin => ht hin.2⟩
  · rw [hcount, Nat.zero_add, List.filter_map, List.length_map]
    congr 1
    exact List.filter_congr fun x hx => by rw [Function.comp_apply, (hread x hx).2]

/-! ### PUT_WRITE_END and DROP_WRITE_END (R112, R130) -/

/-- With the lock released an engine that waited is IDLE. -/
theorem refreshActivity_released {s : State} (h : s.maint.lockHeld = false) : refreshActivity s =
    { s with engine := { s.engine with activity := if s.engine.activity = .waiting then .idle else s.engine.activity } } := by
  have hsame : (refreshed s).engine.activity = if s.engine.activity = .waiting then .idle else s.engine.activity := by
    simp only [refreshed, h, Bool.false_eq_true, false_and, if_false]
    cases s.engine.activity <;> rfl
  rw [refreshActivity_eq, ← hsame]
  rfl

/-- The head's writes are over: it has left the queue, the lock is released and the engine has its change event (R130). -/
def headReleased (rest : List MaintEntry) (s : State) : State :=
  { s with
    maint := { s.maint with queue := promoteHead rest, lockHeld := false }
    engine := { s.engine with changePending := true } }

section
variable {s : State} {e : MaintEntry} {rest : List MaintEntry} {k : Kind} {flag : Bool} {report : List Byte}

theorem headReleased_eq (hq : s.maint.queue = e :: rest) :
    leaveQueue (handChange { s with maint := { s.maint with lockHeld := false } }) = headReleased rest s :=
  leaveQueue_cons (s := handChange { s with maint := { s.maint with lockHeld := false } }) hq

/-- The writes end with a retranslation from 0 held or joined (R112). -/
theorem writesEnd_joins (hq : s.maint.queue = e :: rest) (hflag : flag = true) (hopen : sessionTaking s = true) :
    writesEnd e k flag report s =
      { s with
        maint := { s.maint with queue := promoteHead rest, lockHeld := false }
        engine := { s.engine with
          changePending := true
          request := some (joinRetranslation ⟨e.port, k, report⟩ s.engine.request)
          activity := if s.engine.activity = .waiting then .idle else s.engine.activity } } := by
  rw [writesEnd, headReleased_eq hq]
  exact (congrArg refreshActivity (if_pos ⟨hflag, hopen⟩)).trans (refreshActivity_released rfl)

/-- The writes end with the port's completion (R112, R134, R138). -/
theorem writesEnd_completes {kd : Kind} {tag : Byte} (hq : s.maint.queue = e :: rest)
    (hslot : (s.ports.get e.port).slot = .inProgress kd tag) (hnot : ¬(flag = true ∧ sessionTaking s = true)) :
    writesEnd e k flag report s =
      { completedBy e.port kd tag (doneReply (report ++ (if flag then retransValues 0 0 0 else []))) s with
        maint := { s.maint with queue := promoteHead rest, lockHeld := false }
        engine := { s.engine with
          changePending := true
          activity := if s.engine.activity = .waiting then .idle else s.engine.activity } } := by
  let reply := doneReply (report ++ (if flag then retransValues 0 0 0 else []))
  have hcomplete : complete e.port reply (headReleased rest s) = completedBy e.port kd tag reply (headReleased rest s) :=
    complete_eq reply hslot
  rw [writesEnd, headReleased_eq hq]
  exact (congrArg refreshActivity ((if_neg hnot).trans hcomplete)).trans (refreshActivity_released rfl)

end

/-- The slot writes of a PUT, made one after another. -/
theorem carryAll_writeUses (ws : List (SlotNo × Record)) (d : Dictionary) (k : Nat) :
    (writeUses ws).foldl MaintUse.carryAll (d, k) =
      ({ d with slots := ws.foldl (fun m w => writeSlot m w.1.toNat (.occupied w.2)) d.slots }, k) := by
  induction ws generalizing d with
  | nil => rfl
  | cons w rest ih => exact ih { d with slots := writeSlot d.slots w.1.toNat (.occupied w.2) }

section
variable {s : State} {e : MaintEntry} {rest : List MaintEntry}

/-- The writes of a PUT's head, made alone. -/
theorem stepWrites_put {plan : PutPlan} (huses : maintUses s = writeUses plan.writes ++ [.header .consistent]) :
    (stepWrites (begunStep s) s.dict).1 = { s.dict with
      slots := plan.writes.foldl (fun m w => writeSlot m w.1.toNat (.occupied w.2)) s.dict.slots
      header := .consistent } := by
  rw [stepWrites, show (begunStep s).left = _ from huses, List.foldl_append, carryAll_writeUses]
  rfl

/-- The writes of a DROP's head, made alone. -/
theorem stepWrites_drop {plan : DropPlan} (huses : maintUses s = dropUses s.dict.slots plan ++ [.header .consistent]) :
    (stepWrites (begunStep s) s.dict).1 =
      { s.dict with slots := (applyDrop s.dict.slots plan).2.slots, header := .consistent } := by
  rw [stepWrites, show (begunStep s).left = _ from huses, List.foldl_append, carryAll_drop]
  rfl

theorem putReport_eq (plan : PutPlan) : putReport plan = putLayout plan := by
  obtain ⟨case, _, _, _, _⟩ := plan
  cases case <;> rfl

theorem dropReportOf_eq (slots : List (Nat × Slot)) (plan : DropPlan) : dropReportOf slots plan = dropLayout slots plan := by
  simp only [dropReportOf, dropReport, dropLayout]
  cases (applyDrop slots plan).1 <;> rfl

end

section
variable {s : State} {e : MaintEntry} {rest : List MaintEntry} {t : TierId} {flag : Bool} {cs : List Chord}

/-- PUT_WRITE_END: its step, the report and the writes. -/
theorem exec_putWriteEnd {content : Content} {plan : PutPlan} (hready : s.device.state = .ready) (hq : s.maint.queue = e :: rest)
    (hreq : e.request = .put t flag cs content) (hphase : e.phase = .writing (.put plan)) :
    exec .putWriteEnd s = .next (maintStep (fun w => writesEnd e .put flag w.report) s) ∧ headReport s = putLayout plan ∧
      (stepWrites (begunStep s) s.dict).1 = { s.dict with
        slots := plan.writes.foldl (fun m w => writeSlot m w.1.toNat (.occupied w.2)) s.dict.slots
        header := .consistent } ∧ maintUses s ≠ [] := by
  have huses : maintUses s = writeUses plan.writes ++ [.header .consistent] := by
    simp only [maintUses_head hready hq, headUses, hreq, hphase]
  have hrow : putWritesEnd s = maintStep (fun w => writesEnd e .put flag w.report) s := by
    simp only [putWritesEnd, headOf_cons hready hq, hreq, hphase]
  have hreport : headReport s = putReport plan := by simp only [headReport, headOf_cons hready hq, hphase]
  exact ⟨congrArg _ hrow, hreport.trans (putReport_eq plan), stepWrites_put huses, by simp [huses]⟩

/-- DROP_WRITE_END: its step, the report and the writes. -/
theorem exec_dropWriteEnd {plan : DropPlan} (hready : s.device.state = .ready) (hq : s.maint.queue = e :: rest)
    (hreq : e.request = .drop t flag cs) (hphase : e.phase = .writing (.drop plan)) :
    exec .dropWriteEnd s = .next (maintStep (fun w => writesEnd e .drop flag w.report) s) ∧
      headReport s = dropLayout s.dict.slots plan ∧
      (stepWrites (begunStep s) s.dict).1 =
        { s.dict with slots := (applyDrop s.dict.slots plan).2.slots, header := .consistent } ∧ maintUses s ≠ [] := by
  have huses : maintUses s = dropUses s.dict.slots plan ++ [.header .consistent] := by
    simp only [maintUses_head hready hq, headUses, hreq, hphase]
  have hrow : dropWritesEnd s = maintStep (fun w => writesEnd e .drop flag w.report) s := by
    simp only [dropWritesEnd, headOf_cons hready hq, hreq, hphase]
  have hreport : headReport s = dropReportOf s.dict.slots plan := by simp only [headReport, headOf_cons hready hq, hphase]
  exact ⟨congrArg _ hrow, hreport.trans (dropReportOf_eq _ plan), stepWrites_drop huses, by simp [huses]⟩

end

/-- What a DROP makes of its plan: the record demoted or vacated, and its prefixes lowered (R136 to R138). -/
theorem applyDrop_lowered {slots : List (Nat × Slot)} {plan : DropPlan} {r : Record} (hwf : slotsWf slots = true)
    (hnodup : (plan.slot :: plan.shorter).Nodup) (hslot : slotAt slots plan.slot.toNat = .occupied r)
    (hheld : ∀ n ∈ plan.shorter, ∃ q, slotAt slots n.toNat = .occupied q) :
    (r.extensions ≠ 0 → ∃ after stems turned,
      LoweredAs (writeSlot slots plan.slot.toNat (.occupied { r with content := .stem })) plan.shorter after stems turned ∧
        applyDrop slots plan = (false, ⟨after, stems, turned⟩)) ∧
    (r.extensions = 0 → ∃ mid n after stems turned,
      VacatedAs slots plan.slot mid n ∧ LoweredAs mid plan.shorter after stems turned ∧
        applyDrop slots plan = (true, ⟨after, stems, n + turned⟩)) := by
  obtain ⟨hout, hrest⟩ := List.nodup_cons.mp hnodup
  have hne (m : SlotNo) (hm : m ∈ plan.shorter) : plan.slot.toNat ≠ m.toNat := fun he => hout (BitVec.toNat_inj.mp he ▸ hm)
  have stillHeld : ∀ m ∈ plan.shorter, ∃ q, slotAt (dropRecord slots plan.slot).2.slots m.toNat = .occupied q := fun m hm => by
    obtain ⟨q, hq⟩ := hheld m hm
    exact ⟨q, dropRecord_keeps (hne m hm) hq⟩
  obtain ⟨after, stems, turned, hlow, hfold⟩ := lowerPrefixes_lowered plan.shorter (slotsWf_dropRecord plan.slot hwf) hrest stillHeld
  constructor
  · intro hext
    have first : dropRecord slots plan.slot =
        (false, ⟨writeSlot slots plan.slot.toNat (.occupied { r with content := .stem }), 0, 0⟩) := by
      simp only [dropRecord, hslot, hext, if_false]
    rw [first] at hlow hfold
    refine ⟨after, stems, turned, hlow, ?_⟩
    rw [applyDrop, first]
    simpa using hfold
  · intro hext
    have first : dropRecord slots plan.slot = (true, ⟨(vacate slots plan.slot).1, 0, (vacate slots plan.slot).2⟩) := by
      simp only [dropRecord, hslot, hext, if_true]
    rw [first] at hlow hfold
    refine ⟨_, _, after, stems, turned, vacate_vacatedAs hwf plan.slot, hlow, ?_⟩
    rw [applyDrop, first]
    simpa using hfold

/-- Settles O40: the sweep leaves the other tiers' records, and its row the tier VISIBLE and the completion with the count. -/
theorem sweepRemovesTheTier : Obligations.SweepRemovesTheTier := by
  unfold Obligations.SweepRemovesTheTier
  intro e rest t k tag s hready hq hreq hphase hslot ends
  have hexec : exec .clearTierSweepEnd s = .next (maintStep (fun w => endSweep e t w.removed) s) := by
    have hrow : clearTierSweepEnds s = maintStep (fun w => endSweep e t w.removed) s := by
      simp only [clearTierSweepEnds, headOf_cons hready hq, hreq, hphase]
    exact congrArg _ hrow
  have finish {d : Dictionary} {m : Memory} (removed : Nat) (htiers : d.tiers = s.dict.tiers)
      (h : maintStep (fun w => endSweep e t w.removed) s = endSweep e t removed { s with dict := d, memory := m }) :
      ends d.slots d.header removed m := by
    have hend := finishHead_cons (s := setClearing t false { s with dict := d, memory := m })
      (doneReply (byteOf t.val :: leBytes 4 removed)) hq hslot
    refine hexec.trans (congrArg _ (h.trans (hend.trans ?_)))
    rw [← htiers]
    rfl
  refine ⟨fun hsound hm => ?_, fun w hw hleft => ?_,
    fun w hw hleft hbusy => hexec.trans (congrArg _ (maintStep_waits hw hleft hbusy))⟩
  · obtain ⟨hslots, hcount⟩ := sweepTier_spec hsound t
    have huses : maintUses s = [.sweep t 0, .header .consistent] := by
      simp only [maintUses_head hready hq, headUses, hreq, hphase]
    have hwrites : stepWrites (begunStep s) s.dict =
        ({ s.dict with slots := (sweepTier s.dict.slots t).1, header := .consistent }, (sweepTier s.dict.slots t).2) := by
      rw [stepWrites, show (begunStep s).left = _ from huses]
      exact congrArg (Prod.mk _) (Nat.zero_add _)
    refine ⟨(sweepTier s.dict.slots t).1, (sweepTier s.dict.slots t).2, hcount, hslots,
      finish (d := { s.dict with slots := (sweepTier s.dict.slots t).1, header := .consistent }) _ rfl ?_⟩
    rw [maintStep_quiet hm, stepDone, hwrites, if_neg (by simp [huses])]
  · exact finish (d := s.dict) w.removed rfl (maintStep_made hw hleft)

/-- Settles O39: the rows end the step's writes and then complete the request or hand it on to a retranslation; the slots that the
writes leave, and what a DROP makes of its plan, are the lemmas above. -/
theorem writesEnd : Obligations.WritesEnd := by
  unfold Obligations.WritesEnd
  refine ⟨?_, fun plan slots n r hne h => (slotAt_applyWrites plan.writes hne).trans h,
    fun plan slots n r hne h => applyDrop_keeps plan hne h, ?_⟩
  · intro e rest flag c k kd tag written report dict memory s hready hq hslot hcase after ends
    have row : exec c s = .next (maintStep (fun w => Machine.writesEnd e kd flag w.report) s) ∧ headReport s = written ∧
        (stepWrites (begunStep s) s.dict).1 = dict ∧ maintUses s ≠ [] := by
      rcases hcase with ⟨t, cs, content, plan, hreq, hphase, rfl, rfl, rfl, rfl⟩ | ⟨t, cs, plan, hreq, hphase, rfl, rfl, rfl, rfl⟩
      · exact exec_putWriteEnd hready hq hreq hphase
      · exact exec_dropWriteEnd hready hq hreq hphase
    obtain ⟨hexec, hreport, hwrites, huses⟩ := row
    have finish (d : Dictionary) (h : maintStep (fun w => Machine.writesEnd e kd flag w.report) s =
        Machine.writesEnd e kd flag report { s with dict := d, memory := memory }) : ends d := by
      rw [h] at hexec
      let u : State := { s with dict := d, memory := memory }
      have taking := sessionTaking_iff u
      refine ⟨fun hflag => ?_, fun hflag hclosed => ?_, fun hflag hopen hnot => ?_⟩
      · refine hexec.trans (congrArg _ ((writesEnd_completes (s := u) hq hslot (fun h => Bool.false_ne_true (hflag.symm.trans h.1))).trans ?_))
        simp only [hflag, Bool.false_eq_true, if_false, List.append_nil]
        rfl
      · have hno : ¬(flag = true ∧ sessionTaking u = true) := by
          rintro ⟨-, htaking⟩
          obtain ⟨hopen, hnot⟩ := taking.mp htaking
          rcases hclosed with hclosed | ⟨q, b, hclosing⟩
          · exact Bool.false_ne_true (hclosed.symm.trans hopen)
          · exact hnot q b hclosing
        refine hexec.trans (congrArg _ ((writesEnd_completes (s := u) hq hslot hno).trans ?_))
        simp only [hflag, if_true]
        rfl
      · refine hexec.trans (congrArg _ ((writesEnd_joins (s := u) hq hflag (taking.mpr ⟨hopen, hnot⟩)).trans ?_))
        cases hr : s.engine.request with
        | none => simp only [joinRetranslation, after, u]
        | some q => simp only [joinRetranslation, after, u]
    refine ⟨fun hm hwritten hmemory => finish dict ?_, fun w hw hleft hrep hmemory => finish s.dict ?_,
      fun w hw hleft hbusy => hexec.trans (congrArg _ (maintStep_waits hw hleft hbusy))⟩
    · rw [maintStep_quiet hm, hwrites, if_neg huses, hmemory, hwritten, ← hreport]
      rfl
    · rw [maintStep_made hw hleft, hmemory, hrep]
  · exact fun slots plan r hwf hnodup hslot hheld => applyDrop_lowered hwf hnodup hslot hheld

end Sys2Proof.Proofs
end

section
/-! PROOFS. The memory controller: what each requester asks for, which of them a grant takes, and how the counts and the order move
(R183 to R185). -/

namespace Sys2Proof.Proofs

open Sys2Proof.Machine

/-! ### What each requester asks for (R183) -/

section
variable {s : State}

theorem engineTransaction_asks {w : EngineWork} {u : Use} {us : List Use} {r : MemRequester} {newest : SegNo}
    (hw : s.memory.engineWork = some w) (hleft : w.left = u :: us) (h : u.requester = r) :
    engineTransaction s.memory newest r = some ⟨r, u.block newest, .engine⟩ := by
  simp only [engineTransaction, hw, hleft, h, if_true]

theorem engineTransaction_other {w : EngineWork} {u : Use} {us : List Use} {r : MemRequester} {newest : SegNo}
    (hw : s.memory.engineWork = some w) (hleft : w.left = u :: us) (h : u.requester ≠ r) :
    engineTransaction s.memory newest r = none := by
  simp only [engineTransaction, hw, hleft, h, if_false]

theorem engineTransaction_none (hw : s.memory.engineWork = none) (newest : SegNo) (r : MemRequester) :
    engineTransaction s.memory newest r = none := by simp only [engineTransaction, hw]

theorem requestOf_log_engine (h : s.memory.logWork = []) :
    requestOf s .log = engineTransaction s.memory s.log.newest .log := by simp only [requestOf, h]

theorem requestOf_log_work {l : LogWork} {works : List LogWork} (h : s.memory.logWork = l :: works) :
    requestOf s .log = l.transaction s.log.newest := by simp only [requestOf, h]

theorem requestOf_pull_none (h : s.memory.pullWork = []) : requestOf s .pull = none := by simp only [requestOf, h]

theorem requestOf_pull_work {p : PullWork} {pulls : List PullWork} (h : s.memory.pullWork = p :: pulls) :
    requestOf s .pull = p.left.head?.map (fun r => ⟨.pull, recordBlock r.seq, .pullRead⟩) := by simp only [requestOf, h]

theorem requestOf_intake_none (h : s.memory.intakeWork = []) : requestOf s .intake = none := by
  simp only [requestOf, appendHeld, h, List.head?_nil, Option.map_none, ite_self]

/-- Intake asks while an append waits that no settle of its own guard holds (R5, R62). -/
theorem requestOf_intake_work {a : IntakeWork} {rest : List IntakeWork} (h : s.memory.intakeWork = a :: rest)
    (hfree : ¬(a.guarded && changesWait s) = true) :
    requestOf s .intake = some ⟨.intake, recordBlock (s.journal.head + 1), .journalAppend⟩ := by
  simp only [requestOf, appendHeld, h, hfree]
  rfl

theorem requestOf_intake_held {a : IntakeWork} {rest : List IntakeWork} (h : s.memory.intakeWork = a :: rest)
    (hheld : (a.guarded && changesWait s) = true) : requestOf s .intake = none := by
  simp only [requestOf, appendHeld, h, hheld, if_true]

/-- MAINT past start-up's header read asks for its step's next transaction, unless the writes it would begin are withheld. -/
theorem requestOf_maint (h : ¬(s.device.state = .starting ∧ s.device.startup = .readHeader)) :
    requestOf s .maint = if writesWithheld s then none else maintTransaction s.memory := by
  simp only [requestOf, h, if_false]

theorem requestOf_headerRead (hstate : s.device.state = .starting) (hstage : s.device.startup = .readHeader) :
    requestOf s .maint = some ⟨.maint, .header, .headerRead⟩ := by
  simp only [requestOf, hstate, hstage, and_self, if_true]

theorem maintTransaction_asks {m : MaintWork} {x : MaintUse} {more : List MaintUse} (hw : s.memory.maintWork = some m)
    (hleft : m.left = x :: more) : maintTransaction s.memory = some ⟨.maint, x.block, .maint⟩ := by
  simp only [maintTransaction, hw, hleft, List.head?_cons, Option.map_some]

theorem maintTransaction_none (hw : s.memory.maintWork = none) : maintTransaction s.memory = none := by
  simp only [maintTransaction, hw]

/-- The engine keeps the lock from being taken while it is at work or a settle of the guard is still to be written (R129). -/
theorem not_lockMayBeTaken_iff (s : State) : lockMayBeTaken s = false ↔
    (s.engine.activity ≠ .idle ∧ s.engine.activity ≠ .waiting) ∨ ∃ b, .change b ∈ s.memory.logWork := by
  rw [← changesWait_iff, lockMayBeTaken, Bool.and_eq_false_iff, Bool.or_eq_false_iff]
  simp

/-- The writes of the head are withheld as R129 and R139 have it. -/
theorem writesWithheld_iff (s : State) : writesWithheld s = true ↔ ∃ e, s.maint.queue.head? = some e ∧
    (((∃ plan, e.phase = .lockWait plan) ∧ ((s.engine.activity ≠ .idle ∧ s.engine.activity ≠ .waiting) ∨
        ∃ b, .change b ∈ s.memory.logWork)) ∨
      ((∃ t, e.request = .clearTier t) ∧ e.phase = .checking true ∧ s.engine.activity = .retranslating)) := by
  rw [← not_lockMayBeTaken_iff, writesWithheld]
  cases s.maint.queue.head? with
  | none => simp
  | some e =>
    obtain ⟨port, request, phase⟩ := e
    cases phase with
    | lockWait plan => simp
    | checking b => cases request <;> cases b <;> simp
    | queued => simp
    | writing plan => simp
    | sweeping => simp

/-- A requester's transaction is of its own kind: only MAINT's are of the maintenance unit's step. -/
theorem requestOf_work {r : MemRequester} {tx : Transaction} (h : requestOf s r = some tx) (hr : r ≠ .maint) : tx.work ≠ .maint := by
  have engine {q : MemRequester} {newest : SegNo} (he : engineTransaction s.memory newest q = some tx) : tx.work ≠ .maint := by
    rw [engineTransaction] at he
    split at he
    · split at he
      · split at he
        · cases he
          exact nofun
        · cases he
      · cases he
    · cases he
  cases r with
  | maint => exact absurd rfl hr
  | xlate => exact engine h
  | intake =>
    rw [requestOf] at h
    split at h
    · cases h
    · obtain ⟨_, -, rfl⟩ := Option.map_eq_some_iff.mp h
      exact nofun
  | pull =>
    rw [requestOf] at h
    split at h
    · obtain ⟨_, -, rfl⟩ := Option.map_eq_some_iff.mp h
      exact nofun
    · cases h
  | log =>
    rw [requestOf] at h
    split at h
    · next l _ _ =>
      cases l with
      | fetch w =>
        obtain ⟨_, -, rfl⟩ := Option.map_eq_some_iff.mp h
        exact nofun
      | startAppend => cases h; exact nofun
      | endAppend => cases h; exact nofun
      | change b => cases h; exact nofun
    · exact engine h

end

/-! ### The arbiter's choice (R184) -/

section
variable {s : State} {r : MemRequester} {before after : List MemRequester}

theorem requesting_iff (s : State) (q : MemRequester) : requesting s q = true ↔ requestOf s q ≠ none := by
  rw [requesting, Option.isSome_iff_ne_none]

theorem not_requesting {q : MemRequester} (h : requestOf s q = none) : requesting s q = false := by
  rw [requesting, h]
  rfl

/-- With nobody requesting nothing is granted. -/
theorem grant_nobody (h : ∀ q, requestOf s q = none) : grant s = s := by
  have hnone : arbitrate s = none := by
    have hempty : s.memory.order.filter (requesting s) = [] := List.filter_eq_nil_iff.mpr fun q _ => by
      rw [not_requesting (h q)]
      exact Bool.false_ne_true
    simp only [arbitrate, not_requesting (h .intake), hempty, Bool.false_eq_true, if_false, List.find?_nil, List.head?_nil]
  rw [grant, hnone]
  split
  · rfl
  · rfl

theorem arbitrate_intake (h : requestOf s .intake ≠ none) : arbitrate s = some .intake := by
  rw [arbitrate, if_pos ((requesting_iff s .intake).mpr h)]

/-- The requesters that ask, in their order, about one of them. -/
theorem asking_split (horder : s.memory.order = before ++ r :: after) (hr : requestOf s r ≠ none) :
    s.memory.order.filter (requesting s) = before.filter (requesting s) ++ r :: after.filter (requesting s) := by
  rw [horder, List.filter_append, List.filter_cons_of_pos ((requesting_iff s r).mpr hr)]

/-- The highest of those passed over eight times is granted. -/
theorem arbitrate_eighth (hintake : requestOf s .intake = none) (horder : s.memory.order = before ++ r :: after)
    (hr : requestOf s r ≠ none) (hcount : s.memory.counts.get r = 8)
    (hbefore : ∀ q ∈ before, requestOf s q ≠ none → s.memory.counts.get q ≠ 8) : arbitrate s = some r := by
  have hfirst : (s.memory.order.filter (requesting s)).find? (fun r => decide (s.memory.counts.get r = Config.passLimit)) = some r := by
    have hnone : (before.filter (requesting s)).find? (fun r => decide (s.memory.counts.get r = Config.passLimit)) = none := by
      refine List.find?_eq_none.mpr fun q hq => ?_
      obtain ⟨hmem, hasks⟩ := List.mem_filter.mp hq
      rw [decide_eq_true_eq]
      exact hbefore q hmem ((requesting_iff s q).mp hasks)
    rw [asking_split horder hr, List.find?_append, hnone, Option.none_or]
    exact List.find?_cons_of_pos (decide_eq_true hcount)
  simp only [arbitrate, not_requesting hintake, Bool.false_eq_true, if_false, hfirst]

/-- With none passed over eight times, the highest is granted. -/
theorem arbitrate_highest (hintake : requestOf s .intake = none) (horder : s.memory.order = before ++ r :: after)
    (hr : requestOf s r ≠ none) (hcount : ∀ q ∈ s.memory.order, requestOf s q ≠ none → s.memory.counts.get q ≠ 8)
    (hbefore : ∀ q ∈ before, requestOf s q = none) : arbitrate s = some r := by
  have hnone : (s.memory.order.filter (requesting s)).find? (fun r => decide (s.memory.counts.get r = Config.passLimit)) = none := by
    refine List.find?_eq_none.mpr fun q hq => ?_
    obtain ⟨hmem, hasks⟩ := List.mem_filter.mp hq
    rw [decide_eq_true_eq]
    exact hcount q hmem ((requesting_iff s q).mp hasks)
  have hempty : before.filter (requesting s) = [] := List.filter_eq_nil_iff.mpr fun q hq => by
    rw [not_requesting (hbefore q hq)]
    exact Bool.false_ne_true
  have hfirst : (s.memory.order.filter (requesting s)).head? = some r := by
    rw [asking_split horder hr, hempty]
    rfl
  simp only [arbitrate, not_requesting hintake, Bool.false_eq_true, if_false, hnone, hfirst]

/-- The grant of the one chosen. -/
theorem grant_chosen {tx : Transaction} (hidle : s.memory.inProgress = none) (h : arbitrate s = some r)
    (htx : requestOf s r = some tx) : grant s = grantTo r tx s := by
  simp only [grant, hidle, h, htx]

/-- One that asks alone is granted, and the arbiter moves as by grants to it alone. -/
theorem grant_alone {tx : Transaction} (hidle : s.memory.inProgress = none) (hr : r ≠ .intake) (hin : r ∈ s.memory.order)
    (htx : requestOf s r = some tx) (halone : ∀ q, q ≠ r → requestOf s q = none) :
    grant s = { s with memory := { afterGrants r s.memory with inProgress := some tx } } := by
  obtain ⟨before, after, horder⟩ := List.mem_iff_append.mp hin
  have hasks : requestOf s r ≠ none := by
    rw [htx]
    exact nofun
  have hchosen : arbitrate s = some r := by
    have hintake := halone .intake (Ne.symm hr)
    have hall : ∀ q, requestOf s q ≠ none → q = r := fun q hq => by
      by_contra hne
      exact hq (halone q hne)
    have hempty : ∀ l : List MemRequester, r ∈ l → (l.filter (requesting s)) ≠ [] := fun l hl hnil =>
      absurd ((requesting_iff s r).mpr hasks) (List.filter_eq_nil_iff.mp hnil r hl)
    rw [arbitrate, not_requesting hintake]
    simp only [Bool.false_eq_true, if_false]
    split
    · next q hq => exact congrArg some (hall q ((requesting_iff s q).mp (List.mem_filter.mp (List.mem_of_find?_eq_some hq)).2))
    · obtain ⟨q, rest, hlist⟩ := List.exists_cons_of_ne_nil (hempty s.memory.order hin)
      have hmem : q ∈ s.memory.order.filter (requesting s) := hlist ▸ List.mem_cons_self ..
      rw [hlist, List.head?_cons, hall q ((requesting_iff s q).mp (List.mem_filter.mp hmem).2)]
  have hcount (q : MemRequester) (hq : q ≠ r) : countAfter s r q = s.memory.counts.get q := by
    simp only [countAfter, hq, not_requesting (halone q hq), Bool.false_eq_true, if_false]
  have hself : countAfter s r r = 0 := if_pos rfl
  rw [grant_chosen hidle hchosen htx, afterGrants_alone s.memory hr, grantTo, grantAlone]
  have hcounts : (⟨countAfter s r .xlate, countAfter s r .log, countAfter s r .maint, countAfter s r .pull⟩ : PassCounts) =
      s.memory.counts.clear r := by
    cases r with
    | intake => exact absurd rfl hr
    | xlate => rw [hself, hcount .log nofun, hcount .maint nofun, hcount .pull nofun]; rfl
    | log => rw [hself, hcount .xlate nofun, hcount .maint nofun, hcount .pull nofun]; rfl
    | maint => rw [hself, hcount .xlate nofun, hcount .log nofun, hcount .pull nofun]; rfl
    | pull => rw [hself, hcount .xlate nofun, hcount .log nofun, hcount .maint nofun]; rfl
  rw [hcounts]

/-- How the order moves: in FIXED mode not at all; ROTATING, the one granted goes last (R185). -/
theorem orderAfter_split {mode : ArbiterMode} {order : List MemRequester} (horder : order = before ++ r :: after)
    (hr : r ≠ .intake) (hbefore : r ∉ before) :
    orderAfter mode order r = if mode = .fixed then order else before ++ after ++ [r] := by
  cases mode with
  | fixed => rfl
  | rotating =>
    have herase : order.erase r = before ++ after := by
      rw [horder, List.erase_append_right _ hbefore, List.erase_cons_head]
    simp only [orderAfter, hr, if_false, herase, reduceCtorEq]

end

/-! ### What a grant to MAINT begins (R129, R139) -/

/-- The beginning of the writes is the step held, as the memory controller has it. -/
theorem writesBegin_memory (s : State) : ∃ w, (writesBegin s).memory = { s.memory with maintWork := w } := by
  rw [writesBegin]
  split
  · split
    · next plan _ =>
      obtain ⟨_, hlock⟩ := takeLock_shape plan s
      exact ⟨_, by rw [askWrites, hlock]⟩
    · next t _ _ =>
      obtain ⟨_, hsweep⟩ := startSweep_shape t s
      exact ⟨_, by rw [askWrites, hsweep]⟩
    · exact ⟨s.memory.maintWork, rfl⟩
  · exact ⟨s.memory.maintWork, rfl⟩

theorem begunWith_memory (s : State) : ∃ w, (begunWith s).memory = { s.memory with maintWork := w } := by
  rw [begunWith]
  split
  · split
    · exact writesBegin_memory s
    · exact ⟨s.memory.maintWork, rfl⟩
  · exact ⟨s.memory.maintWork, rfl⟩

/-- A head that does not stand before its writes begins none. -/
theorem writesBegin_other {s : State}
    (h : s.device.state = .ready → ∀ e, s.maint.queue.head? = some e → ¬e.isBeforeWrites) : writesBegin s = s := by
  rw [writesBegin]
  split
  · next e hhead =>
    obtain ⟨hready, he⟩ := headOf_some hhead
    have hnot := h hready e he
    split
    · next plan hphase => exact absurd (.inl ⟨plan, hphase⟩) hnot
    · next t hreq hphase => exact absurd (.inr ⟨⟨t, hreq⟩, hphase⟩) hnot
    · rfl
  · rfl

end Sys2Proof.Proofs
end

section
/-! PROOFS. MEMORY_GRANT: the work each block begins, and the grant (R40, R127, R183, R184). -/

namespace Sys2Proof.Proofs

open Sys2Proof.Machine

/-! ### The engine's work (R40) -/

/-- The place of a work in the order of R40; the two settles share one. -/
def orderPlace : WorkKind → Nat
  | .rebuild => 0
  | .reResolution => 1
  | .retranslationStart => 2
  | .takeStroke => 3
  | .takeStrike => 4
  | .expiry => 5
  | .closeSettle => 5

/-- The place that the state leaves for a work to begin. -/
def placeLeft (s : State) : Nat :=
  if s.engine.activity = .retranslating then 0
  else if s.engine.changePending then 1
  else if retransWaits s then 2
  else if s.journal.head < s.journal.cursor then 5
  else if mayBegin s .takeStroke then 3 else 4

/-- A work is ready at its own place alone. -/
theorem placeLeft_of_ready {s : State} {k : WorkKind} (h : WorkReady s k) : placeLeft s = orderPlace k := by
  cases k with
  | rebuild =>
    obtain ⟨-, hactivity, -⟩ := h
    simp only [placeLeft, hactivity, if_true, orderPlace]
  | reResolution =>
    obtain ⟨⟨-, hidle, -⟩, hchange⟩ := h
    simp only [placeLeft, hidle, hchange, if_true, if_false, reduceCtorEq, orderPlace]
  | retranslationStart =>
    obtain ⟨⟨-, hidle, -⟩, hchange, hrequest⟩ := h
    simp only [placeLeft, hidle, hchange, (retransWaits_iff s).mpr hrequest, if_true, if_false, reduceCtorEq,
      Bool.false_eq_true, orderPlace]
  | takeStroke =>
    have hbegin := (mayBegin_iff s .takeStroke).mpr h
    obtain ⟨⟨-, hidle, -⟩, hchange, hrequest, hcursor, -⟩ := h
    simp only [placeLeft, hidle, hchange, (retransWaits_false s).mpr hrequest, Nat.not_lt.mpr hcursor, hbegin, if_true, if_false,
      reduceCtorEq, Bool.false_eq_true, orderPlace]
  | takeStrike =>
    obtain ⟨⟨-, hidle, -⟩, hchange, hrequest, hcursor, r, b, hrecord, hkind⟩ := h
    have hno : mayBegin s .takeStroke = false := by
      refine Bool.eq_false_iff.mpr fun hbegin => ?_
      obtain ⟨-, -, -, -, q, c, hq, hstroke⟩ := (mayBegin_iff s .takeStroke).mp hbegin
      rw [hrecord] at hq
      cases hq
      rw [hkind] at hstroke
      cases hstroke
    simp only [placeLeft, hidle, hchange, (retransWaits_false s).mpr hrequest, Nat.not_lt.mpr hcursor, hno, if_false,
      reduceCtorEq, Bool.false_eq_true, orderPlace]
  | expiry =>
    obtain ⟨⟨-, hidle, -⟩, hchange, hrequest, hcursor, -⟩ := h
    have hpast : s.journal.head < s.journal.cursor := by omega
    simp only [placeLeft, hidle, hchange, (retransWaits_false s).mpr hrequest, hpast, if_true, if_false, reduceCtorEq,
      Bool.false_eq_true, orderPlace]
  | closeSettle =>
    obtain ⟨⟨-, hidle, -⟩, hchange, hrequest, hcursor, -⟩ := h
    have hpast : s.journal.head < s.journal.cursor := by omega
    simp only [placeLeft, hidle, hchange, (retransWaits_false s).mpr hrequest, hpast, if_true, if_false, reduceCtorEq,
      Bool.false_eq_true, orderPlace]

theorem readyWork_none {first : Bool} {s : State} (h : ∀ k, ¬WorkReady s k) : readyWork first s = none :=
  List.find?_eq_none.mpr fun k _ hk => h k ((mayBegin_iff s k).mp hk)

/-- The work ready is the one begun; of both settles, the one that comes first. -/
theorem readyWork_of_ready {first : Bool} {s : State} {k : WorkKind} (h : WorkReady s k)
    (hexpiry : k = .expiry → first = false → ¬WorkReady s .closeSettle)
    (hsettle : k = .closeSettle → first = true → ¬WorkReady s .expiry) : readyWork first s = some k := by
  have others (q : WorkKind) (hne : orderPlace q ≠ orderPlace k) : mayBegin s q = false := by
    refine Bool.eq_false_iff.mpr fun hq => hne ?_
    exact (placeLeft_of_ready ((mayBegin_iff s q).mp hq)).symm.trans (placeLeft_of_ready h)
  have self : mayBegin s k = true := (mayBegin_iff s k).mpr h
  have absent {q : WorkKind} (hq : ¬WorkReady s q) : mayBegin s q = false := Bool.eq_false_iff.mpr fun hb => hq ((mayBegin_iff s q).mp hb)
  cases k with
  | rebuild => simp [readyWork, self]
  | reResolution => simp [readyWork, self, others .rebuild (by decide)]
  | retranslationStart => simp [readyWork, self, others .rebuild (by decide), others .reResolution (by decide)]
  | takeStroke =>
    simp [readyWork, self, others .rebuild (by decide), others .reResolution (by decide), others .retranslationStart (by decide)]
  | takeStrike =>
    simp [readyWork, self, others .rebuild (by decide), others .reResolution (by decide), others .retranslationStart (by decide),
      others .takeStroke (by decide)]
  | expiry =>
    have hfirst : readyWork first s = (settleOrder first).find? (mayBegin s) := by
      simp [readyWork, others .rebuild (by decide), others .reResolution (by decide), others .retranslationStart (by decide),
        others .takeStroke (by decide), others .takeStrike (by decide)]
    cases first with
    | true => simp [hfirst, settleOrder, self]
    | false => simp [hfirst, settleOrder, self, absent (hexpiry rfl rfl)]
  | closeSettle =>
    have hfirst : readyWork first s = (settleOrder first).find? (mayBegin s) := by
      simp [readyWork, others .rebuild (by decide), others .reResolution (by decide), others .retranslationStart (by decide),
        others .takeStroke (by decide), others .takeStrike (by decide)]
    cases first with
    | false => simp [hfirst, settleOrder, self]
    | true => simp [hfirst, settleOrder, self, absent (hsettle rfl rfl)]

/-- A work held keeps the engine from beginning another. -/
theorem presentEngine_held {first : Bool} {s : State} (h : s.memory.engineWork ≠ none) : presentEngine first s = s := by
  rw [presentEngine]
  split
  · next hnone _ => exact absurd hnone h
  · rfl

theorem presentEngine_none {first : Bool} {s : State} (h : readyWork first s = none) : presentEngine first s = s := by
  rw [presentEngine, h]
  split
  · next hk => cases hk
  · rfl

/-- The work that is ready begins, if it asks for a transaction. -/
theorem presentEngine_ready {first : Bool} {s : State} {k : WorkKind} (hnone : s.memory.engineWork = none)
    (h : readyWork first s = some k) :
    presentEngine first s = if (begun k s).1.left = [] then s else beginWork k s := by
  rw [presentEngine, hnone, h]

/-- A work as it begins leaves the memory controller. -/
theorem begun_memory (k : WorkKind) (s : State) : (begun k s).2.memory = s.memory := by
  obtain ⟨_, hstarted⟩ := startedWork_shape k s
  obtain ⟨_, _, _, _, hmoved⟩ := (begun_spec k s).1
  rw [hmoved, hstarted]

theorem workActivity_eq (k : WorkKind) :
    workActivity k = if k = .rebuild ∨ k = .retranslationStart then .retranslating else .resolving := by
  cases k <;> rfl

theorem presentEngine_inProgress (first : Bool) (s : State) :
    (presentEngine first s).memory.inProgress = s.memory.inProgress := by
  rw [presentEngine]
  split
  · next k _ _ =>
    split
    · rfl
    · obtain ⟨_, _, -, -, -, hbegin⟩ := beginWork_shape k s
      rw [hbegin]
  · rfl

/-! ### The unit's step (R127) -/

theorem presentMaint_held {s : State} (h : s.memory.maintWork ≠ none) : presentMaint s = s := by
  rw [presentMaint, if_pos]
  rw [Option.isSome_iff_ne_none.mpr h, Bool.true_or]

/-- With no step begun the unit begins the next that has transactions. -/
theorem presentMaint_begins {s : State} {report : List Byte} {uses : List MaintUse} (hnone : s.memory.maintWork = none)
    (hreport : headReport s = report) (huses : maintUses s = uses) : presentMaint s =
      if uses = [] then s else { s with memory := { s.memory with maintWork := some ⟨tiersRead s, report, 0, uses⟩ } } := by
  simp only [presentMaint, begunStep, hnone, hreport, huses, visibleTiers_eq, Option.isSome_none, Bool.false_or,
    List.isEmpty_iff]

theorem presentMaint_inProgress (s : State) : (presentMaint s).memory.inProgress = s.memory.inProgress := by
  obtain ⟨_, _, _, hmemory⟩ := (MaintOnly.presentMaint s).memory
  rw [hmemory]

/-- Only a head in WRITING has its report worked out. -/
theorem headReport_nil {s : State} {e : MaintEntry} {rest : List MaintEntry} (hready : s.device.state = .ready)
    (hq : s.maint.queue = e :: rest) (h : ∀ plan, e.phase ≠ .writing plan) : headReport s = [] := by
  rw [headReport, headOf_cons hready hq]
  simp only
  split
  · next hphase => exact absurd hphase (h _)
  · next hphase => exact absurd hphase (h _)
  · rfl
  · rfl
  · rfl
  · rfl

theorem headOf_starting {s : State} (h : s.device.state = .starting) : headOf s = none := by
  rw [headOf, if_neg (by rw [h]; exact nofun)]

theorem headReport_starting {s : State} (h : s.device.state = .starting) : headReport s = [] := by
  rw [headReport, headOf_starting h]

theorem maintUses_empty {s : State} (hready : s.device.state = .ready) (hq : s.maint.queue = []) : maintUses s = [] := by
  simp only [maintUses, headOf, hready, hq, List.head?_nil, reduceCtorEq, false_and, if_false, if_true]

/-! ### The grant (R184, R185) -/

theorem begunWith_idle {s : State} (h : s.memory.inProgress = none) : begunWith s = s := by rw [begunWith, h]

/-- What a grant leaves. -/
theorem begunWith_grant {s : State} {r : MemRequester} {tx : Transaction} (hidle : s.memory.inProgress = none)
    (hchosen : arbitrate s = some r) (htx : requestOf s r = some tx) :
    (begunWith (grant s)).memory.inProgress = some tx ∧
      (begunWith (grant s)).memory.order = orderAfter s.memory.mode s.memory.order r ∧
      (begunWith (grant s)).memory.counts =
        ⟨countAfter s r .xlate, countAfter s r .log, countAfter s r .maint, countAfter s r .pull⟩ ∧
      ((r = .maint → s.device.state = .ready → ∀ e, s.maint.queue.head? = some e → ¬e.isBeforeWrites) →
        begunWith (grant s) = grantTo r tx s) := by
  have hgrant := grant_chosen hidle hchosen htx
  obtain ⟨w, hmemory⟩ := begunWith_memory (grant s)
  rw [hmemory, hgrant]
  refine ⟨rfl, rfl, rfl, fun hother => ?_⟩
  have hsame : begunWith (grantTo r tx s) = if tx.work = .maint then writesBegin (grantTo r tx s) else grantTo r tx s := rfl
  rw [hsame]
  split
  · next hwork =>
    have hr : r = .maint := by
      by_contra hne
      exact requestOf_work htx hne hwork
    exact writesBegin_other (s := grantTo r tx s) (hother hr)
  · rfl

/-- Settles O57: the grant from the lemmas on the arbiter; what the engine and the unit begin; and what each requester asks for. -/
theorem grantChooses : Obligations.GrantChooses := by
  unfold Obligations.GrantChooses
  refine ⟨?_, fun k first s => ?_, fun e rest t flag cs content s => ?_, ?_⟩
  · intro asks r tx before after s se s1 hidle hse hs1 asking count moved grantedWith
    have hgrants : exec (.memoryGrant asks) s = .next (begunWith (grant s1)) := by
      have hrow : memoryGrants asks s = begunWith (grant s1) := by
        rw [memoryGrants, hidle, presented, ← hse, ← hs1]
        rfl
      exact congrArg _ hrow
    have hidle1 : s1.memory.inProgress = none := by
      have hengine : se.memory.inProgress = none := by
        rw [hse]
        split
        · rw [presentEngine_inProgress, hidle]
        · exact hidle
      rw [hs1]
      split
      · rw [presentMaint_inProgress, hengine]
      · exact hengine
    have chosen {order : List MemRequester} (hchosen : arbitrate s1 = some r) (htx : requestOf s1 r = some tx)
        (horder : orderAfter s1.memory.mode s1.memory.order r = order) : grantedWith order := by
      obtain ⟨hprogress, hmoved, hcounts, hrest⟩ := begunWith_grant hidle1 hchosen htx
      refine ⟨_, hgrants, hprogress, hmoved.trans horder, hcounts, fun hother => ?_⟩
      rw [hcounts, ← horder, hrest hother]
      rfl
    refine ⟨fun hnobody => ?_, fun hr htx => ?_, fun hintake horder hr htx hplace => ?_⟩
    · rw [hgrants, grant_nobody fun q => not_not.mp (hnobody q), begunWith_idle hidle1]
    · subst hr
      have hasks : requestOf s1 .intake ≠ none := by
        rw [htx]
        exact nofun
      exact chosen (arbitrate_intake hasks) htx (by cases s1.memory.mode <;> rfl)
    · have hnot := not_not.mp hintake
      have hasks : requestOf s1 r ≠ none := by
        rw [htx]
        exact nofun
      rcases hplace with ⟨hcount, hbefore⟩ | ⟨hcount, hbefore⟩
      · exact chosen (arbitrate_eighth hnot horder hasks hcount hbefore) htx
          (orderAfter_split horder hr fun hin => hbefore r hin hasks hcount)
      · exact chosen (arbitrate_highest hnot horder hasks hcount fun q hq => not_not.mp (hbefore q hq)) htx
          (orderAfter_split horder hr fun hin => hbefore r hin hasks)
  · refine ⟨presentEngine_held, fun h => presentEngine_none (readyWork_none h), fun hnone hready hexpiry hsettle => ?_⟩
    have hbegins := presentEngine_ready hnone (readyWork_of_ready (first := first) hready hexpiry hsettle)
    refine ⟨opened k s, begun k s, opened_begun k s, begun_goesOn k s, fun hleft => ?_, fun hleft => ?_⟩
    · rw [hbegins, if_pos hleft]
    · rw [hbegins, if_neg hleft, ← workActivity_eq, ← begun_memory k s]
      rfl
  · intro begins reads
    refine ⟨presentMaint_held, fun hnone hstarting hsweep => ?_, fun hnone hready hq => ?_, fun hnone hready hq => ?_⟩
    · refine presentMaint_begins hnone (headReport_starting hstarting) ?_
      simp only [maintUses, hstarting, hsweep, and_self, if_true, startupUses]
    · rw [presentMaint_begins hnone rfl (maintUses_empty hready hq), if_pos rfl]
    · have uses := maintUses_head hready hq
      have quietReport (h : ∀ plan, e.phase ≠ .writing plan) : headReport s = [] := headReport_nil hready hq h
      have step {us : List MaintUse} (hphase : ∀ plan, e.phase ≠ .writing plan) (h : headUses e s = us) : begins [] us :=
        presentMaint_begins hnone (quietReport hphase) (uses.trans h)
      refine ⟨fun hreq hphase => step (by rw [hphase]; exact nofun) ?_, fun hreq hphase => step (by rw [hphase]; exact nofun) ?_,
        fun b hreq hphase => step (by rw [hphase]; exact nofun) ?_, fun b hreq hphase => step (by rw [hphase]; exact nofun) ?_,
        fun plan hreq hphase => ?_, fun plan hreq hphase => ?_, fun plan hreq hphase => ?_, fun hreq => ?_⟩
      · simp only [headUses, hreq, hphase, namesLocked, MaintRequest.namedTier]
        rfl
      · simp only [headUses, hreq, hphase, namesLocked, MaintRequest.namedTier]
        rfl
      · simp only [headUses, hreq, hphase]
        rfl
      · simp only [headUses, hreq, hphase]
        rfl
      · have hwrites : headUses e s = if writesWithheld s then [] else [.header .writing] := by
          rcases hreq with hreq | hreq
          · simp only [headUses, hreq, hphase]
          · simp only [headUses, hreq, hphase]
        have hkept := writesWithheld_iff s
        rw [hq, List.head?_cons] at hkept
        refine ⟨fun ⟨hactivity, hchanges⟩ => step (by rw [hphase]; exact nofun) ?_, fun hnot => ?_⟩
        · rw [hwrites, if_neg]
          rw [hkept]
          rintro ⟨x, hx, ⟨-, hbusy | ⟨b, hb⟩⟩ | ⟨⟨u, hu⟩, -⟩⟩
          · exact hactivity.elim hbusy.1 hbusy.2
          · exact hchanges b hb
          · cases hx
            rcases hreq with hreq | hreq
            · rw [hreq] at hu
              cases hu
            · rw [hreq] at hu
              cases hu
        · have hwithheld : writesWithheld s = true := by
            refine hkept.mpr ⟨e, rfl, .inl ⟨⟨plan, hphase⟩, ?_⟩⟩
            by_contra hfree
            push Not at hfree
            exact hnot ⟨Classical.or_iff_not_imp_left.mpr hfree.1, hfree.2⟩
          have hnone' := step (by rw [hphase]; exact nofun) hwrites
          simp only [begins, hwithheld, if_true] at hnone'
          exact hnone'
      · refine presentMaint_begins hnone ?_ (uses.trans ?_)
        · simp only [headReport, headOf_cons hready hq, hphase, putReport_eq]
        · simp only [headUses, hreq, hphase]
          rfl
      · refine presentMaint_begins hnone ?_ (uses.trans ?_)
        · simp only [headReport, headOf_cons hready hq, hphase, dropReportOf_eq]
        · simp only [headUses, hreq, hphase]
      · refine ⟨fun hphase => ?_, fun hphase => step (by rw [hphase]; exact nofun) ?_,
          fun hphase => step (by rw [hphase]; exact nofun) ?_⟩
        · have hempty : headUses e s = [] := by simp only [headUses, hreq, hphase]
          exact (step (by rw [hphase]; exact nofun) hempty).trans (if_pos rfl)
        · have hwithheld : writesWithheld s = decide (s.engine.activity = .retranslating) := by
            simp only [writesWithheld, hq, List.head?_cons, hreq, hphase]
          simp only [headUses, hreq, hphase, hwithheld, decide_eq_true_eq]
        · simp only [headUses, hreq, hphase]
  · intro w u us m x more a rest l works p pulls s next
    have ready (h : s.device.state = .ready) : ¬(s.device.state = .starting ∧ s.device.startup = .readHeader) := by simp [h]
    refine ⟨fun hw hleft => ⟨fun hu => engineTransaction_asks hw hleft hu, fun hu => ⟨?_, fun hlog => ?_⟩⟩,
      fun hw => ⟨engineTransaction_none hw _ _, fun hlog => (requestOf_log_engine hlog).trans (engineTransaction_none hw _ _)⟩,
      fun hlog => ?_, requestOf_pull_work, requestOf_pull_none, requestOf_headerRead, fun hstarting hsweep hq hw hleft => ?_,
      fun hready hw hleft => ?_, fun hready hw => ?_, fun hwork => ⟨fun hfree => ?_, fun hguard hchange => ?_⟩, requestOf_intake_none⟩
    · exact engineTransaction_other hw hleft (by rw [hu]; exact nofun)
    · exact (requestOf_log_engine hlog).trans (engineTransaction_asks hw hleft hu)
    · rw [requestOf_log_work hlog]
      cases l <;> rfl
    · have hopen : writesWithheld s = false := by simp only [writesWithheld, hq, List.head?_nil]
      rw [requestOf_maint (by simp [hsweep]), hopen, maintTransaction_asks hw hleft]
      rfl
    · refine ⟨fun hkept => ?_, fun hkept => ?_⟩
      · rw [requestOf_maint (ready hready), if_pos ((writesWithheld_iff s).mpr hkept)]
      · rw [requestOf_maint (ready hready), if_neg fun h => hkept ((writesWithheld_iff s).mp h), maintTransaction_asks hw hleft]
    · rw [requestOf_maint (ready hready), maintTransaction_none hw, ite_self]
    · refine requestOf_intake_work hwork ?_
      rw [Bool.and_eq_true, changesWait_iff]
      rintro ⟨hguard, b, hb⟩
      exact hfree.elim (fun h => Bool.false_ne_true (h.symm.trans hguard)) (fun h => h b hb)
    · exact requestOf_intake_held hwork (by rw [hguard, (changesWait_iff s).mpr hchange]; rfl)

end Sys2Proof.Proofs
end

section
/-! PROOFS. The head moves on: the table lock taken, a sweep started, and the answer of a GET (R129, R130, R139, R144). -/

namespace Sys2Proof.Proofs

open Sys2Proof.Machine

/-! ### The writes begin (R129, R130, R139) -/

section
variable {s : State} {e : MaintEntry} {rest : List MaintEntry}

/-- A PUT or a DROP takes the lock of an engine that is at no work. -/
theorem takeLock_eq (plan : Plan) (hq : s.maint.queue = e :: rest)
    (hactivity : s.engine.activity = .idle ∨ s.engine.activity = .waiting) : takeLock plan s =
      { s with
        dict := { s.dict with header := .writing }
        maint := ⟨{ e with phase := .writing plan } :: rest, true, false⟩
        engine := { s.engine with
          activity := if s.engine.changePending = true ∨ (∃ r, s.engine.request = some r ∧ r.phase = .pending) ∨
              s.journal.cursor ≤ s.journal.head then .waiting else .idle } } := by
  have hphase := setHeadPhase_cons (.writing plan) hq
  rw [takeLock, hphase, refreshActivity_eq]
  simp only [refreshed, setHeader, hactivity, if_true, true_and]

/-- A CLEAR TIER starts. -/
theorem startSweep_eq (t : TierId) (hq : s.maint.queue = e :: rest) : startSweep t s =
      { s with
        dict := { s.dict with
          header := .writing
          tiers := s.dict.tiers.set t { s.dict.tiers.get t with clearing := true } }
        maint := { s.maint with queue := { e with phase := .sweeping } :: rest }
        engine := { s.engine with
          changePending := true
          activity := if s.engine.activity = .idle ∨ s.engine.activity = .waiting then
              (if s.maint.lockHeld then .waiting else .idle)
            else s.engine.activity } } := by
  have hphase := setHeadPhase_cons (s := handChange (setClearing t true (setHeader .writing s))) .sweeping hq
  rw [startSweep, hphase, refreshActivity_eq]
  simp only [refreshed, handChange, setClearing, setHeader, true_or, and_true]
  rfl

/-- What the row of a head before its writes does, and what the grant of its header's write does. -/
structure WritesBegin (c : Instr) (t : State) (s : State) : Prop where
  row : exec c s = .next (if !writesWithheld s && maintAlone s then headerMade t else s)
  memory : t.memory = s.memory

/-- The row begins the writes with nobody else asking, and changes nothing during a transaction. -/
theorem WritesBegin.made {c : Instr} {t : State} (h : WritesBegin c t s) (hfree : writesWithheld s = false) (hm : MemoryQuiet s) :
    exec c s = .next { t with memory := afterGrants .maint s.memory } := by
  have halone : maintAlone s = true := by
    obtain ⟨h1, h2, h3, h4, h5, -⟩ := hm
    simp [maintAlone, memoryFree, h1, h2, h3, h4, h5]
  rw [h.row, hfree, halone, ← headerMade_quiet hm h.memory]
  rfl

theorem WritesBegin.busy {c : Instr} {t : State} (h : WritesBegin c t s) (hbusy : s.memory.inProgress ≠ none) :
    exec c s = .next s := by
  have hnot : maintAlone s = false := by
    simp [maintAlone, memoryFree, Option.isNone_eq_false_iff, Option.isSome_iff_ne_none, hbusy]
  rw [h.row, hnot, Bool.and_false]
  rfl

theorem WritesBegin.withheld {c : Instr} {t : State} (h : WritesBegin c t s) (hwithheld : writesWithheld s = true) :
    exec c s = .next s := by
  rw [h.row, hwithheld]
  rfl

/-- The unit alone asks for the header's write, and with its grant the writes begin (R183; log entry 17). -/
theorem grant_header (hready : s.device.state = .ready) (hm : MemoryQuiet s) (ha : ArbiterSound s)
    (hfree : writesWithheld s = false) (huses : maintUses s = [.header .writing]) : ∃ w,
      exec (.memoryGrant ⟨false, true, false⟩) s = .next (writesBegin
        { s with memory := { afterGrants .maint s.memory with
            inProgress := some ⟨.maint, .header, .maint⟩
            maintWork := w } }) := by
  obtain ⟨hidle, hintake, hlog, hpull, hengine, hmaint⟩ := hm
  obtain ⟨hperm, -⟩ := ha
  let u : State := { s with memory := { s.memory with maintWork := some (begunStep s) } }
  have hpresented : presentMaint s = u := by
    rw [presentMaint, hmaint, huses]
    rfl
  have hheader : ¬(u.device.state = .starting ∧ u.device.startup = .readHeader) := by
    rw [show u.device = s.device from rfl, hready]
    exact fun h => nomatch h.1
  have htx : requestOf u .maint = some ⟨.maint, .header, .maint⟩ := by
    rw [requestOf_maint hheader, show writesWithheld u = writesWithheld s from rfl, hfree]
    exact maintTransaction_asks (s := u) rfl huses
  have halone : ∀ q, q ≠ .maint → requestOf u q = none := by
    intro q hq
    cases q with
    | maint => exact absurd rfl hq
    | intake => exact requestOf_intake_none hintake
    | pull => exact requestOf_pull_none hpull
    | xlate => exact engineTransaction_none (s := u) hengine _ _
    | log => exact (requestOf_log_engine (s := u) hlog).trans (engineTransaction_none (s := u) hengine _ _)
  have hin : MemRequester.maint ∈ u.memory.order := hperm.mem_iff.mpr (by decide)
  have hgrant := grant_alone (s := u) (r := .maint) hidle (by decide) hin htx halone
  have hrow : memoryGrants ⟨false, true, false⟩ s = begunWith (grant u) := by
    rw [memoryGrants, hidle, ← hpresented]
    rfl
  refine ⟨some (begunStep s), congrArg _ (hrow.trans ?_)⟩
  rw [hgrant]
  rfl

/-- A lock taken, or a sweep started, by its row and by the grant of the header's write: the parts of O38 that both share. -/
theorem WritesBegin.both {c : Instr} {t : State} (h : WritesBegin c t s) (hready : s.device.state = .ready) (ha : ArbiterSound s)
    (hfree : writesWithheld s = false) (huses : maintUses s = [.header .writing])
    {report : List Byte} {uses : List MaintUse}
    (hgrant : ∀ m : Memory, ∃ tiers, writesBegin { s with memory := m } =
      { t with memory := { m with maintWork := some ⟨tiers, report, 0, .header .writing :: uses⟩ } }) :
    (MemoryQuiet s → exec c s = .next { t with memory := afterGrants .maint s.memory } ∧
      ∃ w : MaintWork, w.report = report ∧ w.removed = 0 ∧ w.left = .header .writing :: uses ∧
        exec (.memoryGrant ⟨false, true, false⟩) s = .next { t with
          memory := { afterGrants .maint s.memory with inProgress := some ⟨.maint, .header, .maint⟩, maintWork := some w } }) ∧
    (s.memory.inProgress ≠ none → exec c s = .next s) := by
  refine ⟨fun hm => ⟨h.made hfree hm, ?_⟩, h.busy⟩
  obtain ⟨w, hexec⟩ := grant_header hready hm ha hfree huses
  obtain ⟨tiers, hbegin⟩ := hgrant
    { afterGrants .maint s.memory with inProgress := some ⟨.maint, .header, .maint⟩, maintWork := w }
  exact ⟨⟨tiers, report, 0, .header .writing :: uses⟩, rfl, rfl, rfl, hexec.trans (congrArg _ hbegin)⟩

/-- The step of a head that has just begun its writes. -/
theorem askWrites_eq {t : State} {f : MaintEntry} {report : List Byte} {uses : List MaintUse} (hready : t.device.state = .ready)
    (hq : t.maint.queue = f :: rest) (huses : headUses f t = uses) (hreport : headReport t = report) :
    askWrites t = { t with memory := { t.memory with
      maintWork := some ⟨tiersRead t, report, 0, .header .writing :: uses⟩ } } := by
  rw [askWrites, begunStep, maintUses_head hready hq, huses, hreport]
  rfl

/-- The row of a PUT or a DROP in LOCK WAIT. -/
theorem lock_begins {plan : Plan} (hready : s.device.state = .ready) (hq : s.maint.queue = e :: rest)
    (hphase : e.phase = .lockWait plan) : WritesBegin .tableLockTake (takeLock plan s) s where
  row := by
    have hrow : tableLockTakes s = if !writesWithheld s && maintAlone s then headerMade (takeLock plan s) else s := by
      simp only [tableLockTakes, headOf_cons hready hq, hphase]
    exact congrArg _ hrow
  memory := by
    obtain ⟨_, h⟩ := takeLock_shape plan s
    rw [h]

/-- The row of a CLEAR TIER whose checks have passed. -/
theorem sweep_begins {t : TierId} (hready : s.device.state = .ready) (hq : s.maint.queue = e :: rest)
    (hreq : e.request = .clearTier t) (hphase : e.phase = .checking true) : WritesBegin .clearTierStart (startSweep t s) s where
  row := by
    have hrow : clearTierStarts s = if !writesWithheld s && maintAlone s then headerMade (startSweep t s) else s := by
      simp only [clearTierStarts, headOf_cons hready hq, hreq, hphase]
    exact congrArg _ hrow
  memory := by
    obtain ⟨_, h⟩ := startSweep_shape t s
    rw [h]

end

/-! ### GET_ANSWER (R144) -/

theorem bestReads_nil_iff (slots : List (Nat × Slot)) (tiers : List TierId) (cs : List Chord) :
    bestReads slots tiers cs = [] ↔ tiers = [] := by
  cases tiers with
  | nil => exact ⟨fun _ => rfl, fun _ => rfl⟩
  | cons l rest =>
    refine ⟨fun h => absurd (List.append_eq_nil_iff.mp h).1 (lookupReads_ne slots l cs), nofun⟩

/-- A GET reads nothing for ANY with no tier in force alone. -/
theorem getReads_nil_iff (tier : Option TierId) (cs : List Chord) (s : State) :
    slotReads (getReads tier cs s) = [] ↔ tier = none ∧ tiersRead s = [] := by
  rw [slotReads, List.map_eq_nil_iff]
  cases tier with
  | none => simp only [getReads, bestReads_nil_iff, visibleTiers_eq, true_and]
  | some t => simp only [getReads, lookupReads_ne, reduceCtorEq, false_and]

/-- The report of a record found, as R162 lays it out. -/
theorem getReport_eq (n : SlotNo) (r : Record) : getReport n r = [BitVec.ofNat 8 r.tier.val] ++ leBytes 4 n.toNat ++
    [match r.content with
      | .text .. => 0#8
      | .command _ => 1#8
      | .stem => 2#8] ++
    strokesLayout r.strokes ++ leBytes 4 r.extensions ++
    (match r.content with
      | .text text flags => [BitVec.ofNat 8 flags.code, BitVec.ofNat 8 text.length] ++ text
      | .command .paragraph => [0#8]
      | .command (.speaker a) => [1#8, BitVec.ofNat 8 a.val]
      | .command .capsOn => [2#8]
      | .command .capsOff => [3#8]
      | .stem => []) := by
  obtain ⟨tier, strokes, content, extensions⟩ := r
  cases content with
  | text text flags => rfl
  | stem => rfl
  | command c => cases c <;> rfl

section
variable {s : State} {e : MaintEntry} {rest : List MaintEntry}

/-- The reads of a GET are made, in its row or one by one before. -/
theorem exec_getAnswer {tier : Option TierId} {cs : List Chord} {b : Bool} {tiers : List TierId} {memory : Memory}
    (hready : s.device.state = .ready) (hq : s.maint.queue = e :: rest) (hreq : e.request = .get tier cs)
    (hphase : e.phase = .checking b)
    (h : (MemoryQuiet s ∧ tiers = tiersRead s ∧
        memory = (if tier = none ∧ tiersRead s = [] then s.memory else afterGrants .maint s.memory)) ∨
      ∃ w, s.memory.maintWork = some w ∧ w.left = [] ∧ tiers = w.tiers ∧ memory = { s.memory with maintWork := none }) :
    exec .getAnswer s = .next (finishHead e (getReply (getFinds tiers tier cs s)) { s with memory := memory }) := by
  let act (w : MaintWork) (s : State) : State := finishHead e (getReply (getFinds w.tiers tier cs s)) s
  have hrow : getAnswers s = maintStep act s := by simp only [getAnswers, headOf_cons hready hq, hreq, hphase]; rfl
  refine congrArg _ (hrow.trans ?_)
  rcases h with ⟨hm, rfl, rfl⟩ | ⟨w, hw, hleft, rfl, rfl⟩
  · have huses : maintUses s = slotReads (getReads tier cs s) := by
      simp only [maintUses_head hready hq, headUses, hreq, hphase]
    rw [maintStep_reads hm (huses ▸ readsLeft_slotReads _), huses]
    simp only [getReads_nil_iff]
    rfl
  · rw [maintStep_made hw hleft]
    rfl

end

/-- The writes that a PUT or a DROP begins with the lock. -/
theorem headUses_writing (f : MaintEntry) (plan : Plan) (s : State) : headUses { f with phase := .writing plan } s =
    match plan with
    | .put q => writeUses q.writes ++ [.header .consistent]
    | .drop q => dropUses s.dict.slots q ++ [.header .consistent] := by
  obtain ⟨port, request, phase⟩ := f
  cases request <;> cases plan <;> rfl

/-- Settles O38: the rows and the grant begin the writes alike; a GET is answered from its reads. -/
theorem headMovesOn : Obligations.HeadMovesOn := by
  unfold Obligations.HeadMovesOn
  intro e rest k tag s hready hq hslot harb begins
  have hhead : s.maint.queue.head? = some e := by rw [hq]; rfl
  refine ⟨fun plan hphase => ⟨fun hactivity => ?_, fun hkept => ?_⟩, fun t hreq hphase => ⟨fun hactivity => ?_, fun hretrans => ?_⟩,
    fun w hw hleft hbusy => ?_, ?_⟩
  · let T : State := { s with
      dict := { s.dict with header := .writing }
      maint := ⟨{ e with phase := .writing plan } :: rest, true, false⟩
      engine := { s.engine with
        activity := if s.engine.changePending = true ∨ (∃ r, s.engine.request = some r ∧ r.phase = .pending) ∨
            s.journal.cursor ≤ s.journal.head then .waiting else .idle } }
    have htake : takeLock plan s = T := takeLock_eq plan hq hactivity
    have hrow : WritesBegin .tableLockTake T s := htake ▸ lock_begins hready hq hphase
    by_cases hchanges : ∃ b, .change b ∈ s.memory.logWork
    · have hwithheld : writesWithheld s = true := (writesWithheld_iff s).mpr ⟨e, hhead, .inl ⟨⟨plan, hphase⟩, .inr hchanges⟩⟩
      refine ⟨fun hm => absurd hchanges ?_, hrow.busy⟩
      rw [hm.2.2.1]
      exact fun ⟨b, hb⟩ => nomatch hb
    · have hfree : writesWithheld s = false := by
        refine Bool.eq_false_iff.mpr fun h => ?_
        obtain ⟨x, hx, ⟨-, hbusy | hwait⟩ | ⟨-, hchecking, -⟩⟩ := (writesWithheld_iff s).mp h
        · exact hactivity.elim hbusy.1 hbusy.2
        · exact hchanges hwait
        · cases hhead.symm.trans hx
          rw [hphase] at hchecking
          cases hchecking
      have huses : maintUses s = [.header .writing] := by
        obtain ⟨port, request, phase⟩ := e
        subst hphase
        rw [maintUses_head hready hq]
        cases request <;> simp only [headUses, hfree, Bool.false_eq_true, if_false]
      have hgrant (m : Memory) {report : List Byte} {uses : List MaintUse}
          (hu : headUses { e with phase := .writing plan } { T with memory := m } = uses)
          (hr : headReport { T with memory := m } = report) : ∃ tiers, writesBegin { s with memory := m } =
            { T with memory := { m with maintWork := some ⟨tiers, report, 0, .header .writing :: uses⟩ } } := by
        have hbegin : writesBegin { s with memory := m } = askWrites (takeLock plan { s with memory := m }) := by
          simp only [writesBegin, headOf_cons (s := { s with memory := m }) hready hq, hphase]
        rw [hbegin, takeLock_eq (s := { s with memory := m }) plan hq hactivity]
        exact ⟨_, askWrites_eq (t := { T with memory := m }) hready rfl hu hr⟩
      have hreport (m : Memory) : headOf { T with memory := m } = some { e with phase := .writing plan } :=
        headOf_cons (s := { T with memory := m }) hready rfl
      cases plan with
      | put q =>
        refine hrow.both hready harb hfree huses fun m => hgrant m (headUses_writing e (.put q) _) ?_
        simp only [headReport, hreport m, putReport_eq]
      | drop q =>
        refine hrow.both hready harb hfree huses fun m => hgrant m (headUses_writing e (.drop q) _) ?_
        simp only [headReport, hreport m, dropReportOf_eq]
        rfl
  · refine (lock_begins hready hq hphase).withheld ((writesWithheld_iff s).mpr ⟨e, hhead, .inl ⟨⟨plan, hphase⟩, ?_⟩⟩)
    rcases hkept with hchanges | hresolving | hretrans
    · exact .inr hchanges
    · exact .inl (by simp [hresolving])
    · exact .inl (by simp [hretrans])
  · let T : State := { s with
      dict := { s.dict with
        header := .writing
        tiers := s.dict.tiers.set t { s.dict.tiers.get t with clearing := true } }
      maint := { s.maint with queue := { e with phase := .sweeping } :: rest }
      engine := { s.engine with
        changePending := true
        activity := if s.engine.activity = .idle ∨ s.engine.activity = .waiting then
            (if s.maint.lockHeld then .waiting else .idle)
          else s.engine.activity } }
    have hstart : startSweep t s = T := startSweep_eq t hq
    have hrow : WritesBegin .clearTierStart T s := hstart ▸ sweep_begins hready hq hreq hphase
    have hfree : writesWithheld s = false := by
      simp only [writesWithheld, hhead, hreq, hphase, hactivity, decide_false]
    have huses : maintUses s = [.header .writing] := by
      simp only [maintUses_head hready hq, headUses, hreq, hphase, hfree, Bool.false_eq_true, if_false]
    refine hrow.both hready harb hfree huses fun m => ?_
    have hbegin : writesBegin { s with memory := m } = askWrites (startSweep t { s with memory := m }) := by
      simp only [writesBegin, headOf_cons (s := { s with memory := m }) hready hq, hreq, hphase]
    have hnot : ∀ plan, ({ e with phase := .sweeping } : MaintEntry).phase ≠ .writing plan := nofun
    rw [hbegin, startSweep_eq (s := { s with memory := m }) t hq]
    refine ⟨_, askWrites_eq (t := { T with memory := m }) (f := { e with phase := .sweeping }) hready rfl ?_
      (headReport_nil (s := { T with memory := m }) hready rfl hnot)⟩
    simp only [headUses, hreq]
  · refine (sweep_begins hready hq hreq hphase).withheld ?_
    exact (writesWithheld_iff s).mpr ⟨e, hhead, .inr ⟨⟨t, hreq⟩, hphase, hretrans⟩⟩
  · have hrow : getAnswers s = s := by
      simp only [getAnswers, headOf_cons hready hq]
      split
      · exact maintStep_waits hw hleft hbusy
      · rfl
    exact congrArg _ hrow
  · intro tier cs b found tiers memory hreq hphase hmade hfound
    have hfinds : getFinds tiers tier cs s = found := by
      rw [hfound]
      cases tier <;> rfl
    have hanswer := exec_getAnswer hready hq hreq hphase hmade
    rw [hfinds] at hanswer
    refine hanswer.trans (congrArg _ ?_)
    cases found with
    | none => exact finishHead_cons (s := { s with memory := memory }) _ hq hslot
    | some x =>
      obtain ⟨n, r⟩ := x
      simp only [getReply, getReport_eq]
      exact finishHead_cons (s := { s with memory := memory }) _ hq hslot

end Sys2Proof.Proofs
end

section
/-! PROOFS. The rows of the engine's works with nobody else asking for entry memory (R40, R53, R54, R60, R62, R183): what a row
makes, and the settles. -/

namespace Sys2Proof.Proofs

open Sys2Proof.Machine

/-! ### A row that may begin its work -/

section
variable {s : State}

theorem workAllowed_free (hfree : EngineFree s) (hm : MemoryQuiet s) : WorkAllowed s := by
  obtain ⟨hready, hidle, hlock, hturn⟩ := hfree
  refine ⟨hready, hidle, hturn, fun hheld => absurd (hlock.symm.trans hheld) Bool.false_ne_true, fun b hb => ?_⟩
  rw [hm.2.2.1] at hb
  cases hb

theorem nothingPending (hnothing : NothingBefore s) : ∀ r, s.engine.request = some r → r.phase ≠ .pending := by
  intro r hr
  rw [hnothing.2] at hr
  cases hr

/-- A row whose work is ready makes it to its end. -/
theorem engineRow_ready {k : WorkKind} (hm : MemoryQuiet s) (h : WorkReady s k) :
    engineRow k s = workEnds (finishWork 5 (opened k s)).1 (finishWork 5 (opened k s)).2 :=
  engineRow_quiet hm ((mayBegin_iff s k).mpr h)

/-- A row whose work is not ready changes nothing. -/
theorem engineRow_unready {k : WorkKind} (hm : MemoryQuiet s) (h : ¬WorkReady s k) : engineRow k s = s :=
  engineRow_idle hm.2.2.2.2.1 (Bool.eq_false_iff.mpr fun hb => h ((mayBegin_iff s k).mp hb))

/-- A work ends with the engine IDLE and the lock FREE: the turn at the lock is all that moves. -/
theorem endWork_dropped (hidle : s.engine.activity = .idle) (hlock : s.maint.lockHeld = false) (hnone : s.memory.engineWork = none) :
    endWork (dropWork s) = workEnded s := by
  rw [dropWork_quiet hnone (by rw [hidle]; exact nofun), endWork_free hidle hlock]

end

/-! ### A settle made (R54) -/

/-- The grants of a settle: LOG's, where it has a unit to promote. -/
def settleGrants (s : State) : List MemRequester := if ∀ u ∈ s.engine.units, u.settled = true then [] else [.log]

theorem settleUses_nil_iff (s : State) : settleUses s = [] ↔ ∀ u ∈ s.engine.units, u.settled = true := by
  simp [settleUses, provisionalListed, List.filter_eq_nil_iff]

/-- The state with the settle that a work of that kind asks for made, and the grants of that. -/
def settledFor (k : WorkKind) (s : State) : State := if settleDue s k then settledRun s else s

def grantsFor (k : WorkKind) (s : State) : List MemRequester := if settleDue s k then settleGrants s else []

theorem grantsFor_log (k : WorkKind) (s : State) : ∀ r ∈ grantsFor k s, r = .log := by
  intro r hr
  rw [grantsFor, settleGrants] at hr
  split at hr
  · split at hr
    · cases hr
    · exact List.mem_singleton.mp hr
  · cases hr

/-- A work comes to its settle and makes it. -/
theorem settling_settled (n : Nat) (w : EngineWork) (s : State) : finishWork (n + 1) (toSettling w s) =
    finishWork n (leaveStage { w with stage := .settling, left := [] }
      { settledFor w.kind s with memory := servedAlone s.memory (grantsFor w.kind s) }) := by
  have hgrants : (if settleDue s w.kind = true ∧ settleUses s ≠ [] then [MemRequester.log] else []) = grantsFor w.kind s := by
    by_cases hdue : settleDue s w.kind = true
    · rw [grantsFor, if_pos hdue, settleGrants]
      by_cases hall : ∀ u ∈ s.engine.units, u.settled = true
      · rw [if_pos hall, if_neg fun h => h.2 ((settleUses_nil_iff s).mpr hall)]
      · rw [if_neg hall, if_pos ⟨hdue, fun h => hall ((settleUses_nil_iff s).mp h)⟩]
    · rw [grantsFor, if_neg hdue, if_neg fun h => hdue h.1]
  rw [settling_made, hgrants, settleRun_eq]
  rfl

/-- A work that is only a settle is then at its end. -/
theorem finishWork_settle {w : EngineWork} (s : State)
    (hk : w.kind = .expiry ∨ w.kind = .closeSettle ∨ w.kind = .retranslationStart) : finishWork 5 (toSettling w s) =
      ({ w with stage := .ending 0 0, left := [] },
        { settledFor w.kind s with memory := servedAlone s.memory (grantsFor w.kind s) }) := by
  have hlast (x : State) : leaveStage { w with stage := .settling, left := [] } x =
      ({ w with stage := .ending 0 0, left := [] }, x) := by
    show afterSettle { w with stage := .settling, left := [] } x = _
    obtain ⟨kind, tiers, shown, stage, left⟩ := w
    rcases hk with rfl | rfl | rfl <;> rfl
  rw [settling_settled, hlast, finishWork_last rfl, stageMade_eq]
  rfl

/-- Settling by expiry keeps the session, the lock and the journal. -/
theorem settledFor_activity (k : WorkKind) (s : State) : (settledFor k s).engine.activity = s.engine.activity := by
  rw [settledFor]
  split
  · rfl
  · rfl

theorem settledFor_maint (k : WorkKind) (s : State) : (settledFor k s).maint = s.maint := by
  rw [settledFor]
  split
  · rfl
  · rfl

theorem madeBy_settle (s : State) : madeBy (settleGrants s) s.memory = servedAlone s.memory (settleGrants s) := by
  refine madeBy_eq (fun r hr => ?_) _
  rw [settleGrants] at hr
  split at hr
  · cases hr
  · rw [List.mem_singleton.mp hr]
    exact nofun

/-! ### EXPIRY and CLOSE_SETTLE (R54, R55, R62, R152) -/

theorem closeWaits_iff (s : State) : closeWaits s = true ↔
    (∃ p, s.session.request = .closeInProgress p false) ∧ s.memory.intakeWork = [] := by
  rw [closeWaits]
  cases s.session.request with
  | none => simp
  | openInProgress => simp
  | closeInProgress p settled => cases settled <;> simp

/-- The settle by expiry of a run that is due. -/
theorem engineRow_expiry {s : State} (hfree : EngineFree s) (hm : MemoryQuiet s) (h : WorkReady s .expiry) :
    engineRow .expiry s = workEnded { settledRun s with memory := madeBy (settleGrants s) s.memory } := by
  obtain ⟨hready, hidle, hlock, hturn⟩ := hfree
  rw [engineRow_ready hm h, madeBy_settle]
  have hmade := finishWork_settle (w := newWork .expiry s) s (.inl rfl)
  rw [show opened .expiry s = toSettling (newWork .expiry s) s from rfl, hmade]
  exact endWork_dropped (s := { settledRun s with memory := servedAlone s.memory (settleGrants s) }) hidle hlock
    ((served_engineWork _ _).trans hm.2.2.2.2.1)

/-- The settle of a CLOSE, with END then to be appended. -/
theorem engineRow_closeSettle {s : State} {p : PortId} (hfree : EngineFree s) (hm : MemoryQuiet s) (h : WorkReady s .closeSettle)
    (hrequest : s.session.request = .closeInProgress p false) : engineRow .closeSettle s = workEnded
      { settledRun s with
        session := { s.session with request := .closeInProgress p true }
        memory := { madeBy (settleGrants s) s.memory with logWork := [.endAppend] } } := by
  obtain ⟨hready, hidle, hlock, hturn⟩ := hfree
  obtain ⟨_, _, hserved⟩ := servedAlone_shape (settleGrants s) s.memory
  let x : State := { settledRun s with memory := servedAlone s.memory (settleGrants s) }
  have hnone : x.memory.engineWork = none := (served_engineWork _ _).trans hm.2.2.2.2.1
  have hlog : x.memory.logWork = [] := by
    show (servedAlone s.memory (settleGrants s)).logWork = []
    rw [hserved]
    exact hm.2.2.1
  have hends : closeSettled x = endWork (askEnd p x) := by
    have hx : x.session.request = .closeInProgress p false := hrequest
    simp only [closeSettled, hx]
  have hasked : askEnd p x = { x with
      session := { s.session with request := .closeInProgress p true }
      memory := { x.memory with logWork := [.endAppend] } } := by
    rw [askEnd, hlog]
    rfl
  have hmade := finishWork_settle (w := newWork .closeSettle s) s (.inr (.inl rfl))
  rw [engineRow_ready hm h, madeBy_settle, show opened .closeSettle s = toSettling (newWork .closeSettle s) s from rfl, hmade]
  show closeSettled (dropWork x) = _
  rw [dropWork_quiet hnone (by rw [show x.engine.activity = _ from hidle]; exact nofun), hends, hasked]
  exact endWork_free hidle hlock

/-- Settles O50: the two settles, ready or not, and the order of the two. -/
theorem expiryAndCloseSettle : Obligations.ExpiryAndCloseSettle := by
  unfold Obligations.ExpiryAndCloseSettle
  intro t p s hfree hnothing hm hcursor made
  have hallowed := workAllowed_free hfree hm
  have hpending := nothingPending hnothing
  have expires_open {first : Bool} (h : first = true ∨ ¬∃ q, s.session.request = .closeInProgress q false) :
      exec (.expiry first) s = .next (engineRow .expiry s) := by
    refine congrArg _ (if_neg ?_)
    simp only [Bool.and_eq_true, closeWaits_iff, Bool.not_eq_true']
    rintro ⟨⟨-, hcloses, -⟩, hfirst⟩
    rcases h with h | h
    · exact Bool.false_ne_true (hfirst.symm.trans h)
    · exact h hcloses
  have unready {first : Bool} (h : ¬WorkReady s .expiry) : exec (.expiry first) s = .next s := by
    have hrow := engineRow_unready hm h
    have hsame : expires first s = s := by
      rw [expires, hrow, ite_self]
    exact congrArg _ hsame
  refine ⟨fun first horder hrun htaken hpast => ?_, fun first hrun => unready ?_, fun first htaken hbefore => unready ?_,
    fun hclose => ⟨?_, ?_⟩⟩
  · have hready : WorkReady s .expiry := ⟨hallowed, hnothing.1, hpending, hcursor, hrun, t, htaken, hpast⟩
    have hopen : first = true ∨ ¬∃ q, s.session.request = .closeInProgress q false :=
      horder.imp_right fun h ⟨q, hq⟩ => h q hq
    exact (expires_open hopen).trans (congrArg _ (engineRow_expiry hfree hm hready))
  · exact fun hready => hready.2.2.2.2.1 hrun
  · rintro ⟨-, -, -, -, -, u, hu, hpast⟩
    rw [htaken] at hu
    cases hu
    exact Nat.not_le.mpr hbefore hpast
  · have hwaits : closeWaits s = true := (closeWaits_iff s).mpr ⟨⟨p, hclose⟩, hm.2.1⟩
    have hsame : expires false s = s := by
      rw [expires, hwaits, hm.2.2.2.2.1]
      rfl
    exact congrArg _ hsame
  · have hready : WorkReady s .closeSettle := ⟨hallowed, hnothing.1, hpending, hcursor, hm.2.1, p, hclose⟩
    exact congrArg _ (engineRow_closeSettle hfree hm hready hclose)

end Sys2Proof.Proofs
end

section
/-! PROOFS. What the log's appends and a resolution neither read nor write, and the journal writes of a strike (R43 to R51, R106,
R108). -/

namespace Sys2Proof.Proofs

open Sys2Proof.Machine

/-! ### What the log's appends do not read

They read neither the journal nor the memory controller, neither the run, the settled format state nor the last taken stamp, so
these may be written before or after. -/

/-- What stands beside the unit list and the log. -/
structure Aside where
  journal : Journal
  memory : Memory
  run : List RunEntry
  format : FormatState
  lastTaken : Option Stamp

/-- What stands so in a state. -/
def asideOf (s : State) : Aside := ⟨s.journal, s.memory, s.engine.run, s.engine.format, s.engine.lastTaken⟩

/-- A state with other things beside its list and log. -/
def Aside.put (a : Aside) (s : State) : State :=
  { s with
    journal := a.journal
    memory := a.memory
    engine := { s.engine with run := a.run, format := a.format, lastTaken := a.lastTaken } }

/-- A change that reads and writes none of these. -/
def Apart (f : State → State) : Prop := ∀ (a : Aside) (s : State), f (a.put s) = a.put (f s)

/-- It leaves them as they are. -/
theorem Apart.keeps {f : State → State} (h : Apart f) (s : State) : asideOf (f s) = asideOf s := by
  have hself : f s = (asideOf s).put (f s) := h (asideOf s) s
  rw [hself]
  rfl

theorem Apart.comp {f g : State → State} (hf : Apart f) (hg : Apart g) : Apart (fun s => f (g s)) :=
  fun a s => (congrArg f (hg a s)).trans (hf a (g s))

theorem roomMade_apart : Apart roomMade := by
  intro a s
  by_cases h : s.log.segments.length < 4096
  · have hput : roomMade (a.put s) = a.put s := if_pos h
    have hroom : roomMade s = s := if_pos h
    rw [hput, hroom]
  · have hput : roomMade (a.put s) = _ := if_neg h
    have hroom : roomMade s = _ := if_neg h
    rw [hput, hroom]
    rfl

theorem segmentAppended_apart (body : SegmentBody) : Apart (segmentAppended body) := by
  intro a s
  rw [segmentAppended, roomMade_apart a s]
  rfl

theorem withdrawAppended_apart (k : SegNo) : Apart (withdrawAppended k) := by
  intro a s
  rw [withdrawAppended, roomMade_apart a s]
  rfl

theorem unitJoined_apart (q : NewUnit) : Apart (fun s => unitJoined s q) := by
  intro a s
  let body := SegmentBody.text s.engine.nextUnit q.text (decide (q.reading = .untranslated)) q.command q.stamp
    (if q.settled then .settled else .provisional)
  let s1 : State := { s with engine := { s.engine with
    units := if s.engine.units.length < 64 then s.engine.units else s.engine.units.eraseP (fun u => u.settled) } }
  have happended : segmentAppended body (a.put s1) = a.put (segmentAppended body s1) := segmentAppended_apart body a s1
  show unitJoined (a.put s) q = _
  have hleft : unitJoined (a.put s) q = { segmentAppended body (a.put s1) with engine := { (segmentAppended body (a.put s1)).engine with
      units := (segmentAppended body (a.put s1)).engine.units ++
        [⟨s.engine.nextUnit, q.strokes, q.reading, q.before, q.after, (segmentAppended body (a.put s1)).log.newest, q.settled⟩]
      nextUnit := if s.engine.nextUnit = 4294967295#32 then 1#32 else s.engine.nextUnit + 1#32 } } := rfl
  rw [hleft, happended]
  rfl

/-- So are the log's transactions of a work. -/
theorem carryUse_aside {u : Use} (h : u.requester = .log) : Apart (carryUse u) := by
  intro a s
  cases u with
  | record n => cases h
  | slot n => cases h
  | write w => cases h
  | promote g => rfl
  | turn g => rfl
  | withdraw k =>
    show appendWithdraw k (a.put s) = a.put (appendWithdraw k s)
    rw [appendWithdraw_eq, appendWithdraw_eq]
    exact withdrawAppended_apart k a s
  | text q => exact unitJoined_apart q a s

theorem carryUses_aside {us : List Use} (h : ∀ u ∈ us, u.requester = .log) : Apart (carryUses us) := by
  induction us with
  | nil => exact fun a s => rfl
  | cons u us ih =>
    have hrest := ih fun v hv => h v (List.mem_cons_of_mem _ hv)
    exact hrest.comp (carryUse_aside (h u (List.mem_cons_self ..)))

/-- The diff is such a change. -/
theorem diffed_apart (rebuilt : Bool) (stay old : List ListedUnit) (news : List NewUnit) (j : Nat) :
    Apart (diffed rebuilt stay old news j) := by
  intro a s
  rw [← carryUses_diff, ← carryUses_diff]
  exact carryUses_aside (diffUses_log old news j) a (keepUnits rebuilt stay old news j s)

/-- What else the log's appends leave as it is. -/
def Untouched (f : State → State) : Prop := ∀ s : State, (f s).maint = s.maint ∧ (f s).engine.activity = s.engine.activity ∧
  (f s).dict = s.dict ∧ (f s).session = s.session ∧ (f s).roster = s.roster ∧ (f s).ports = s.ports ∧ (f s).device = s.device ∧
  (f s).engine.request = s.engine.request ∧ (f s).engine.changePending = s.engine.changePending

theorem diffed_untouched (rebuilt : Bool) (stay old : List ListedUnit) (news : List NewUnit) (j : Nat) :
    Untouched (diffed rebuilt stay old news j) := by
  intro s
  have hcarried := carryUses_only (diffUses old news j) (keepUnits rebuilt stay old news j s)
  rw [carryUses_diff] at hcarried
  have hactivity := hcarried.activity
  have hrequest := hcarried.request
  have hchange := hcarried.change
  obtain ⟨_, _, _, _, hform⟩ := hcarried.form
  exact ⟨by rw [hform]; rfl, hactivity, by rw [hform]; rfl, by rw [hform]; rfl, by rw [hform]; rfl, by rw [hform]; rfl,
    by rw [hform]; rfl, hrequest, hchange⟩

/-! ### A resolution, whatever stands beside it -/

/-- A resolution goes the same with another journal, memory controller and last taken stamp, and leaves them. -/
theorem resolved_beside {tiers : List TierId} {s t : State} (h : Resolved tiers s t) (j : Journal) (m : Memory) (l : Option Stamp) :
    Resolved tiers { s with journal := j, memory := m, engine := { s.engine with lastTaken := l } }
      { t with journal := j, memory := m, engine := { t.engine with lastTaken := l } } := by
  obtain ⟨us, left, news, i, d, hforms, hrenders, hmatches, hd, ht⟩ := h
  refine ⟨us, left, news, i, { d with journal := j, memory := m, engine := { d.engine with lastTaken := l } }, hforms, hrenders,
    hmatches, ?_, ?_⟩
  · let a : Aside := ⟨j, m, s.engine.run, s.engine.format, l⟩
    have happly := diffed_apart false (s.engine.units.filter (fun u => u.settled)) (s.engine.units.filter (fun u => !u.settled))
      news i a s
    have hkeeps := (diffed_apart false (s.engine.units.filter (fun u => u.settled))
      (s.engine.units.filter (fun u => !u.settled)) news i).keeps s
    have hrun : d.engine.run = s.engine.run := by
      rw [hd]
      exact congrArg Aside.run hkeeps
    have hformat : d.engine.format = s.engine.format := by
      rw [hd]
      exact congrArg Aside.format hkeeps
    refine Eq.trans ?_ happly.symm
    rw [← hd]
    show _ = { d with journal := j, memory := m, engine := { d.engine with run := s.engine.run, format := s.engine.format, lastTaken := l } }
    rw [← hrun, ← hformat]
  · rw [ht]

/-- What a resolution leaves as it is. -/
theorem resolved_keeps {tiers : List TierId} {s t : State} (h : Resolved tiers s t) : t.journal = s.journal ∧ t.memory = s.memory ∧
    t.maint = s.maint ∧ t.engine.activity = s.engine.activity ∧ t.engine.lastTaken = s.engine.lastTaken := by
  obtain ⟨us, left, news, i, d, -, -, -, hd, rfl⟩ := h
  have hkeeps := (diffed_apart false (s.engine.units.filter (fun u => u.settled))
    (s.engine.units.filter (fun u => !u.settled)) news i).keeps s
  have huntouched := diffed_untouched false (s.engine.units.filter (fun u => u.settled))
    (s.engine.units.filter (fun u => !u.settled)) news i s
  rw [← hd] at hkeeps huntouched
  obtain ⟨hmaint, hactivity, -⟩ := huntouched
  exact ⟨congrArg Aside.journal hkeeps, congrArg Aside.memory hkeeps, hmaint, hactivity, congrArg Aside.lastTaken hkeeps⟩

/-! ### The diff of units none of which is old, or none new -/

/-- With no old unit the new ones join. -/
theorem diffed_joins (rebuilt : Bool) (stay : List ListedUnit) (news : List NewUnit) (s : State) :
    diffed rebuilt stay [] news 0 s = news.foldl unitJoined { s with engine := { s.engine with units := stay } } := by
  simp [diffed]

/-- With no new unit and one old, that one is withdrawn. -/
theorem diffed_withdraws (rebuilt : Bool) (stay : List ListedUnit) (o : ListedUnit) (s : State) :
    diffed rebuilt stay [o] [] 0 s =
      withdrawAppended (o.segment - 1#32) { s with engine := { s.engine with units := stay } } := by
  simp [diffed]

/-! ### The journal writes of a strike (R7, R8, R106) -/

/-- In a sound ring a record is rewritten by its number. -/
theorem modifyAt_map {j : Journal} (h : RingSound j) (n : Nat) (f : JournalRecord → JournalRecord) :
    j.modifyAt n f = { j with records := j.records.map (fun q => if q.seq = n then f q else q) } := by
  obtain ⟨-, -, -, -, hseqs⟩ := h
  have hlength : j.records.length = j.held := by
    have := congrArg List.length hseqs
    rwa [List.length_map, List.length_range'] at this
  have hseq (i : Nat) (q : JournalRecord) (hq : j.records[i]? = some q) : q.seq = j.oldest + i ∧ i < j.held := by
    have hlt : i < j.held := hlength ▸ (List.getElem?_eq_some_iff.mp hq).1
    have hget := congrArg (fun l => l[i]?) hseqs
    simp only [List.getElem?_map, hq, Option.map_some, List.getElem?_range' hlt, Nat.one_mul] at hget
    exact ⟨Option.some.inj hget, hlt⟩
  have hmap (p : Nat → JournalRecord → JournalRecord)
      (hp : ∀ i q, j.records[i]? = some q → p i q = if q.seq = n then f q else q) (l : List JournalRecord)
      (hl : ∀ i, l[i]? = (j.records[i]?).map (p i)) : l = j.records.map (fun q => if q.seq = n then f q else q) := by
    refine List.ext_getElem? fun i => ?_
    rw [hl, List.getElem?_map]
    cases hq : j.records[i]? with
    | none => rfl
    | some q => exact congrArg some (hp i q hq)
  rw [Journal.modifyAt]
  split
  · next hin =>
    have hlist := hmap (fun i q => if n - j.oldest = i then f q else q) (fun i q hq => by
      obtain ⟨hs, -⟩ := hseq i q hq
      rw [hs]
      by_cases hi : n - j.oldest = i
      · rw [if_pos hi, if_pos (by omega)]
      · rw [if_neg hi, if_neg (by omega)]) (j.records.modify (n - j.oldest) f) (fun i => by
        rw [List.getElem?_modify]
        cases j.records[i]? with
        | none => rfl
        | some q => rfl)
    rw [hlist]
  · next hout =>
    have hlist := hmap (fun _ q => q) (fun i q hq => by
      obtain ⟨hs, hlt⟩ := hseq i q hq
      rw [if_neg]
      rw [Journal.held] at hlt
      omega) j.records (fun i => by cases j.records[i]? <;> rfl)
    rw [← hlist]

/-- Rewriting in place keeps the ring sound. -/
theorem modifyAt_sound {j : Journal} (h : RingSound j) (n : Nat) (f : JournalRecord → JournalRecord) (hf : ∀ r, (f r).seq = r.seq) :
    RingSound (j.modifyAt n f) := by
  obtain ⟨hhead, holdest, hcursor, hseqs⟩ := modifyAt_ring j n f hf
  rw [RingSound, Journal.held, hhead, holdest, hcursor, hseqs]
  exact h

/-- The marks of a strike, one after another, mark the records of those numbers. -/
theorem marks_map (ns : List Nat) {j : Journal} (h : RingSound j) : RingSound ((ns.map JournalWrite.mark).foldl Journal.write j) ∧
    (ns.map JournalWrite.mark).foldl Journal.write j =
      { j with records := j.records.map (fun q => if q.seq ∈ ns then q.strike else q) } := by
  induction ns generalizing j with
  | nil => exact ⟨h, by simp⟩
  | cons n rest ih =>
    have hwrite : j.write (.mark n) = _ := modifyAt_map h n JournalRecord.strike
    obtain ⟨hsound, heq⟩ := ih (j := j.write (.mark n)) (modifyAt_sound h n _ strike_seq)
    refine ⟨hsound, ?_⟩
    rw [List.map_cons, List.foldl_cons, heq, hwrite]
    have hrecords : (j.records.map (fun q => if q.seq = n then q.strike else q)).map (fun q => if q.seq ∈ rest then q.strike else q) =
        j.records.map (fun q => if q.seq ∈ n :: rest then q.strike else q) := by
      rw [List.map_map]
      refine List.map_congr_left fun q _ => ?_
      have htwice : q.strike.strike = q.strike := by
        obtain ⟨_, kind, _, _, _⟩ := q
        cases kind <;> rfl
      by_cases hn : q.seq = n <;> by_cases hr : q.seq ∈ rest <;> simp [hn, hr, htwice]
    rw [hrecords]

/-- The journal after the writes of a strike (R106). -/
theorem strikeWrites_struckOut {j : Journal} (h : RingSound j) (n : Nat) (struck : List Nat) :
    (strikeWrites n struck).foldl Journal.write j = { j with records := struckOut n struck j.records } := by
  obtain ⟨hsound, hmarks⟩ := marks_map struck h
  have hlast : (strikeWrites n struck).foldl Journal.write j =
      ((struck.map JournalWrite.mark).foldl Journal.write j).modifyAt n (JournalRecord.aim struck) := by
    rw [strikeWrites, List.foldl_append]
    rfl
  rw [hlast, modifyAt_map hsound, hmarks]
  have hrecords : (j.records.map (fun q => if q.seq ∈ struck then q.strike else q)).map
      (fun q => if q.seq = n then q.aim struck else q) = struckOut n struck j.records := by
    rw [List.map_map, struckOut]
    refine List.map_congr_left fun q _ => ?_
    obtain ⟨seq, kind, chord, stamp, source⟩ := q
    cases kind with
    | stroke b =>
      have hmark : (if seq ∈ struck then JournalRecord.strike ⟨seq, .stroke b, chord, stamp, source⟩ else ⟨seq, .stroke b, chord, stamp, source⟩) =
          ⟨seq, .stroke (b || decide (seq ∈ struck)), chord, stamp, source⟩ := by
        by_cases hs : seq ∈ struck
        · simp [JournalRecord.strike, hs]
        · simp [hs]
      rw [Function.comp_apply, hmark]
      exact ite_self _
    | strike target =>
      have hmark : (if seq ∈ struck then JournalRecord.strike ⟨seq, .strike target, chord, stamp, source⟩ else ⟨seq, .strike target, chord, stamp, source⟩) =
          ⟨seq, .strike target, chord, stamp, source⟩ := ite_self _
      rw [Function.comp_apply, hmark]
      by_cases hn : seq = n
      · simp [JournalRecord.aim, hn]
      · simp [hn]
  rw [hrecords]

end Sys2Proof.Proofs
end

section
/-! PROOFS. The rows of a take, of a strike and of a re-resolution with nobody else asking: what each comes to, with its grants
(R53, R60, R61, R104 to R107, R183). -/

namespace Sys2Proof.Proofs

open Sys2Proof.Machine

/-! ### The grants of a row -/

/-- Grants one after another, in the words of Safety. -/
theorem madeBy_served {rs : List MemRequester} (h : ∀ r ∈ rs, r = .xlate ∨ r = .log) (m : Memory) :
    madeBy rs m = servedAlone m rs := by
  refine madeBy_eq (fun r hr => ?_) m
  rcases h r hr with rfl | rfl
  · exact nofun
  · exact nofun

theorem resolutionGrants_mem (tiers : List TierId) (run : List RunEntry) (s : State) :
    ∀ r ∈ resolutionGrants tiers run s, r = .xlate ∨ r = .log := by
  intro r hr
  simp only [resolutionGrants, List.mem_append] at hr
  rcases hr with hr | hr
  · split at hr
    · cases hr
    · exact .inl (List.mem_singleton.mp hr)
  · split at hr
    · cases hr
    · exact .inr (List.mem_singleton.mp hr)

theorem grantsFor_mem (k : WorkKind) (s : State) : ∀ r ∈ grantsFor k s, r = .xlate ∨ r = .log :=
  fun r hr => .inr (grantsFor_log k s r hr)

theorem append_mem {a b : List MemRequester} (ha : ∀ r ∈ a, r = .xlate ∨ r = .log) (hb : ∀ r ∈ b, r = .xlate ∨ r = .log) :
    ∀ r ∈ a ++ b, r = .xlate ∨ r = .log := fun r hr => (List.mem_append.mp hr).elim (ha r) (hb r)

/-! ### The settle of a work, whatever the memory controller is -/

theorem settledFor_memory (k : WorkKind) (s : State) (m : Memory) :
    settledFor k { s with memory := m } = { settledFor k s with memory := m } := by
  have hdue : settleDue { s with memory := m } k = settleDue s k := by cases k <;> rfl
  rw [settledFor, settledFor, hdue]
  cases settleDue s k with
  | true => rfl
  | false => rfl

theorem grantsFor_memory (k : WorkKind) (s : State) (m : Memory) : grantsFor k { s with memory := m } = grantsFor k s := by
  have hdue : settleDue { s with memory := m } k = settleDue s k := by cases k <;> rfl
  rw [grantsFor, grantsFor, hdue]
  rfl

theorem settledFor_journal (k : WorkKind) (s : State) : (settledFor k s).journal = s.journal := by
  rw [settledFor]
  split
  · rfl
  · rfl

/-- The headroom check of a work other than a take (R60, R113). -/
theorem settledFor_headroom {k : WorkKind} {bound : Nat} {s : State} (h : settleDue s k = headroomDue bound s) :
    settledFor k s = headroomed bound s := by
  rw [settledFor, h, headroomed_eq, settleRun_eq]

/-- The checks of a take (R53, R60). -/
theorem settledFor_take {k : WorkKind} {r : JournalRecord} {s : State} (h : settleDue s k = takeSettles s)
    (hrecord : s.journal.recordAt s.journal.cursor = some r) :
    settledFor k s = expiredBy s.session.hold r.stamp (headroomed 4089 s) := by
  rw [← takeSettles_eq (r := r) hrecord, settledFor, h, settleRun_eq]

/-- A take reads its record and makes its checks. -/
theorem finishWork_take {k : WorkKind} (s : State) (h : opened k s = beginTake (newWork k s) s) : finishWork 5 (opened k s) =
    finishWork 3 (leaveStage { newWork k s with stage := .settling, left := [] }
      { settledFor k s with memory := servedAlone s.memory ([.xlate] ++ grantsFor k s) }) := by
  rw [h, taking_made, settling_settled]
  show finishWork 3 (leaveStage { newWork k s with stage := .settling, left := [] }
    { settledFor k { s with memory := grantAlone s.memory .xlate } with
      memory := servedAlone (grantAlone s.memory .xlate) (grantsFor k { s with memory := grantAlone s.memory .xlate }) }) = _
  rw [settledFor_memory, grantsFor_memory]
  rfl

/-! ### The end of a take -/

/-- A take ends with the cursor past its record (R10). -/
theorem takeEnds {w : EngineWork} {t : State} {m : Memory} (hk : w.kind = .takeStroke ∨ w.kind = .takeStrike)
    (hidle : t.engine.activity = .idle) (hlock : t.maint.lockHeld = false) (hnone : m.engineWork = none) :
    workEnds w { t with memory := m } =
      workEnded { t with journal := { t.journal with cursor := t.journal.cursor + 1 }, memory := m } := by
  have hdrop : dropWork { t with memory := m } = { t with memory := m } :=
    dropWork_quiet hnone (fun h => by rw [show t.engine.activity = _ from h] at hidle; cases hidle)
  have hends : endWork (advanceCursor { t with memory := m }) = workEnded (advanceCursor { t with memory := m }) :=
    endWork_free hidle hlock
  rw [workEnds]
  rcases hk with hk | hk
  · rw [hk]
    show endWork (advanceCursor (dropWork { t with memory := m })) = _
    rw [hdrop, hends]
    rfl
  · rw [hk]
    show endWork (advanceCursor (dropWork { t with memory := m })) = _
    rw [hdrop, hends]
    rfl

/-- A resolution that a take comes to, and the take's end. -/
theorem takeResolves {w : EngineWork} {y : State} {run : List RunEntry} {n : Nat}
    (hk : w.kind = .takeStroke ∨ w.kind = .takeStrike) (hidle : y.engine.activity = .idle) (hlock : y.maint.lockHeld = false)
    (hnone : y.memory.engineWork = none) : ∃ t, Resolved w.tiers { y with engine := { y.engine with run := run } } t ∧
      workEnds (finishWork (n + 2) (toForming run w y)).1 (finishWork (n + 2) (toForming run w y)).2 =
        workEnded { t with
          journal := { y.journal with cursor := y.journal.cursor + 1 }
          memory := servedAlone y.memory (resolutionGrants w.tiers run y) } := by
  obtain ⟨t, w', hresolved, ⟨hkind, -⟩, hmade⟩ := forming_made n run w y
  obtain ⟨hjournal, -, hmaint, hactivity, -⟩ := (resolved_keeps hresolved)
  refine ⟨t, hresolved, ?_⟩
  rw [hmade]
  refine (takeEnds (w := w') (t := t) (hk.imp hkind.trans hkind.trans) (hactivity.trans hidle)
    ((congrArg Maintenance.lockHeld hmaint).trans hlock) ((served_engineWork _ _).trans hnone)).trans ?_
  rw [hjournal]

/-! ### TAKE_STROKE (R53) -/

/-- The state in which a STROKE record has joined the run. -/
def withRecord (r : JournalRecord) (s : State) : State :=
  { s with engine := { s.engine with
      run := s.engine.run ++ [⟨r.seq, r.chord, r.stamp⟩]
      lastTaken := some r.stamp } }

theorem engineRow_takeStroke {s : State} {r : JournalRecord} (hfree : EngineFree s) (hm : MemoryQuiet s)
    (hready : WorkReady s .takeStroke) (hrecord : s.journal.recordAt s.journal.cursor = some r) :
    ∃ t, Resolved (tiersRead s) (withRecord r (expiredBy s.session.hold r.stamp (headroomed 4089 s))) t ∧
      engineRow .takeStroke s = workEnded { t with
        journal := { s.journal with cursor := s.journal.cursor + 1 }
        memory := servedAlone s.memory ([.xlate] ++ grantsFor .takeStroke s ++ resolutionGrants (tiersRead s)
          (withRecord r (expiredBy s.session.hold r.stamp (headroomed 4089 s))).engine.run
          (expiredBy s.session.hold r.stamp (headroomed 4089 s))) } := by
  obtain ⟨-, hidle, hlock, -⟩ := hfree
  have hsettled := settledFor_take (k := .takeStroke) rfl hrecord
  have hactivity := settledFor_activity .takeStroke s
  have hmaint := settledFor_maint .takeStroke s
  have hjournal := settledFor_journal .takeStroke s
  rw [hsettled] at hactivity hmaint hjournal
  rw [engineRow_ready hm hready, finishWork_take (k := .takeStroke) s rfl, hsettled]
  generalize expiredBy s.session.hold r.stamp (headroomed 4089 s) = s0 at *
  let w : EngineWork := { newWork .takeStroke s with stage := .settling, left := [] }
  let x : State := { s0 with memory := servedAlone s.memory ([.xlate] ++ grantsFor .takeStroke s) }
  have hx : recordToTake x = some r := by
    show s0.journal.recordAt s0.journal.cursor = some r
    rw [hjournal, hrecord]
  have hforms : leaveStage w x = toForming (runWith r x.engine) w (noteTaken r.stamp x) := by
    show afterSettle w x = _
    rw [afterSettle, hx]
    rfl
  obtain ⟨t, hresolved, hends⟩ := takeResolves (w := w) (y := noteTaken r.stamp x) (run := runWith r x.engine) (n := 1) (.inl rfl)
    (hactivity.trans hidle) ((congrArg Maintenance.lockHeld hmaint).trans hlock)
    ((served_engineWork _ _).trans hm.2.2.2.2.1)
  have hbeside := resolved_beside hresolved s0.journal s0.memory (some r.stamp)
  have hlast := (resolved_keeps hresolved).2.2.2.2
  refine ⟨_, hbeside, ?_⟩
  rw [hforms, hends, servedAlone_append _ _ (resolutionGrants _ _ _), ← hjournal]
  show _ = workEnded { t with
    engine := { t.engine with lastTaken := some r.stamp }
    journal := { s0.journal with cursor := s0.journal.cursor + 1 }
    memory := _ }
  rw [show some r.stamp = t.engine.lastTaken from hlast.symm]
  rfl

/-! ### RE_RESOLUTION (R61) -/

theorem engineRow_reResolution {s : State} (hfree : EngineFree s) (hm : MemoryQuiet s) (hready : WorkReady s .reResolution) :
    ∃ t, Resolved (tiersRead s) (headroomed 4089 { s with engine := { s.engine with changePending := false } }) t ∧
      engineRow .reResolution s = workEnded { t with
        memory := servedAlone s.memory (grantsFor .reResolution (clearChange s) ++ resolutionGrants (tiersRead s)
          (headroomed 4089 (clearChange s)).engine.run (headroomed 4089 (clearChange s))) } := by
  obtain ⟨-, hidle, hlock, -⟩ := hfree
  have hsettled := settledFor_headroom (k := .reResolution) (bound := 4089) (s := clearChange s) rfl
  have hactivity := settledFor_activity .reResolution (clearChange s)
  have hmaint := settledFor_maint .reResolution (clearChange s)
  rw [hsettled] at hactivity hmaint
  have hopened : opened .reResolution s = toSettling (newWork .reResolution (clearChange s)) (clearChange s) := rfl
  have hmemory : (headroomed 4089 (clearChange s)).memory = s.memory := by
    rw [← hsettled, settledFor]
    split
    · rfl
    · rfl
  rw [engineRow_ready hm hready, hopened, settling_settled 4]
  show ∃ t, Resolved (tiersRead s) (headroomed 4089 (clearChange s)) t ∧ _
  rw [show settledFor (newWork .reResolution (clearChange s)).kind (clearChange s) = _ from hsettled]
  generalize headroomed 4089 (clearChange s) = s0 at *
  let w : EngineWork := { newWork .reResolution (clearChange s) with stage := .settling, left := [] }
  let x : State := { s0 with memory := servedAlone s.memory (grantsFor .reResolution (clearChange s)) }
  have hforms : leaveStage w x = toForming s0.engine.run w x := rfl
  obtain ⟨t, w', hresolved, ⟨hkind, -⟩, hmade⟩ := forming_made 2 s0.engine.run w x
  obtain ⟨-, -, htmaint, htactivity, htaken⟩ := (resolved_keeps hresolved)
  have hbeside := resolved_beside hresolved s0.journal s0.memory s0.engine.lastTaken
  have hstate : workEnds w' { t with memory := servedAlone x.memory (resolutionGrants w.tiers s0.engine.run x) } =
      workEnded { t with memory := servedAlone x.memory (resolutionGrants w.tiers s0.engine.run x) } := by
    rw [workEnds, hkind]
    exact endWork_dropped (htactivity.trans (hactivity.trans hidle))
      ((congrArg Maintenance.lockHeld (htmaint.trans hmaint)).trans hlock)
      ((served_engineWork _ _).trans ((served_engineWork _ _).trans hm.2.2.2.2.1))
  refine ⟨_, hbeside, ?_⟩
  have hjournal : t.journal = s0.journal := (resolved_keeps hresolved).1
  show workEnds (finishWork 4 (leaveStage w x)).1 (finishWork 4 (leaveStage w x)).2 = _
  rw [hforms, hmade, hstate, servedAlone_append _ _ (resolutionGrants _ _ _), ← hjournal, ← show t.engine.lastTaken = _ from htaken]
  rfl

end Sys2Proof.Proofs
end

section
/-! PROOFS. The take of a STRIKE record (R104 to R108): against nothing, against a settled unit, and against the run. -/

namespace Sys2Proof.Proofs

open Sys2Proof.Machine

/-! ### The journal writes of a strike -/

theorem carryUses_writes (ws : List JournalWrite) (s : State) :
    carryUses (ws.map .write) s = { s with journal := ws.foldl Journal.write s.journal } := by
  induction ws generalizing s with
  | nil => rfl
  | cons w rest ih => exact ih { s with journal := s.journal.write w }

/-- A write in place leaves the number, the stamp and the place of every record. -/
theorem recordAt_write {j : Journal} {c : Nat} {r : JournalRecord} (h : j.recordAt c = some r) (w : JournalWrite) :
    ∃ q, (j.write w).recordAt c = some q ∧ q.stamp = r.stamp := by
  have modified (n : Nat) (f : JournalRecord → JournalRecord) (hf : ∀ q, (f q).stamp = q.stamp) :
      ∃ q, (j.modifyAt n f).recordAt c = some q ∧ q.stamp = r.stamp := by
    rw [Journal.modifyAt]
    split
    · rw [Journal.recordAt] at h
      split at h
      · next hin =>
        refine ⟨if n - j.oldest = c - j.oldest then f r else r, ?_, ?_⟩
        · have hget : (j.records.modify (n - j.oldest) f)[c - j.oldest]? =
              some (if n - j.oldest = c - j.oldest then f r else r) := by
            rw [List.getElem?_modify, h]
            rfl
          rw [Journal.recordAt, if_pos hin, hget]
        · split
          · exact hf r
          · rfl
      · cases h
    · exact ⟨r, h, rfl⟩
  cases w with
  | mark n => exact modified n _ fun q => by rw [JournalRecord.strike]; split <;> rfl
  | target n struck => exact modified n _ fun q => by rw [JournalRecord.aim]; split <;> rfl

theorem recordAt_writes (ws : List JournalWrite) {j : Journal} {c : Nat} {r : JournalRecord} (h : j.recordAt c = some r) :
    ∃ q, (ws.foldl Journal.write j).recordAt c = some q ∧ q.stamp = r.stamp := by
  induction ws generalizing j r with
  | nil => exact ⟨r, h, rfl⟩
  | cons w rest ih =>
    obtain ⟨q, hq, hstamp⟩ := recordAt_write h w
    obtain ⟨p, hp, hstamp'⟩ := ih hq
    exact ⟨p, hp, hstamp'.trans hstamp⟩

theorem writes_cursor (ws : List JournalWrite) (j : Journal) : (ws.foldl Journal.write j).cursor = j.cursor := by
  induction ws generalizing j with
  | nil => rfl
  | cons w rest ih =>
    obtain ⟨_, hwrite, -⟩ := journalWrite_shape j w
    rw [List.foldl_cons, ih, hwrite]

/-- The grants of the journal writes: XLATE's, where there are any. -/
def writeGrants (ws : List JournalWrite) : List MemRequester := if ws = [] then [] else [.xlate]

/-- The state of a strike with its journal writes made and its record the last one taken. -/
def struckState (r : JournalRecord) (s s0 : State) : State :=
  { s0 with
    journal := (strikeJournalWrites r s0.engine).foldl Journal.write s.journal
    engine := { s0.engine with lastTaken := some r.stamp }
    memory := servedAlone s.memory ([.xlate] ++ grantsFor .takeStrike s ++ writeGrants (strikeJournalWrites r s0.engine)) }

/-- The work of a strike with its journal writes made. -/
def strikingWork (s : State) : EngineWork := { newWork .takeStrike s with stage := .striking, left := [] }

/-- A strike makes its checks and its journal writes (R104, R108). -/
theorem finishWork_strike {s : State} {r : JournalRecord} (hrecord : s.journal.recordAt s.journal.cursor = some r) :
    finishWork 5 (opened .takeStrike s) = finishWork 2 (strikeGoesOn (strikingWork s)
      (struckState r s (expiredBy s.session.hold r.stamp (headroomed 4089 s)))) := by
  have hsettled := settledFor_take (k := .takeStrike) rfl hrecord
  have hjournal := settledFor_journal .takeStrike s
  rw [finishWork_take (k := .takeStrike) s rfl, hsettled]
  rw [hsettled] at hjournal
  generalize expiredBy s.session.hold r.stamp (headroomed 4089 s) = s0 at *
  let ws := strikeJournalWrites r s0.engine
  let x : State := { s0 with memory := servedAlone s.memory ([.xlate] ++ grantsFor .takeStrike s) }
  let w1 : EngineWork := { newWork .takeStrike s with stage := .striking, left := ws.map .write }
  have hleave : leaveStage { newWork .takeStrike s with stage := .settling, left := [] } x = (w1, x) := by
    have hx : recordToTake x = some r := by
      show s0.journal.recordAt s0.journal.cursor = some r
      rw [hjournal, hrecord]
    show afterSettle { newWork .takeStrike s with stage := .settling, left := [] } x = _
    rw [afterSettle, hx]
    rfl
  let y : State := { x with
    journal := ws.foldl Journal.write s.journal
    memory := servedAlone x.memory (writeGrants ws) }
  have hmade : stageMade w1 x = (strikingWork s, y) := by
    have hgrants : stageGrants w1 = writeGrants ws := by
      simp only [stageGrants, writeGrants, w1, List.map_eq_nil_iff]
      rfl
    rw [stageMade_eq, show w1.left = ws.map .write from rfl, carryUses_writes, hgrants, show x.journal = s.journal from hjournal]
    rfl
  have hnoted : noteRecord y = struckState r s s0 := by
    obtain ⟨q, hq, hstamp⟩ := recordAt_writes ws hrecord
    have hy : recordToTake y = some q := by
      show (ws.foldl Journal.write s.journal).recordAt (ws.foldl Journal.write s.journal).cursor = some q
      rw [writes_cursor, hq]
    have htaken : noteRecord y = noteTaken q.stamp y := by rw [noteRecord, hy]
    rw [htaken, hstamp, struckState, servedAlone_append _ _ (writeGrants _)]
    rfl
  have hstriking : leaveStage (strikingWork s) y = strikeGoesOn (strikingWork s) (noteRecord y) := rfl
  rw [hleave, finishWork_next rfl, hmade, hstriking, hnoted]

/-! ### Against nothing (R107) -/

theorem headroomed_settled (bound : Nat) {s : State} (h : ∀ u ∈ s.engine.units, u.settled = true) : headroomed bound s = s := by
  have hnone : s.engine.units.filter (fun u => !u.settled) = [] := List.filter_eq_nil_iff.mpr fun u hu => by simp [h u hu]
  rw [headroomed, hnone]
  rfl

theorem expiredBy_emptyRun (hold : Nat) (stamp : Stamp) {s : State} (h : s.engine.run = []) : expiredBy hold stamp s = s := by
  rw [expiredBy]
  split
  · exact if_neg fun hx => hx.1 h
  · rfl

/-- The checks of a take ask for nothing with an empty run and no provisional unit. -/
theorem checks_idle {s : State} (hold : Nat) (stamp : Stamp) (hrun : s.engine.run = []) (hunits : ∀ u ∈ s.engine.units, u.settled = true) :
    expiredBy hold stamp (headroomed 4089 s) = s := by
  rw [headroomed_settled 4089 hunits, expiredBy_emptyRun hold stamp hrun]

/-- And nothing is granted for them. -/
theorem grantsFor_idle (k : WorkKind) {s : State} (hunits : ∀ u ∈ s.engine.units, u.settled = true) : grantsFor k s = [] := by
  rw [grantsFor, settleGrants, if_pos hunits, ite_self]

theorem workReady_strike {s : State} {r : JournalRecord} {target : Option (List Nat)} (hfree : EngineFree s)
    (hnothing : NothingBefore s) (hm : MemoryQuiet s) (hcursor : s.journal.cursor ≤ s.journal.head)
    (hrecord : s.journal.recordAt s.journal.cursor = some r) (hkind : r.kind = .strike target) : WorkReady s .takeStrike :=
  ⟨workAllowed_free hfree hm, hnothing.1, nothingPending hnothing, hcursor, r, target, hrecord, hkind⟩

/-- Settles O51: no target, nothing to resolve, and the record counts as taken. -/
theorem strikeWithoutTarget : Obligations.StrikeWithoutTarget := by
  unfold Obligations.StrikeWithoutTarget
  intro r target s hfree hnothing hm hcursor hrecord hkind hrun hunits
  have hready := workReady_strike hfree hnothing hm hcursor hrecord hkind
  have hsettled : ∀ u ∈ s.engine.units, u.settled = true := by
    rw [hunits]
    exact fun u hu => absurd hu List.not_mem_nil
  have hwrites : strikeJournalWrites r s.engine = [] := by
    simp only [strikeJournalWrites, strikeTarget, hrun, hunits, List.getLast?_nil]
  have hstruck : struckState r s s = { s with
      engine := { s.engine with lastTaken := some r.stamp }
      memory := afterGrants .xlate s.memory } := by
    rw [struckState, hwrites, grantsFor_idle _ hsettled, afterGrants_alone _ (by decide)]
    rfl
  have hgoes : strikeGoesOn (strikingWork s) (struckState r s s) =
      ({ strikingWork s with stage := .ending 0 0, left := [] }, struckState r s s) := by
    have hempty : (struckState r s s).engine.run = [] := hrun
    have hnone : (struckState r s s).engine.units.getLast? = none := by
      show s.engine.units.getLast? = none
      rw [hunits]
      rfl
    rw [strikeGoesOn, if_pos hempty, hnone]
  have hrow : engineRow .takeStrike s = workEnds { strikingWork s with stage := .ending 0 0, left := [] } (struckState r s s) := by
    rw [engineRow_ready hm hready, finishWork_strike hrecord, checks_idle _ _ hrun hsettled, hgoes, finishWork_last rfl, stageMade_eq]
    rfl
  have hends := takeEnds (w := { strikingWork s with stage := .ending 0 0, left := [] })
    (t := { s with engine := { s.engine with lastTaken := some r.stamp } }) (m := afterGrants .xlate s.memory) (.inr rfl)
    hfree.2.1 hfree.2.2.1 hm.2.2.2.2.1
  refine congrArg _ (hrow.trans ?_)
  rw [hstruck, hends]

/-! ### Against a settled unit (R106) -/

/-- Settles O52: the unit's strokes are struck out, one WITHDRAW is asked of the log, and the unit leaves the list. -/
theorem strikeAgainstUnit : Obligations.StrikeAgainstUnit := by
  unfold Obligations.StrikeAgainstUnit
  intro r target us u s hfree hnothing hm harb hsound hcursor hrecord hkind hrun hunits hus hu hne d
  have hready := workReady_strike hfree hnothing hm hcursor hrecord hkind
  have hsettled : ∀ v ∈ s.engine.units, v.settled = true := by
    rw [hunits]
    intro v hv
    rcases List.mem_append.mp hv with hv | hv
    · exact hus v hv
    · exact List.mem_singleton.mp hv ▸ hu
  have hwrites : strikeJournalWrites r s.engine = strikeWrites r.seq u.strokes := by
    simp only [strikeJournalWrites, strikeTarget, hrun, hunits, List.getLast?_nil, List.getLast?_concat]
  have hsome : strikeWrites r.seq u.strokes ≠ [] := List.append_ne_nil_of_right_ne_nil _ (List.cons_ne_nil _ _)
  let journal : Journal := { s.journal with records := struckOut r.seq u.strokes s.journal.records }
  let memory := servedAlone s.memory [.xlate, .xlate]
  have hstruck : struckState r s s = { s with
      journal := journal
      engine := { s.engine with lastTaken := some r.stamp }
      memory := memory } := by
    rw [struckState, hwrites, strikeWrites_struckOut ((journalSound_iff s).mp hsound), grantsFor_idle _ hsettled, writeGrants,
      if_neg hsome]
    rfl
  let w : EngineWork := { strikingWork s with stage := .ending 0 0, left := [.withdraw (u.segment - 1#32)] }
  let y : State := { struckState r s s with engine := { (struckState r s s).engine with units := us, format := u.before } }
  have hgoes : strikeGoesOn (strikingWork s) (struckState r s s) = (w, y) := by
    have hempty : (struckState r s s).engine.run = [] := hrun
    have hlast : (struckState r s s).engine.units.getLast? = some u := by
      show s.engine.units.getLast? = some u
      rw [hunits, List.getLast?_concat]
    have hfirst : (struckState r s s).engine.units.dropLast = us := by
      show s.engine.units.dropLast = us
      rw [hunits, List.dropLast_concat]
    rw [strikeGoesOn, if_pos hempty, hlast]
    show strikeUnit u (strikingWork s) (struckState r s s) = _
    rw [strikeUnit, hfirst]
  have hwithdrawn : withdrawAppended (u.segment - 1#32) y = { d with
      journal := journal
      engine := { d.engine with lastTaken := some r.stamp }
      memory := memory } := by
    let a : Aside := ⟨journal, memory, s.engine.run, u.before, some r.stamp⟩
    let z : State := { s with engine := { s.engine with units := us, format := u.before } }
    have hy : y = a.put z := by
      show { struckState r s s with engine := { (struckState r s s).engine with units := us, format := u.before } } = _
      rw [hstruck]
      rfl
    have hkeeps := (withdrawAppended_apart (u.segment - 1#32)).keeps z
    have hdrun : d.engine.run = s.engine.run := congrArg Aside.run hkeeps
    have hdformat : d.engine.format = u.before := congrArg Aside.format hkeeps
    rw [hy, withdrawAppended_apart (u.segment - 1#32) a z]
    show { d with
      journal := journal
      memory := memory
      engine := { d.engine with run := s.engine.run, format := u.before, lastTaken := some r.stamp } } = _
    rw [← hdrun, ← hdformat]
  have hrow : engineRow .takeStrike s = workEnds { w with left := [] }
      { d with
        journal := journal
        engine := { d.engine with lastTaken := some r.stamp }
        memory := servedAlone memory [.log] } := by
    rw [engineRow_ready hm hready, finishWork_strike hrecord, checks_idle _ _ hrun hsettled, hgoes, finishWork_last rfl, stageMade_eq]
    have hcarried : carryUses w.left y = withdrawAppended (u.segment - 1#32) y := appendWithdraw_eq _ _
    have hy : y.memory = memory := congrArg State.memory hstruck
    rw [hcarried, hwithdrawn, hy]
    rfl
  have hgrants : servedAlone memory [.log] = afterGrants .log (afterGrants .xlate s.memory) := by
    obtain ⟨hperm, -⟩ := harb
    have := servedAlone_xlate_log hperm (a := [.xlate, .xlate]) (b := [.log]) (by simp) (by simp) (by simp) (by simp)
    rwa [servedAlone_append] at this
  have hd : d.engine.activity = s.engine.activity ∧ d.maint = s.maint := by
    have hz := carryUse_only (.withdraw (u.segment - 1#32)) { s with engine := { s.engine with units := us, format := u.before } }
    have hsame : d = carryUse (.withdraw (u.segment - 1#32)) { s with engine := { s.engine with units := us, format := u.before } } :=
      (appendWithdraw_eq _ _).symm
    rw [hsame]
    refine ⟨hz.activity, ?_⟩
    obtain ⟨_, _, _, _, hform⟩ := hz.form
    rw [hform]
  have hends := takeEnds (w := { w with left := [] })
    (t := { d with journal := journal, engine := { d.engine with lastTaken := some r.stamp } }) (m := servedAlone memory [.log])
    (.inr rfl) (hd.1.trans hfree.2.1) ((congrArg Maintenance.lockHeld hd.2).trans hfree.2.2.1)
    ((served_engineWork _ _).trans ((served_engineWork _ _).trans hm.2.2.2.2.1))
  refine congrArg _ (hrow.trans ?_)
  rw [hgrants] at hends ⊢
  exact hends

end Sys2Proof.Proofs
end

section
/-! PROOFS. The take of a STRIKE record against the run, of a STROKE record, and a re-resolution (R43 to R53, R58, R60, R61, R105). -/

namespace Sys2Proof.Proofs

open Sys2Proof.Machine

/-! ### Resolutions of a run of no stroke and of one (R43 to R46) -/

section
variable {slots : List (Nat × Slot)} {tiers : List TierId} {us : List Formed} {left : List RunEntry} {e : RunEntry}

theorem formsRun_nil (h : FormsRun slots tiers [] us left) : us = [] ∧ left = [] := by
  cases h with
  | empty => exact ⟨rfl, rfl⟩
  | openRun hne => exact absurd rfl hne
  | head hne => exact absurd rfl hne

/-- The head unit of one stroke. -/
theorem headUnit_single {settled : Bool} {u : Formed} {found : Option (TierId × SlotNo × Record)}
    (h : HeadUnit slots tiers [e] settled u) (hfound : found = bestLookup slots tiers [e.chord]) :
    u = ⟨[e], readingOf found, found.map (fun x => x.2.2.content), settled⟩ := by
  obtain ⟨n, found', hpos, hle, hu, -, hfound', -⟩ := h
  have hn : n = 1 := Nat.le_antisymm hle hpos
  subst hn
  have hsame : found' = found := hfound'.trans hfound.symm
  rw [hu, hsame]
  rfl

theorem coversRun_nil (h : CoversRun slots tiers [] us) : us = [] := by
  cases h with
  | done => rfl
  | unit hhead =>
    obtain ⟨n, _, hpos, hle, -⟩ := hhead
    exact absurd (Nat.le_trans hpos hle) (by simp)

/-- A run of one stroke forms one unit: settled, with the run empty, where the run is closed, and else provisional. -/
theorem formsRun_single {closed : Bool} {found : Option (TierId × SlotNo × Record)} (h : FormsRun slots tiers [e] us left)
    (hfound : found = bestLookup slots tiers [e.chord]) (hclosed : closed = true ↔ ClosedRun slots tiers [e]) :
    us = [⟨[e], readingOf found, found.map (fun x => x.2.2.content), closed⟩] ∧ left = if closed then [] else [e] := by
  cases h with
  | openRun hne hopen hcovers =>
    have hfalse : closed = false := Bool.eq_false_iff.mpr fun hc => hopen (hclosed.mp hc)
    cases hcovers with
    | @unit _ u rest hhead hrest =>
      have hu := headUnit_single hhead hfound
      rw [hu] at hrest
      rw [coversRun_nil hrest, hu, hfalse]
      exact ⟨rfl, rfl⟩
  | @head _ _ u rest hne hcl hhead hrest =>
    have htrue : closed = true := hclosed.mpr hcl
    have hu := headUnit_single hhead hfound
    rw [hu] at hrest
    obtain ⟨hnil, hleft⟩ := formsRun_nil hrest
    rw [hnil, hleft, hu, htrue]
    exact ⟨rfl, rfl⟩

end

theorem rendersRun_nil {roster : List (List Byte)} {f : FormatState} {news : List NewUnit} (h : RendersRun roster f [] news) :
    news = [] := by
  cases news with
  | nil => rfl
  | cons q qs => exact h.elim

/-- Whether a content found is a command's (R50). -/
def commandFound (found : Option (TierId × SlotNo × Record)) : Bool := isCommandContent (found.map (fun x => x.2.2.content))

/-- One unit formed from one stroke is rendered so. -/
theorem rendersRun_single {roster : List (List Byte)} {f : FormatState} {news : List NewUnit} {e : RunEntry}
    {found : Option (TierId × SlotNo × Record)} {closed : Bool} {out : List Byte × FormatState}
    (h : RendersRun roster f [⟨[e], readingOf found, found.map (fun x => x.2.2.content), closed⟩] news)
    (hout : out = render roster f e.chord (found.map (fun x => x.2.2.content))) :
    news = [⟨[e.seq], readingOf found, commandFound found, out.1, f, out.2, e.stamp, closed⟩] := by
  cases news with
  | nil => exact h.elim
  | cons q qs =>
    obtain ⟨hstrokes, hreading, hsettled, hbefore, hrender, hcommand, hstamp, hrest⟩ := h
    obtain ⟨strokes, reading, command, text, before, after, stamp, settled⟩ := q
    have htext : (text, after) = out := hrender.trans hout.symm
    have hcmd : command = commandFound found := by
      rw [Bool.eq_iff_iff, hcommand, commandFound]
      cases hc : found.map (fun x => x.2.2.content) with
      | none => simp [isCommandContent]
      | some c => cases c <;> simp [isCommandContent]
    rw [rendersRun_nil hrest]
    subst hcmd
    cases hstrokes
    cases hreading
    cases hsettled
    cases hbefore
    cases hstamp
    rw [← htext]
    rfl

/-- A resolution of an empty run withdraws every provisional unit. -/
theorem resolved_nil {tiers : List TierId} {s t : State} (h : Resolved tiers s t) (hrun : s.engine.run = []) :
    t = { diffed false (s.engine.units.filter (fun u => u.settled)) (s.engine.units.filter (fun u => !u.settled)) [] 0 s with
      engine := { (diffed false (s.engine.units.filter (fun u => u.settled)) (s.engine.units.filter (fun u => !u.settled)) [] 0
        s).engine with run := [], format := s.engine.format } } := by
  obtain ⟨us, left, news, j, d, hforms, hrenders, hmatches, rfl, rfl⟩ := h
  rw [hrun] at hforms
  obtain ⟨rfl, rfl⟩ := formsRun_nil hforms
  have hnews := rendersRun_nil hrenders
  subst hnews
  have hj : j = 0 := Nat.le_zero.mp hmatches.2.1
  subst hj
  rfl

/-! ### A strike against the run (R105) -/

/-- What a strike against a run comes to. -/
theorem engineRow_strikeRun {s : State} {r : JournalRecord} {e : RunEntry} {es : List RunEntry} (hfree : EngineFree s)
    (hm : MemoryQuiet s) (hsound : JournalSound s) (hready : WorkReady s .takeStrike)
    (hrecord : s.journal.recordAt s.journal.cursor = some r)
    (hrun : (expiredBy s.session.hold r.stamp (headroomed 4089 s)).engine.run = es ++ [e]) :
    ∃ t, Resolved (tiersRead s) { expiredBy s.session.hold r.stamp (headroomed 4089 s) with
        engine := { (expiredBy s.session.hold r.stamp (headroomed 4089 s)).engine with run := es } } t ∧
      engineRow .takeStrike s = workEnded { t with
        journal := { s.journal with
          cursor := s.journal.cursor + 1
          records := struckOut r.seq [e.seq] s.journal.records }
        engine := { t.engine with lastTaken := some r.stamp }
        memory := servedAlone s.memory ([.xlate] ++ grantsFor .takeStrike s ++ [.xlate] ++
          resolutionGrants (tiersRead s) es (expiredBy s.session.hold r.stamp (headroomed 4089 s))) } := by
  obtain ⟨-, hidle, hlock, -⟩ := hfree
  have hsettled := settledFor_take (k := .takeStrike) rfl hrecord
  have hactivity := settledFor_activity .takeStrike s
  have hmaint := settledFor_maint .takeStrike s
  rw [hsettled] at hactivity hmaint
  rw [engineRow_ready hm hready, finishWork_strike hrecord]
  generalize expiredBy s.session.hold r.stamp (headroomed 4089 s) = s0 at *
  have hwrites : strikeJournalWrites r s0.engine = strikeWrites r.seq [e.seq] := by
    simp only [strikeJournalWrites, strikeTarget, hrun, List.getLast?_concat]
  let journal : Journal := { s.journal with records := struckOut r.seq [e.seq] s.journal.records }
  let y : State := { s0 with
    journal := journal
    engine := { s0.engine with lastTaken := some r.stamp }
    memory := servedAlone s.memory ([.xlate] ++ grantsFor .takeStrike s ++ [.xlate]) }
  have hstruck : struckState r s s0 = y := by
    rw [struckState, hwrites, strikeWrites_struckOut ((journalSound_iff s).mp hsound)]
    rfl
  have hgoes : strikeGoesOn (strikingWork s) y = toForming es (strikingWork s) y := by
    have hne : y.engine.run ≠ [] := by
      show s0.engine.run ≠ []
      rw [hrun]
      exact List.append_ne_nil_of_right_ne_nil _ (List.cons_ne_nil _ _)
    have hlast : y.engine.run.dropLast = es := by
      show s0.engine.run.dropLast = es
      rw [hrun, List.dropLast_concat]
    rw [strikeGoesOn, if_neg hne, hlast]
  obtain ⟨t, hresolved, hends⟩ := takeResolves (w := strikingWork s) (y := y) (run := es) (n := 0) (.inr rfl)
    (hactivity.trans hidle) ((congrArg Maintenance.lockHeld hmaint).trans hlock) ((served_engineWork _ _).trans hm.2.2.2.2.1)
  have hbeside := resolved_beside hresolved s0.journal s0.memory s0.engine.lastTaken
  have hlast := (resolved_keeps hresolved).2.2.2.2
  refine ⟨_, hbeside, ?_⟩
  rw [hstruck, hgoes, hends, servedAlone_append _ _ (resolutionGrants _ _ _)]
  show _ = workEnded { t with
    journal := { s.journal with
      cursor := s.journal.cursor + 1
      records := struckOut r.seq [e.seq] s.journal.records }
    engine := { t.engine with lastTaken := some r.stamp }
    memory := _ }
  rw [show some r.stamp = t.engine.lastTaken from hlast.symm]
  rfl

/-- Settles O53: the general strike, and the run of one stroke, whose unit is withdrawn by the resolution of an empty run. -/
theorem strikeAgainstTheRun : Obligations.StrikeAgainstTheRun := by
  unfold Obligations.StrikeAgainstTheRun
  intro r target e es us u t s s0 hfree hnothing hm hsound hcursor hrecord hkind journal
  have hready := workReady_strike hfree hnothing hm hcursor hrecord hkind
  refine ⟨?_, fun hs0 hrun => ?_⟩
  · intro hrun hunits hus hu htaken hbefore hroom harb d
    have hprovisional : s.engine.units.filter (fun v => !v.settled) = [u] := by
      rw [hunits, List.filter_append, List.filter_eq_nil_iff.mpr fun v hv => by simp [hus v hv]]
      simp [hu]
    have hstay : s.engine.units.filter (fun v => v.settled) = us := by
      rw [hunits, List.filter_append, List.filter_eq_self.mpr hus]
      simp [hu]
    have hnotdue : settleDue s .takeStrike = false := by
      refine Bool.eq_false_iff.mpr fun hdue => ?_
      rcases (takeSettles_iff s).mp hdue with ⟨v, hv, hgone⟩ | ⟨q, q', hq, hq', -, hpast⟩
      · rw [hprovisional] at hv
        cases hv
        exact Nat.not_lt.mpr hgone hroom
      · rw [hrecord] at hq
        rw [htaken] at hq'
        cases hq
        cases hq'
        exact Nat.not_lt.mpr hpast hbefore
    have hsame : expiredBy s.session.hold r.stamp (headroomed 4089 s) = s := by
      rw [← settledFor_take (k := .takeStrike) rfl hrecord, settledFor, hnotdue]
      rfl
    obtain ⟨t', hresolved, hrow⟩ := engineRow_strikeRun (es := []) (e := e) hfree hm hsound hready hrecord (by rw [hsame, hrun]; rfl)
    rw [hsame] at hresolved hrow
    have ht' := resolved_nil hresolved rfl
    let x : State := { s with engine := { s.engine with run := [] } }
    have hx : diffed false (x.engine.units.filter (fun v => v.settled)) (x.engine.units.filter (fun v => !v.settled)) [] 0 x =
        withdrawAppended (u.segment - 1#32) { x with engine := { x.engine with units := us } } := by
      rw [show x.engine.units.filter (fun v => !v.settled) = [u] from hprovisional,
        show x.engine.units.filter (fun v => v.settled) = us from hstay, diffed_withdraws]
    have hgrants : servedAlone s.memory ([.xlate] ++ grantsFor .takeStrike s ++ [.xlate] ++ resolutionGrants (tiersRead s) [] s) =
        afterGrants .log (afterGrants .xlate s.memory) := by
      obtain ⟨hperm, -⟩ := harb
      have hnone : grantsFor .takeStrike s = [] := by
        rw [grantsFor, hnotdue]
        rfl
      have hlog : resolutionGrants (tiersRead s) [] s = [.log] := by
        rw [resolutionGrants, show provisionalListed s = [u] from hprovisional]
        rfl
      rw [hnone, hlog]
      exact servedAlone_xlate_log hperm (a := [.xlate, .xlate]) (b := [.log]) (by simp) (by simp) (by simp) (by simp)
    let a : Aside := ⟨s.journal, s.memory, [], s.engine.format, s.engine.lastTaken⟩
    let z : State := { s with engine := { s.engine with units := us } }
    have haside : withdrawAppended (u.segment - 1#32) { x with engine := { x.engine with units := us } } = a.put d :=
      withdrawAppended_apart (u.segment - 1#32) a z
    refine congrArg _ (hrow.trans ?_)
    rw [hgrants, ht', hx, haside]
    have hformat : d.engine.format = s.engine.format := congrArg Aside.format ((withdrawAppended_apart (u.segment - 1#32)).keeps z)
    show workEnded { d with
      journal := journal
      engine := { d.engine with run := [], format := s.engine.format, lastTaken := some r.stamp }
      memory := _ } = _
    rw [← hformat]
  · subst hs0
    obtain ⟨t', hresolved, hrow⟩ := engineRow_strikeRun hfree hm hsound hready hrecord hrun
    have hmem := append_mem (append_mem (append_mem (a := [.xlate]) (by simp) (grantsFor_mem .takeStrike s)) (b := [.xlate]) (by simp))
      (resolutionGrants_mem (tiersRead s) es (expiredBy s.session.hold r.stamp (headroomed 4089 s)))
    refine ⟨t', _, hmem, hresolved, congrArg _ (hrow.trans ?_)⟩
    rw [madeBy_served hmem]

end Sys2Proof.Proofs
end

section
/-! PROOFS. The take of a STROKE record, and a re-resolution (R43 to R53, R58, R60, R61). -/

namespace Sys2Proof.Proofs

open Sys2Proof.Machine

/-! ### The resolution of a run of one stroke (R43 to R51) -/

/-- The new unit of one stroke. -/
def oneUnit (e : RunEntry) (found : Option (TierId × SlotNo × Record)) (f : FormatState) (out : List Byte × FormatState)
    (closed : Bool) : NewUnit :=
  ⟨[e.seq], readingOf found, commandFound found, out.1, f, out.2, e.stamp, closed⟩

section
variable {s t : State} {e : RunEntry} {found : Option (TierId × SlotNo × Record)} {out : List Byte × FormatState} {closed : Bool}
  {tiers : List TierId}

/-- Its new sequence, rendered. -/
theorem rendered_single (hfound : found = bestLookup s.dict.slots tiers [e.chord])
    (hclosed : closed = true ↔ ClosedRun s.dict.slots tiers [e])
    (hout : out = render s.roster s.engine.format e.chord (found.map (fun x => x.2.2.content))) :
    renderSequence s.roster s.engine.format (formSequence s.dict.slots tiers [e]).1 =
      [oneUnit e found s.engine.format out closed] := by
  obtain ⟨hunits, -⟩ := formsRun_single (formSequence_forms s.dict.slots tiers [e]) hfound hclosed
  have hrenders := renderSequence_renders s.roster (formSequence s.dict.slots tiers [e]).1 s.engine.format
  generalize renderSequence s.roster s.engine.format (formSequence s.dict.slots tiers [e]).1 = news at *
  rw [hunits] at hrenders
  exact rendersRun_single hrenders hout

theorem formatAfter_single (f : FormatState) (q : NewUnit) : formatAfter f [q] = if q.settled then q.after else f := by
  rw [formatAfter]
  cases hq : q.settled <;> simp [hq]

/-- What its resolution makes of the list and the log. -/
theorem resolved_single (h : Resolved tiers s t) (hrun : s.engine.run = [e])
    (hfound : found = bestLookup s.dict.slots tiers [e.chord])
    (hclosed : closed = true ↔ ClosedRun s.dict.slots tiers [e])
    (hout : out = render s.roster s.engine.format e.chord (found.map (fun x => x.2.2.content))) :
    ∃ (j : Nat) (d : State), MatchesUpTo s.log (s.engine.units.filter (fun u => !u.settled))
        [oneUnit e found s.engine.format out closed] j ∧
      d = diffed false (s.engine.units.filter (fun u => u.settled)) (s.engine.units.filter (fun u => !u.settled))
        [oneUnit e found s.engine.format out closed] j s ∧
      t = { d with engine := { d.engine with
        run := if closed then [] else [e]
        format := if closed then out.2 else s.engine.format } } := by
  obtain ⟨us, left, news, j, d, hforms, hrenders, hmatches, hd, ht⟩ := h
  rw [hrun] at hforms
  obtain ⟨rfl, rfl⟩ := formsRun_single hforms hfound hclosed
  have hnews := rendersRun_single hrenders hout
  subst hnews
  refine ⟨j, d, hmatches, hd, ht.trans ?_⟩
  rw [formatAfter_single]

/-- A run of one stroke is closed when no tier read continues it (R32, R43). -/
theorem closedRun_single_iff {e : RunEntry} : ClosedRun s.dict.slots (tiersRead s) [e] ↔ closesAt s [e.chord] :=
  ⟨fun h => h.resolve_left (by simp), .inr⟩

end

/-! ### TAKE_STROKE with an empty run (R53, R58) -/

theorem workReady_stroke {s : State} {r : JournalRecord} {struck : Bool} (hfree : EngineFree s)
    (hnothing : NothingBefore s) (hm : MemoryQuiet s) (hcursor : s.journal.cursor ≤ s.journal.head)
    (hrecord : s.journal.recordAt s.journal.cursor = some r) (hkind : r.kind = .stroke struck) : WorkReady s .takeStroke :=
  ⟨workAllowed_free hfree hm, hnothing.1, nothingPending hnothing, hcursor, r, struck, hrecord, hkind⟩

/-- Settles O48: the resolution of the run with the record joined; of a run of that stroke alone, with no provisional unit to
compare it with, it is the one unit that joins. -/
theorem singleStrokeTaken : Obligations.SingleStrokeTaken := by
  unfold Obligations.SingleStrokeTaken
  intro r struck closed found out s s0 hfree hnothing hm hcursor hrecord hkind journal
  obtain ⟨t, hresolved, hrow⟩ := engineRow_takeStroke hfree hm (workReady_stroke hfree hnothing hm hcursor hrecord hkind) hrecord
  refine ⟨?_, fun hs0 => ?_⟩
  · intro hrun hsettled harb hfound hclosed hout d
    rw [checks_idle _ _ hrun hsettled] at hresolved hrow
    let e : RunEntry := ⟨r.seq, r.chord, r.stamp⟩
    let q := oneUnit e found s.engine.format out closed
    have hclosed' : closed = true ↔ ClosedRun s.dict.slots (tiersRead s) [e] := by
      rw [hclosed, closedRun_single_iff]
    have hjoined : (withRecord r s).engine.run = [e] := by
      show s.engine.run ++ [e] = [e]
      rw [hrun]
      rfl
    have hnone : s.engine.units.filter (fun u => !u.settled) = [] := List.filter_eq_nil_iff.mpr fun u hu => by simp [hsettled u hu]
    have hall : s.engine.units.filter (fun u => u.settled) = s.engine.units := List.filter_eq_self.mpr hsettled
    obtain ⟨j, d', hmatches, hd', ht⟩ := resolved_single (s := withRecord r s) hresolved hjoined hfound hclosed' hout
    have hasks : diffUses [] [q] (leadingMatches s.log [] [q]) ≠ [] :=
      List.append_ne_nil_of_right_ne_nil _ (List.cons_ne_nil _ _)
    have hgrants : servedAlone s.memory ([.xlate] ++ grantsFor .takeStroke s ++
        resolutionGrants (tiersRead s) (withRecord r s).engine.run s) = afterGrants .log (afterGrants .xlate s.memory) := by
      obtain ⟨hperm, -⟩ := harb
      rw [grantsFor_idle _ hsettled, hjoined, resolutionGrants, rendered_single hfound hclosed' hout,
        show provisionalListed s = [] from hnone, if_neg hasks, ← List.append_assoc]
      refine servedAlone_xlate_log hperm nofun (fun x hx => ?_) nofun (by simp)
      split at hx
      · simpa using hx
      · simpa using hx
    have hd : d' = unitJoined (withRecord r s) q := by
      rw [hd', show (withRecord r s).engine.units.filter (fun u => !u.settled) = [] from hnone] at *
      obtain rfl : j = 0 := Nat.le_zero.mp hmatches.1
      rw [diffed_joins, show (withRecord r s).engine.units.filter (fun u => u.settled) = s.engine.units from hall]
      rfl
    let a : Aside := asideOf (withRecord r s)
    have haside : unitJoined (withRecord r s) q = a.put (unitJoined s q) := unitJoined_apart q a s
    refine congrArg _ (hrow.trans ?_)
    have hcommand : d = unitJoined s q := by
      show unitJoined s _ = unitJoined s ⟨_, _, commandFound found, _, _, _, _, _⟩
      clear * -
      rcases found with _ | ⟨l, n, tier, strokes, content, extensions⟩
      · rfl
      · cases content <;> rfl
    rw [hgrants, ht, hd, haside, hcommand]
    rfl
  · subst hs0
    have hmem := append_mem (append_mem (a := [.xlate]) (by simp) (grantsFor_mem .takeStroke s))
      (resolutionGrants_mem (tiersRead s) (withRecord r (expiredBy s.session.hold r.stamp (headroomed 4089 s))).engine.run
        (expiredBy s.session.hold r.stamp (headroomed 4089 s)))
    refine ⟨t, _, hmem, hresolved, congrArg _ (hrow.trans ?_)⟩
    rw [madeBy_served hmem]

end Sys2Proof.Proofs
end

section
/-! PROOFS. A re-resolution of a run of one stroke whose unit is kept (R43 to R51, R60, R61). -/

namespace Sys2Proof.Proofs

open Sys2Proof.Machine

/-! ### Whether a resolution reads a slot (R27, R34) -/

section
variable {ask : List SlotNo → SlotNo → Slot}

/-- A lookup reads its first slot, whatever it finds. -/
theorem walkBy_first (t : TierId) (cs : List Chord) (n : Nat) (m : SlotNo) (reads : List SlotNo) :
    reads ++ [m] <+: (walkBy ask t cs (n + 1) m reads).2 := by
  have hmore := (walkBy_agrees (ask := ask) (table := []) t cs n (m + 1#18) (reads ++ [m])).1
  rw [walkBy]
  cases ask reads m with
  | empty => exact List.prefix_refl _
  | vacated => exact hmore
  | occupied r =>
    show _ <+: (if r.tier = t ∧ r.strokes = cs then (some (m, r), reads ++ [m])
      else walkBy ask t cs n (m + 1#18) (reads ++ [m])).2
    split
    · exact List.prefix_refl _
    · exact hmore

/-- The resolution of one stroke over some tiers begins with the home slot of the first. -/
theorem formBy_first (l : TierId) (rest : List TierId) (e : RunEntry) :
    [homeSlot l [e.chord]] <+: (formBy ask (l :: rest) [e]).2 := by
  have hlookup : [homeSlot l [e.chord]] <+: (lookupBy ask l [e.chord] []).2 := walkBy_first l [e.chord] 31 _ []
  have hcontinues := (continuesBy_agrees (ask := ask) (table := []) rest [e.chord] (lookupBy ask l [e.chord] []).2).1
  have hclosed : [homeSlot l [e.chord]] <+: (closedBy ask (l :: rest) [e] []).2 := hlookup.trans hcontinues
  have hsettles : (closedBy ask (l :: rest) [e] []).2 <+: (settleBy ask (l :: rest) 1 [e] []).2 := by
    show _ <+: (if (closedBy ask (l :: rest) [e] []).1 then _ else _ : (List Formed × List RunEntry) × List SlotNo).2
    split
    · exact (longestBy_agrees (ask := ask) (table := []) (l :: rest) [e] 1 _).1
    · exact List.prefix_refl _
  exact hclosed.trans (hsettles.trans (provisionalBy_agrees (ask := ask) (table := []) _ _ _ _).1)

end

/-- The resolution of one stroke reads a slot where there is a tier to read. -/
theorem nextRead_single_iff (slots : List (Nat × Slot)) (tiers : List TierId) (e : RunEntry) :
    nextRead slots [] tiers [e] = [] ↔ tiers = [] := by
  cases tiers with
  | nil => exact ⟨fun _ => rfl, fun _ => rfl⟩
  | cons l rest =>
    obtain ⟨more, hmore⟩ := formBy_first (ask := readSlot slots []) l rest e
    have hreads : nextRead slots [] (l :: rest) [e] = [.slot (homeSlot l [e.chord])] := by
      rw [nextRead, ← hmore]
      rfl
    rw [hreads]
    exact ⟨fun h => absurd h (List.cons_ne_nil _ _), fun h => absurd h (List.cons_ne_nil _ _)⟩

/-! ### The unit of one stroke kept (R47, R48) -/

/-- The state with the unit u kept as the newest, its new after-state and settlement, and its segment promoted with it. -/
def unitKept (us : List ListedUnit) (u : ListedUnit) (after : FormatState) (closed : Bool) (s : State) : State :=
  { s with
    log := if closed then { s.log with segments := s.log.segments.map (fun g =>
        if g.number = u.segment ∧ g.textState = some .provisional then g.withState .settled else g) }
      else s.log
    engine := { s.engine with
      units := us ++ [⟨u.number, u.strokes, u.reading, u.before, after, u.segment, closed⟩] } }

/-- One new unit that matches the one provisional unit keeps it. -/
theorem diffed_keeps {us : List ListedUnit} {u : ListedUnit} {q : NewUnit} (hus : ∀ v ∈ us, v.settled = true) (hu : u.settled = false)
    (s : State) : diffed false us [u] [q] 1 s = unitKept us u q.after q.settled s := by
  have hstay : us.map (fun v => { v with settled := v.settled || (u.segment == v.segment && q.settled) }) = us := by
    refine (List.map_congr_left fun v hv => ?_).trans (List.map_id us)
    rw [hus v hv, Bool.true_or, ← hus v hv]
    rfl
  have hsegments : s.log.segments.map (fun g =>
      if g.textState = some .provisional ∧ (u.segment == g.number && q.settled) = true then g.withState .settled else g) =
      if q.settled then s.log.segments.map (fun g =>
        if g.number = u.segment ∧ g.textState = some .provisional then g.withState .settled else g) else s.log.segments := by
    cases q.settled with
    | true =>
      refine List.map_congr_left fun g _ => ?_
      simp only [Bool.and_true, beq_iff_eq]
      by_cases hn : g.number = u.segment
      · simp [hn]
      · simp [hn, Ne.symm hn]
    | false => simp
  have hunits : (us ++ [{ u with after := q.after, before := u.before }]).map
      (fun v : ListedUnit => { v with settled := v.settled || (u.segment == v.segment && q.settled) }) =
      us ++ [⟨u.number, u.strokes, u.reading, u.before, q.after, u.segment, q.settled⟩] := by
    rw [List.map_append, hstay]
    simp [hu]
  have hlog : (if q.settled then { s.log with segments := s.log.segments.map (fun g =>
        if g.number = u.segment ∧ g.textState = some .provisional then g.withState .settled else g) } else s.log) =
      { s.log with segments := if q.settled then s.log.segments.map (fun g =>
        if g.number = u.segment ∧ g.textState = some .provisional then g.withState .settled else g) else s.log.segments } := by
    cases q.settled <;> rfl
  rw [unitKept, hlog, ← hsegments, ← hunits]
  simp [diffed, hu]

/-- A unit that reads and renders as before is kept (R47). -/
theorem matches_kept {l : CaptionLog} {u : ListedUnit} {q : NewUnit} {j : Nat} (h : MatchesUpTo l [u] [q] j)
    (hstrokes : u.strokes = q.strokes) (hreading : u.reading = q.reading) (htext : l.textOf u.segment = some q.text)
    (hu : u.settled = false) : j = 1 := by
  obtain ⟨hle, -, -, hend⟩ := h
  rcases Nat.eq_zero_or_pos j with rfl | hpos
  · exact absurd ⟨hstrokes, hreading, htext, fun hs => absurd (hu.symm.trans hs) Bool.false_ne_true⟩ (hend u q rfl rfl)
  · exact Nat.le_antisymm hle hpos

/-! ### RE_RESOLUTION -/

/-- Settles O49: the resolution of the run; with no run and nothing provisional it changes nothing, and one stroke that reads and
renders as before keeps its unit. -/
theorem reResolutionKeepsAUnit : Obligations.ReResolutionKeepsAUnit := by
  unfold Obligations.ReResolutionKeepsAUnit
  intro e us u closed found out s hfree hchange hm
  have hready : WorkReady s .reResolution := ⟨workAllowed_free hfree hm, hchange⟩
  obtain ⟨t, hresolved, hrow⟩ := engineRow_reResolution hfree hm hready
  let c := clearChange s
  refine ⟨fun hus hrun hunits => ?_, fun hus hrun hunits hu hstrokes hroom hfound hclosed hout hreading htext => ?_, ?_⟩
  · have hsettled : ∀ v ∈ c.engine.units, v.settled = true := by
      rw [show c.engine.units = us from hunits]
      exact hus
    rw [show headroomed 4089 c = c from headroomed_settled 4089 hsettled] at hrow
    have hnone : c.engine.units.filter (fun v => !v.settled) = [] := List.filter_eq_nil_iff.mpr fun v hv => by simp [hsettled v hv]
    have hgrants : grantsFor .reResolution c ++ resolutionGrants (tiersRead s) c.engine.run c = [] := by
      rw [grantsFor_idle _ hsettled, show c.engine.run = [] from hrun, resolutionGrants, show provisionalListed c = [] from hnone]
      rfl
    have ht : t = c := by
      rw [show headroomed 4089 { s with engine := { s.engine with changePending := false } } = c from
        headroomed_settled 4089 hsettled] at hresolved
      have h := resolved_nil hresolved hrun
      rw [hnone, diffed_joins, show c.engine.units.filter (fun v => v.settled) = c.engine.units from
        List.filter_eq_self.mpr hsettled] at h
      rw [h]
      show { c with engine := { c.engine with run := [] } } = c
      rw [← show c.engine.run = [] from hrun]
    refine congrArg _ (hrow.trans ?_)
    rw [hgrants, ht]
    rfl
  · have hstay : c.engine.units.filter (fun v => v.settled) = us := by
      rw [show c.engine.units = us ++ [u] from hunits, List.filter_append, List.filter_eq_self.mpr hus]
      simp [hu]
    have hprovisional : c.engine.units.filter (fun v => !v.settled) = [u] := by
      rw [show c.engine.units = us ++ [u] from hunits, List.filter_append, List.filter_eq_nil_iff.mpr fun v hv => by simp [hus v hv]]
      simp [hu]
    have hnotdue : headroomDue 4089 c = false := by
      refine Bool.eq_false_iff.mpr fun hdue => ?_
      obtain ⟨v, hv, hgone⟩ := (headroomDue_iff 4089 c).mp hdue
      rw [hprovisional] at hv
      cases hv
      exact Nat.not_lt.mpr hgone hroom
    have hsame : headroomed 4089 c = c := by
      rw [headroomed_eq, hnotdue]
      rfl
    rw [hsame] at hrow
    rw [show headroomed 4089 { s with engine := { s.engine with changePending := false } } = c from hsame] at hresolved
    have hclosed' : closed = true ↔ ClosedRun c.dict.slots (tiersRead s) [e] := by
      rw [hclosed]
      exact closedRun_single_iff.symm
    let q := oneUnit e found c.engine.format out closed
    obtain ⟨j, d, hmatches, hd, ht⟩ := resolved_single hresolved hrun hfound hclosed' hout
    rw [hprovisional] at hmatches hd
    have hj : j = 1 := matches_kept hmatches hstrokes hreading htext hu
    have hkept : d = unitKept us u out.2 closed c := by
      rw [hd, hj, hstay]
      exact diffed_keeps hus hu c
    have hgrants : grantsFor .reResolution c ++ resolutionGrants (tiersRead s) c.engine.run c =
        (if tiersRead s = [] then [] else [.xlate]) ++ (if closed then [.log] else []) := by
      have hnone : grantsFor .reResolution c = [] := by
        rw [grantsFor, show settleDue c .reResolution = false from hnotdue]
        rfl
      have hleading : leadingMatches c.log [u] [q] = 1 :=
        matches_kept (leadingMatches_spec c.log [u] [q]) hstrokes hreading htext hu
      have hasks : diffUses [u] [q] 1 = if closed then [.promote u.segment] else [] := by
        cases closed <;> simp [diffUses, keptPromotions, hu, q, oneUnit]
      rw [hnone, show c.engine.run = [e] from hrun, resolutionGrants, rendered_single (s := c) hfound hclosed' hout,
        show provisionalListed c = [u] from hprovisional, hleading, hasks]
      simp only [nextRead_single_iff, List.nil_append]
      cases closed <;> rfl
    refine congrArg _ (hrow.trans ?_)
    rw [hgrants, ht, hkept, ← madeBy_served (append_mem ?_ ?_)]
    · rfl
    · split
      · simp
      · simp
    · split
      · simp
      · simp
  · have hmem := append_mem (grantsFor_mem .reResolution c)
      (resolutionGrants_mem (tiersRead s) (headroomed 4089 c).engine.run (headroomed 4089 c))
    refine ⟨t, _, hmem, hresolved, congrArg _ (hrow.trans ?_)⟩
    rw [madeBy_served hmem]

end Sys2Proof.Proofs
end

section
/-! PROOFS. The beginning of a retranslation (R111, R113, R114, R124). -/

namespace Sys2Proof.Proofs

open Sys2Proof.Machine

/-- A work that ends with the engine IDLE and the lock FREE leaves the activity as it is. -/
theorem refreshed_workEnded {s : State} (hidle : s.engine.activity = .idle) (hlock : s.maint.lockHeld = false) :
    refreshed (workEnded s) = workEnded s := (endWork_eq s).symm.trans (endWork_free hidle hlock)

/-- A settle in place keeps a list nonempty, and the strokes of its units. -/
theorem settledFor_units (k : WorkKind) {s : State} (hne : s.engine.units ≠ []) (hstrokes : ∀ u ∈ s.engine.units, u.strokes ≠ []) :
    (settledFor k s).engine.units ≠ [] ∧ ∀ u ∈ (settledFor k s).engine.units, u.strokes ≠ [] := by
  rw [settledFor]
  split
  · refine ⟨fun h => hne (List.map_eq_nil_iff.mp h), fun u hu => ?_⟩
    obtain ⟨v, hv, rfl⟩ := List.mem_map.mp hu
    exact hstrokes v hv
  · exact ⟨hne, hstrokes⟩

theorem settledFor_request (k : WorkKind) (s : State) : (settledFor k s).engine.request = s.engine.request := by
  rw [settledFor]
  split
  · rfl
  · rfl

/-- The row of a retranslation's start: its headroom settle, and then its end. -/
theorem engineRow_retranslationStart {s : State} (hm : MemoryQuiet s) (hready : WorkReady s .retranslationStart) :
    ∃ w : EngineWork, w.kind = .retranslationStart ∧ w.tiers = tiersRead s ∧ engineRow .retranslationStart s = workEnds w
      { headroomed 3711 s with memory := servedAlone s.memory (grantsFor .retranslationStart s) } := by
  have hopened : opened .retranslationStart s = toSettling (newWork .retranslationStart s) s := rfl
  refine ⟨{ newWork .retranslationStart s with stage := .ending 0 0, left := [] }, rfl, rfl, ?_⟩
  rw [engineRow_ready hm hready, hopened, finishWork_settle s (.inr (.inr rfl)),
    ← settledFor_headroom (k := .retranslationStart) (bound := 3711) (s := s) rfl]
  rfl

/-- Settles O54: the end of the work that a retranslation begins with, after its headroom settle. -/
theorem retranslationStarts : Obligations.RetranslationStarts := by
  unfold Obligations.RetranslationStarts
  intro r s s0 hfree hchange hrequest hpending hm
  have hready : WorkReady s .retranslationStart := ⟨workAllowed_free hfree hm, hchange, r, hrequest, hpending⟩
  obtain ⟨-, hidle, hlock, -⟩ := hfree
  have hnone := hm.2.2.2.2.1
  obtain ⟨w, hkind, htiers, hrow⟩ := engineRow_retranslationStart hm hready
  have hends := workEnds_ends w { headroomed 3711 s with memory := servedAlone s.memory (grantsFor .retranslationStart s) }
  rw [← hrow, WorkEnds, hkind] at hends
  have hsettled := settledFor_headroom (k := .retranslationStart) (bound := 3711) (s := s) rfl
  have hheld : (headroomed 3711 s).engine.request = some r := by
    rw [← hsettled, settledFor_request, hrequest]
  obtain ⟨hempty, hsome⟩ := hends r hheld
  refine ⟨fun hunits hnodup => ?_, fun hs0 hne hstrokes => ?_⟩
  · have hall : ∀ u ∈ s.engine.units, u.settled = true := by
      rw [hunits]
      exact fun u hu => absurd hu List.not_mem_nil
    rw [headroomed_settled 3711 hall, grantsFor_idle _ hall] at hempty
    obtain ⟨ports, hports, hrow'⟩ := hempty hunits hnodup
    have hends' : engineRow .retranslationStart s =
        workEnded { s with ports := ports, engine := { s.engine with request := none } } := by
      let x : State := { s with
        ports := ports
        engine := { s.engine with request := none, activity := .idle }
        memory := { s.memory with engineWork := none } }
      have hx : engineRow .retranslationStart s = refreshed (workEnded x) := hrow'
      rw [hx, refreshed_workEnded (s := x) rfl hlock]
      show workEnded { s with
        ports := ports
        engine := { s.engine with request := none, activity := .idle }
        memory := { s.memory with engineWork := none } } = _
      rw [← hidle, ← hnone]
    refine ⟨engineRow .retranslationStart s, rfl, ?_, ?_⟩
    · rw [hends']
      rfl
    · rw [hends']
      exact hports
  · subst hs0
    obtain ⟨hne', hstrokes'⟩ := settledFor_units .retranslationStart hne hstrokes
    rw [hsettled] at hne' hstrokes'
    obtain ⟨i, u, hu, hstart, hrow'⟩ := hsome hne' hstrokes'
    refine ⟨i, u, grantsFor .retranslationStart s, grantsFor_log _ s, hu, hstart, congrArg _ (hrow'.trans ?_)⟩
    have hserved : (servedAlone s.memory (grantsFor .retranslationStart s)).engineWork = none :=
      (served_engineWork _ _).trans hnone
    rw [htiers, madeBy_served (grantsFor_mem _ s)]
    show { headroomed 3711 s with
      engine := { (headroomed 3711 s).engine with
        activity := .retranslating
        request := some { r with phase := .inProgress ⟨i, u.strokes.headD 0, tiersRead s⟩ } }
      memory := { servedAlone s.memory (grantsFor .retranslationStart s) with engineWork := none } } = _
    rw [← hserved]

end Sys2Proof.Proofs
end

section
/-! PROOFS. A replay made with nobody else asking, and its rebuild (R115 to R120). -/

namespace Sys2Proof.Proofs

open Sys2Proof.Machine

/-! ### The replay of the engine's own model, in the words of the rules -/

/-- The replay of a rebuild up to the end of its records (R115, R116). -/
def replayed (p : ReplayStart) (s : State) : Replay :=
  (Replay.start p s.engine).feedAll s.dict.slots p.tiers s.roster s.session.hold (replaySpan s.journal p.startUsed)

/-- That replay after its last expiry check (R116). -/
def replayDone (p : ReplayStart) (s : State) : Replay := (replayed p s).expire s.session.hold s.session.clock

theorem replayBefore_eq (p : ReplayStart) (e : Engine) :
    replayBefore p e = ((e.units.drop p.first).head?.map ListedUnit.before).getD e.format := by
  rw [replayBefore]
  cases (e.units.drop p.first).head? <;> rfl

theorem replayed_eq (p : ReplayStart) (s : State) : replayed p s =
    ((((s.journal.records.drop (p.startUsed - s.journal.oldest)).take (s.journal.cursor - p.startUsed)).filter
      (fun q => decide (q.kind = .stroke false))).foldl (Replay.feed s.dict.slots p.tiers s.roster s.session.hold)
      ⟨[], ((s.engine.units.drop p.first).head?.map ListedUnit.before).getD s.engine.format, [], [], none⟩) := by
  have hfed : JournalRecord.fed = fun q => decide (q.kind = .stroke false) := by
    funext q
    rw [Bool.eq_iff_iff, fed_iff, decide_eq_true_iff]
  rw [replayed, Replay.feedAll, hfed, Replay.start, replayBefore_eq]
  rfl

/-! ### The row -/

/-- The grants of a replay and its rebuild: XLATE's for its records, LOG's for what the diff asks (R183). -/
def rebuildGrants (span : List JournalRecord) (us : List Use) : List MemRequester :=
  (if span = [] then [] else [.xlate]) ++ (if us = [] then [] else [.log])

theorem rebuildGrants_mem (span : List JournalRecord) (us : List Use) : ∀ r ∈ rebuildGrants span us, r = .xlate ∨ r = .log := by
  refine append_mem ?_ ?_
  · split
    · simp
    · simp
  · split
    · simp
    · simp

/-- A replay reads all its records and feeds those it feeds (R115). -/
theorem replay_read (n : Nat) {s : State} {p : ReplayStart} (hheld : replayHeld s = some p) (w : EngineWork) :
    finishWork (n + 1) (toReading (Replay.start p s.engine) (replaySpan s.journal p.startUsed) w s) =
      finishWork n (afterReplay ((Replay.start p s.engine).feedAll s.dict.slots w.tiers s.roster s.session.hold
          (replaySpan s.journal p.startUsed)) p
        { w with
          stage := .reading ((Replay.start p s.engine).feedAll s.dict.slots w.tiers s.roster s.session.hold
            (replaySpan s.journal p.startUsed)) []
          left := [] }
        { s with memory := servedAlone s.memory (if replaySpan s.journal p.startUsed = [] then [] else [.xlate]) }) := by
  let span := replaySpan s.journal p.startUsed
  let w1 : EngineWork := { w with
    stage := .reading (Replay.start p s.engine) span
    left := (span.head?.map (fun j => Use.record j.seq)).toList }
  have hgrants : stageGrants w1 = if span = [] then [] else [.xlate] := by
    rw [stageGrants]
    cases hspan : span with
    | nil => simp [w1, hspan]
    | cons j rest =>
      simp only [w1, hspan, List.head?_cons, Option.map_some, Option.toList_some, List.cons_ne_nil, if_false]
      rfl
  have hcarried : carryUses w1.left s = s := by
    show carryUses (span.head?.map (fun j => Use.record j.seq)).toList s = s
    cases span <;> rfl
  have hmade : stageMade w1 s = ({ w with
      stage := .reading ((Replay.start p s.engine).feedAll s.dict.slots w.tiers s.roster s.session.hold span) []
      left := [] }, { s with memory := servedAlone s.memory (if span = [] then [] else [.xlate]) }) := by
    rw [stageMade_eq, hcarried, hgrants]
    rfl
  show finishWork (n + 1) (w1, s) = _
  rw [finishWork_next rfl, hmade]
  have hheld' : replayHeld { s with memory := servedAlone s.memory (if span = [] then [] else [.xlate]) } = some p := hheld
  show finishWork n (replayEnds _ _ _) = _
  rw [replayEnds, hheld']

/-- What the diff of a rebuild then makes of the list and the log (R119). -/
theorem rebuild_made (n : Nat) (rep : Replay) (p : ReplayStart) (w : EngineWork) (s : State) (m : Memory) :
    ∃ (w' : EngineWork) (j : Nat),
      MatchesUpTo s.log (s.engine.units.drop p.first) (rep.expire s.session.hold s.session.clock).news j ∧ w'.kind = w.kind ∧
      w'.stage = .ending ((s.engine.units.drop p.first).length - j) ((rep.expire s.session.hold s.session.clock).news.length - j) ∧
      finishWork (n + 1) (afterReplay rep p w { s with memory := m }) = (w',
        (diffed true (s.engine.units.take p.first) (s.engine.units.drop p.first)
          (rep.expire s.session.hold s.session.clock).news j s).besides s.journal
          (servedAlone m (if diffUses (s.engine.units.drop p.first) (rep.expire s.session.hold s.session.clock).news j = [] then []
            else [.log]))
          (rep.expire s.session.hold s.session.clock).run (rep.expire s.session.hold s.session.clock).format) := by
  let rep1 := rep.expire s.session.hold s.session.clock
  let old := s.engine.units.drop p.first
  let stay := s.engine.units.take p.first
  let j := leadingMatches s.log old rep1.news
  let us := diffUses old rep1.news j
  let w1 : EngineWork := { w with stage := .ending (old.length - j) (rep1.news.length - j), left := us }
  let kept := keepUnits true stay old rep1.news j s
  have hafter : afterReplay rep p w { s with memory := m } = (w1, kept.besides s.journal m rep1.run rep1.format) := rfl
  have hgrants : stageGrants w1 = if us = [] then [] else [.log] := rfl
  have hcarried : carryUses us (kept.besides s.journal m rep1.run rep1.format) =
      (diffed true stay old rep1.news j s).besides s.journal m rep1.run rep1.format := by
    rw [carryUses_apart (diffUses_log _ _ _), carryUses_diff]
  refine ⟨{ w1 with left := [] }, j, leadingMatches_spec s.log old rep1.news, rfl, rfl, ?_⟩
  rw [hafter, finishWork_last rfl, stageMade_eq, show w1.left = us from rfl, hcarried, hgrants]
  rfl

theorem workReady_rebuild {s : State} {r : RetransRequest} {p : ReplayStart} (hready : s.device.state = .ready)
    (hactivity : s.engine.activity = .retranslating) (hrequest : s.engine.request = some r) (hphase : r.phase = .inProgress p) :
    WorkReady s .rebuild := ⟨hready, hactivity, r, p, hrequest, hphase⟩

/-- The row of a rebuild, up to the completion of its requesters (R115 to R120). -/
theorem engineRow_rebuild {s : State} {r : RetransRequest} {p : ReplayStart} (hm : MemoryQuiet s) (hready : WorkReady s .rebuild)
    (hrequest : s.engine.request = some r) (hphase : r.phase = .inProgress p) :
    ∃ (w : EngineWork) (j : Nat), MatchesUpTo s.log (s.engine.units.drop p.first) (replayDone p s).news j ∧ w.kind = .rebuild ∧
      w.stage = .ending ((s.engine.units.drop p.first).length - j) ((replayDone p s).news.length - j) ∧
      engineRow .rebuild s = workEnds w
        ((diffed true (s.engine.units.take p.first) (s.engine.units.drop p.first) (replayDone p s).news j s).besides s.journal
          (servedAlone s.memory (rebuildGrants (replaySpan s.journal p.startUsed)
            (diffUses (s.engine.units.drop p.first) (replayDone p s).news j)))
          (replayDone p s).run (replayDone p s).format) := by
  have hheld : replayHeld s = some p := replayHeld_some.mpr ⟨r, hrequest, hphase⟩
  let w0 : EngineWork := { newWork .rebuild s with tiers := p.tiers }
  have htiers : workTiers s .rebuild = p.tiers := by
    simp only [workTiers, hheld]
  have hw0 : newWork .rebuild s = w0 := by
    rw [newWork, htiers]
    rfl
  have hopened : opened .rebuild s =
      toReading (Replay.start p s.engine) (replaySpan s.journal p.startUsed) w0 s := by
    show beginReplay (newWork .rebuild s) s = _
    rw [beginReplay, hheld, hw0]
  have hread := replay_read 4 hheld w0
  obtain ⟨w', j, hmatches, hkind, hstage, hmade⟩ := rebuild_made 3 (replayed p s) p
    { w0 with stage := .reading (replayed p s) [], left := [] } s
    (servedAlone s.memory (if replaySpan s.journal p.startUsed = [] then [] else [.xlate]))
  refine ⟨w', j, hmatches, hkind, hstage, ?_⟩
  have hfinished := hread.trans hmade
  rw [engineRow_ready hm hready, hopened, hfinished, rebuildGrants, servedAlone_append]
  rfl

/-- The activity when a retranslation is released (R39, R41). -/
theorem refreshed_released {s : State} (hidle : s.engine.activity = .idle) (hnone : s.engine.request = none) :
    refreshed (workEnded s) = workEnded { s with engine := { s.engine with activity :=
      if s.maint.lockHeld = true ∧ (s.engine.changePending = true ∨ s.journal.cursor ≤ s.journal.head) then .waiting else .idle } } := by
  have hactivity : (workEnded s).engine.activity = .idle := hidle
  have hrequest : (workEnded s).engine.request = none := hnone
  have hpending : (s.maint.lockHeld = true ∧ (s.engine.changePending = true ∨
      (∃ r, (none : Option RetransRequest) = some r ∧ r.phase = .pending) ∨ s.journal.cursor ≤ s.journal.head)) ↔
      (s.maint.lockHeld = true ∧ (s.engine.changePending = true ∨ s.journal.cursor ≤ s.journal.head)) := by simp
  rw [refreshed, if_pos (.inl hactivity), hrequest]
  simp only [workEnded, hpending]

/-- One record fed (R115, R116). -/
theorem feed_fedInto (slots : List (Nat × Slot)) (tiers : List TierId) (roster : List (List Byte)) (hold : Nat) (rep : Replay)
    (q : JournalRecord) : FedInto slots tiers roster hold rep q (rep.feed slots tiers roster hold q) :=
  ⟨rep.expire hold q.stamp, _, _, _, expire_expired hold q.stamp rep, formSequence_forms slots tiers _,
    renderSequence_renders roster _ _, rfl⟩

/-- Settles O55: the replay that the row makes, the diff that it asks for, and its completions; and what one record fed and one
expiry check make of a replay. -/
theorem rebuildReleases : Obligations.RebuildReleases := by
  unfold Obligations.RebuildReleases
  refine ⟨fun r p old before rep s hready hactivity hrequest hphase hnodup hm hold hbefore hrep => ?_,
    fun slots tiers roster hold clock rep q => ⟨feed_fedInto slots tiers roster hold rep q, fun t hfed hrun hpast => ?_, ?_⟩⟩
  · subst hold
    have hdone : rep = replayDone p s := by
      rw [hrep, replayDone, replayed_eq, hbefore]
    subst hdone
    let news := (replayDone p s).news
    obtain ⟨w, j, hmatches, hkind, hstage, hrow⟩ := engineRow_rebuild hm (workReady_rebuild hready hactivity hrequest hphase)
      hrequest hphase
    let d := diffed true (s.engine.units.take p.first) (s.engine.units.drop p.first) news j s
    let grants := rebuildGrants (replaySpan s.journal p.startUsed) (diffUses (s.engine.units.drop p.first) news j)
    let x := d.besides s.journal (servedAlone s.memory grants) (replayDone p s).run (replayDone p s).format
    have hkeeps : d.journal = s.journal :=
      congrArg Aside.journal ((diffed_apart true (s.engine.units.take p.first) (s.engine.units.drop p.first) news j).keeps s)
    obtain ⟨hmaint, -, -, -, -, hports, -, hrequest', hchange⟩ :=
      diffed_untouched true (s.engine.units.take p.first) (s.engine.units.drop p.first) news j s
    have hends := workEnds_ends w x
    rw [WorkEnds, hkind] at hends
    obtain ⟨ports, hcompleted, hafter⟩ := hends r p _ _ (hrequest'.trans hrequest) hphase hstage hnodup
    have hnone : (servedAlone s.memory grants).engineWork = none := (served_engineWork _ _).trans hm.2.2.2.2.1
    have hrow' : engineRow .rebuild s = workEnded { d with
        ports := ports
        engine := { d.engine with
          run := (replayDone p s).run
          format := (replayDone p s).format
          request := none
          activity := if s.maint.lockHeld = true ∧ (s.engine.changePending = true ∨ s.journal.cursor ≤ s.journal.head)
            then .waiting else .idle }
        memory := madeBy grants s.memory } := by
      let y : State := { d with
        ports := ports
        journal := s.journal
        engine := { d.engine with
          run := (replayDone p s).run
          format := (replayDone p s).format
          request := none
          activity := .idle }
        memory := { servedAlone s.memory grants with engineWork := none } }
      have hy : engineRow .rebuild s = refreshed (workEnded y) := hrow.trans hafter
      have hactivity' : (if d.maint.lockHeld = true ∧ (d.engine.changePending = true ∨ s.journal.cursor ≤ s.journal.head)
          then Activity.waiting else .idle) =
          if s.maint.lockHeld = true ∧ (s.engine.changePending = true ∨ s.journal.cursor ≤ s.journal.head)
          then Activity.waiting else .idle := by
        rw [hmaint, hchange]
      have hmade : madeBy grants s.memory = servedAlone s.memory grants := madeBy_served (rebuildGrants_mem _ _) _
      rw [hy, refreshed_released rfl rfl, hmade, ← hactivity']
      show workEnded { d with
        ports := ports
        journal := s.journal
        engine := { d.engine with
          run := (replayDone p s).run
          format := (replayDone p s).format
          request := none
          activity := if d.maint.lockHeld = true ∧ (d.engine.changePending = true ∨ s.journal.cursor ≤ s.journal.head)
            then .waiting else .idle }
        memory := { servedAlone s.memory grants with engineWork := none } } = _
      rw [← hnone, ← hkeeps]
    refine ⟨engineRow .rebuild s, d, j, grants, rebuildGrants_mem _ _, rfl, hmatches, rfl, ?_, ?_⟩
    · rw [hrow']
      rfl
    · rw [hrow', ← hports]
      exact hcompleted
  · have hexpired := (expire_expired hold clock rep).1 ⟨t, hfed, hrun, hpast⟩
    rw [hexpired, hfed]
  · exact (expire_expired hold clock rep).2

end Sys2Proof.Proofs
end

section
/-! PROOFS. The format renderer (R66 to R78). -/

namespace Sys2Proof.Proofs

open Sys2Proof.Machine

/-! ### The letter rule (R67) -/

theorem toCapital_eq (b : Byte) : toCapital b = capital b := by
  rw [toCapital, capital]
  by_cases h : 0x61 ≤ b.toNat ∧ b.toNat ≤ 0x7A
  · have hsmall : isSmall b = true := by simpa [isSmall] using h
    rw [if_pos hsmall, if_pos h]
    refine BitVec.eq_of_toNat_eq ?_
    rw [BitVec.toNat_sub, BitVec.toNat_ofNat]
    simp
    omega
  · have hsmall : ¬isSmall b = true := by simpa [isSmall] using h
    rw [if_neg hsmall, if_neg h]

theorem toSmall_eq (b : Byte) : toSmall b = small b := by
  rw [toSmall, small]
  by_cases h : 0x41 ≤ b.toNat ∧ b.toNat ≤ 0x5A
  · have hcapital : isCapital b = true := by simpa [isCapital] using h
    rw [if_pos hcapital, if_pos h]
    refine BitVec.eq_of_toNat_eq ?_
    rw [BitVec.toNat_add, BitVec.toNat_ofNat]
    simp
  · have hcapital : ¬isCapital b = true := by simpa [isCapital] using h
    rw [if_neg hcapital, if_neg h]

theorem isLetter_iff (b : Byte) : isLetter b = true ↔ letter b := by
  simp [isLetter, isCapital, isSmall, letter]

/-- A text without a letter stays. -/
theorem mapFirstLetter_none (f : Byte → Byte) {text : List Byte} (h : ∀ b ∈ text, ¬letter b) : mapFirstLetter f text = text := by
  induction text with
  | nil => rfl
  | cons b rest ih =>
    have hb : ¬isLetter b = true := mt (isLetter_iff b).mp (h b (List.mem_cons_self ..))
    rw [mapFirstLetter, if_neg hb, ih fun c hc => h c (List.mem_cons_of_mem _ hc)]

/-- The first letter of a text changes, and nothing else. -/
theorem mapFirstLetter_first (f : Byte → Byte) {pre post : List Byte} {b : Byte} (hpre : ∀ c ∈ pre, ¬letter c) (hb : letter b) :
    mapFirstLetter f (pre ++ b :: post) = pre ++ f b :: post := by
  induction pre with
  | nil => exact if_pos ((isLetter_iff b).mpr hb)
  | cons c rest ih =>
    have hc : ¬isLetter c = true := mt (isLetter_iff c).mp (hpre c (List.mem_cons_self ..))
    rw [List.cons_append, mapFirstLetter, if_neg hc, ih fun d hd => hpre d (List.mem_cons_of_mem _ hd)]
    rfl

theorem letterRule_lettered {f : FormatState} {text out : List Byte} (h : lettered f text out) : letterRule f text = out := by
  rw [letterRule]
  rcases h with ⟨hcaps, rfl⟩ | ⟨hcaps, hnone, rfl⟩ | ⟨hcaps, pre, b, post, rfl, hpre, hb, hcase⟩
  · rw [if_pos hcaps, funext toCapital_eq]
  · rw [if_neg (by simp [hcaps])]
    rcases hnone with hcase | hletters
    · rw [hcase]
    · cases f.case with
      | none => rfl
      | nextCap => exact mapFirstLetter_none _ hletters
      | nextLower => exact mapFirstLetter_none _ hletters
  · rw [if_neg (by simp [hcaps])]
    rcases hcase with ⟨hcase, rfl⟩ | ⟨hcase, rfl⟩
    · rw [hcase, ← toCapital_eq]
      exact mapFirstLetter_first _ hpre hb
    · rw [hcase, ← toSmall_eq]
      exact mapFirstLetter_first _ hpre hb

/-! ### The number of a roster slot (R71) -/

theorem decimalDigits_lt {n : Nat} (h : n < 16) :
    decimalDigits n = if n < 10 then [BitVec.ofNat 8 (0x30 + n)] else [0x31, BitVec.ofNat 8 (0x26 + n)] := by
  rw [decimalDigits]
  by_cases hten : n < 10
  · rw [if_pos hten, if_pos hten]
    rfl
  · rw [if_neg hten, if_neg hten, show n / 10 = 1 by omega, show 0x30 + n % 10 = 0x26 + n by omega]
    rfl

/-! ### The hyphen and the digits of raw steno (R76, R77) -/

/-- No key of some neighbouring ones is pressed. -/
theorem notPressed_iff (c : Chord) (first count : Nat) : (List.range count).all (fun k => !c.getLsbD (first + k)) = true ↔
    ∀ k, first ≤ k → k < first + count → c.getLsbD k = false := by
  simp only [List.all_eq_true, List.mem_range, Bool.not_eq_true']
  exact ⟨fun h k hle hlt => by simpa [Nat.add_sub_cancel' hle] using h (k - first) (by omega),
    fun h k hlt => h (first + k) (by omega) (by omega)⟩

/-- The hyphen stands before the first pressed key of the right bank, unless a key of the vowel group is pressed (R76). -/
theorem hyphenKey_iff {c : Chord} {i : Nat} (hi : i < 23) (hpressed : c.getLsbD i = true) : hyphenKey c = some i ↔
    13 ≤ i ∧ (List.range 5).all (fun k => !c.getLsbD (8 + k)) = true ∧
      (List.range (i - 13)).all (fun k => !c.getLsbD (13 + k)) = true := by
  have hvowels : anyPressed c vowelKeys = true ↔ ¬(List.range 5).all (fun k => !c.getLsbD (8 + k)) = true := by
    rw [show vowelKeys = (List.range 5).map (8 + ·) from rfl, anyPressed, List.any_map, List.any_eq_not_all_not, Bool.not_eq_true',
      Bool.not_eq_true]
    rfl
  have hfirst : rightKeys.find? (pressed c) = some i ↔ 13 ≤ i ∧ (List.range (i - 13)).all (fun k => !c.getLsbD (13 + k)) = true := by
    rw [show rightKeys = List.range' 13 10 from rfl, List.find?_range'_eq_some, notPressed_iff]
    simp only [List.mem_range'_1, Bool.not_eq_true']
    refine ⟨fun ⟨_, ⟨hle, _⟩, hbefore⟩ => ⟨hle, fun k hk hlt => hbefore k hk (by omega)⟩,
      fun ⟨hle, hbefore⟩ => ⟨hpressed, ⟨hle, by omega⟩, fun k hk hlt => hbefore k hk (by omega)⟩⟩
  rw [hyphenKey]
  by_cases hvowel : anyPressed c vowelKeys = true
  · rw [if_pos hvowel]
    exact ⟨(fun h => nomatch h), fun ⟨_, hall, _⟩ => absurd hall (hvowels.mp hvowel)⟩
  · rw [if_neg hvowel, hfirst]
    have hall := not_not.mp (mt hvowels.mpr hvowel)
    exact ⟨fun ⟨hle, hbefore⟩ => ⟨hle, hall, hbefore⟩, fun ⟨hle, _, hbefore⟩ => ⟨hle, hbefore⟩⟩

/-- Settles O56: each kind of content in its case, and the raw steno key by key. -/
theorem unitsRendered : Obligations.UnitsRendered := by
  unfold Obligations.UnitsRendered
  intro roster f g c text out name a after flagged newLine none' digit letters
  refine ⟨?_, ?_, rfl, ?_, rfl, rfl, ?_, ?_⟩
  · intro hne hlettered hafter
    rw [hafter, ← letterRule_lettered hlettered]
    show (if text = [] then renderEmptyText f g else renderText f text g) = _
    rw [if_neg hne, renderText, separator]
    simp only [Bool.or_eq_true, Bool.and_eq_true, or_assoc]
    rfl
  · rfl
  · intro hname
    have hspeaker : speakerName roster a.val = name := by
      rw [hname, speakerName, rosterName, List.getD_eq_getElem?_getD]
      cases roster[a.val]? with
      | none => exact (if_pos rfl).trans (congrArg _ (decimalDigits_lt a.isLt))
      | some l =>
        cases l with
        | nil => exact (if_pos rfl).trans (congrArg _ (decimalDigits_lt a.isLt))
        | cons x more => rfl
    rw [← hspeaker]
    rfl
  · show renderUntranslated f c = _
    rw [renderUntranslated]
    simp only [Bool.or_eq_true]
    rfl
  · have hdigits : (List.range 23).any (fun k => c.getLsbD k && (digit k).isSome) = anyPressed c (digitKeys.map Prod.fst) := by
      simp [List.range, List.range.loop, anyPressed, digitKeys, pressed, digit]
    have hdigit (i : Nat) (hi : i < 23) : digit i = digitOf i := by
      interval_cases i <;> rfl
    have hkey (i : Nat) (hi : i < 23) : keyText c i =
        if i = 0 then (if (List.range 23).any (fun k => c.getLsbD k && (digit k).isSome) then [] else [0x23#8])
        else match c.getLsbD 0, digit i with
          | true, some d => [d]
          | _, _ => [letters.getD i 0] := by
      rw [keyText, hdigits, hdigit i hi, pressed]
      split
      · rfl
      · cases c.getLsbD 0 <;> cases digitOf i <;> rfl
    rw [rawSteno]
    refine List.flatMap_congr fun i hi => ?_
    have hi' := List.mem_range.mp hi
    by_cases hp : c.getLsbD i = true
    · rw [if_pos hp, if_pos (show pressed c i = true from hp), hkey i hi', if_congr (hyphenKey_iff hi' hp) rfl rfl]
      rfl
    · rw [if_neg hp, if_neg (show ¬pressed c i = true from hp)]

end Sys2Proof.Proofs
end

section
/-! PROOFS. The end of a transaction, and the rows of the engine's works begun, made and ended (R40, R51, R182, R183). -/

namespace Sys2Proof.Proofs

open Sys2Proof.Machine

/-! ### A work that goes on -/

/-- The engine's work between two transactions writes its run, list, format and last stamp alone, and is the same work. -/
theorem useMade_keeps (w : EngineWork) (u : Use) (rest : List Use) (s : State) :
    SameWork w (useMade w u rest s).1 ∧ (useMade w u rest s).2.memory = s.memory ∧
      (useMade w u rest s).2.engine.activity = s.engine.activity ∧ (useMade w u rest s).2.engine.request = s.engine.request ∧
      (useMade w u rest s).2.engine.changePending = s.engine.changePending := by
  have hcarried := carryUse_only u s
  have hactivity := hcarried.activity
  have hrequest := hcarried.request
  have hchange := hcarried.change
  obtain ⟨_, _, _, _, hform⟩ := hcarried.form
  have hmemory : (carryUse u s).memory = s.memory := by rw [hform]
  obtain ⟨⟨_, _, _, _, hmoved⟩, hsame⟩ :=
    goOn_spec 5 ({ w with stage := w.stage.saw s.dict.slots u, left := turnUses s u ++ rest }, carryUse u s)
  have hmoved' : (useMade w u rest s).2 = _ := hmoved
  rw [hmoved']
  exact ⟨hsame, hmemory, hactivity, hrequest, hchange⟩

/-- A work that asks for nothing has only its row left. -/
theorem goesOn_rowLeft {x y : EngineWork × State} (h : GoesOn x y) (hleft : y.1.left = []) :
    ∃ a b, y.1.stage = .ending a b := by
  induction h with
  | asks hne => exact absurd hleft hne
  | waits _ hstage => exact ⟨_, _, hstage⟩
  | reads _ hmore => exact absurd hleft hmore
  | stage _ _ _ _ ih => exact ih hleft

theorem made_iff (w : EngineWork) : w.made = true ↔ w.left = [] ∧ ∃ a b, w.stage = .ending a b := by
  rw [EngineWork.made, Bool.and_eq_true, List.isEmpty_iff]
  refine ⟨fun ⟨hlast, hleft⟩ => ⟨hleft, rank_zero hlast⟩, fun ⟨hleft, a, b, hstage⟩ => ⟨?_, hleft⟩⟩
  rw [hstage]
  rfl

/-- A work with all its transactions made has none to make. -/
theorem finishWork_rowLeft {w : EngineWork} {a b : Nat} (hleft : w.left = []) (hstage : w.stage = .ending a b) (s : State) :
    finishWork 5 (w, s) = (w, s) := by
  obtain ⟨kind, tiers, shown, stage, left⟩ := w
  cases hleft
  cases hstage
  rw [finishWork_last rfl, stageMade_eq]
  rfl

/-! ### Nobody but the engine asks -/

theorem engineAlone_iff (s : State) : engineAlone s = true ↔ EngineAlone s := by
  simp [engineAlone, memoryFree, requesting, EngineAlone, and_assoc]

/-- Whether anyone else asks does not change as a work begins. -/
theorem engineAlone_moved {s t : State} {k : WorkKind} (h : EngineMoved (startedWork s k) t) : engineAlone t = engineAlone s := by
  obtain ⟨_, _, _, _, rfl⟩ := h
  obtain ⟨b, hs⟩ := startedWork_shape k s
  rw [hs]
  rfl

/-! ### The rows of the engine's works (R40, R41, R183; log entries 2 and 9) -/

section
variable {k : WorkKind} {s : State} {w : EngineWork}

/-- What a row comes to with a work that it ends. -/
theorem endsWork_alone {x : EngineWork × State} (h : engineAlone x.2 = true) :
    ∃ y t, MadeAlone x y ∧ WorkEnds y.1 y.2 t ∧ endsWork x = some t :=
  ⟨finishWork 5 x, workEnds (finishWork 5 x).1 (finishWork 5 x).2, finishWork_made 5 x (rank_le _), workEnds_ends _ _, if_pos h⟩

/-- A work whose transactions are made ends, whoever asks. -/
theorem endsWork_made {a b : Nat} (hleft : w.left = []) (hstage : w.stage = .ending a b) :
    endsWork (w, s) = some (workEnds w s) := by
  rw [endsWork]
  split
  · rw [finishWork_rowLeft hleft hstage]
  · exact if_pos ((made_iff w).mpr ⟨hleft, a, b, hstage⟩)

/-- A work with transactions to make waits while others ask. -/
theorem endsWork_waits {x : EngineWork × State} (h : ¬engineAlone x.2 = true) (hleft : x.1.left ≠ []) : endsWork x = none := by
  rw [endsWork, if_neg h, if_neg fun hmade => hleft ((made_iff x.1).mp hmade).1]

theorem engineRow_held (h : s.memory.engineWork = some w) (hk : w.kind = k) : engineRow k s = (endsWork (w, s)).getD s := by
  rw [engineRow, h]
  exact if_pos hk

theorem engineRow_other (h : s.memory.engineWork = some w) (hk : w.kind ≠ k) : engineRow k s = s := by
  rw [engineRow, h]
  exact if_neg hk

theorem engineRow_begins (h : s.memory.engineWork = none) (hready : WorkReady s k) :
    engineRow k s = (endsWork (if engineAlone s then opened k s else begun k s)).getD s := by
  rw [engineRow, h]
  exact if_pos ((mayBegin_iff s k).mpr hready)

/-- A row whose work has begun. -/
theorem engineRow_goesOn {i : Instr} (hrow : exec i s = .next (engineRow k s)) (h : s.memory.engineWork = some w) (hk : w.kind = k) :
    (EngineAlone s → ∃ y t, MadeAlone (w, s) y ∧ WorkEnds y.1 y.2 t ∧ exec i s = .next t) ∧
    (∀ n m, w.left = [] → w.stage = .ending n m → ∃ t, WorkEnds w s t ∧ exec i s = .next t) ∧
    (¬EngineAlone s → w.left ≠ [] → exec i s = .next s) := by
  rw [hrow, engineRow_held h hk]
  refine ⟨fun halone => ?_, fun n m hleft hstage => ⟨workEnds w s, workEnds_ends w s, ?_⟩, fun hothers hleft => ?_⟩
  · obtain ⟨y, t, hmade, hends, ht⟩ := endsWork_alone (x := (w, s)) ((engineAlone_iff s).mpr halone)
    exact ⟨y, t, hmade, hends, by rw [ht]; rfl⟩
  · rw [endsWork_made hleft hstage]
    rfl
  · rw [endsWork_waits (x := (w, s)) (mt (engineAlone_iff s).mp hothers) hleft]
    rfl

/-- A row whose work has not begun and is ready. -/
theorem engineRow_starts {i : Instr} (hrow : exec i s = .next (engineRow k s)) (h : s.memory.engineWork = none) (hready : WorkReady s k) :
    ∃ x, WorkBegun k s x ∧
      (EngineAlone s → ∃ y t, MadeAlone x y ∧ WorkEnds y.1 y.2 t ∧ exec i s = .next t) ∧
      (¬EngineAlone s → ∃ y, GoesOn x y ∧
        (y.1.left = [] → ∃ t, WorkEnds y.1 y.2 t ∧ exec i s = .next t) ∧
        (y.1.left ≠ [] → exec i s = .next s)) := by
  rw [hrow, engineRow_begins h hready]
  refine ⟨opened k s, opened_begun k s, fun halone => ?_, fun hothers => ⟨begun k s, begun_goesOn k s, fun hleft => ?_, fun hleft => ?_⟩⟩
  · have hs : engineAlone s = true := (engineAlone_iff s).mpr halone
    obtain ⟨y, t, hmade, hends, ht⟩ := endsWork_alone (x := opened k s) ((engineAlone_moved (opened_spec k s).1).trans hs)
    refine ⟨y, t, hmade, hends, ?_⟩
    rw [if_pos hs, ht]
    rfl
  · obtain ⟨a, b, hstage⟩ := goesOn_rowLeft (begun_goesOn k s) hleft
    refine ⟨workEnds (begun k s).1 (begun k s).2, workEnds_ends _ _, ?_⟩
    rw [if_neg (mt (engineAlone_iff s).mp hothers), endsWork_made (w := (begun k s).1) (s := (begun k s).2) hleft hstage]
    rfl
  · have hs : ¬engineAlone s = true := mt (engineAlone_iff s).mp hothers
    have hbegun : ¬engineAlone (begun k s).2 = true := fun hb => hs ((engineAlone_moved (begun_spec k s).1).symm.trans hb)
    rw [if_neg hs, endsWork_waits hbegun hleft]
    rfl

theorem engineRow_notReady (h : s.memory.engineWork = none) (hready : ¬WorkReady s k) : engineRow k s = s :=
  engineRow_idle h (Bool.eq_false_iff.mpr fun hb => hready ((mayBegin_iff s k).mp hb))

/-- A CLOSE that waits has its settle come before an expiry that is ready. -/
theorem closeWaits_of_expiry (hready : WorkReady s .expiry) : closeWaits s = true ↔ WorkReady s .closeSettle := by
  obtain ⟨hallowed, hchange, hpending, hcursor, -⟩ := hready
  rw [closeWaits_iff]
  exact ⟨fun ⟨hcloses, hintake⟩ => ⟨hallowed, hchange, hpending, hcursor, hintake, hcloses⟩,
    fun ⟨_, _, _, _, hintake, hcloses⟩ => ⟨hcloses, hintake⟩⟩

end

/-- What the obligation says of one row of the engine's works. -/
def RowSays (k : WorkKind) (i : Instr) (ew : EngineWork) (s : State) : Prop :=
  (s.memory.engineWork = some ew → ew.kind ≠ k → exec i s = .next s) ∧
  (s.memory.engineWork = some ew → ew.kind = k →
    (EngineAlone s → ∃ y t, MadeAlone (ew, s) y ∧ WorkEnds y.1 y.2 t ∧ exec i s = .next t) ∧
    (∀ n m, ew.left = [] → ew.stage = .ending n m → ∃ t, WorkEnds ew s t ∧ exec i s = .next t) ∧
    (¬EngineAlone s → ew.left ≠ [] → exec i s = .next s)) ∧
  (s.memory.engineWork = none → WorkReady s k → (i = .expiry false → ¬WorkReady s .closeSettle) →
    ∃ x, WorkBegun k s x ∧
      (EngineAlone s → ∃ y t, MadeAlone x y ∧ WorkEnds y.1 y.2 t ∧ exec i s = .next t) ∧
      (¬EngineAlone s → ∃ y, GoesOn x y ∧
        (y.1.left = [] → ∃ t, WorkEnds y.1 y.2 t ∧ exec i s = .next t) ∧
        (y.1.left ≠ [] → exec i s = .next s))) ∧
  (s.memory.engineWork = none → (¬WorkReady s k ∨ (i = .expiry false ∧ WorkReady s .closeSettle)) → exec i s = .next s)

/-- A row that is only that of its work. -/
theorem rowSays_engineRow {k : WorkKind} {i : Instr} (ew : EngineWork) {s : State} (hrow : exec i s = .next (engineRow k s))
    (hi : i ≠ .expiry false) : RowSays k i ew s := by
  refine ⟨fun h hk => hrow.trans (congrArg _ (engineRow_other h hk)), fun h hk => engineRow_goesOn hrow h hk,
    fun h hready _ => engineRow_starts hrow h hready, fun h hnot => ?_⟩
  rcases hnot with hready | ⟨hexpiry, -⟩
  · exact hrow.trans (congrArg _ (engineRow_notReady h hready))
  · exact absurd hexpiry hi

/-- An expiry that lets a CLOSE's settle come first (log entry 41). -/
theorem rowSays_expiry (ew : EngineWork) (s : State) : RowSays .expiry (.expiry false) ew s := by
  have hrow (h : s.memory.engineWork.isNone = true → ¬closeWaits s = true) :
      exec (.expiry false) s = .next (engineRow .expiry s) := by
    refine congrArg _ (if_neg ?_)
    simp only [Bool.and_eq_true]
    exact fun hh => h hh.1.1 hh.1.2
  have hheld {w : EngineWork} (h : s.memory.engineWork = some w) : exec (.expiry false) s = .next (engineRow .expiry s) :=
    hrow fun hnone => by rw [h] at hnone; cases hnone
  refine ⟨fun h hk => (hheld h).trans (congrArg _ (engineRow_other h hk)), fun h hk => engineRow_goesOn (hheld h) h hk,
    fun h hready hfirst => engineRow_starts (hrow fun _ hwaits => hfirst rfl ((closeWaits_of_expiry hready).mp hwaits)) h hready,
    fun h hnot => ?_⟩
  by_cases hwaits : closeWaits s = true
  · refine congrArg _ (if_pos ?_)
    rw [h, hwaits]
    rfl
  · refine (hrow fun _ => hwaits).trans (congrArg _ (engineRow_notReady h fun hready => ?_))
    rcases hnot with hn | ⟨-, hclose⟩
    · exact hn hready
    · exact hwaits ((closeWaits_of_expiry hready).mpr hclose)

/-! ### Which block a transaction's end goes to (R182) -/

section
variable {s : State} {tx : Transaction}

theorem exec_complete {t : State} (h : transactionEnds s = t) : exec .memoryTransactionComplete s = .next t :=
  congrArg Host.Outcome.next h

theorem transactionEnds_engine (htx : s.memory.inProgress = some tx) (hwork : tx.work = .engine) :
    transactionEnds s = engineUseEnds (endTransaction s) := by
  simp only [transactionEnds, htx, hwork]

theorem transactionEnds_maint (htx : s.memory.inProgress = some tx) (hwork : tx.work = .maint) :
    transactionEnds s = maintUseEnds (endTransaction s) := by
  simp only [transactionEnds, htx, hwork]

theorem transactionEnds_change (htx : s.memory.inProgress = some tx) (hwork : tx.work = .change) :
    transactionEnds s = changeEnds (endTransaction s) := by
  simp only [transactionEnds, htx, hwork]

theorem transactionEnds_fetchRead (htx : s.memory.inProgress = some tx) (hwork : tx.work = .fetchRead) :
    transactionEnds s = fetchReadEnds (endTransaction s) := by
  simp only [transactionEnds, htx, hwork]

theorem transactionEnds_dropped (htx : s.memory.inProgress = some tx) (hwork : tx.work = .dropped) :
    transactionEnds s = endTransaction s := by
  simp only [transactionEnds, htx, hwork]

end

/-! ### The end of a transaction of MAINT (R37, R130, R140, R190) -/

section
variable {s : State} {tx : Transaction} {m : MaintWork} {ms : List MaintUse} {u : MaintUse}

/-- A transaction of the maintenance unit ends with what it writes, and the step goes on. -/
theorem maint_ends (htx : s.memory.inProgress = some tx) (hwork : tx.work = .maint) (hm : s.memory.maintWork = some m)
    (hleft : m.left = u :: ms) : exec .memoryTransactionComplete s = .next
      { s with
        dict := u.carry s.dict
        memory := { s.memory with
          inProgress := none
          maintWork := some { m with removed := m.removed + u.found s.dict.slots, left := u.goesOn s.dict.slots ++ ms } } } := by
  have hm' : (endTransaction s).memory.maintWork = some m := hm
  refine exec_complete ((transactionEnds_maint htx hwork).trans ?_)
  rw [maintUseEnds, hm']
  simp only [hleft]
  rfl

theorem ofTier_false {v : Slot} {t : TierId} (h : ∀ r, v = .occupied r → r.tier ≠ t) : v.ofTier t = false := by
  cases v with
  | empty => rfl
  | vacated => rfl
  | occupied r => exact decide_eq_false (h r rfl)

end

/-! ### The obligation -/

/-- Settles O58: each kind of transaction at its end, the rows of the engine's works, and the resolution by reads. -/
theorem transactionsEnd : Obligations.TransactionsEnd := by
  unfold Obligations.TransactionsEnd
  refine ⟨?_, fun slots table seen tiers run h => formedBy_forms h⟩
  intro tx w b more works ew u us mw ms s ended idle rows
  refine ⟨rfl, fun hnone => ?_, fun htx hwork => exec_complete (transactionEnds_dropped htx hwork),
    fun htx hwork hengine hleft => ?_, fun htx hwork hmaint => ?_, fun htx hwork hlog => ?_, fun row hrow => ?_,
    fun htx hwork hlog hreads => ?_⟩
  · refine exec_complete ?_
    simp only [transactionEnds, hnone]
  · obtain ⟨⟨hkind, htiers, hshown⟩, hmemory, hactivity, hrequest, hchange⟩ := useMade_keeps ew u us idle
    refine ⟨useMade ew u us idle, hkind, htiers, hshown, hactivity, hrequest, hchange, useMade_goesOn ew u us idle, exec_complete ?_⟩
    have hengine' : (endTransaction s).memory.engineWork = some ew := hengine
    refine (transactionEnds_engine htx hwork).trans ?_
    rw [engineUseEnds, hengine']
    simp only [hleft]
    show setWork (useMade ew u us idle) = _
    rw [setWork, hmemory]
  · intro goesTo
    refine ⟨fun h hleft => maint_ends htx hwork hmaint hleft, fun n hleft => maint_ends htx hwork hmaint hleft,
      fun n v hleft => maint_ends htx hwork hmaint hleft, fun t n hleft hn => ?_, fun n hleft hn => ?_⟩
    · intro on
      have hmade := maint_ends htx hwork hmaint hleft
      have hfound : MaintUse.found (.sweep t n) s.dict.slots = if (slotAt s.dict.slots n).ofTier t then 1 else 0 := rfl
      have hnext : MaintUse.goesOn (.sweep t n) s.dict.slots =
        (if (slotAt s.dict.slots n).ofTier t then vacateUses s.dict.slots (BitVec.ofNat 18 n) else []) ++ on := rfl
      rw [hfound, hnext] at hmade
      refine ⟨fun hother => ?_, fun r hslot htier => ?_⟩
      · rw [ofTier_false hother] at hmade
        exact hmade
      · have hof : (slotAt s.dict.slots n).ofTier t = true := by
          rw [hslot]
          exact decide_eq_true htier
        rw [hof] at hmade
        exact hmade
    · have hmade := maint_ends htx hwork hmaint hleft
      have hn' : (BitVec.ofNat 18 n).toNat = n := BitVec.toNat_ofNat n 18 ▸ Nat.mod_eq_of_lt hn
      have hcarry : MaintUse.carry (.empty n) s.dict = { s.dict with slots := writeSlot s.dict.slots n .empty } := by
        rw [MaintUse.carry, hn']
      rw [hcarry] at hmade
      exact hmade
  · intro made
    have hchanged : transactionEnds s = guardSettled made := by
      rw [transactionEnds_change htx hwork, changeEnds]
      show guardSettled { s with memory := { ended with logWork := LogWork.made s.memory.logWork } } = _
      rw [hlog]
      rfl
    refine ⟨fun hmore => exec_complete (hchanged.trans ?_), fun hlast => exec_complete (hchanged.trans ?_)⟩
    · exact if_pos ((changesWait_iff made).mpr hmore)
    · rw [guardSettled, if_neg fun hwaits => ?_, endWork_eq]
      obtain ⟨b', hb'⟩ := (changesWait_iff made).mp hwaits
      exact hlast b' hb'
  · show RowSays row.1 row.2 ew s
    simp only [rows, List.mem_cons, List.not_mem_nil, or_false] at hrow
    rcases hrow with rfl | rfl | rfl | rfl | rfl | rfl | rfl | rfl
    · exact rowSays_engineRow ew rfl nofun
    · exact rowSays_engineRow ew rfl nofun
    · exact rowSays_engineRow ew rfl nofun
    · exact rowSays_engineRow ew rfl nofun
    · exact rowSays_engineRow ew (congrArg _ (if_neg (by simp))) (by simp)
    · exact rowSays_expiry ew s
    · exact rowSays_engineRow ew rfl nofun
    · exact rowSays_engineRow ew rfl nofun
  · have hends : transactionEnds s = fetchReadEnds idle := transactionEnds_fetchRead htx hwork
    have hlog' : idle.memory.logWork = .fetch w :: works := hlog
    rw [fetchReadEnds, hlog'] at hends
    refine ⟨fun hlast => exec_complete (hends.trans ?_), fun hmore => exec_complete (hends.trans ?_)⟩
    · have hone : w.reads.length ≤ 1 := by rw [hreads, hlast]; rfl
      exact if_pos hone
    · have htwo : ¬w.reads.length ≤ 1 := by
        rw [hreads, List.length_cons, Nat.succ_le_succ_iff, Nat.le_zero, List.length_eq_zero_iff]
        exact hmore
      refine (if_neg htwo).trans ?_
      rw [hreads]
      rfl

end Sys2Proof.Proofs
end

section
/-! PROOFS. The RESET line and RESTART: the reset values, and the transaction that a reset meets (R19, R38, R108, R180, R187,
R189). -/

namespace Sys2Proof.Proofs

open Sys2Proof.Machine

/-! ### The reset values (R19, R38, R189) -/

/-- A pull cursor as the default classes leave it, created where it was none. -/
def cursorAtReset (j : Journal) (c : Option PullCursor) : Option PullCursor := some (c.getD ⟨j.oldest, 0⟩)

/-- The part with every block at its reset values, over a journal and a table. -/
def resetState (line : Bool) (outcome : TableOutcome) (ports : Quad Port) (j : Journal) (d : Dictionary) (pending : List Instr) : State :=
  { State.reset with
    device := ⟨if line then .held else .starting, .readHeader, if line then .resetLine else .restart, outcome⟩
    ports := ports.map (fun q => ⟨.idle, .clear, q.dataOut⟩)
    journal := { j with
      cursor := j.head + 1
      pull := ⟨cursorAtReset j (j.pull.get 0), cursorAtReset j (j.pull.get 1), none, none⟩ }
    dict := { d with tiers := ⟨⟨true, false, false⟩, ⟨true, false, false⟩, ⟨true, false, false⟩, ⟨true, false, false⟩⟩ }
    pending := pending }

theorem resetPart_line (s : State) : resetPart .resetLine .held s =
    resetState true s.device.outcome s.ports (appendInFlight s).journal (appendInFlight s).dict s.pending := by
  rw [resetPart_eq]
  rfl

theorem resetPart_restart (s : State) : resetPart .restart .starting s =
    resetState false s.device.outcome s.ports (appendInFlight s).journal (appendInFlight s).dict s.pending := by
  rw [resetPart_eq]
  rfl

/-! ### The transaction that a reset meets (R19, R108, R187) -/

section
variable {s : State}

/-- A transaction that writes neither the journal nor the table leaves nothing. -/
theorem carried_nothing (happend : ∀ tx, s.memory.inProgress = some tx → tx.work ≠ .journalAppend ∧ tx.work ≠ .maint ∧
    (tx.work = .engine → ∀ ew x us, s.memory.engineWork = some ew → ew.left ≠ .write x :: us)) :
    (appendInFlight s).journal = s.journal ∧ (appendInFlight s).dict = s.dict := by
  rw [appendInFlight]
  cases htx : s.memory.inProgress with
  | none => exact ⟨rfl, rfl⟩
  | some tx =>
    obtain ⟨hnotappend, hnotmaint, hengine⟩ := happend tx htx
    obtain ⟨r, b, work⟩ := tx
    cases work with
    | journalAppend => exact absurd rfl hnotappend
    | maint => exact absurd rfl hnotmaint
    | engine =>
      refine ⟨?_, engineUseEnds_dict s⟩
      show (engineUseEnds s).journal = s.journal
      rw [engineUseEnds_journal]
      split
      · next x hhead =>
        obtain ⟨ew, hew, hx⟩ := Option.bind_eq_some_iff.mp hhead
        obtain ⟨us, hleft⟩ := List.head?_eq_some_iff.mp hx
        exact absurd hleft (hengine rfl ew x us hew)
      · rfl
    | headerRead => exact ⟨rfl, rfl⟩
    | pullRead => exact ⟨rfl, rfl⟩
    | fetchRead => exact ⟨rfl, rfl⟩
    | startAppend => exact ⟨rfl, rfl⟩
    | endAppend => exact ⟨rfl, rfl⟩
    | change => exact ⟨rfl, rfl⟩
    | dropped => exact ⟨rfl, rfl⟩

/-- A journal write of a strike's take is kept (R108). -/
theorem carried_write {r : MemRequester} {b : Block} {ew : EngineWork} {x : JournalWrite} {us : List Use}
    (htx : s.memory.inProgress = some ⟨r, b, .engine⟩) (hew : s.memory.engineWork = some ew) (hleft : ew.left = .write x :: us) :
    (appendInFlight s).journal = s.journal.write x ∧ (appendInFlight s).dict = s.dict := by
  have hends : appendInFlight s = engineUseEnds s := by
    rw [appendInFlight, htx]
  rw [hends, engineUseEnds_dict, engineUseEnds_journal, hew, Option.bind_some, hleft]
  exact ⟨rfl, rfl⟩

/-- A journal append is made (R19). -/
theorem carried_append {r : MemRequester} {b : Block} {w : IntakeWork} {rest : List IntakeWork}
    (htx : s.memory.inProgress = some ⟨r, b, .journalAppend⟩) (hintake : s.memory.intakeWork = w :: rest) :
    (appendInFlight s).journal = s.journal.append (newRecord s.journal w s.session.clock) ∧ (appendInFlight s).dict = s.dict := by
  rw [appendInFlight, htx, hintake]
  exact ⟨rfl, rfl⟩

/-- A transaction of MAINT leaves what it writes of the table (R187). -/
theorem carried_maint {r : MemRequester} {b : Block} {mw : MaintWork} {u : MaintUse} {us : List MaintUse}
    (htx : s.memory.inProgress = some ⟨r, b, .maint⟩) (hmw : s.memory.maintWork = some mw) (hleft : mw.left = u :: us) :
    (appendInFlight s).journal = s.journal ∧ (appendInFlight s).dict = u.carry s.dict := by
  have hends : appendInFlight s = maintUseEnds s := by
    rw [appendInFlight, htx]
  have hmade : maintUseEnds s = { s with
      dict := u.carry s.dict
      memory := { s.memory with maintWork := some { mw with
        removed := mw.removed + u.found s.dict.slots, left := u.goesOn s.dict.slots ++ us } } } := by
    rw [maintUseEnds, hmw]
    simp only [hleft]
  rw [hends, hmade]
  exact ⟨rfl, rfl⟩

end

/-! ### What a reset does -/

/-- What of the transaction in progress outlasts a reset: the same whatever the ports are. -/
def Leaves (s : State) (j : Journal) (d : Dictionary) : Prop :=
  ∀ t : State, t.memory = s.memory → t.journal = s.journal → t.dict = s.dict → t.session = s.session →
    (appendInFlight t).journal = j ∧ (appendInFlight t).dict = d

/-- Without a header read to set the outcome, none is set (log entry 34). -/
theorem headerReadMet_same {sets : Bool} {s : State}
    (h : sets = true → ∀ tx, s.memory.inProgress = some tx → tx.work ≠ .headerRead) : headerReadMet sets s = s := by
  rw [headerReadMet]
  cases htx : s.memory.inProgress with
  | none => rfl
  | some tx => exact if_neg fun ⟨hsets, hwork⟩ => h hsets tx htx hwork

/-- An assertion of the RESET line of 1 µs or more. -/
theorem exec_resetLine {ns : Nat} {sets : Bool} {s : State} {j : Journal} {d : Dictionary} (hns : 1000 ≤ ns)
    (hmet : sets = true → ∀ tx, s.memory.inProgress = some tx → tx.work ≠ .headerRead) (h : Leaves s j d) :
    exec (.resetLine ns sets) s = .next (resetState true s.device.outcome s.ports j d s.pending) := by
  obtain ⟨hj, hd⟩ := h s rfl rfl rfl rfl
  have hlong : ¬ns < Config.resetLineNs := Nat.not_lt.mpr hns
  show Host.Outcome.next (resetAsserted ns sets s) = _
  rw [resetAsserted, if_neg hlong, headerReadMet_same hmet, resetPart_line, hj, hd]

/-- A RESTART that is taken. -/
theorem exec_restart {p : PortId} {tag : Byte} {s : State} {j : Journal} {d : Dictionary} (htaken : Taken p .restart s)
    (h : Leaves s j d) : exec (.restart p tag [] false) s =
      .next (resetState false s.device.outcome (working p [] s).ports j d s.pending) := by
  obtain ⟨hj, hd⟩ := h (working p [] s) rfl rfl rfl rfl
  rw [exec_of_fields_ok (a := ()) htaken (Nat.zero_le _) rfl rfl, resetPart_restart, hj, hd]
  rfl

/-- A reset that meets a header read, which sets the outcome (log entry 34). -/
theorem exec_resetLine_read {ns : Nat} {r : MemRequester} {b : Block} {s : State} (hns : 1000 ≤ ns)
    (htx : s.memory.inProgress = some ⟨r, b, .headerRead⟩) : exec (.resetLine ns true) s =
      .next (resetState true (if s.dict.header = .consistent then .kept else .emptied) s.ports s.journal s.dict s.pending) := by
  have hlong : ¬ns < Config.resetLineNs := Nat.not_lt.mpr hns
  have hmet : headerReadMet true s =
      { s with device := { s.device with outcome := if s.dict.header = .consistent then .kept else .emptied } } := by
    rw [headerReadMet, htx]
    refine (if_pos ⟨rfl, rfl⟩).trans ?_
    cases s.dict.header <;> rfl
  obtain ⟨hj, hd⟩ := carried_nothing (s := headerReadMet true s) fun tx h => by
    have htx' : (headerReadMet true s).memory.inProgress = some ⟨r, b, .headerRead⟩ := by rw [hmet, htx]
    rw [htx'] at h
    cases h
    exact ⟨nofun, nofun, nofun⟩
  show Host.Outcome.next (resetAsserted ns true s) = _
  rw [resetAsserted, if_neg hlong, resetPart_line, hj, hd, hmet]

/-- The state of the part right after a RESTART is one in which another may have come together with it (log entry 19). -/
theorem justRestarted_resetState (outcome : TableOutcome) (ports : Quad Port) (j : Journal) (d : Dictionary) (pending : List Instr) :
    justRestarted (resetState false outcome ports j d pending) = true := by
  have hidle (p : PortId) : ((ports.map (fun q => (⟨.idle, .clear, q.dataOut⟩ : Port))).get p).exchange = .idle := by
    rw [Quad.get_map]
  have hports : allFour.all (fun p => decide (((resetState false outcome ports j d pending).ports.get p).exchange = .idle)) = true :=
    List.all_eq_true.mpr fun p _ => decide_eq_true (hidle p)
  rw [justRestarted, hports, Bool.and_true]
  simp [resetState, State.reset]

/-- Settles O59: the two resets over what the transaction in progress leaves, and the RESTARTs and assertions that reset nothing. -/
theorem resetsAndTheirValues : Obligations.ResetsAndTheirValues := by
  unfold Obligations.ResetsAndTheirValues
  intro p q tag body ns sets line c s row values restarted leaves
  refine ⟨fun hreset => ?_, fun r b hns htx => exec_resetLine_read hns htx, ?_, fun htaken hne hfits => ?_, fun hshort => ?_⟩
  · have hleaves {j : Journal} {d : Dictionary} (h : Leaves s j d) : leaves j d := by
      rcases hreset with ⟨rfl, hns, rfl, hmet⟩ | ⟨rfl, htaken, rfl⟩
      · exact exec_resetLine hns hmet h
      · exact exec_restart htaken h
    refine ⟨fun hnothing => hleaves fun t hm hj hd _ => ?_, fun r b ew us x htx hew hleft => hleaves fun t hm hj hd _ => ?_,
      fun w rest b htx hintake => ?_, fun r b mw u us htx hmw hleft => hleaves fun t hm hj hd _ => ?_⟩
    · rw [← hj, ← hd]
      rw [← hm] at hnothing
      exact carried_nothing hnothing
    · rw [← hj, ← hd]
      rw [← hm] at htx hew
      exact carried_write htx hew hleft
    · intro record
      have happended (t : State) (hm : t.memory = s.memory) (hj : t.journal = s.journal) (hd : t.dict = s.dict)
          (hsession : t.session = s.session) :
          (appendInFlight t).journal = s.journal.append record ∧ (appendInFlight t).dict = s.dict := by
        rw [← hm] at htx hintake
        obtain ⟨hjournal, hdict⟩ := carried_append htx hintake
        rw [hjournal, hdict, newRecord_eq, hj, hd, hsession]
        exact ⟨rfl, rfl⟩
      refine ⟨fun hroom => hleaves ?_, fun hfull => hleaves ?_⟩
      · rw [← append_room hroom]
        exact happended
      · have hnot : ¬s.journal.held < Config.journalRing := by
          rw [hfull]
          decide
        have hjournal := append_full hnot record
        have hleft : Leaves s (s.journal.append record) s.dict := happended
        rw [hjournal] at hleft
        exact hleft
    · rw [← hm] at htx hmw
      obtain ⟨hjournal, hdict⟩ := carried_maint htx hmw hleft
      refine ⟨hjournal.trans hj, hdict.trans ?_⟩
      rw [hd]
      cases u with
      | header h => rfl
      | read n => rfl
      | write n v => rfl
      | sweep l n => rfl
      | empty n => exact congrArg (fun m => ({ s.dict with slots := writeSlot s.dict.slots m .empty } : Dictionary)) (BitVec.toNat_ofNat n 18)
  · have hjust : justRestarted restarted = true := justRestarted_resetState _ _ _ _ _
    show Host.Outcome.next (restarts q tag body true restarted) = _
    rw [restarts, hjust]
    have hcleared : (restarted.ports.get q).slot = .clear :=
      congrArg Port.slot (Quad.get_map (fun x : Port => (⟨.idle, .clear, x.dataOut⟩ : Port)) (working p [] s).ports q)
    let driven : Port := ⟨.idle, (restarted.ports.get q).slot, List.replicate (4 + body.length) 0#8⟩
    show Host.Outcome.next { restarted with ports := restarted.ports.set q driven } = _
    rw [show driven = ⟨.idle, .clear, List.replicate (4 + body.length) 0#8⟩ from by rw [← hcleared]]
  · refine exec_of_fields_error htaken hfits rfl ?_
    cases body with
    | nil => exact absurd rfl hne
    | cons b rest => rfl
  · exact congrArg Host.Outcome.next (if_pos hshort)

end Sys2Proof.Proofs
end

section
/-! PROOFS. Power-on and start-up (R187 to R191). -/

namespace Sys2Proof.Proofs

open Sys2Proof.Machine

/-! ### The header read (R190) -/

section
variable {s : State}

/-- The device once the header is read. -/
def readDevice (h : Header) (d : Device) : Device :=
  ⟨d.state, if h = .consistent then .done else .sweep, d.cause, if h = .consistent then .kept else .emptied⟩

theorem headerOutcome_eq (h : Header) (d : Device) : headerOutcome h d = readDevice h d := by
  cases h <;> rfl

/-- The read in progress ends with what the header says. -/
theorem headerReadEnds_granted {t : State} (hstate : s.device.state = .starting) (hstage : s.device.startup = .readHeader)
    (h : granted .headerRead s = some t) :
    headerReadEnds s = endTransaction { t with device := readDevice t.dict.header t.device } := by
  rw [headerReadEnds, if_pos ⟨hstate, hstage⟩, h]
  exact congrArg (fun d => endTransaction { t with device := d }) (headerOutcome_eq _ _)

/-- With nobody else asking, the header's read is granted in its row. -/
theorem granted_headerRead (hm : MemoryQuiet s) (harb : ArbiterSound s) (hstate : s.device.state = .starting)
    (hstage : s.device.startup = .readHeader) : granted .headerRead s =
      some { s with memory := { afterGrants .maint s.memory with inProgress := some ⟨.maint, .header, .headerRead⟩ } } := by
  obtain ⟨hidle, hintake, hlog, hpull, hengine, -⟩ := hm
  obtain ⟨hperm, -⟩ := harb
  have halone : ∀ q, q ≠ MemRequester.maint → requestOf s q = none := fun q hq => by
    cases q with
    | intake => exact requestOf_intake_none hintake
    | xlate => exact engineTransaction_none hengine _ _
    | log => exact (requestOf_log_engine hlog).trans (engineTransaction_none hengine _ _)
    | maint => exact absurd rfl hq
    | pull => exact requestOf_pull_none hpull
  have hgrant := grant_alone hidle (r := .maint) (by decide) (hperm.mem_iff.mpr (by decide))
    (requestOf_headerRead hstate hstage) halone
  rw [granted, hgrant]
  rfl

/-! ### The sweep of start-up (R188, R190, R191) -/

/-- The writes of start-up leave an empty table with a CONSISTENT header. -/
theorem stepWrites_startup (hstate : s.device.state = .starting) (hstage : s.device.startup = .sweep) :
    maintUses s ≠ [] ∧ (stepWrites (begunStep s) s.dict).1 = { s.dict with slots := [], header := .consistent } := by
  have huses : maintUses s = startupUses s := if_pos ⟨hstate, hstage⟩
  have hempty : s.dict.slots.filter (fun k => decide (k.1 < 0)) = [] := List.filter_eq_nil_iff.mpr fun k _ => by simp
  have hsweep (d : Dictionary) (h : d.slots = s.dict.slots) (k : Nat) :
      ([MaintUse.empty 0, .header .consistent].foldl MaintUse.carryAll (d, k)).1 = { d with slots := [], header := .consistent } := by
    show ({ d with slots := d.slots.filter (fun k => decide (k.1 < 0)), header := .consistent } : Dictionary) = _
    rw [h, hempty]
  refine ⟨huses ▸ List.append_ne_nil_of_right_ne_nil _ (List.cons_ne_nil _ _), ?_⟩
  show ((maintUses s).foldl MaintUse.carryAll (s.dict, 0)).1 = _
  rw [huses, startupUses]
  split
  · exact hsweep { s.dict with header := .writing } rfl 0
  · exact hsweep s.dict rfl 0

theorem startupCompletes_sweep (hstate : s.device.state = .starting) (hstage : s.device.startup = .sweep) :
    startupCompletes s = maintStep (fun _ => becomeReady) s := by
  rw [startupCompletes, if_pos hstate, hstage]

theorem startupCompletes_done (hstate : s.device.state = .starting) (hstage : s.device.startup = .done) :
    startupCompletes s = becomeReady s := by
  rw [startupCompletes, if_pos hstate, hstage]

end

/-- Settles O60: power-on, the release, the header's read in progress or made in its row, and the two ends of start-up. -/
theorem powerOnAndStartUp : Obligations.PowerOnAndStartUp := by
  unfold Obligations.PowerOnAndStartUp
  intro r b s device port other tier
  refine ⟨rfl, fun hheld => congrArg _ (if_pos hheld), fun hstate hstage => ⟨fun htx => ?_, fun hm harb => ?_⟩,
    fun hstate hstage hm => ?_, fun w hstate hstage hw => ⟨fun hleft => ?_, fun hleft hbusy => ?_⟩, fun hstate hstage => ?_⟩
  · have hends := headerReadEnds_granted hstate hstage (granted_inProgress htx)
    rw [readDevice, hstate] at hends
    exact congrArg Host.Outcome.next hends
  · have hends := headerReadEnds_granted hstate hstage (granted_headerRead hm harb hstate hstage)
    have hdevice : readDevice s.dict.header s.device = device s.dict.header := by rw [readDevice, hstate]
    refine congrArg Host.Outcome.next (hends.trans ?_)
    show { s with
      device := readDevice s.dict.header s.device
      memory := { afterGrants .maint s.memory with inProgress := none } } = _
    rw [hdevice, ← show s.memory.inProgress = none from hm.1]
    rfl
  · obtain ⟨hsome, hwrites⟩ := stepWrites_startup hstate hstage
    refine congrArg Host.Outcome.next ((startupCompletes_sweep hstate hstage).trans ?_)
    rw [maintStep_quiet hm, hwrites, if_neg hsome]
    rfl
  · refine congrArg Host.Outcome.next ((startupCompletes_sweep hstate hstage).trans ?_)
    rw [maintStep_made hw hleft]
    rfl
  · exact congrArg Host.Outcome.next ((startupCompletes_sweep hstate hstage).trans (maintStep_waits hw hleft hbusy))
  · refine congrArg Host.Outcome.next ((startupCompletes_done hstate hstage).trans ?_)
    rw [becomeReady, ← hstage]

end Sys2Proof.Proofs
end
